-- ==== Sys2Proof/Word.lean ====
section
/-! DEFINITION. The two widths of TC-CORE: a command word, pixel or register word is a u16, a bus or display byte a u8
(00_scope.md R8, R11). -/

namespace Sys2Proof

/-- A u16: a word of a command or result frame, a colour, a sensor register word (R8, R110). -/
abbrev Word := BitVec 16

/-- A u8: a byte on the two-wire bus or on the display link (R8). -/
abbrev Byte := BitVec 8

end Sys2Proof
end

