-- ==== Sys2Proof/Machine/Bits.lean ====
section
/-! DEFINITION. Bit fields, sign reading, byte order and byte packing (00_scope.md R10, R11; 20_memory.md R83;
30_encoding.md R112, R113). -/

namespace Sys2Proof

/-- `hi(w) = w[15:8]` (R11). -/
def hi (w : Word) : Byte := w.extractLsb' 8 8

/-- `lo(w) = w[7:0]` (R11). -/
def lo (w : Word) : Byte := w.extractLsb' 0 8

/-- `{h, l}`: h above l (R10). -/
def cat (h l : Byte) : Word := BitVec.append h l

/-- `sext_16(w)`: the word read as an s16 (R11, R112). -/
def sext16 (w : Word) : Int := w.toInt

/-- An integer as the two's-complement word that carries it; used only where a rule makes it fit (R11). -/
def wordOfInt (i : Int) : Word := BitVec.ofInt 16 i

/-- A natural number as a u16; used only where a rule makes it fit (R11). -/
def wordOfNat (n : Nat) : Word := BitVec.ofNat 16 n

/-- `ceil(N/2) = (N + 1) div 2`, the operand words of an N-byte array (R113, R117). -/
def ceilHalf (n : Nat) : Nat := (n + 1) / 2

/-- The bits of a byte, most significant first: the order on the bus (R10, R124). -/
def bitsMsbFirst (b : Byte) : List Bool :=
  [b.getLsbD 7, b.getLsbD 6, b.getLsbD 5, b.getLsbD 4, b.getLsbD 3, b.getLsbD 2, b.getLsbD 1, b.getLsbD 0]

/-- A word array on a byte-wide wire: each word high byte first (R83, R128). -/
def bytesOfWords (ws : List Word) : List Byte := ws.flatMap fun w => [hi w, lo w]

/-- The N bytes of a packed array: word j holds `{b[2j], b[2j+1]}` (R113). -/
def unpackBytes (n : Word) (ws : List Word) : List Byte := (bytesOfWords ws).take n.toNat

/-- Bytes packed two to a word, first byte high, with a zero pad byte for an odd count (R113). -/
def packBytes : List Byte → List Word
  | [] => []
  | [b] => [cat b 0#8]
  | b :: c :: rest => cat b c :: packBytes rest

/-- The pad byte of an N-byte array is zero: for odd N, bits 7:0 of its last word (R113). -/
def padIsZero (n : Word) (ws : List Word) : Bool :=
  n.toNat % 2 == 0 || lo (ws.getD (n.toNat / 2) 0#16) == 0#8

end Sys2Proof
end

