-- ==== Sys2Proof/Syntax.lean ====
section
/-! DEFINITION. The 22 commands of TC-CORE-CMD 1.0 with their operand words as the frame carries them
(30_encoding.md R110, R117). -/

namespace Sys2Proof

/-- One command. Operands are raw u16 words in frame order; `hold` is the H flag, `transp` the T flag (R110, R120);
a packed byte array stays in its operand words, pad byte included (R113). Ranges are checked by the meanings,
not here (R115: the range checks follow decoding). -/
inductive Instr where
  /-- PIX.PACK R, G, B (R160). -/
  | pixPack (r g b : Word)
  /-- PIX.UNPACK C (R161). -/
  | pixUnpack (c : Word)
  /-- BUS.INIT (R191). -/
  | busInit
  /-- BUS.WRITE[.H] A, N, bytes (R193). -/
  | busWrite (hold : Bool) (a n : Word) (data : List Word)
  /-- BUS.READ[.H] A, N (R195). -/
  | busRead (hold : Bool) (a n : Word)
  /-- REG.READW A, START, COUNT (R231). -/
  | regReadw (a start count : Word)
  /-- REG.WRITEW A, ADDR, VALUE (R232). -/
  | regWritew (a addr value : Word)
  /-- DL.INIT (R270). -/
  | dlInit
  /-- DL.CMD CODE (R264). -/
  | dlCmd (code : Word)
  /-- DL.DATA N, bytes (R265). -/
  | dlData (n : Word) (data : List Word)
  /-- DL.WORDS N, words (R266). -/
  | dlWords (n : Word) (words : List Word)
  /-- DL.WINDOW X0, Y0, X1, Y1 (R267). -/
  | dlWindow (x0 y0 x1 y1 : Word)
  /-- FB.PIXEL X, Y, C (R302). -/
  | fbPixel (x y c : Word)
  /-- FB.GETPIXEL X, Y (R303). -/
  | fbGetpixel (x y : Word)
  /-- FB.RECT X0, Y0, X1, Y1, C (R310). -/
  | fbRect (x0 y0 x1 y1 c : Word)
  /-- FB.LINE X0, Y0, X1, Y1, C (R320). -/
  | fbLine (x0 y0 x1 y1 c : Word)
  /-- FB.CIRCLE CX, CY, R, C (R330). -/
  | fbCircle (cx cy r c : Word)
  /-- FB.FLUSH (R340). -/
  | fbFlush
  /-- FB.CHAR[.T] X, Y, CH, FG, BG (R361). -/
  | fbChar (transp : Bool) (x y ch fg bg : Word)
  /-- FB.TEXT[.T] X, Y, FG, BG, N, characters (R362). -/
  | fbText (transp : Bool) (x y fg bg n : Word) (chars : List Word)
  /-- MAP.CONFIG AX, AY, BX, BY (R380). -/
  | mapConfig (ax ay bx byy : Word)
  /-- MAP.POINT ROW, COL (R384). -/
  | mapPoint (row col : Word)
  deriving DecidableEq, Repr

end Sys2Proof
end

