-- ==== Sys2Proof/WellFormed.lean ====
section
/-! DEFINITION. When a command is one a legal frame carries: its array has the length its count operand says, and its
LEN fits the LEN word (30_encoding.md R113, R114, R117; 92_eei_decisions.md D58). -/

namespace Sys2Proof

/-- The array operands agree with the count operand N, and LEN is a u16 (R113, R114). The other commands are
well-formed whatever their words are. -/
def Instr.wf : Instr → Bool
  | .pixPack _ _ _ => true
  | .pixUnpack _ => true
  | .busInit => true
  | .busWrite _ _ n data => data.length == ceilHalf n.toNat
  | .busRead _ _ _ => true
  | .regReadw _ _ _ => true
  | .regWritew _ _ _ => true
  | .dlInit => true
  | .dlCmd _ => true
  | .dlData n data => data.length == ceilHalf n.toNat
  | .dlWords n words => words.length == n.toNat && n.toNat ≤ 65534
  | .dlWindow _ _ _ _ => true
  | .fbPixel _ _ _ => true
  | .fbGetpixel _ _ => true
  | .fbRect _ _ _ _ _ => true
  | .fbLine _ _ _ _ _ => true
  | .fbCircle _ _ _ _ => true
  | .fbFlush => true
  | .fbChar _ _ _ _ _ _ => true
  | .fbText _ _ _ _ _ n chars => chars.length == ceilHalf n.toNat
  | .mapConfig _ _ _ _ => true
  | .mapPoint _ _ => true

end Sys2Proof
end

