-- ==== Sys2Proof/Decode.lean ====
section
/-! DEFINITION. The command frame: its fields, the opcode map, decoding, and the encoder
(30_encoding.md R110, R112-R118). -/

namespace Sys2Proof

/-- The assigned opcodes of TC-CORE-CMD 1.0 (R117). -/
inductive Opcode where
  | pixPack | pixUnpack
  | busInit | busWrite | busRead
  | regReadw | regWritew
  | dlInit | dlCmd | dlData | dlWords | dlWindow
  | fbPixel | fbGetpixel | fbRect | fbLine | fbCircle | fbFlush | fbChar | fbText
  | mapConfig | mapPoint
  deriving DecidableEq, Repr

/-- Why a frame is illegal, in the order the block looks (R115, R118, R402). Every reason ends the command with
ERR_ILLEGAL_CMD; the names are the model's. -/
inductive DecodeError where
  /-- Not LEN + 2 words: not a command frame at all (R110); the command port never hands one over. -/
  | notAFrame
  /-- RSV, bits 15:9 of the header, is not 0. -/
  | reservedBits
  /-- The opcode is not in the table of R117. -/
  | unknownOpcode
  /-- F = 1 on an opcode that has no flag. -/
  | flagNotAllowed
  /-- LEN is not the required one, or too short to hold N. -/
  | wrongLen
  deriving DecidableEq, Repr

/-- Every assigned opcode, in the table's order (R117). -/
def Opcode.all : List Opcode :=
  [.pixPack, .pixUnpack, .busInit, .busWrite, .busRead, .regReadw, .regWritew, .dlInit, .dlCmd, .dlData, .dlWords,
   .dlWindow, .fbPixel, .fbGetpixel, .fbRect, .fbLine, .fbCircle, .fbFlush, .fbChar, .fbText, .mapConfig, .mapPoint]

/-- The OP column of R117. -/
def Opcode.code : Opcode → Byte
  | .pixPack => 0x01#8
  | .pixUnpack => 0x02#8
  | .busInit => 0x10#8
  | .busWrite => 0x11#8
  | .busRead => 0x12#8
  | .regReadw => 0x20#8
  | .regWritew => 0x21#8
  | .dlInit => 0x30#8
  | .dlCmd => 0x31#8
  | .dlData => 0x32#8
  | .dlWords => 0x33#8
  | .dlWindow => 0x34#8
  | .fbPixel => 0x40#8
  | .fbGetpixel => 0x41#8
  | .fbRect => 0x42#8
  | .fbLine => 0x43#8
  | .fbCircle => 0x44#8
  | .fbFlush => 0x45#8
  | .fbChar => 0x48#8
  | .fbText => 0x49#8
  | .mapConfig => 0x50#8
  | .mapPoint => 0x51#8

/-- The F column of R117: H for the bus transfers, T for text; 0 elsewhere. -/
def Opcode.hasFlag : Opcode → Bool
  | .busWrite | .busRead | .fbChar | .fbText => true
  | .pixPack | .pixUnpack | .busInit | .regReadw | .regWritew | .dlInit | .dlCmd | .dlData | .dlWords | .dlWindow
  | .fbPixel | .fbGetpixel | .fbRect | .fbLine | .fbCircle | .fbFlush | .mapConfig | .mapPoint => false

/-- The opcode of an OP byte, none when it is reserved (R117, R118). -/
def opcodeOf (b : Byte) : Option Opcode := Opcode.all.find? fun o => o.code == b

/-- OP, header bits 7:0 (R110). -/
def opOf (header : Word) : Byte := header.extractLsb' 0 8

/-- F, header bit 8 (R110). -/
def flagOf (header : Word) : Bool := header.getLsbD 8

/-- RSV, header bits 15:9 (R110). -/
def rsvOf (header : Word) : BitVec 7 := header.extractLsb' 9 7

/-- The LEN column of R117 for the operand words received; none when they are too few to hold N (R114, R115). -/
def Opcode.requiredLen (o : Opcode) (ops : List Word) : Option Nat :=
  match o with
  | .pixPack => some 3
  | .pixUnpack => some 1
  | .busInit => some 0
  | .busWrite => (ops[1]?).map fun n => 2 + ceilHalf n.toNat
  | .busRead => some 2
  | .regReadw => some 3
  | .regWritew => some 3
  | .dlInit => some 0
  | .dlCmd => some 1
  | .dlData => (ops[0]?).map fun n => 1 + ceilHalf n.toNat
  | .dlWords => (ops[0]?).map fun n => 1 + n.toNat
  | .dlWindow => some 4
  | .fbPixel => some 3
  | .fbGetpixel => some 2
  | .fbRect => some 5
  | .fbLine => some 5
  | .fbCircle => some 4
  | .fbFlush => some 0
  | .fbChar => some 5
  | .fbText => (ops[4]?).map fun n => 5 + ceilHalf n.toNat
  | .mapConfig => some 4
  | .mapPoint => some 2

/-- The command an opcode, its flag and its operand words make; none when the operand words do not fit (R117). -/
def Opcode.build (o : Opcode) (f : Bool) (ops : List Word) : Option Instr :=
  match o with
  | .pixPack => match ops with | [r, g, b] => some (.pixPack r g b) | _ => none
  | .pixUnpack => match ops with | [c] => some (.pixUnpack c) | _ => none
  | .busInit => match ops with | [] => some .busInit | _ => none
  | .busWrite => match ops with | a :: n :: data => some (.busWrite f a n data) | _ => none
  | .busRead => match ops with | [a, n] => some (.busRead f a n) | _ => none
  | .regReadw => match ops with | [a, start, count] => some (.regReadw a start count) | _ => none
  | .regWritew => match ops with | [a, addr, value] => some (.regWritew a addr value) | _ => none
  | .dlInit => match ops with | [] => some .dlInit | _ => none
  | .dlCmd => match ops with | [code] => some (.dlCmd code) | _ => none
  | .dlData => match ops with | n :: data => some (.dlData n data) | _ => none
  | .dlWords => match ops with | n :: words => some (.dlWords n words) | _ => none
  | .dlWindow => match ops with | [x0, y0, x1, y1] => some (.dlWindow x0 y0 x1 y1) | _ => none
  | .fbPixel => match ops with | [x, y, c] => some (.fbPixel x y c) | _ => none
  | .fbGetpixel => match ops with | [x, y] => some (.fbGetpixel x y) | _ => none
  | .fbRect => match ops with | [x0, y0, x1, y1, c] => some (.fbRect x0 y0 x1 y1 c) | _ => none
  | .fbLine => match ops with | [x0, y0, x1, y1, c] => some (.fbLine x0 y0 x1 y1 c) | _ => none
  | .fbCircle => match ops with | [cx, cy, r, c] => some (.fbCircle cx cy r c) | _ => none
  | .fbFlush => match ops with | [] => some .fbFlush | _ => none
  | .fbChar => match ops with | [x, y, ch, fg, bg] => some (.fbChar f x y ch fg bg) | _ => none
  | .fbText => match ops with | x :: y :: fg :: bg :: n :: chars => some (.fbText f x y fg bg n chars) | _ => none
  | .mapConfig => match ops with | [ax, ay, bx, byy] => some (.mapConfig ax ay bx byy) | _ => none
  | .mapPoint => match ops with | [row, col] => some (.mapPoint row col) | _ => none

/-- Decoding of the words of one frame, total, rejecting by name in the order of R115. -/
def decode : List Word → Except DecodeError Instr
  | header :: len :: ops =>
    if ops.length ≠ len.toNat then .error .notAFrame
    else if rsvOf header ≠ 0#7 then .error .reservedBits
    else
      match opcodeOf (opOf header) with
      | none => .error .unknownOpcode
      | some o =>
        if flagOf header && !o.hasFlag then .error .flagNotAllowed
        else if o.requiredLen ops ≠ some len.toNat then .error .wrongLen
        else
          match o.build (flagOf header) ops with
          | some i => .ok i
          | none => .error .wrongLen
  | _ => .error .notAFrame

/-- The opcode of a command (R117). -/
def Instr.opcode : Instr → Opcode
  | .pixPack _ _ _ => .pixPack
  | .pixUnpack _ => .pixUnpack
  | .busInit => .busInit
  | .busWrite _ _ _ _ => .busWrite
  | .busRead _ _ _ => .busRead
  | .regReadw _ _ _ => .regReadw
  | .regWritew _ _ _ => .regWritew
  | .dlInit => .dlInit
  | .dlCmd _ => .dlCmd
  | .dlData _ _ => .dlData
  | .dlWords _ _ => .dlWords
  | .dlWindow _ _ _ _ => .dlWindow
  | .fbPixel _ _ _ => .fbPixel
  | .fbGetpixel _ _ => .fbGetpixel
  | .fbRect _ _ _ _ _ => .fbRect
  | .fbLine _ _ _ _ _ => .fbLine
  | .fbCircle _ _ _ _ => .fbCircle
  | .fbFlush => .fbFlush
  | .fbChar _ _ _ _ _ _ => .fbChar
  | .fbText _ _ _ _ _ _ _ => .fbText
  | .mapConfig _ _ _ _ => .mapConfig
  | .mapPoint _ _ => .mapPoint

/-- The flag bit of a command: H or T where it has one, else 0 (R110, R120). -/
def Instr.flag : Instr → Bool
  | .busWrite hold _ _ _ => hold
  | .busRead hold _ _ => hold
  | .fbChar transp _ _ _ _ _ => transp
  | .fbText transp _ _ _ _ _ _ => transp
  | .pixPack _ _ _ | .pixUnpack _ | .busInit | .regReadw _ _ _ | .regWritew _ _ _ | .dlInit | .dlCmd _ | .dlData _ _
  | .dlWords _ _ | .dlWindow _ _ _ _ | .fbPixel _ _ _ | .fbGetpixel _ _ | .fbRect _ _ _ _ _ | .fbLine _ _ _ _ _
  | .fbCircle _ _ _ _ | .fbFlush | .mapConfig _ _ _ _ | .mapPoint _ _ => false

/-- The operand words of a command, in the order of R117. -/
def Instr.operands : Instr → List Word
  | .pixPack r g b => [r, g, b]
  | .pixUnpack c => [c]
  | .busInit => []
  | .busWrite _ a n data => a :: n :: data
  | .busRead _ a n => [a, n]
  | .regReadw a start count => [a, start, count]
  | .regWritew a addr value => [a, addr, value]
  | .dlInit => []
  | .dlCmd code => [code]
  | .dlData n data => n :: data
  | .dlWords n words => n :: words
  | .dlWindow x0 y0 x1 y1 => [x0, y0, x1, y1]
  | .fbPixel x y c => [x, y, c]
  | .fbGetpixel x y => [x, y]
  | .fbRect x0 y0 x1 y1 c => [x0, y0, x1, y1, c]
  | .fbLine x0 y0 x1 y1 c => [x0, y0, x1, y1, c]
  | .fbCircle cx cy r c => [cx, cy, r, c]
  | .fbFlush => []
  | .fbChar _ x y ch fg bg => [x, y, ch, fg, bg]
  | .fbText _ x y fg bg n chars => x :: y :: fg :: bg :: n :: chars
  | .mapConfig ax ay bx byy => [ax, ay, bx, byy]
  | .mapPoint row col => [row, col]

/-- The header word: RSV = 0 in 15:9, F in 8, OP in 7:0 (R110). -/
def headerWord (o : Opcode) (f : Bool) : Word :=
  BitVec.append (BitVec.append 0#7 (BitVec.ofBool f)) o.code

/-- The frame of a command: header, LEN, operand words (R110, R117). -/
def encode (i : Instr) : List Word :=
  headerWord i.opcode i.flag :: wordOfNat i.operands.length :: i.operands

/-- LEN of an opcode when every operand word, a count N among them, is 0 (R117). -/
def Opcode.zeroLen (o : Opcode) : Nat :=
  (o.requiredLen (List.replicate 5 0#16)).getD 0

/-- Word j of an instruction numbered as spec/opcode_table.json numbers it, of which only the low nbits bits are
given. -/
def tableWord (nbits w j : Nat) : Word := wordOfNat ((w % 2 ^ nbits) / 2 ^ (16 * j))

/-- The frame that stands for a table row's bits: word 0 the header; LEN from word 1 when the bits given reach it,
else the row's own LEN for operand words of zeros (R117; log 5); then LEN operand words. -/
def tableFrame (nbits w : Nat) : List Word :=
  let header := tableWord nbits w 0
  let len : Word :=
    if nbits ≤ 16 then
      match opcodeOf (opOf header) with
      | some o => wordOfNat o.zeroLen
      | none => 0#16
    else tableWord nbits w 1
  header :: len :: (List.range len.toNat).map fun j => tableWord nbits w (j + 2)

/-- The command the decoder reads from a table row's bits. -/
def decodeTableWord (nbits w : Nat) : Option Instr := (decode (tableFrame nbits w)).toOption

end Sys2Proof
end

