-- ==== Sys2Proof/Config.lean ====
section
/-! DEFINITION. The implementation parameters of 00_scope.md R9, what makes a configuration admitted, and the free
values. -/

namespace Sys2Proof

/-- CLIP_MODE (R9, 44_framebuffer.md R301). -/
inductive ClipMode where
  | clamp | discard
  deriving DecidableEq, Repr, Inhabited

/-- READ_FINAL_ACK (R9, 41_transport.md R196). -/
inductive ReadFinalAck where
  | nackLast | ackAll | omitLast
  deriving DecidableEq, Repr, Inhabited

/-- PIXEL_ORDER (R9, 43_display_link.md R268). -/
inductive PixelOrder where
  | rowMajor | columnMajor
  deriving DecidableEq, Repr, Inhabited

/-- CIRCLE_SET (R9, 44_framebuffer.md R331): the exact disc, or the offsets of each radius 0, 1, 2, ... listed as plain
data; a radius past the list has the exact disc. A radius is an s16, so every admitted CIRCLE_SET can be listed
(log 8). -/
inductive CircleSet where
  | disk
  | listed (offsets : List (List (Int × Int)))
  deriving DecidableEq, Repr, Inhabited

/-- The parameters of R9. A field with a default has the spec's default; a field without one is OPEN. Widths, heights
and counts are natural numbers, in pixels, polls, attempts and words as R9 names them. DESIGN CHOICE, safe (log 18): R9
asks of T_SWRESET to T_DISPON and of T_HALF only that they are > 0 and gives neither their unit nor their number domain;
the model has natural numbers, of a unit it does not name. No rule reads them or `timeoutPolls`. -/
structure Config where
  /-- W -/
  width : Nat
  /-- H -/
  height : Nat
  /-- CELL_W -/
  cellW : Nat
  /-- CELL_H -/
  cellH : Nat
  /-- CLIP_MODE -/
  clipMode : ClipMode := .clamp
  /-- CIRCLE_SET -/
  circleSet : CircleSet := .disk
  /-- FILLRECT_MAY_FAIL -/
  fillrectMayFail : Bool := true
  /-- GLYPH_W -/
  glyphW : Nat
  /-- GLYPH_H -/
  glyphH : Nat
  /-- ADVANCE -/
  advance : Nat
  /-- FONT, `font[ch][j][i]`; what is not listed is a 0 bit (45_text.md R360; log 9) -/
  font : List (List (List Bool))
  /-- MAX_ATTEMPTS -/
  maxAttempts : Nat := 5
  /-- TIMEOUT_POLLS -/
  timeoutPolls : Nat
  /-- READ_FINAL_ACK -/
  readFinalAck : ReadFinalAck := .nackLast
  /-- MAX_READ_WORDS -/
  maxReadWords : Nat := 32767
  /-- CMD_SWRESET -/
  cmdSwreset : Byte := 0x01#8
  /-- CMD_SLPOUT -/
  cmdSlpout : Byte := 0x11#8
  /-- CMD_COLMOD -/
  cmdColmod : Byte := 0x3A#8
  /-- CMD_MADCTL -/
  cmdMadctl : Byte := 0x36#8
  /-- CMD_INVON -/
  cmdInvon : Byte := 0x21#8
  /-- CMD_NORON -/
  cmdNoron : Byte := 0x13#8
  /-- CMD_DISPON -/
  cmdDispon : Byte := 0x29#8
  /-- CMD_CASET -/
  cmdCaset : Byte := 0x2A#8
  /-- CMD_RASET -/
  cmdRaset : Byte := 0x2B#8
  /-- CMD_RAMWR -/
  cmdRamwr : Byte := 0x2C#8
  /-- COLMOD_VALUE -/
  colmodValue : Byte := 0x55#8
  /-- MADCTL_VALUE -/
  madctlValue : Byte
  /-- T_SWRESET -/
  tSwreset : Nat
  /-- T_SLPOUT -/
  tSlpout : Nat
  /-- T_COLMOD -/
  tColmod : Nat
  /-- T_MADCTL -/
  tMadctl : Nat
  /-- T_INVON -/
  tInvon : Nat
  /-- T_NORON -/
  tNoron : Nat
  /-- T_DISPON -/
  tDispon : Nat
  /-- PIXEL_ORDER -/
  pixelOrder : PixelOrder := .rowMajor
  /-- DC_CMD_LEVEL -/
  dcCmdLevel : Bool := false
  /-- CS_ACTIVE_LEVEL -/
  csActiveLevel : Bool := false
  /-- SENSOR_MAX_ROW -/
  sensorMaxRow : Nat
  /-- SENSOR_MAX_COL -/
  sensorMaxCol : Nat
  /-- T_HALF -/
  tHalf : Nat
  deriving DecidableEq, Repr, Inhabited

/-- GW = W div CELL_W (R9). -/
def Config.gridW (c : Config) : Nat := c.width / c.cellW

/-- GH = H div CELL_H (R9). -/
def Config.gridH (c : Config) : Nat := c.height / c.cellH

/-- The number of dirty cells, GW*GH (R9). -/
def Config.cells (c : Config) : Nat := c.gridW * c.gridH

/-- P2 and P3 of 44_framebuffer.md R331 for the offsets listed for radius r; P1 holds because only r selects them. -/
abbrev circleOffsetsAdmitted (r : Nat) (offsets : List (Int × Int)) : Prop :=
  (0, 0) ∈ offsets ∧ ∀ d ∈ offsets, d.1 * d.1 + d.2 * d.2 ≤ ((r : Int) + 1) * ((r : Int) + 1)

/-- The listed offsets with their radius; none for the exact disc. -/
def CircleSet.rows : CircleSet → List (List (Int × Int) × Nat)
  | .disk => []
  | .listed offsets => offsets.zipIdx

/-- An admitted CIRCLE_SET (R331). The exact disc is one (R332). -/
abbrev CircleSet.Admitted (c : CircleSet) : Prop := ∀ p ∈ c.rows, circleOffsetsAdmitted p.2 p.1

/-- The constraint column of R9, row by row. -/
abbrev Config.Admitted (c : Config) : Prop :=
  (1 ≤ c.width ∧ c.width ≤ 32767) ∧
  (1 ≤ c.height ∧ c.height ≤ 32767) ∧
  (1 ≤ c.cellW ∧ c.width % c.cellW = 0) ∧
  (1 ≤ c.cellH ∧ c.height % c.cellH = 0) ∧
  c.gridW * c.gridH ≤ 65535 ∧
  c.circleSet.Admitted ∧
  1 ≤ c.glyphW ∧ 1 ≤ c.glyphH ∧ c.glyphW ≤ c.advance ∧
  1 ≤ c.maxAttempts ∧ 1 ≤ c.timeoutPolls ∧
  (1 ≤ c.maxReadWords ∧ c.maxReadWords ≤ 32767) ∧
  (0 < c.tSwreset ∧ 0 < c.tSlpout ∧ 0 < c.tColmod ∧ 0 < c.tMadctl ∧ 0 < c.tInvon ∧ 0 < c.tNoron ∧ 0 < c.tDispon) ∧
  (1 ≤ c.sensorMaxRow ∧ 1 ≤ c.sensorMaxCol) ∧
  0 < c.tHalf

/-- A configuration a machine is built with. One that breaks a constraint has no machine (R9), so the constraints come
with the data. -/
abbrev Board : Type := { c : Config // c.Admitted }

/-- CFG-S with FONT-T and the mapper extent of 95_test_vectors.md section 0, MADCTL_VALUE = 0x00, and 1 for each
quantity no rule reads. -/
def Config.small : Config where
  width := 8
  height := 4
  cellW := 4
  cellH := 2
  glyphW := 3
  glyphH := 3
  advance := 4
  font :=
    List.replicate 0x2E [] ++
    [[[false, false, false], [false, false, false], [false, true, false]]] ++
    List.replicate 0x12 [] ++
    [[[false, true, false], [true, true, true], [true, false, true]],
     [[true, true, false], [true, true, true], [true, true, false]]]
  timeoutPolls := 1
  madctlValue := 0x00#8
  tSwreset := 1
  tSlpout := 1
  tColmod := 1
  tMadctl := 1
  tInvon := 1
  tNoron := 1
  tDispon := 1
  sensorMaxRow := 2
  sensorMaxCol := 3
  tHalf := 1

/-- CFG-S as a board. -/
def Board.small : Board := ⟨Config.small, by decide⟩

/-- The parameters R9 leaves OPEN: no body, so nothing can be proved of them (log 1). Only the OPEN fields are read. -/
opaque Config.opens : Config

/-- The OPEN parameters of `o` beside the spec's defaults (R9). -/
def Config.withDefaults (o : Config) : Config where
  width := o.width
  height := o.height
  cellW := o.cellW
  cellH := o.cellH
  glyphW := o.glyphW
  glyphH := o.glyphH
  advance := o.advance
  font := o.font
  timeoutPolls := o.timeoutPolls
  madctlValue := o.madctlValue
  tSwreset := o.tSwreset
  tSlpout := o.tSlpout
  tColmod := o.tColmod
  tMadctl := o.tMadctl
  tInvon := o.tInvon
  tNoron := o.tNoron
  tDispon := o.tDispon
  sensorMaxRow := o.sensorMaxRow
  sensorMaxCol := o.sensorMaxCol
  tHalf := o.tHalf

/-- The board of the reset state: any admitted choice of the OPEN parameters with the spec's defaults (log 1). CFG-S
stands in only where the opaque choice breaks a constraint, where R9 gives no machine. -/
def Board.opens : Board :=
  if h : (Config.withDefaults Config.opens).Admitted then ⟨Config.withDefaults Config.opens, h⟩ else Board.small

/-- DESIGN CHOICE, safe (log 2). The free answer of the n-th draw when it is a SclHigh (41_transport.md R182, R185). -/
opaque Config.freeSclHigh : Nat → Bool

/-- DESIGN CHOICE, safe (log 2). The free answer of the n-th draw when it is a SdaHigh (R184, R185). -/
opaque Config.freeSdaHigh : Nat → Bool

/-- DESIGN CHOICE, safe (log 2). The free answer of the n-th draw when it is a SdaLevel (R183, R185). -/
opaque Config.freeSdaLevel : Nat → Bool

/-- DESIGN CHOICE, safe (log 2). The free answer of the n-th draw when it is an AllocFails (44_framebuffer.md R311). -/
opaque Config.freeAllocFails : Nat → Bool

/-- DESIGN CHOICE, safe (log 7). The result word MAX_ATTEMPTS of 42_register_access.md R230 when the parameter does not
fit a u16: the spec states no value. -/
opaque Config.freeAttemptsWord : Nat → Word

end Sys2Proof
end

