-- ==== Sys2Proof/Machine/State.lean ====
section
/-! DEFINITION. The state of TC-CORE, its events, status codes and result frames, the agents on its ports, and the
reset state (10_state.md; 70_reset_and_hazards.md R450-R452). -/

namespace Sys2Proof.Machine

/-- An open-drain line driver: released, or pulling low (10_state.md R34, R35). -/
inductive Drive where
  | rel | low
  deriving DecidableEq, Repr

/-- The command/data select line (R38). -/
inductive Dc where
  | cmd | data
  deriving DecidableEq, Repr

/-- The chip-select line (R39). -/
inductive Cs where
  | on | off
  deriving DecidableEq, Repr

/-- mapRot: 0, 90, 180 or 270 degrees (R45). -/
inductive Rot where
  | r0 | r90 | r180 | r270
  deriving DecidableEq, Repr

/-- A pair of s16 display coordinates (R45). -/
structure Point where
  x : Word
  y : Word
  deriving DecidableEq, Repr

/-- The named settle delays of DL.INIT (43_display_link.md R270). -/
inductive DelayName where
  | tSwreset | tSlpout | tColmod | tMadctl | tInvon | tNoron | tDispon
  deriving DecidableEq, Repr

/-- An event of the output trace (00_scope.md R15). A sampled bit is `true` for 1. -/
inductive Event where
  | sdaLo | sdaRel | sclLo | sclRel
  | sample (b : Bool)
  | waitSda
  | dc (d : Dc)
  | csOn | csOff
  | byte (b : Byte)
  | delay (name : DelayName)
  deriving DecidableEq, Repr

/-- The status of a result frame (60_exceptions.md R400). -/
inductive Status where
  | ok
  | nackAddr
  | nackData
  | timeout
  | retryExhausted
  | illegalCmd
  | badArg
  | alloc
  | config
  deriving DecidableEq, Repr

/-- What a command returns: its status and its result words (30_encoding.md R111). -/
structure Reply where
  status : Status
  words : List Word
  deriving DecidableEq, Repr

/-- A memory of the block as (index, value) pairs; what an unlisted index reads as is said where it is read
(20_memory.md R81; log 10). -/
abbrev Memory (α : Type) : Type := List (Nat × α)

/-- The four inputs a command draws from its environment (41_transport.md R182-R184, 44_framebuffer.md R311). -/
inductive Draw where
  | sclHigh | sdaHigh | sdaLevel | allocFails
  deriving DecidableEq, Repr

/-- Where the reference target stands inside a transfer (42_register_access.md R250; log 14). -/
inductive Phase where
  /-- Not addressed: the bus is ignored until the next start. -/
  | ignore
  /-- `n` bits of the address byte are in, their value is `acc`. -/
  | recvAddr (n acc : Nat)
  /-- The acknowledgment clock of an ACKed address byte; `read` is its direction bit. -/
  | ackAddr (read : Bool)
  /-- `n` bits of a data byte are in, their value is `acc`. -/
  | recvData (n acc : Nat)
  /-- The acknowledgment clock of an ACKed data byte. -/
  | ackData
  /-- Sending `b`, of which `n` bits have been clocked. -/
  | send (b : Byte) (n : Nat)
  /-- The controller's acknowledgment clock after a sent byte. -/
  | sendAck
  deriving DecidableEq, Repr

/-- The reference sensor target `TGT(T, M)` with its register memory and pointer (R250), and the counters of its faulty
variants BUSY, STRETCH and NACKBYTE (R251). `scl` and `sda` are the levels TWB drives, `true` released. -/
structure Target where
  addr : BitVec 7
  mem : Memory Word
  ptr : Word
  byteIdx : Nat
  hiLatch : Byte
  phase : Phase
  scl : Bool
  sda : Bool
  starts : Nat
  busy : Nat
  stretch : Nat
  nackByte : Option Nat
  deriving DecidableEq, Repr

/-- The sensor target agent on the two-wire bus: an oracle that answers the next draws as scripted and then freely
(41_transport.md R185), no target or a stuck one (R251), or the reference target (R250). -/
inductive Sensor where
  | oracle (answers : List Bool)
  | absent
  | stuck
  | device (t : Target)
  deriving DecidableEq, Repr

/-- The machine. -/
structure State where
  /-- The parameters (00_scope.md R9): the model's own field, written by no step (log 1). -/
  cfg : Board
  /-- The driver of SCL (R34). -/
  sclDrv : Drive
  /-- The driver of SDA (R35). -/
  sdaDrv : Drive
  /-- "bus initialized" (R36). -/
  busInit : Bool
  /-- The last transaction left the bus held (R37). -/
  busHeld : Bool
  /-- The command/data select line (R38). -/
  dcLine : Dc
  /-- The chip-select line (R39). -/
  csLine : Cs
  /-- "display initialized" (R40). -/
  dispInit : Bool
  /-- Frame (R41): an unlisted pixel is 0x0000. -/
  frame : Memory Word
  /-- Baseline (R42): an unlisted pixel is 0x0000. -/
  baseline : Memory Word
  /-- Dirty (R43): an unlisted flag is 1. -/
  dirty : Memory Bool
  /-- Stale (R52): an unlisted flag is 1. -/
  stale : Memory Bool
  /-- The mapper is configured (R45). -/
  mapValid : Bool
  /-- Anchor A (R45). -/
  mapA : Point
  /-- Anchor B (R45). -/
  mapB : Point
  /-- The rotation (R45). -/
  mapRot : Rot
  /-- The words presented at the command port that no command has taken, oldest first (R47). -/
  port : List Word
  /-- The result frames returned, oldest first (30_encoding.md R111; log 12). -/
  replies : List Reply
  /-- The output trace, oldest event first (00_scope.md R15; log 12). -/
  trace : List Event
  /-- The sensor target agent (R48, R50; log 2). -/
  sensor : Sensor
  /-- Scripted answers of the next AllocFails draws (44_framebuffer.md R311; log 2). -/
  alloc : List Bool
  /-- How many draws have been taken: the model's own field, the argument of the free values (log 2). -/
  drawn : Nat
  deriving DecidableEq, Repr

/-- TC-CORE never stops with a fault: every error is a status of a result frame, none is fatal (60_exceptions.md R403,
R412). So there is no constructor. -/
inductive Fault
  deriving DecidableEq, Repr

/-- Why the model would have no meaning for a command. -/
inductive Refusal where
  /-- Raised by `exec` alone, for a command without a meaning; no arm raises it. Safe: it claims nothing. -/
  | notModelled (mnemonic : String)
  deriving DecidableEq, Repr

/-- The reset state of the block with parameters `cfg` (70_reset_and_hazards.md R451). `dc` is the level of D/C, which
R38 leaves at any value. Every memory lists nothing: Frame and Baseline read 0x0000, Dirty and Stale read 1. The port,
the result frames and the trace are empty (R450, R452), and the draws are free (log 2). -/
def State.resetOf (cfg : Board) (dc : Dc) : State where
  cfg := cfg
  sclDrv := .rel
  sdaDrv := .rel
  busInit := false
  busHeld := false
  dcLine := dc
  csLine := .off
  dispInit := false
  frame := []
  baseline := []
  dirty := []
  stale := []
  mapValid := false
  mapA := ⟨0#16, 0#16⟩
  mapB := ⟨0#16, 0#16⟩
  mapRot := .r0
  port := []
  replies := []
  trace := []
  sensor := .oracle []
  alloc := []
  drawn := 0

/-- The machine right after reset (R450, R451), its OPEN parameters opaque (log 1). DESIGN CHOICE, unsafe (log 3): D/C is
at CMD. -/
def State.reset : State := State.resetOf Board.opens .cmd

end Sys2Proof.Machine
end

