-- ==== Sys2Proof/Machine/Flags.lean ====
section
/-! DEFINITION. TC-CORE has no flags (10_state.md R32); what other machines say with flags it says with the status word
of a result frame. This file gives that word and the result frame (60_exceptions.md R400; 30_encoding.md R111). -/

namespace Sys2Proof.Machine

/-- The code column of R400. -/
def Status.code : Status → Int
  | .ok => 0
  | .nackAddr => -1
  | .nackData => -2
  | .timeout => -3
  | .retryExhausted => -4
  | .illegalCmd => -5
  | .badArg => -6
  | .alloc => -7
  | .config => -8

/-- STATUS as the u16 sent, the two's complement of the code (R400, R111). -/
def Status.word (s : Status) : Word := wordOfInt s.code

/-- The result frame: STATUS, RLEN, then the result words (R111). -/
def Reply.frame (r : Reply) : List Word := r.status.word :: wordOfNat r.words.length :: r.words

/-- ROT as the u16 result word: 0, 90, 180 or 270 (46_mapper.md R380). -/
def Rot.word : Rot → Word
  | .r0 => 0#16
  | .r90 => 90#16
  | .r180 => 180#16
  | .r270 => 270#16

end Sys2Proof.Machine
end

