-- ==== Sys2Proof/Machine/Memory.lean ====
section
/-! DEFINITION. The memories of the block and of the reference target: lists of (index, value) pairs in one canonical form
(20_memory.md R80, R81, R86; log 10). -/

namespace Sys2Proof.Machine

/-- What index `a` of a memory holds; `d` where nothing is listed (log 10). -/
def Memory.read {α : Type} (d : α) : Memory α → Nat → α
  | [], _ => d
  | (b, w) :: m, a => if a = b then w else Memory.read d m a

/-- Insertion of an entry at its place in rising order. -/
def Memory.insert {α : Type} (a : Nat) (v : α) : Memory α → Memory α
  | [] => [(a, v)]
  | (b, w) :: m => if a < b then (a, v) :: (b, w) :: m else (b, w) :: Memory.insert a v m

/-- A write of `v` at index `a`, keeping the canonical form: writing `d`, what an unlisted index reads as, removes the
entry (log 10). -/
def Memory.write {α : Type} [DecidableEq α] (d : α) (m : Memory α) (a : Nat) (v : α) : Memory α :=
  let rest := m.filter fun e => e.1 ≠ a
  if v = d then rest else Memory.insert a v rest

/-- The canonical form: indices strictly rising, no entry equal to what an unlisted index reads as. -/
abbrev Memory.wf {α : Type} [DecidableEq α] (d : α) (m : Memory α) : Prop :=
  m.Pairwise (fun e f => e.1 < f.1) ∧ ∀ e ∈ m, e.2 ≠ d

end Sys2Proof.Machine
end

