-- ==== Sys2Proof/Machine/Sensor.lean ====
section
/-! DEFINITION. The environment on the two-wire bus: how the sensor target agent sees the lines and answers the draws
(41_transport.md R182-R185; 42_register_access.md R250, R251). None of it is part of the block: no rule of the block
reads it except through a draw. -/

namespace Sys2Proof.Machine

/-- Register `a` of the target's memory M; a register the target was not given reads 0x0000 (95_test_vectors.md). -/
def Target.reg (t : Target) (a : Word) : Word := t.mem.read 0#16 a.toNat

/-- Byte j of a read: even j the high byte of M[ptr], odd j the low byte (R250). -/
def Target.readByte (t : Target) : Byte :=
  if t.byteIdx % 2 = 0 then hi (t.reg t.ptr) else lo (t.reg t.ptr)

/-- The address byte is complete: ACKed iff its bits 7:1 are T and the target is not in the first BUSY(k) starts
(R250, R251). -/
def Target.addressed (t : Target) (v : Nat) : Target :=
  if v / 2 = t.addr.toNat ∧ t.busy < t.starts then { t with phase := .ackAddr (v % 2 = 1) }
  else { t with phase := .ignore }

/-- A data byte of a write is complete: bytes 0 and 1 set ptr, later pairs write M[ptr] and advance ptr (R250).
NACKBYTE(n) NACKs byte n once and drops it (R251; log 14). -/
def Target.written (t : Target) (b : Byte) : Target :=
  if t.nackByte = some t.byteIdx then { t with nackByte := none, phase := .ignore }
  else
    let t' :=
      if t.byteIdx = 0 then { t with ptr := cat b (lo t.ptr) }
      else if t.byteIdx = 1 then { t with ptr := cat (hi t.ptr) b }
      else if t.byteIdx % 2 = 0 then { t with hiLatch := b }
      else { t with mem := t.mem.write 0#16 t.ptr.toNat (cat t.hiLatch b), ptr := t.ptr + 1#16 }
    { t' with byteIdx := t.byteIdx + 1, phase := .ackData }

/-- A byte of a read has gone out: after an odd byte ptr advances (R250). -/
def Target.sent (t : Target) : Target :=
  { t with
    ptr := if t.byteIdx % 2 = 0 then t.ptr else t.ptr + 1#16
    byteIdx := t.byteIdx + 1
    phase := .sendAck }

/-- SCL rises: a bit is taken in (R250). -/
def Target.rise (t : Target) : Target :=
  let t := { t with scl := true }
  match t.phase with
  | .recvAddr n acc => { t with phase := .recvAddr (n + 1) (2 * acc + t.sda.toNat) }
  | .recvData n acc => { t with phase := .recvData (n + 1) (2 * acc + t.sda.toNat) }
  | .ignore | .ackAddr _ | .ackData | .send _ _ | .sendAck => t

/-- SCL falls: a byte of eight bits is complete, or an acknowledgment clock ends (R250). -/
def Target.fall (t : Target) : Target :=
  let t := { t with scl := false }
  match t.phase with
  | .ignore => t
  | .recvAddr n acc => if n = 8 then t.addressed acc else t
  | .ackAddr true => { t with phase := .send t.readByte 0 }
  | .ackAddr false => { t with phase := .recvData 0 0 }
  | .recvData n acc => if n = 8 then t.written (BitVec.ofNat 8 acc) else t
  | .ackData => { t with phase := .recvData 0 0 }
  | .send b n => if n = 7 then t.sent else { t with phase := .send b (n + 1) }
  | .sendAck => { t with phase := .send t.readByte 0 }

/-- What the target makes of one event: it sees the lines only. SDA falling while SCL is high is a start, SDA rising
while SCL is high a stop (41_transport.md R186, R187). -/
def Target.observe (t : Target) : Event → Target
  | .sdaLo =>
    if t.scl && t.sda then { t with sda := false, phase := .recvAddr 0 0, byteIdx := 0, starts := t.starts + 1 }
    else { t with sda := false }
  | .sdaRel => if t.scl && !t.sda then { t with sda := true, phase := .ignore } else { t with sda := true }
  | .sclRel => if t.scl then t else t.rise
  | .sclLo => if t.scl then t.fall else t
  | .sample _ | .waitSda | .dc _ | .csOn | .csOff | .byte _ | .delay _ => t

/-- The level of SDA the target's drive leaves: 0 while it acknowledges or sends a 0, else 1 (R250). -/
def Target.level (t : Target) : Bool :=
  match t.phase with
  | .ackAddr _ | .ackData => false
  | .send b n => b.getLsbD (7 - n)
  | .ignore | .recvAddr _ _ | .recvData _ _ | .sendAck => true

/-- `TGT(T, M)` at rest (R250), with BUSY(busy), STRETCH(stretch) and NACKBYTE where given (R251). DESIGN CHOICE,
unsafe for a claim that assumes the target (log 14): R250 gives no initial value of its pointer; it is 0x0000 here. -/
def Target.mk0 (addr : BitVec 7) (mem : Memory Word) (busy stretch : Nat) (nackByte : Option Nat) : Target where
  addr := addr
  mem := mem
  ptr := 0#16
  byteIdx := 0
  hiLatch := 0#8
  phase := .ignore
  scl := true
  sda := true
  starts := 0
  busy := busy
  stretch := stretch
  nackByte := nackByte

/-- The level of an open-drain line: 1 iff TWB and the target both release it (10_state.md R48). -/
def lineLevel (twbReleases targetReleases : Bool) : Bool := twbReleases && targetReleases

/-- The agent after an event of the block. -/
def Sensor.observe (e : Event) : Sensor → Sensor
  | .oracle answers => .oracle answers
  | .absent => .absent
  | .stuck => .stuck
  | .device t => .device (t.observe e)

/-- The free answer of draw number n (41_transport.md R185, 44_framebuffer.md R311; log 2). -/
def freeAnswer (n : Nat) : Draw → Bool
  | .sclHigh => Config.freeSclHigh n
  | .sdaHigh => Config.freeSdaHigh n
  | .sdaLevel => Config.freeSdaLevel n
  | .allocFails => Config.freeAllocFails n

/-- The agent's answer to a bus draw and the agent after it: an oracle's scripted answer, else the free one; no target
leaves both lines high, a stuck one never frees SDA (R251); the reference target stretches its first clocks, never sticks,
and drives its level (R250, R251). The answer for a stuck target's SdaLevel is the low SDA it holds. -/
def Sensor.answer (n : Nat) (d : Draw) : Sensor → Bool × Sensor
  | .oracle [] => (freeAnswer n d, .oracle [])
  | .oracle (b :: rest) => (b, .oracle rest)
  | .absent => (true, .absent)
  | .stuck =>
    match d with
    | .sclHigh => (true, .stuck)
    | .sdaHigh | .sdaLevel | .allocFails => (false, .stuck)
  | .device t =>
    match d with
    | .sclHigh => if t.stretch = 0 then (true, .device t) else (false, .device { t with stretch := t.stretch - 1 })
    | .sdaHigh | .allocFails => (true, .device t)
    | .sdaLevel => (lineLevel t.sda t.level, .device t)

end Sys2Proof.Machine
end

