-- ==== Sys2Proof/Machine/Ops.lean ====
section
/-! DEFINITION. The named operations over the state that the commands share: the command port, events, draws, the end of a
command (`return` and `raise`), the memories of the framebuffer, the plot primitive and the electrical levels
(00_scope.md R13, R14; 20_memory.md R80-R82; 44_framebuffer.md R300, R301). -/

namespace Sys2Proof.Machine

/-- The parameters (00_scope.md R9). -/
def State.par (s : State) : Config := s.cfg.val

/-! ## The command port (10_state.md R47) and the reset input (70_reset_and_hazards.md R450) -/

/-- The host presents words at the command port (R47). -/
def State.supply (ws : List Word) (s : State) : State := { s with port := s.port ++ ws }

/-- The first command frame in the port, LEN + 2 words, and the words after it; none while its words have not all
arrived (R47, 30_encoding.md R110). -/
def nextFrame : List Word → Option (List Word × List Word)
  | header :: len :: rest =>
    if len.toNat ≤ rest.length then some (header :: len :: rest.take len.toNat, rest.drop len.toNat) else none
  | _ => none

/-- The block takes a frame out of the port (R96). -/
def State.takeFrame (rest : List Word) (s : State) : State := { s with port := rest }

/-- The reset input, between two commands (R450, R451; log 13): the block is in its reset state with the same parameters;
the environment is not reset. -/
def State.assertReset (dc : Dc) (s : State) : State :=
  { State.resetOf s.cfg dc with sensor := s.sensor, alloc := s.alloc, drawn := s.drawn }

/-- The reset input during a command (R454; log 13): the command is abandoned and returns no result frame, and the reset
state applies. `sensor`, `alloc` and `drawn` are the environment as the abandoned command left it, which may be anywhere
in a byte. -/
def State.resetInCommand (dc : Dc) (sensor : Sensor) (alloc : List Bool) (drawn : Nat) (s : State) : State :=
  { State.resetOf s.cfg dc with sensor := sensor, alloc := alloc, drawn := drawn }

/-! ## Events and draws (00_scope.md R14, R15) -/

/-- `Emit(e)`: the event ends the trace, and the agent on the bus sees the lines. -/
def State.emit (e : Event) (s : State) : State :=
  { s with trace := s.trace ++ [e], sensor := s.sensor.observe e }

/-- Events of the display port, in order; the agent on the bus does not see them. -/
def State.emitDisplay (es : List Event) (s : State) : State := { s with trace := s.trace ++ es }

/-- A draw on the two-wire bus: SclHigh, SdaHigh or SdaLevel (41_transport.md R185). -/
def State.drawBus (d : Draw) (s : State) : Bool × State :=
  let r := s.sensor.answer s.drawn d
  (r.1, { s with sensor := r.2, drawn := s.drawn + 1 })

/-- The draw AllocFails (44_framebuffer.md R311). -/
def State.drawAlloc (s : State) : Bool × State :=
  match s.alloc with
  | [] => (freeAnswer s.drawn .allocFails, { s with drawn := s.drawn + 1 })
  | b :: rest => (b, { s with alloc := rest, drawn := s.drawn + 1 })

/-! ## The end of a command (00_scope.md R14)

TC-CORE has no exception entry and no return from one (60_exceptions.md R403, R404): `raise` ends the command with a
status and info words, no state is saved, and the next frame is taken as after an OK (R412). -/

/-- The command returns its result frame (30_encoding.md R111). -/
def State.reply (r : Reply) (s : State) : State := { s with replies := s.replies ++ [r] }

/-- `return (OK, words)`. -/
def State.finish (words : List Word) (s : State) : State := s.reply ⟨.ok, words⟩

/-- `raise E(info)`: what the command changed before stays as its rule says. -/
def State.raise (e : Status) (info : List Word) (s : State) : State := s.reply ⟨e, info⟩

/-- The outcome of every command: the next state (R412). -/
def ends (s : State) : Host.Outcome State Fault Refusal := .next s

/-! ## The framebuffer memories (20_memory.md R80-R82) -/

/-- `idx(x, y) = y*W + x` (R80). -/
def idx (c : Config) (x y : Nat) : Nat := y * c.width + x

/-- `cellOf(x, y) = (y div CELL_H)*GW + (x div CELL_W)` (R82). -/
def cellOf (c : Config) (x y : Nat) : Nat := (y / c.cellH) * c.gridW + x / c.cellW

/-- `MemRead(p, 1)` of the Frame memory (00_scope.md R13). -/
def State.frameAt (s : State) (p : Nat) : Word := s.frame.read 0#16 p

/-- `st.Baseline[p]`. -/
def State.baselineAt (s : State) (p : Nat) : Word := s.baseline.read 0#16 p

/-- `st.Dirty[k]`. -/
def State.dirtyAt (s : State) (k : Nat) : Bool := s.dirty.read true k

/-- `st.Stale[k]`. -/
def State.staleAt (s : State) (k : Nat) : Bool := s.stale.read true k

/-- `MemWrite(p, 1, c)` of the Frame memory. -/
def State.setFrame (p : Nat) (c : Word) (s : State) : State := { s with frame := s.frame.write 0#16 p c }

/-- `st.Baseline[p] <- c`. -/
def State.setBaseline (p : Nat) (c : Word) (s : State) : State := { s with baseline := s.baseline.write 0#16 p c }

/-- `st.Dirty[k] <- v`. -/
def State.setDirty (k : Nat) (v : Bool) (s : State) : State := { s with dirty := s.dirty.write true k v }

/-- `st.Stale[k] <- v`. -/
def State.setStale (k : Nat) (v : Bool) (s : State) : State := { s with stale := s.stale.write true k v }

/-! ## Clipping and the plot primitive (44_framebuffer.md R300, R301) -/

/-- `clamp(v, lo, hi) = min(max(v, lo), hi)` (00_scope.md R12). -/
def clamp (v low high : Int) : Int := min (max v low) high

/-- `clipPoint(x, y)`: the Frame pixel a point falls on, none when DISCARD drops it (R301). -/
def clipPoint (c : Config) (x y : Int) : Option (Nat × Nat) :=
  match c.clipMode with
  | .clamp => some ((clamp x 0 (c.width - 1)).toNat, (clamp y 0 (c.height - 1)).toNat)
  | .discard =>
    if 0 ≤ x ∧ x < c.width ∧ 0 ≤ y ∧ y < c.height then some (x.toNat, y.toNat) else none

/-- A write of a Frame pixel and its Classify step: the cell is marked when the colour differs from Baseline (R300). -/
def State.plotAt (q : Nat × Nat) (c : Word) (s : State) : State :=
  let p := idx s.par q.1 q.2
  let s := s.setFrame p c
  if c ≠ s.baselineAt p then s.setDirty (cellOf s.par q.1 q.2) true else s

/-- One call of PLOT: an unclipped point and its colour. -/
structure Plot where
  x : Int
  y : Int
  c : Word
  deriving DecidableEq, Repr

/-- `PLOT(x, y, c)` (R300). -/
def State.plot (s : State) (p : Plot) : State :=
  match clipPoint s.par p.x p.y with
  | none => s
  | some q => s.plotAt q p.c

/-- A sequence of PLOT calls, in order. -/
def State.plotAll (ps : List Plot) (s : State) : State := ps.foldl State.plot s

/-! ## Electrical levels (10_state.md R38, R39) -/

/-- The level of the D/C line: DC_CMD_LEVEL for CMD, its complement for DATA (R38). -/
def State.dcLevel (s : State) : Bool :=
  match s.dcLine with
  | .cmd => s.par.dcCmdLevel
  | .data => !s.par.dcCmdLevel

/-- The level of the chip-select line: CS_ACTIVE_LEVEL for ON, its complement for OFF (R39). -/
def State.csLevel (s : State) : Bool :=
  match s.csLine with
  | .on => s.par.csActiveLevel
  | .off => !s.par.csActiveLevel

end Sys2Proof.Machine
end

