-- ==== Sys2Proof/Machine/Operands.lean ====
section
/-! DEFINITION. Operand forms and operand checks (30_encoding.md R112, R113, R119). A failed check ends the command with
ERR_BAD_ARG before any state changes (60_exceptions.md R402). -/

namespace Sys2Proof.Machine

/-- A target address: bits 15:7 are 0 (R112). -/
def addressOk (a : Word) : Bool := a.extractLsb' 7 9 == 0#9

/-- `A[6:0]`. -/
def address7 (a : Word) : BitVec 7 := a.extractLsb' 0 7

/-- A byte operand: bits 15:8 are 0 (R112). -/
def byteOk (w : Word) : Bool := hi w == 0#8

/-- A Frame point given as two s16 coordinate words (R112). -/
def plotOf (x y c : Word) : Plot := ⟨sext16 x, sext16 y, c⟩

/-- `1 ≤ COUNT ≤ MAX_READ_WORDS` (R119, 42_register_access.md R231). -/
def countOk (c : Config) (count : Word) : Bool := decide (1 ≤ count.toNat) && decide (count.toNat ≤ c.maxReadWords)

/-- `X0 ≤ X1 ≤ W-1 and Y0 ≤ Y1 ≤ H-1` for window coordinates, which are u16 (R112, 43_display_link.md R267). -/
def windowOk (c : Config) (x0 y0 x1 y1 : Word) : Bool :=
  decide (x0.toNat ≤ x1.toNat) && decide (x1.toNat ≤ c.width - 1) &&
  (decide (y0.toNat ≤ y1.toNat) && decide (y1.toNat ≤ c.height - 1))

/-- ERR_BAD_ARG with no info words unless the operands pass their checks, else the command runs (R115, R402). -/
def State.checked (ok : Bool) (run : State → State) (s : State) : State :=
  if ok then run s else s.raise .badArg []

end Sys2Proof.Machine
end

