-- ==== Sys2Proof/Machine/Twb.lean ====
section
/-! DEFINITION. The two-wire bus controller: line primitives, framing and transactions (41_transport.md R180-R196). -/

namespace Sys2Proof.Machine

/-- Where a piece of a bus transaction ends: done with a value, or ended at once by a timeout (R190). -/
inductive Wire (α : Type) where
  | done (a : α) (s : State)
  | timedOut (s : State)
  deriving DecidableEq, Repr

/-- One piece after another; a timeout ends the transaction. -/
def Wire.andThen {α β : Type} (m : Wire α) (k : α → State → Wire β) : Wire β :=
  match m with
  | .done a s => k a s
  | .timedOut s => .timedOut s

/-! ## Line primitives (R180-R184, R190) -/

/-- `sdaLow()` (R180). -/
def sdaLow (s : State) : State := ({ s with sdaDrv := .low }).emit .sdaLo

/-- `sdaRel()` (R180). -/
def sdaRel (s : State) : State := ({ s with sdaDrv := .rel }).emit .sdaRel

/-- `sclLow()` (R181). -/
def sclLow (s : State) : State := ({ s with sclDrv := .low }).emit .sclLo

/-- `sclFree()`: released without waiting (R181). -/
def sclFree (s : State) : State := ({ s with sclDrv := .rel }).emit .sclRel

/-- `busAbort(ERR_TIMEOUT)`: the drivers keep their values (R190). -/
def busAbort (s : State) : State := { s with busInit := false, busHeld := false }

/-- `sclRel()`: the clock is released and must read high before the timeout (R182). -/
def sclRel (s : State) : Wire Unit :=
  let r := (({ s with sclDrv := .rel }).emit .sclRel).drawBus .sclHigh
  if r.1 then .done () r.2 else .timedOut (busAbort r.2)

/-- `sample()`: 1 is `true` (R183). -/
def sample (s : State) : Wire Bool :=
  let r := s.drawBus .sdaLevel
  .done r.1 (r.2.emit (.sample r.1))

/-- `waitSdaHigh()` (R184). -/
def waitSdaHigh (s : State) : Wire Unit :=
  let r := s.drawBus .sdaHigh
  let s := r.2.emit .waitSda
  if r.1 then .done () s else .timedOut (busAbort s)

/-! ## Framing (R186-R189, R191, R192) -/

/-- `initBus()` (R191). -/
def initBus (s : State) : State := { sclFree (sdaRel s) with busInit := true, busHeld := false }

/-- `if st.busInit = 0 then initBus()` (R192). -/
def lazyInit (s : State) : State := if s.busInit then s else initBus s

/-- `START()` (R186). -/
def busStart (s : State) : Wire Unit :=
  (sclRel (sdaRel s)).andThen fun _ s =>
  (waitSdaHigh s).andThen fun _ s =>
  .done () (sclLow (sdaLow s))

/-- `STOP()` (R187). -/
def busStop (s : State) : Wire Unit :=
  (sclRel (sdaLow s)).andThen fun _ s =>
  .done () { sdaRel s with busHeld := false }

/-- `sendBit(b)` (R188). -/
def sendBit (b : Bool) (s : State) : Wire Unit :=
  (sclRel (if b then sdaRel s else sdaLow s)).andThen fun _ s =>
  .done () (sclLow s)

/-- Bits in order, one clock each (R188). -/
def sendBits : List Bool → State → Wire Unit
  | [], s => .done () s
  | b :: bs, s => (sendBit b s).andThen fun _ s => sendBits bs s

/-- `getAck()`: `true` is NACK (R188). -/
def getAck (s : State) : Wire Bool :=
  (sclRel (sdaRel s)).andThen fun _ s =>
  (sample s).andThen fun a s =>
  .done a (sclLow s)

/-- `sendByte(v)`: MSB first, then the acknowledgment, `true` for NACK (R188). -/
def sendByte (v : Byte) (s : State) : Wire Bool :=
  (sendBits (bitsMsbFirst v) s).andThen fun _ s => getAck s

/-- `n` bits clocked in below those of `v` (R189). -/
def recvBits : Nat → Nat → State → Wire Nat
  | 0, v, s => .done v s
  | n + 1, v, s =>
    (sclRel s).andThen fun _ s =>
    (sample s).andThen fun b s =>
    recvBits n (2 * v + b.toNat) (sclLow s)

/-- `recvByte()` (R189). -/
def recvByte (s : State) : Wire Byte :=
  (recvBits 8 0 (sdaRel s)).andThen fun v s => .done (BitVec.ofNat 8 v) s

/-- `sendAck(k)`, `ack` for k = ACK (R189). -/
def sendAck (ack : Bool) (s : State) : Wire Unit :=
  (sclRel (if ack then sdaLow s else sdaRel s)).andThen fun _ s =>
  .done () (sdaRel (sclLow s))

/-- `finalAck()` as READ_FINAL_ACK says (R196). -/
def finalAck (s : State) : Wire Unit :=
  match s.par.readFinalAck with
  | .ackAll => sendAck true s
  | .nackLast => sendAck false s
  | .omitLast => .done () s

/-! ## Transactions (R190, R193-R195) -/

/-- The end of a successful transaction: a stop, or the bus held (R193, R195). -/
def endTransfer (hold : Bool) (s : State) : Wire Unit :=
  if hold then .done () { s with busHeld := true } else busStop s

/-- The bus address byte `{A[6:0], RW}`, RW = 1 for a read (30_encoding.md R123). -/
def addressByte (a : Word) (read : Bool) : Byte := BitVec.append (address7 a) (BitVec.ofBool read)

/-- The data bytes of a write from index k on: none when all were ACKed, else the index of the NACKed byte, after which
none is sent (R193). -/
def sendBytes : Nat → List Byte → State → Wire (Option Nat)
  | _, [], s => .done none s
  | k, b :: bs, s =>
    (sendByte b s).andThen fun nack s =>
    if nack then .done (some k) s else sendBytes (k + 1) bs s

/-- The body of `busWrite(a, b, hold)` (R193). -/
def busWriteWire (a : Word) (bytes : List Byte) (hold : Bool) (s : State) : Wire Reply :=
  (busStart (lazyInit s)).andThen fun _ s =>
  (sendByte (addressByte a false) s).andThen fun nack s =>
  if nack then (busStop s).andThen fun _ s => .done ⟨.nackAddr, []⟩ s
  else
    (sendBytes 0 bytes s).andThen fun r s =>
    match r with
    | some k => (busStop s).andThen fun _ s => .done ⟨.nackData, [wordOfNat k]⟩ s
    | none => (endTransfer hold s).andThen fun _ s => .done ⟨.ok, []⟩ s

/-- The n data bytes of a read, each acknowledged, the last one by `finalAck` (R195). -/
def recvBytes : Nat → State → Wire (List Byte)
  | 0, s => .done [] s
  | n + 1, s =>
    (recvByte s).andThen fun v s =>
    (if n = 0 then finalAck s else sendAck true s).andThen fun _ s =>
    (recvBytes n s).andThen fun vs s =>
    .done (v :: vs) s

/-- The body of `busRead(a, N, hold)`: the status and the bytes read (R195). -/
def busReadWire (a : Word) (n : Nat) (hold : Bool) (s : State) : Wire (Status × List Byte) :=
  (busStart (lazyInit s)).andThen fun _ s =>
  (sendByte (addressByte a true) s).andThen fun nack s =>
  if nack then (busStop s).andThen fun _ s => .done (.nackAddr, []) s
  else
    (recvBytes n s).andThen fun vs s =>
    (endTransfer hold s).andThen fun _ s => .done (.ok, vs) s

/-- `busWrite(a, b, hold)`: its status, its info words and the state it leaves (R190, R193). -/
def busWrite (a : Word) (bytes : List Byte) (hold : Bool) (s : State) : Reply × State :=
  match busWriteWire a bytes hold s with
  | .done r s => (r, s)
  | .timedOut s => (⟨.timeout, []⟩, s)

/-- `busRead(a, N, hold)`: its status, its bytes and the state it leaves (R190, R195). -/
def busRead (a : Word) (n : Nat) (hold : Bool) (s : State) : (Status × List Byte) × State :=
  match busReadWire a n hold s with
  | .done r s => (r, s)
  | .timedOut s => ((.timeout, []), s)

end Sys2Proof.Machine
end

