-- ==== Sys2Proof/Machine/Bus.lean ====
section
/-! DEFINITION. The transport commands: one attempt each (41_transport.md R191, R193, R195). -/

namespace Sys2Proof.Machine

/-- BUS.INIT (R191). -/
def execBusInit (s : State) : Host.Outcome State Fault Refusal := ends ((initBus s).finish [])

/-- BUS.WRITE (R193). -/
def execBusWrite (hold : Bool) (a n : Word) (data : List Word) (s : State) : Host.Outcome State Fault Refusal :=
  ends (s.checked (addressOk a && padIsZero n data) fun s =>
    let r := busWrite a (unpackBytes n data) hold s
    r.2.reply r.1)

/-- BUS.READ (R195): on an error the result carries no data. -/
def execBusRead (hold : Bool) (a n : Word) (s : State) : Host.Outcome State Fault Refusal :=
  ends (s.checked (addressOk a) fun s =>
    let r := busRead a n.toNat hold s
    r.2.reply ⟨r.1.1, packBytes r.1.2⟩)

end Sys2Proof.Machine
end

