-- ==== Sys2Proof/Machine/Dl.lean ====
section
/-! DEFINITION. The display link: frames, windows, the initialisation sequence and its commands
(43_display_link.md R260-R271). -/

namespace Sys2Proof.Machine

/-! ## Frame primitives (R260-R263) -/

/-- `frame(d, b)`, for at least one byte (R260). -/
def displayFrame (d : Dc) (bytes : List Byte) (s : State) : State :=
  let s := ({ s with dcLine := d }).emitDisplay [.dc d]
  let s := ({ s with csLine := .on }).emitDisplay [.csOn]
  let s := s.emitDisplay (bytes.map .byte)
  ({ s with csLine := .off }).emitDisplay [.csOff]

/-- `sendCommand(code)` (R261). -/
def sendCommand (code : Byte) (s : State) : State := displayFrame .cmd [code] s

/-- `sendData(b)`: nothing for no bytes (R262). -/
def sendData (bytes : List Byte) (s : State) : State := if bytes.isEmpty then s else displayFrame .data bytes s

/-- `sendDataWords(w)`: each word high byte first, in one frame (R263). -/
def sendDataWords (words : List Word) (s : State) : State := sendData (bytesOfWords words) s

/-- `setWindow(x0, y0, x1, y1)`: five frames (R267, R293). -/
def setWindow (x0 y0 x1 y1 : Word) (s : State) : State :=
  let s := sendCommand s.par.cmdCaset s
  let s := sendData [hi x0, lo x0, hi x1, lo x1] s
  let s := sendCommand s.par.cmdRaset s
  let s := sendData [hi y0, lo y0, hi y1, lo y1] s
  sendCommand s.par.cmdRamwr s

/-- `DELAY(name)` (00_scope.md R14, R271). -/
def settle (name : DelayName) (s : State) : State := s.emitDisplay [.delay name]

/-- Every Dirty and every Stale flag is set (R270). -/
def markAllCells (s : State) : State :=
  (List.range s.par.cells).foldl (fun s k => (s.setDirty k true).setStale k true) s

/-- The nine frames and seven delays of DL.INIT (R270). -/
def initSequence (s : State) : State :=
  let s := settle .tSwreset (sendCommand s.par.cmdSwreset s)
  let s := settle .tSlpout (sendCommand s.par.cmdSlpout s)
  let s := settle .tColmod (sendData [s.par.colmodValue] (sendCommand s.par.cmdColmod s))
  let s := settle .tMadctl (sendData [s.par.madctlValue] (sendCommand s.par.cmdMadctl s))
  let s := settle .tInvon (sendCommand s.par.cmdInvon s)
  let s := settle .tNoron (sendCommand s.par.cmdNoron s)
  settle .tDispon (sendCommand s.par.cmdDispon s)

/-! ## Commands -/

/-- DL.INIT (R270). -/
def execDlInit (s : State) : Host.Outcome State Fault Refusal :=
  ends ((markAllCells { initSequence s with dispInit := true }).finish [])

/-- DL.CMD (R264). -/
def execDlCmd (code : Word) (s : State) : Host.Outcome State Fault Refusal :=
  ends (s.checked (byteOk code) fun s => (sendCommand (lo code) s).finish [])

/-- DL.DATA (R265). -/
def execDlData (n : Word) (data : List Word) (s : State) : Host.Outcome State Fault Refusal :=
  ends (s.checked (padIsZero n data) fun s => (sendData (unpackBytes n data) s).finish [])

/-- DL.WORDS (R266). -/
def execDlWords (n : Word) (words : List Word) (s : State) : Host.Outcome State Fault Refusal :=
  ends ((sendDataWords (words.take n.toNat) s).finish [])

/-- DL.WINDOW (R267). -/
def execDlWindow (x0 y0 x1 y1 : Word) (s : State) : Host.Outcome State Fault Refusal :=
  ends (s.checked (windowOk s.par x0 y0 x1 y1) fun s => (setWindow x0 y0 x1 y1 s).finish [])

end Sys2Proof.Machine
end

