-- ==== Sys2Proof/Machine/Fb.lean ====
section
/-! DEFINITION. The framebuffer: rasterizer and dirty-region flush (44_framebuffer.md R302-R344). -/

namespace Sys2Proof.Machine

/-! ## Points of the shapes, unclipped and in order -/

/-- The integers from a to b inclusive, rising; none when b < a. -/
def intRange (a b : Int) : List Int := (List.range (b + 1 - a).toNat).map fun i : Nat => a + (i : Int)

/-- The points of a filled rectangle between two corners in any order, row by row (R310). -/
def rectPoints (x0 y0 x1 y1 : Int) : List (Int × Int) :=
  (intRange (min y0 y1) (max y0 y1)).flatMap fun y => (intRange (min x0 x1) (max x0 x1)).map fun x => (x, y)

/-- The loop of FB.LINE over the major coordinate, `n` points from `x` on (R320). -/
def lineWalk (dx dy ystep : Int) : Nat → Int → Int → Int → List (Int × Int)
  | 0, _, _, _ => []
  | n + 1, x, y, err =>
    let err := err - dy
    (x, y) :: (if err < 0 then lineWalk dx dy ystep n (x + 1) (y + ystep) (err + dx)
               else lineWalk dx dy ystep n (x + 1) y err)

/-- The points of FB.LINE with x the major coordinate, from the lesser end on (R320). -/
def lineMajor (x0 y0 x1 y1 : Int) : List (Int × Int) :=
  let dx := x1 - x0
  let dy := |y1 - y0|
  lineWalk dx dy (if y0 < y1 then 1 else -1) (dx + 1).toNat x0 y0 (dx / 2)

/-- The points of FB.LINE with its ends put in rising order of the major coordinate (R320). -/
def lineOrdered (x0 y0 x1 y1 : Int) : List (Int × Int) :=
  if x1 < x0 then lineMajor x1 y1 x0 y0 else lineMajor x0 y0 x1 y1

/-- The points of FB.LINE in order (R320): a steep line is walked along y. -/
def linePoints (x0 y0 x1 y1 : Int) : List (Int × Int) :=
  if |x1 - x0| < |y1 - y0| then (lineOrdered y0 x0 y1 x1).map fun p => (p.2, p.1)
  else lineOrdered x0 y0 x1 y1

/-- `DISK(r)`: the offsets with dx² + dy² ≤ r² (R332). -/
def diskOffsets (r : Nat) : List (Int × Int) :=
  (rectPoints (-(r : Int)) (-(r : Int)) r r).filter fun d => decide (d.1 * d.1 + d.2 * d.2 ≤ (r : Int) * (r : Int))

/-- CIRCLE_SET(r) (R331). -/
def circleOffsets (c : CircleSet) (r : Nat) : List (Int × Int) :=
  match c with
  | .disk => diskOffsets r
  | .listed table => table.getD r (diskOffsets r)

/-- The points of FB.CIRCLE: none for R < 0 (R330). -/
def circlePoints (c : CircleSet) (cx cy r : Int) : List (Int × Int) :=
  if r < 0 then [] else (circleOffsets c r.toNat).map fun d => (cx + d.1, cy + d.2)

/-- Points in one colour as PLOT calls. -/
def plotsOf (c : Word) (points : List (Int × Int)) : List Plot := points.map fun p => ⟨p.1, p.2, c⟩

/-! ## Drawing commands -/

/-- FB.PIXEL (R302). -/
def execFbPixel (x y c : Word) (s : State) : Host.Outcome State Fault Refusal :=
  ends ((s.plot (plotOf x y c)).finish [])

/-- FB.GETPIXEL (R303). -/
def execFbGetpixel (x y : Word) (s : State) : Host.Outcome State Fault Refusal :=
  ends (match clipPoint s.par (sext16 x) (sext16 y) with
    | none => s.raise .badArg []
    | some q => s.finish [s.frameAt (idx s.par q.1 q.2)])

/-- The allocation of FB.RECT: does it fail, and the state after its draw, which is taken only when FILLRECT_MAY_FAIL
(R310, R311). -/
def rectAllocation (s : State) : Bool × State := if s.par.fillrectMayFail then s.drawAlloc else (false, s)

/-- FB.RECT (R310). -/
def execFbRect (x0 y0 x1 y1 c : Word) (s : State) : Host.Outcome State Fault Refusal :=
  let r := rectAllocation s
  ends (if r.1 then r.2.raise .alloc []
    else (r.2.plotAll (plotsOf c (rectPoints (sext16 x0) (sext16 y0) (sext16 x1) (sext16 y1)))).finish [])

/-- FB.LINE (R320). -/
def execFbLine (x0 y0 x1 y1 c : Word) (s : State) : Host.Outcome State Fault Refusal :=
  ends ((s.plotAll (plotsOf c (linePoints (sext16 x0) (sext16 y0) (sext16 x1) (sext16 y1)))).finish [])

/-- FB.CIRCLE (R330). -/
def execFbCircle (cx cy r c : Word) (s : State) : Host.Outcome State Fault Refusal :=
  ends ((s.plotAll (plotsOf c (circlePoints s.par.circleSet (sext16 cx) (sext16 cy) (sext16 r)))).finish [])

/-! ## Flush (R340) -/

/-- The cells in flush order: gy outer, gx inner (R340). -/
def cellsInOrder (c : Config) : List (Nat × Nat) :=
  (List.range c.gridH).flatMap fun gy => (List.range c.gridW).map fun gx => (gx, gy)

/-- The pixels of cell (gx, gy) row by row, x fastest (20_memory.md R82). -/
def cellPixels (c : Config) (gx gy : Nat) : List (Nat × Nat) :=
  (List.range' (gy * c.cellH) c.cellH).flatMap fun y => (List.range' (gx * c.cellW) c.cellW).map fun x => (x, y)

/-- The pixels of cell (gx, gy) column by column, y fastest. -/
def cellPixelsByColumn (c : Config) (gx gy : Nat) : List (Nat × Nat) :=
  (List.range' (gx * c.cellW) c.cellW).flatMap fun x => (List.range' (gy * c.cellH) c.cellH).map fun y => (x, y)

/-- The pixels of a cell in the order they are sent: PIXEL_ORDER (R340, 43_display_link.md R268). -/
def cellSendOrder (c : Config) (gx gy : Nat) : List (Nat × Nat) :=
  match c.pixelOrder with
  | .rowMajor => cellPixels c gx gy
  | .columnMajor => cellPixelsByColumn c gx gy

/-- Some pixel of the cell differs from Baseline (R340). -/
def cellDiffers (s : State) (gx gy : Nat) : Bool :=
  (cellPixels s.par gx gy).any fun q => s.frameAt (idx s.par q.1 q.2) ≠ s.baselineAt (idx s.par q.1 q.2)

/-- A cell is sent when it is dirty and stale or different (R340). -/
def cellMustGo (s : State) (gx gy : Nat) : Bool :=
  let k := gy * s.par.gridW + gx
  s.dirtyAt k && (s.staleAt k || cellDiffers s gx gy)

/-- The just-sent colours of a cell become its Baseline (R340). -/
def copyCell (gx gy : Nat) (s : State) : State :=
  (cellPixels s.par gx gy).foldl
    (fun s q => s.setBaseline (idx s.par q.1 q.2) (s.frameAt (idx s.par q.1 q.2))) s

/-- A cell is sent: one window and one pixel frame; then its Baseline and Stale (R340). -/
def sendCell (gx gy : Nat) (s : State) : State :=
  let c := s.par
  let x0 := gx * c.cellW
  let y0 := gy * c.cellH
  let words := (cellSendOrder c gx gy).map fun q => s.frameAt (idx c q.1 q.2)
  let s := setWindow (wordOfNat x0) (wordOfNat y0) (wordOfNat (x0 + c.cellW - 1)) (wordOfNat (y0 + c.cellH - 1)) s
  let s := copyCell gx gy (sendDataWords words s)
  s.setStale (gy * c.gridW + gx) false

/-- One cell of the flush loop, with the number of cells sent (R340). -/
def flushCell (r : State × Nat) (g : Nat × Nat) : State × Nat :=
  let k := g.2 * r.1.par.gridW + g.1
  if cellMustGo r.1 g.1 g.2 then ((sendCell g.1 g.2 r.1).setDirty k false, r.2 + 1) else (r.1.setDirty k false, r.2)

/-- The loop of FB.FLUSH: the state after it and NSENT (R340). -/
def flushAll (s : State) : State × Nat := (cellsInOrder s.par).foldl flushCell (s, 0)

/-- FB.FLUSH (R340). -/
def execFbFlush (s : State) : Host.Outcome State Fault Refusal :=
  let r := flushAll s
  ends (r.1.finish [wordOfNat r.2])

end Sys2Proof.Machine
end

