-- ==== Sys2Proof/Machine/Map.lean ====
section
/-! DEFINITION. The coordinate mapper (46_mapper.md R380-R385). -/

namespace Sys2Proof.Machine

/-- The identity state: mapValid 0 and every other element 0 (R382). -/
def mapIdentity (s : State) : State :=
  { s with mapValid := false, mapA := ⟨0#16, 0#16⟩, mapB := ⟨0#16, 0#16⟩, mapRot := .r0 }

/-- `rotOf(ax, ay, bx, by)` for anchors that differ in both coordinates (R381). -/
def rotOf (ax ay bx byy : Int) : Rot :=
  if ax < bx then (if ay < byy then .r0 else .r90) else (if ay < byy then .r270 else .r180)

/-- The anchors share an x or a y (R382). -/
def degenerate (ax ay bx byy : Word) : Bool := decide (sext16 ax = sext16 bx) || decide (sext16 ay = sext16 byy)

/-- MAP.CONFIG (R380): degenerate anchors install the identity fallback and end with ERR_CONFIG (R382). -/
def execMapConfig (ax ay bx byy : Word) (s : State) : Host.Outcome State Fault Refusal :=
  let rot := rotOf (sext16 ax) (sext16 ay) (sext16 bx) (sext16 byy)
  ends (if degenerate ax ay bx byy then (mapIdentity s).raise .config []
    else ({ s with mapA := ⟨ax, ay⟩, mapB := ⟨bx, byy⟩, mapRot := rot, mapValid := true }).finish [rot.word])

/-- `a + floor((2*(b - a)*u + maxU) / (2*maxU))`, which is `roundHalfUp(a + (b - a)*u/maxU)` (R384, R385). -/
def mapAxis (a b u maxU : Int) : Int := a + (2 * (b - a) * u + maxU) / (2 * maxU)

/-- `(u, maxU, v, maxV)`: the row and column roles of a rotation (R383). -/
def mapRoles (c : Config) (rot : Rot) (row col : Int) : Int × Int × Int × Int :=
  match rot with
  | .r0 | .r180 => (col, c.sensorMaxCol, row, c.sensorMaxRow)
  | .r90 | .r270 => (row, c.sensorMaxRow, col, c.sensorMaxCol)

/-- The display point of a sensor address, before the s16 check (R384). -/
def mapXY (s : State) (row col : Int) : Int × Int :=
  if s.mapValid then
    let r := mapRoles s.par s.mapRot row col
    (mapAxis (sext16 s.mapA.x) (sext16 s.mapB.x) r.1 r.2.1, mapAxis (sext16 s.mapA.y) (sext16 s.mapB.y) r.2.2.1 r.2.2.2)
  else (col, row)

/-- The value fits an s16. -/
def fitsS16 (i : Int) : Bool := decide (-32768 ≤ i) && decide (i ≤ 32767)

/-- MAP.POINT (R384). -/
def execMapPoint (row col : Word) (s : State) : Host.Outcome State Fault Refusal :=
  let p := mapXY s (sext16 row) (sext16 col)
  ends (s.checked (fitsS16 p.1 && fitsS16 p.2) (State.finish [wordOfInt p.1, wordOfInt p.2]))

end Sys2Proof.Machine
end

