-- ==== Sys2Proof/Machine/Pix.lean ====
section
/-! DEFINITION. Pixel format commands (40_color.md). -/

namespace Sys2Proof.Machine

/-- `{R[7:3], G[7:2], B[7:3]}`: the top bits of three channels in 5:6:5 layout (R160, 30_encoding.md R126). -/
def packColour (r g b : Byte) : Word :=
  BitVec.append (BitVec.append (r.extractLsb' 3 5) (g.extractLsb' 2 6)) (b.extractLsb' 3 5)

/-- `{C[15:11], 0b000}` as a u16 (R161). -/
def redOf (c : Word) : Word := (BitVec.append (c.extractLsb' 11 5) 0#3).setWidth 16

/-- `{C[10:5], 0b00}` as a u16 (R161). -/
def greenOf (c : Word) : Word := (BitVec.append (c.extractLsb' 5 6) 0#2).setWidth 16

/-- `{C[4:0], 0b000}` as a u16 (R161). -/
def blueOf (c : Word) : Word := (BitVec.append (c.extractLsb' 0 5) 0#3).setWidth 16

/-- PIX.PACK (R160). -/
def execPixPack (r g b : Word) (s : State) : Host.Outcome State Fault Refusal :=
  ends (s.checked (byteOk r && (byteOk g && byteOk b)) (State.finish [packColour (lo r) (lo g) (lo b)]))

/-- PIX.UNPACK (R161). -/
def execPixUnpack (c : Word) (s : State) : Host.Outcome State Fault Refusal :=
  ends (s.finish [redOf c, greenOf c, blueOf c])

end Sys2Proof.Machine
end

