-- ==== Sys2Proof/Machine/Reg.lean ====
section
/-! DEFINITION. Sensor register access with the bounded retry loop (42_register_access.md R230-R232). -/

namespace Sys2Proof.Machine

/-- `txReadWords()` (R231). -/
def txReadWords (a start count : Word) (s : State) : Reply × State :=
  let w := busWrite a [hi start, lo start] true s
  if w.1.status ≠ .ok then (⟨w.1.status, []⟩, w.2)
  else
    let r := busRead a (2 * count.toNat) false w.2
    if r.1.1 ≠ .ok then (⟨r.1.1, []⟩, r.2) else (⟨.ok, packBytes r.1.2⟩, r.2)

/-- `txWriteWord()` (R232). -/
def txWriteWord (a addr value : Word) (s : State) : Reply × State :=
  let w := busWrite a [hi addr, lo addr, hi value, lo value] false s
  (⟨w.1.status, []⟩, w.2)

/-- MAX_ATTEMPTS as a result word; a free value when it does not fit a u16 (R230; log 7). -/
def attemptsWord (n : Nat) : Word := if n ≤ 65535 then wordOfNat n else Config.freeAttemptsWord n

/-- The attempts left of `retry(tx)`, `n` of them, after one that ended with `cause` (R230): a failed attempt that is
not the last is followed by `initBus()`. -/
def retryLoop (tx : State → Reply × State) : Nat → Status → State → Reply × State
  | 0, cause, s => (⟨.retryExhausted, [cause.word, attemptsWord s.par.maxAttempts]⟩, s)
  | n + 1, _, s =>
    let r := tx s
    if r.1.status = .ok then r else retryLoop tx n r.1.status (if n = 0 then r.2 else initBus r.2)

/-- `retry(tx)`: at most MAX_ATTEMPTS attempts (R230). -/
def retry (tx : State → Reply × State) (s : State) : Reply × State := retryLoop tx s.par.maxAttempts .ok s

/-- REG.READW (R231). -/
def execRegReadw (a start count : Word) (s : State) : Host.Outcome State Fault Refusal :=
  ends (s.checked (addressOk a && countOk s.par count) fun s =>
    let r := retry (txReadWords a start count) s
    r.2.reply r.1)

/-- REG.WRITEW (R232). -/
def execRegWritew (a addr value : Word) (s : State) : Host.Outcome State Fault Refusal :=
  ends (s.checked (addressOk a) fun s =>
    let r := retry (txWriteWord a addr value) s
    r.2.reply r.1)

end Sys2Proof.Machine
end

