-- ==== Sys2Proof/Machine/Text.lean ====
section
/-! DEFINITION. Bitmap text (45_text.md R360-R362). -/

namespace Sys2Proof.Machine

/-- `FONT(ch)[j][i]`; a bit the font does not list is 0 (R360; log 9). -/
def fontBit (c : Config) (ch : Byte) (j i : Nat) : Bool := ((c.font.getD ch.toNat []).getD j []).getD i false

/-- The PLOT calls of `glyph(x, y, ch, fg, bg, t)`: rows top to bottom, columns left to right; no call for a 0 bit when
transparent (R361). -/
def glyphPlots (c : Config) (x y : Int) (ch : Byte) (fg bg : Word) (transp : Bool) : List Plot :=
  (List.range c.glyphH).flatMap fun j =>
    (List.range c.glyphW).flatMap fun i =>
      if fontBit c ch j i then [⟨x + i, y + j, fg⟩]
      else if transp then []
      else [⟨x + i, y + j, bg⟩]

/-- The PLOT calls of a string, each glyph ADVANCE right of the one before (R362). -/
def textPlots (c : Config) (y : Int) (fg bg : Word) (transp : Bool) : Int → List Byte → List Plot
  | _, [] => []
  | x, ch :: rest => glyphPlots c x y ch fg bg transp ++ textPlots c y fg bg transp (x + c.advance) rest

/-- FB.CHAR (R361). -/
def execFbChar (transp : Bool) (x y ch fg bg : Word) (s : State) : Host.Outcome State Fault Refusal :=
  ends (s.checked (byteOk ch) fun s =>
    (s.plotAll (glyphPlots s.par (sext16 x) (sext16 y) (lo ch) fg bg transp)).finish [])

/-- FB.TEXT (R362). -/
def execFbText (transp : Bool) (x y fg bg n : Word) (chars : List Word) (s : State) :
    Host.Outcome State Fault Refusal :=
  ends (s.checked (padIsZero n chars) fun s =>
    (s.plotAll (textPlots s.par (sext16 y) fg bg transp (sext16 x) (unpackBytes n chars))).finish [])

end Sys2Proof.Machine
end

