-- ==== Sys2Proof/Machine/Dispatch.lean ====
section
/-! DEFINITION. One arm per command (30_encoding.md R117). -/

namespace Sys2Proof.Machine

def exec (i : Instr) (s : State) : Host.Outcome State Fault Refusal :=
  match i with
  | .pixPack r g b => Sys2Proof.Machine.execPixPack r g b s
  | .pixUnpack c => Sys2Proof.Machine.execPixUnpack c s
  | .busInit => Sys2Proof.Machine.execBusInit s
  | .busWrite hold a n data => Sys2Proof.Machine.execBusWrite hold a n data s
  | .busRead hold a n => Sys2Proof.Machine.execBusRead hold a n s
  | .regReadw a start count => Sys2Proof.Machine.execRegReadw a start count s
  | .regWritew a addr value => Sys2Proof.Machine.execRegWritew a addr value s
  | .dlInit => Sys2Proof.Machine.execDlInit s
  | .dlCmd code => Sys2Proof.Machine.execDlCmd code s
  | .dlData n data => Sys2Proof.Machine.execDlData n data s
  | .dlWords n words => Sys2Proof.Machine.execDlWords n words s
  | .dlWindow x0 y0 x1 y1 => Sys2Proof.Machine.execDlWindow x0 y0 x1 y1 s
  | .fbPixel x y c => Sys2Proof.Machine.execFbPixel x y c s
  | .fbGetpixel x y => Sys2Proof.Machine.execFbGetpixel x y s
  | .fbRect x0 y0 x1 y1 c => Sys2Proof.Machine.execFbRect x0 y0 x1 y1 c s
  | .fbLine x0 y0 x1 y1 c => Sys2Proof.Machine.execFbLine x0 y0 x1 y1 c s
  | .fbCircle cx cy r c => Sys2Proof.Machine.execFbCircle cx cy r c s
  | .fbFlush => Sys2Proof.Machine.execFbFlush s
  | .fbChar transp x y ch fg bg => Sys2Proof.Machine.execFbChar transp x y ch fg bg s
  | .fbText transp x y fg bg n chars => Sys2Proof.Machine.execFbText transp x y fg bg n chars s
  | .mapConfig ax ay bx byy => Sys2Proof.Machine.execMapConfig ax ay bx byy s
  | .mapPoint row col => Sys2Proof.Machine.execMapPoint row col s

end Sys2Proof.Machine
end

