-- ==== Sys2Proof/Machine/Step.lean ====
section
/-! DEFINITION. One step: the block takes the first complete command frame from its port and executes it, or waits
(10_state.md R31, R47; 30_encoding.md R115). -/

namespace Sys2Proof.Machine

/-- One step. With no complete frame in the port the block waits and holds its state (R47, 60_exceptions.md R411;
log 4). An illegal frame ends with ERR_ILLEGAL_CMD and changes nothing else (R118); a legal one is executed after its
words are out of the port (R96). -/
def step (s : State) : Host.Outcome State Fault Refusal :=
  match nextFrame s.port with
  | none => .next s
  | some (frame, rest) =>
    match decode frame with
    | .error _ => .next ((s.takeFrame rest).raise .illegalCmd [])
    | .ok i => exec i (s.takeFrame rest)

/-- The host has presented exactly the frame of these bits (log 5, 6). -/
def State.withFetchWord (s : State) (nbits w : Nat) : State := { s with port := tableFrame nbits w }

end Sys2Proof.Machine
end

