-- ==== Sys2Proof/Machine/Asm.lean ====
section
/-! DEFINITION. The assembler and the pseudo-commands (30_encoding.md R121, R122): a line of text is split into tokens,
the tokens are read as mnemonic, flag suffix and operands, and the line is assembled (log 16). -/

namespace Sys2Proof.Machine

/-- An operand of an assembly line: a number, a byte array `[b0, b1, ...]`, a character string, or a word array of
DL.WORDS (R121). -/
inductive AsmOperand where
  | num (v : Int)
  | bytes (bs : List Byte)
  | text (chars : List Char)
  | words (ws : List Word)
  deriving DecidableEq, Repr

/-- `MNEMONIC[.H|.T] operand, ...`: `flag` says whether the suffix stands (R121). -/
structure AsmLine where
  mnemonic : String
  flag : Bool
  operands : List AsmOperand
  deriving DecidableEq, Repr

/-- The mnemonic column of R117. -/
def mnemonicOf : Opcode → String
  | .pixPack => "PIX.PACK"
  | .pixUnpack => "PIX.UNPACK"
  | .busInit => "BUS.INIT"
  | .busWrite => "BUS.WRITE"
  | .busRead => "BUS.READ"
  | .regReadw => "REG.READW"
  | .regWritew => "REG.WRITEW"
  | .dlInit => "DL.INIT"
  | .dlCmd => "DL.CMD"
  | .dlData => "DL.DATA"
  | .dlWords => "DL.WORDS"
  | .dlWindow => "DL.WINDOW"
  | .fbPixel => "FB.PIXEL"
  | .fbGetpixel => "FB.GETPIXEL"
  | .fbRect => "FB.RECT"
  | .fbLine => "FB.LINE"
  | .fbCircle => "FB.CIRCLE"
  | .fbFlush => "FB.FLUSH"
  | .fbChar => "FB.CHAR"
  | .fbText => "FB.TEXT"
  | .mapConfig => "MAP.CONFIG"
  | .mapPoint => "MAP.POINT"

/-- The frame words of an operand: a number one word, an array its implied count and its packed elements (R113, R121).
None for a number no u16 or s16 carries and for a character outside ASCII. -/
def operandWords : AsmOperand → Option (List Word)
  | .num v => if -32768 ≤ v ∧ v ≤ 65535 then some [wordOfInt v] else none
  | .bytes bs => if bs.length ≤ 65535 then some (wordOfNat bs.length :: packBytes bs) else none
  | .text chars =>
    if chars.length ≤ 65535 ∧ chars.all (fun ch => decide (ch.toNat < 128)) then
      some (wordOfNat chars.length :: packBytes (chars.map fun ch => BitVec.ofNat 8 ch.toNat))
    else none
  | .words ws => if ws.length ≤ 65534 then some (wordOfNat ws.length :: ws) else none

/-- The words of operands in order; none when one has none. -/
def allOperandWords : List AsmOperand → Option (List Word)
  | [] => some []
  | o :: os =>
    match operandWords o, allOperandWords os with
    | some ws, some rest => some (ws ++ rest)
    | _, _ => none

/-- The frame of a line: header, LEN, operands (R121); none when it is no legal frame (R115). DESIGN CHOICE, safe for the
block (log 16): R121 does not say what becomes of an operand of another kind than the mnemonic takes; a line is accepted
whenever the words of its operands form a legal frame. -/
def assembleFrame (l : AsmLine) : Option (List Word) :=
  match Opcode.all.find? fun o => mnemonicOf o == l.mnemonic, allOperandWords l.operands with
  | some o, some ws =>
    let frame := headerWord o l.flag :: wordOfNat ws.length :: ws
    match decode frame with
    | .ok _ => some frame
    | .error _ => none
  | _, _ => none

/-- The expansion of a pseudo-command into core lines; any other line stays as it is (R122). `FB.CLEAR` reads W and H;
`DL.PIXELS` expands only with the word count R122 asks for. -/
def expandPseudo (c : Config) (l : AsmLine) : List AsmLine :=
  match l.mnemonic, l.operands with
  | "FB.CLEAR", [colour] =>
    [⟨"FB.RECT", l.flag, [.num 0, .num 0, .num (c.width - 1), .num (c.height - 1), colour]⟩]
  | "BUS.PROBE", [a] => [⟨"BUS.WRITE", l.flag, [a, .bytes []]⟩]
  | "REG.READ1", [a, r] => [⟨"REG.READW", l.flag, [a, r, .num 1]⟩]
  | "FB.HLINE", [x0, x1, y, colour] => [⟨"FB.RECT", l.flag, [x0, y, x1, y, colour]⟩]
  | "DL.PIXELS", [.num x0, .num y0, .num x1, .num y1, .words ws] =>
    if (ws.length : Int) = (x1 - x0 + 1) * (y1 - y0 + 1) then
      [⟨"DL.WINDOW", l.flag, [.num x0, .num y0, .num x1, .num y1]⟩, ⟨"DL.WORDS", l.flag, [.words ws]⟩]
    else [l]
  | _, _ => [l]

/-- The frames a line assembles to, one after the other (R121, R122). -/
def assemble (c : Config) (l : AsmLine) : Option (List (List Word)) :=
  (expandPseudo c l).mapM assembleFrame

/-! ## Text -/

/-- A token of a line: a run of characters that is no punctuation, a quoted string, a comma, or a bracket of an array
(`true` for the square brackets of a byte array, `false` for the curly ones of a word array). -/
inductive AsmToken where
  | chars (cs : List Char)
  | quoted (cs : List Char)
  | comma
  | opens (bytes : Bool)
  | closes (bytes : Bool)
  deriving DecidableEq, Repr

/-- The token of a punctuation character, by its ASCII code: `,` 44, `[` 91, `]` 93 and the curly brackets 123
and 125. -/
def punctuation (ch : Char) : Option AsmToken :=
  match ch.toNat with
  | 44 => some .comma
  | 91 => some (.opens true)
  | 93 => some (.closes true)
  | 123 => some (.opens false)
  | 125 => some (.closes false)
  | _ => none

/-- The characters read so far, in reverse, as a token before the others. -/
def closeChars (read : List Char) (ts : Option (List AsmToken)) : Option (List AsmToken) :=
  if read.isEmpty then ts else ts.map fun ts => .chars read.reverse :: ts

/-- The tokens of a line: blanks (codes 9, 32) separate, `;` (59) begins a comment, a quotation mark (34) opens and
closes a string. `quote` says that a string is open; `read` holds the pending characters in reverse. None for a string
that is never closed. -/
def tokens (quote : Bool) (read : List Char) : List Char → Option (List AsmToken)
  | [] => if quote then none else closeChars read (some [])
  | ch :: rest =>
    if quote then
      if ch.toNat = 34 then (tokens false [] rest).map fun ts => .quoted read.reverse :: ts
      else tokens true (ch :: read) rest
    else if ch.toNat = 59 then closeChars read (some [])
    else if ch.toNat = 34 then closeChars read (tokens true [] rest)
    else if ch.toNat = 9 ∨ ch.toNat = 32 then closeChars read (tokens false [] rest)
    else
      match punctuation ch with
      | some t => closeChars read ((tokens false [] rest).map fun ts => t :: ts)
      | none => tokens false (ch :: read) rest

/-- The value of a digit character: `0`-`9`, `A`-`F`, `a`-`f`. -/
def digitOf (ch : Char) : Option Nat :=
  let n := ch.toNat
  if 48 ≤ n ∧ n ≤ 57 then some (n - 48)
  else if 65 ≤ n ∧ n ≤ 70 then some (n - 55)
  else if 97 ≤ n ∧ n ≤ 102 then some (n - 87)
  else none

/-- Digits in a base, most significant first, after the value read so far. -/
def digitsFrom (base acc : Nat) : List Char → Option Nat
  | [] => some acc
  | ch :: rest =>
    match digitOf ch with
    | some d => if d < base then digitsFrom base (acc * base + d) rest else none
    | none => none

/-- Digits in a base, at least one. -/
def digits (base : Nat) (cs : List Char) : Option Nat := if cs.isEmpty then none else digitsFrom base 0 cs

/-- A number: decimal, optionally signed, or `0x` hexadecimal (R121). -/
def numberOf : List Char → Option Int
  | '0' :: 'x' :: rest => (digits 16 rest).map fun n => (n : Int)
  | '+' :: rest => (digits 10 rest).map fun n => (n : Int)
  | '-' :: rest => (digits 10 rest).map fun n => -(n : Int)
  | cs => (digits 10 cs).map fun n => (n : Int)

/-- The elements of an array as an operand: bytes are 0 to 255, words 0 to 65535. -/
def arrayOperand (bytes : Bool) (vs : List Int) : Option AsmOperand :=
  if bytes then if vs.all (fun v => decide (0 ≤ v ∧ v ≤ 255)) then some (.bytes (vs.map (BitVec.ofInt 8))) else none
  else if vs.all (fun v => decide (0 ≤ v ∧ v ≤ 65535)) then some (.words (vs.map wordOfInt)) else none

/-- Operands separated by commas. `item` says that an operand or an element may come next; `array` holds the elements of
an open array in reverse. -/
def operandsOf (item : Bool) (array : Option (Bool × List Int)) : List AsmToken → Option (List AsmOperand)
  | [] => if item || array.isSome then none else some []
  | .chars cs :: rest =>
    if item then
      match numberOf cs, array with
      | some v, none => (operandsOf false none rest).map fun os => .num v :: os
      | some v, some (b, vs) => operandsOf false (some (b, v :: vs)) rest
      | none, _ => none
    else none
  | .quoted cs :: rest =>
    if item && array.isNone then (operandsOf false none rest).map fun os => .text cs :: os else none
  | .comma :: rest => if item then none else operandsOf true array rest
  | .opens b :: rest => if item && array.isNone then operandsOf true (some (b, [])) rest else none
  | .closes b :: rest =>
    match array with
    | some (b', vs) =>
      if b = b' ∧ (item = true → vs = []) then
        match arrayOperand b vs.reverse with
        | some o => (operandsOf false none rest).map fun os => o :: os
        | none => none
      else none
    | none => none

/-- The flag suffix `.H` belongs to BUS.WRITE and BUS.READ, `.T` to FB.CHAR and FB.TEXT (R121). -/
def splitSuffix (name : List Char) : String × Bool :=
  let whole := String.ofList name
  if whole = "BUS.WRITE.H" then ("BUS.WRITE", true)
  else if whole = "BUS.READ.H" then ("BUS.READ", true)
  else if whole = "FB.CHAR.T" then ("FB.CHAR", true)
  else if whole = "FB.TEXT.T" then ("FB.TEXT", true)
  else (whole, false)

/-- A line of tokens: the mnemonic with its suffix, then the operands. -/
def lineOf : List AsmToken → Option AsmLine
  | .chars name :: rest =>
    match if rest.isEmpty then some [] else operandsOf true none rest with
    | some os => some ⟨(splitSuffix name).1, (splitSuffix name).2, os⟩
    | none => none
  | _ => none

/-- The frames one line of assembly text stands for; none of them for a line that is blank or a comment, and no result
for a line that is no command (R121, R122). -/
def assembleText (c : Config) (line : List Char) : Option (List (List Word)) :=
  match tokens false [] line with
  | none => none
  | some [] => some []
  | some ts => (lineOf ts).bind (assemble c)

end Sys2Proof.Machine
end

