-- ==== Sys2Proof/Machine/Condensed.lean ====
section
/-! DEFINITION. The condensed notations for traffic on the two wires and what they expand to (41_transport.md R200;
43_display_link.md R293). -/

namespace Sys2Proof.Machine

/-- A condensed bus token (R200). `W xx A/N` carries the sampled acknowledgment, `true` for N; `R xx` the
acknowledgment sent, `some true` for A, `none` for none. The mark T of a timeout has no event of its own. -/
inductive BusToken where
  | start
  | stop
  | init
  | wrote (v : Byte) (nack : Bool)
  | got (v : Byte) (ack : Option Bool)
  deriving DecidableEq, Repr

/-- The events of START (R186). -/
def startEvents : List Event := [.sdaRel, .sclRel, .waitSda, .sdaLo, .sclLo]

/-- The events of STOP (R187). -/
def stopEvents : List Event := [.sdaLo, .sclRel, .sdaRel]

/-- The events of `initBus()` (R191). -/
def initEvents : List Event := [.sdaRel, .sclRel]

/-- The events of `sendBit(b)` (R188). -/
def bitEvents (b : Bool) : List Event := [if b then .sdaRel else .sdaLo, .sclRel, .sclLo]

/-- The events of `sendByte(v)` whose acknowledgment sampled `nack` (R188, R198). -/
def sentByteEvents (v : Byte) (nack : Bool) : List Event :=
  (bitsMsbFirst v).flatMap bitEvents ++ [.sdaRel, .sclRel, .sample nack, .sclLo]

/-- The events of `recvByte()` returning v (R189). -/
def gotByteEvents (v : Byte) : List Event :=
  .sdaRel :: (bitsMsbFirst v).flatMap fun b => [.sclRel, .sample b, .sclLo]

/-- The events of `sendAck(k)`, `ack` for ACK (R189). -/
def ackEvents (ack : Bool) : List Event := [if ack then .sdaLo else .sdaRel, .sclRel, .sclLo, .sdaRel]

/-- The events a token expands to (R200). -/
def BusToken.events : BusToken → List Event
  | .start => startEvents
  | .stop => stopEvents
  | .init => initEvents
  | .wrote v nack => sentByteEvents v nack
  | .got v none => gotByteEvents v
  | .got v (some ack) => gotByteEvents v ++ ackEvents ack

/-- The events of a condensed bus trace. -/
def busTrace (ts : List BusToken) : List Event := ts.flatMap BusToken.events

/-- The draws a token takes and their answers, in order (R182-R184, R186-R191): every release of the clock reads high,
SDA is free at a start, and each sampled bit is the one the token names. -/
def BusToken.answers : BusToken → List Bool
  | .start => [true, true]
  | .stop => [true]
  | .init => []
  | .wrote _ nack => List.replicate 9 true ++ [nack]
  | .got v ack => (bitsMsbFirst v).flatMap (fun b => [true, b]) ++ (if ack.isSome then [true] else [])

/-- The answers that make a bus give a condensed trace. -/
def busAnswers (ts : List BusToken) : List Bool := ts.flatMap BusToken.answers

/-- The lazy initialisation at the head of a transaction (R192). -/
def lazyTokens (s : State) : List BusToken := if s.busInit then [] else [.init]

/-- A write of `bytes` to the target of address byte `addr`, every byte ACKed; no stop when held (R193). -/
def writeTokens (addr : Byte) (bytes : List Byte) (hold : Bool) : List BusToken :=
  .start :: .wrote addr false :: (bytes.map fun b => .wrote b false) ++ (if hold then [] else [.stop])

/-- The acknowledgment after the last byte of a read (R196). -/
def finalMark : ReadFinalAck → Option Bool
  | .ackAll => some true
  | .nackLast => some false
  | .omitLast => none

/-- The bytes of a read: each ACKed but for the last one (R195, R196). -/
def gotTokens (f : ReadFinalAck) : List Byte → List BusToken
  | [] => []
  | [v] => [.got v (finalMark f)]
  | v :: w :: vs => .got v (some true) :: gotTokens f (w :: vs)

/-- A read of the bytes `vs` from the target of address byte `addr`; no stop when held (R195). -/
def readTokens (f : ReadFinalAck) (addr : Byte) (vs : List Byte) (hold : Bool) : List BusToken :=
  .start :: .wrote addr false :: gotTokens f vs ++ (if hold then [] else [.stop])

/-- A transaction whose address byte is NACKed (R193, R195). -/
def refusedTokens (addr : Byte) : List BusToken := [.start, .wrote addr true, .stop]

/-- A write whose data byte k is NACKed: the bytes before it ACKed, none after it, and a stop (R193, R194). -/
def cutTokens (addr : Byte) (bytes : List Byte) (k : Nat) : List BusToken :=
  .start :: .wrote addr false :: ((bytes.take k).map fun b => .wrote b false) ++ [.wrote (bytes.getD k 0#8) true, .stop]

/-- The events of one display frame: D/C, chip-select, the bytes, chip-select (R260). -/
def frameEvents (d : Dc) (bytes : List Byte) : List Event := [.dc d, .csOn] ++ bytes.map .byte ++ [.csOff]

/-- The events of `WIN(x0,y0,x1,y1)` (R267, R293). -/
def windowEvents (c : Config) (x0 y0 x1 y1 : Word) : List Event :=
  frameEvents .cmd [c.cmdCaset] ++ frameEvents .data [hi x0, lo x0, hi x1, lo x1] ++
  frameEvents .cmd [c.cmdRaset] ++ frameEvents .data [hi y0, lo y0, hi y1, lo y1] ++
  frameEvents .cmd [c.cmdRamwr]

/-- The events of DL.INIT (R270). -/
def initSequenceEvents (c : Config) : List Event :=
  frameEvents .cmd [c.cmdSwreset] ++ [.delay .tSwreset] ++
  frameEvents .cmd [c.cmdSlpout] ++ [.delay .tSlpout] ++
  frameEvents .cmd [c.cmdColmod] ++ frameEvents .data [c.colmodValue] ++ [.delay .tColmod] ++
  frameEvents .cmd [c.cmdMadctl] ++ frameEvents .data [c.madctlValue] ++ [.delay .tMadctl] ++
  frameEvents .cmd [c.cmdInvon] ++ [.delay .tInvon] ++
  frameEvents .cmd [c.cmdNoron] ++ [.delay .tNoron] ++
  frameEvents .cmd [c.cmdDispon] ++ [.delay .tDispon]

/-- An event of the two-wire bus (00_scope.md R15). -/
def Event.isBus : Event → Bool
  | .sdaLo | .sdaRel | .sclLo | .sclRel | .sample _ | .waitSda => true
  | .dc _ | .csOn | .csOff | .byte _ | .delay _ => false

end Sys2Proof.Machine
end

