-- ==== Sys2Proof/Machine/Controller.lean ====
section
/-! DEFINITION. The reference model of the display controller, an environment that reads the display events of the trace
(43_display_link.md R285-R291). No rule of the block reads it. Where R286, R289 and R290 leave the contents open, the
cells become ⊥, which promises nothing (log 15). -/

namespace Sys2Proof.Machine

/-- The controller's mode (R285). -/
inductive ControllerMode where
  /-- No command yet. -/
  | idle
  /-- The data bytes of a command that have arrived. -/
  | args (cmd : Byte) (bytes : List Byte)
  /-- Pixels, at column `cc` and row `cr`, with the latched first byte of a pixel. -/
  | pixels (cc cr : Nat) (latch : Option Byte)
  /-- Pixels at a place the rules leave open: past the window's end, after a frame that cut a pixel, or in a window that
  was never set (R286, R289, R290). -/
  | lost
  deriving DecidableEq, Repr

/-- The controller (R285). `gram` lists the known cells; an unlisted cell is ⊥. A window that is unspecified is `none`.
`ready` says that its initialisation has ended (CMD_DISPON, R286). `dc` and `cs` are the lines it sees. -/
structure Controller where
  gram : Memory (Option Word)
  cols : Option (Word × Word)
  rows : Option (Word × Word)
  mode : ControllerMode
  ready : Bool
  dc : Dc
  cs : Cs
  deriving DecidableEq, Repr

/-- The controller at power-up (R286). DESIGN CHOICE, safe (log 15): the level of D/C it sees before the first frame, which
10_state.md R38 leaves at any value, is CMD; it is never read, since every frame sets D/C first (R260). -/
def Controller.powerUp : Controller := ⟨[], none, none, .idle, false, .cmd, .off⟩

/-- A controller whose initialisation ended long ago and of which nothing else is known; D/C as at power-up (log 15). -/
def Controller.initialised : Controller := ⟨[], none, none, .idle, true, .cmd, .off⟩

/-- Cell p of gram: a colour or ⊥ (R285). -/
def Controller.gramAt (k : Controller) (p : Nat) : Option Word := k.gram.read none p

/-- Cell (x, y) lies in the window from the pairs of start and end coordinates. -/
def inWindow (cols rows : Word × Word) (x y : Nat) : Bool :=
  decide (cols.1.toNat ≤ x) && decide (x ≤ cols.2.toNat) && (decide (rows.1.toNat ≤ y) && decide (y ≤ rows.2.toNat))

/-- Any cell of the window may have changed (R289): its cells become ⊥. All cells do when the window is unspecified or
reversed. -/
def Controller.forgetWindow (c : Config) (k : Controller) : Controller :=
  match k.cols, k.rows with
  | some cols, some rows =>
    if cols.1.toNat ≤ cols.2.toNat ∧ rows.1.toNat ≤ rows.2.toNat then
      { k with gram := k.gram.filter fun e => !inWindow cols rows (e.1 % c.width) (e.1 / c.width) }
    else { k with gram := [] }
  | _, _ => { k with gram := [] }

/-- The pointer after a pixel at (cc, cr), none past the window's last pixel (R289). -/
def nextPixel (order : PixelOrder) (cols rows : Word × Word) (cc cr : Nat) : Option (Nat × Nat) :=
  match order with
  | .rowMajor =>
    if cols.2.toNat < cc + 1 then (if rows.2.toNat < cr + 1 then none else some (cols.1.toNat, cr + 1))
    else some (cc + 1, cr)
  | .columnMajor =>
    if rows.2.toNat < cr + 1 then (if cols.2.toNat < cc + 1 then none else some (cc + 1, rows.1.toNat))
    else some (cc, cr + 1)

/-- A whole pixel at (cc, cr): written inside the Frame's extent, discarded outside, and not known to land before the
initialisation ended (R286, R289). -/
def Controller.putPixel (c : Config) (cc cr : Nat) (p : Word) (k : Controller) : Controller :=
  if k.ready = true ∧ cc < c.width ∧ cr < c.height then { k with gram := k.gram.write none (cr * c.width + cc) (some p) }
  else k

/-- A command byte (R287). DESIGN CHOICE, unsafe for a claim about equal codes (log 15): R9 asks of the codes only that each
is 8-bit, and R287 does not say which effect a byte has that is two codes at once. Here CMD_SWRESET comes before all, then
CMD_RAMWR before CMD_CASET and CMD_RASET; CMD_DISPON ends the initialisation beside whatever else its code does, but for
CMD_SWRESET. -/
def Controller.command (c : Config) (b : Byte) (k : Controller) : Controller :=
  if b = c.cmdSwreset then { k with gram := [], cols := none, rows := none, mode := .idle, ready := false }
  else
    let k := { k with ready := k.ready || b == c.cmdDispon }
    if b = c.cmdRamwr then
      match k.cols, k.rows with
      | some cols, some rows => { k with mode := .pixels cols.1.toNat rows.1.toNat none }
      | _, _ => { k with mode := .lost }
    else { k with mode := .args b [] }

/-- A data byte among the arguments of a command: the fourth sets a window, later ones are ignored (R287, R288). DESIGN CHOICE,
unsafe for a claim about equal codes (log 15): a code that is both CMD_CASET and CMD_RASET sets the columns only. -/
def Controller.argument (c : Config) (cmd : Byte) (bytes : List Byte) (k : Controller) : Controller :=
  let k := { k with mode := .args cmd bytes }
  match bytes with
  | [b0, b1, b2, b3] =>
    if cmd = c.cmdCaset then { k with cols := some (cat b0 b1, cat b2 b3) }
    else if cmd = c.cmdRaset then { k with rows := some (cat b0 b1, cat b2 b3) }
    else k
  | _ => k

/-- A data byte (R287-R289). -/
def Controller.data (c : Config) (b : Byte) (k : Controller) : Controller :=
  match k.mode with
  | .idle => k
  | .args cmd bytes => k.argument c cmd (bytes ++ [b])
  | .pixels cc cr none => { k with mode := .pixels cc cr (some b) }
  | .pixels cc cr (some h) =>
    let k := k.putPixel c cc cr (cat h b)
    match k.cols, k.rows with
    | some cols, some rows =>
      match nextPixel c.pixelOrder cols rows cc cr with
      | some q => { k with mode := .pixels q.1 q.2 none }
      | none => { k with mode := .lost }
    | _, _ => { k with mode := .lost }
  | .lost => k.forgetWindow c

/-- The controller after one event of the trace: a byte counts while chip-select is on (R49, R287), and chip-select going
off in the middle of a pixel leaves open where the next byte goes (R290). -/
def Controller.observe (c : Config) (k : Controller) : Event → Controller
  | .dc d => { k with dc := d }
  | .csOn => { k with cs := .on }
  | .csOff =>
    match k.mode with
    | .pixels _ _ (some _) => { k with cs := .off, mode := .lost }
    | .pixels _ _ none | .idle | .args _ _ | .lost => { k with cs := .off }
  | .byte b =>
    match k.cs, k.dc with
    | .off, _ => k
    | .on, .cmd => k.command c b
    | .on, .data => k.data c b
  | .sdaLo | .sdaRel | .sclLo | .sclRel | .sample _ | .waitSda | .delay _ => k

/-- The controller after a run of events, which do not say what command sent them; `runCommand` is the controller after a
command (R461). -/
def Controller.run (c : Config) (k : Controller) (es : List Event) : Controller := es.foldl (Controller.observe c) k

/-- The command is a DL.DATA. -/
def isDlData : Instr → Bool
  | .dlData _ _ => true
  | .pixPack _ _ _ | .pixUnpack _ | .busInit | .busWrite _ _ _ _ | .busRead _ _ _ | .regReadw _ _ _ | .regWritew _ _ _
  | .dlInit | .dlCmd _ | .dlWords _ _ | .dlWindow _ _ _ _ | .fbPixel _ _ _ | .fbGetpixel _ _ | .fbRect _ _ _ _ _
  | .fbLine _ _ _ _ _ | .fbCircle _ _ _ _ | .fbFlush | .fbChar _ _ _ _ _ _ | .fbText _ _ _ _ _ _ _
  | .mapConfig _ _ _ _ | .mapPoint _ _ => false

/-- Pixels are being taken (R285). -/
def ControllerMode.takesPixels : ControllerMode → Bool
  | .pixels _ _ _ | .lost => true
  | .idle | .args _ _ => false

/-- The controller after command `i`, which emitted `es`. A DL.DATA ends the pixel mode (70_reset_and_hazards.md R461), so
that no later pixel lands before a command byte starts a mode. DEDUCED, safe (log 19): R461 does not say whether the bytes
of that DL.DATA itself still land, as R289 and R462 have it of data bytes in the pixel mode, so the cells of the window
become ⊥; a DL.DATA that sends no byte is not seen by the controller and ends nothing. DESIGN CHOICE, safe for the cells
(log 19): R461 speaks only of a DL.DATA between a DL.WINDOW and the next DL.WORDS; the model has every DL.DATA in the pixel
mode end it and make the window ⊥, also one after words were sent or after a DL.CMD of CMD_RAMWR, where R289 takes the
bytes as pixels. -/
def Controller.runCommand (c : Config) (i : Instr) (es : List Event) (k : Controller) : Controller :=
  if isDlData i = true ∧ es ≠ [] ∧ k.mode.takesPixels = true then
    { (k.run c es).forgetWindow c with mode := .idle }
  else k.run c es

end Sys2Proof.Machine
end

