-- ==== Sys2Proof/Safety.lean ====
section
/-! DEFINITION. The terms claims are stated in: the invariants of the framebuffer, the wires and the mapper, and what a
command may change (10_state.md R37, R39, R44, R45; 44_framebuffer.md R341; 60_exceptions.md R412). -/

namespace Sys2Proof.Machine

/-! ## Invariants -/

/-- INV0: a stale cell is dirty (R44). -/
def Inv0 (s : State) : Prop := ∀ k, k < s.par.cells → s.staleAt k = true → s.dirtyAt k = true

/-- INV1: a pixel that differs from its Baseline lies in a dirty cell (R44). -/
def Inv1 (s : State) : Prop :=
  ∀ x y, x < s.par.width → y < s.par.height →
    s.frameAt (idx s.par x y) ≠ s.baselineAt (idx s.par x y) → s.dirtyAt (cellOf s.par x y) = true

/-- INV2 against a controller: it shows the Baseline of every cell that is not stale (R341). -/
def Inv2 (k : Controller) (s : State) : Prop :=
  ∀ x y, x < s.par.width → y < s.par.height → s.staleAt (cellOf s.par x y) = false →
    k.gramAt (idx s.par x y) = some (s.baselineAt (idx s.par x y))

/-- Every memory is in its canonical form and lists only indices its address space has (20_memory.md R80, R81;
log 10). -/
def MemoriesLegal (s : State) : Prop :=
  (Memory.wf 0#16 s.frame ∧ ∀ e ∈ s.frame, e.1 < s.par.width * s.par.height) ∧
  (Memory.wf 0#16 s.baseline ∧ ∀ e ∈ s.baseline, e.1 < s.par.width * s.par.height) ∧
  (Memory.wf true s.dirty ∧ ∀ e ∈ s.dirty, e.1 < s.par.cells) ∧
  (Memory.wf true s.stale ∧ ∀ e ∈ s.stale, e.1 < s.par.cells)

/-- The bus between commands: held with SCL low, SDA released and the bus initialised, or SCL released (R37, 41_transport.md
R199). -/
def BusLegal (s : State) : Prop :=
  if s.busHeld then s.sclDrv = .low ∧ s.sdaDrv = .rel ∧ s.busInit = true else s.sclDrv = .rel

/-- Chip-select is off between commands (R39). -/
def ChipSelectOff (s : State) : Prop := s.csLine = .off

/-- The mapper is in its identity state, or holds anchors that differ in both coordinates with their rotation (R45,
46_mapper.md R380-R382). -/
def MapperLegal (s : State) : Prop :=
  if s.mapValid then
    sext16 s.mapA.x ≠ sext16 s.mapB.x ∧ sext16 s.mapA.y ≠ sext16 s.mapB.y ∧
    s.mapRot = rotOf (sext16 s.mapA.x) (sext16 s.mapA.y) (sext16 s.mapB.x) (sext16 s.mapB.y)
  else s.mapA = ⟨0#16, 0#16⟩ ∧ s.mapB = ⟨0#16, 0#16⟩ ∧ s.mapRot = .r0

/-- The codes by which the reference controller tells a window, a pixel stream and a reset apart are different (R9 asks
only that each is 8-bit; log 15). -/
def WindowCodesDistinct (c : Config) : Prop :=
  c.cmdCaset ≠ c.cmdRaset ∧ c.cmdCaset ≠ c.cmdRamwr ∧ c.cmdRaset ≠ c.cmdRamwr ∧
  c.cmdCaset ≠ c.cmdSwreset ∧ c.cmdRaset ≠ c.cmdSwreset ∧ c.cmdRamwr ≠ c.cmdSwreset

/-- The allocation draw of an FB.RECT fails: taken when FILLRECT_MAY_FAIL, the scripted answer or else the free one
(44_framebuffer.md R311; log 2). -/
def State.allocFails (s : State) : Bool := s.par.fillrectMayFail && s.alloc.headD (Config.freeAllocFails s.drawn)

/-! ## What a flush sends -/

/-- The words of cell (gx, gy) of Frame in the controller's order (44_framebuffer.md R340). -/
def cellWords (s : State) (gx gy : Nat) : List Word :=
  (cellSendOrder s.par gx gy).map fun q => s.frameAt (idx s.par q.1 q.2)

/-- The six display frames of a sent cell: its window, then its pixels in one frame (R340, R343). -/
def cellEvents (s : State) (g : Nat × Nat) : List Event :=
  windowEvents s.par (wordOfNat (g.1 * s.par.cellW)) (wordOfNat (g.2 * s.par.cellH))
    (wordOfNat (g.1 * s.par.cellW + s.par.cellW - 1)) (wordOfNat (g.2 * s.par.cellH + s.par.cellH - 1)) ++
  frameEvents .data (bytesOfWords (cellWords s g.1 g.2))

/-! ## Transactions against a script, and retries -/

/-- s after the bus gave the condensed trace `ts` and the command returned `r`: the drivers and flags of R199, the script
of answers now `rest`. -/
def State.afterBus (s : State) (ts : List BusToken) (hold : Bool) (rest : List Bool) (r : Reply) : State :=
  { s with
    sclDrv := if hold then .low else .rel
    sdaDrv := .rel
    busInit := true
    busHeld := hold
    trace := s.trace ++ busTrace ts
    sensor := .oracle rest
    drawn := s.drawn + (busAnswers ts).length
    replies := s.replies ++ [r] }

/-- The level SDA is driven to after the events `es`, from level d (41_transport.md R180). -/
def sdaAfter : Drive → List Event → Drive
  | d, [] => d
  | d, e :: es =>
    match e with
    | .sdaLo => sdaAfter .low es
    | .sdaRel => sdaAfter .rel es
    | .sclLo | .sclRel | .sample _ | .waitSda | .dc _ | .csOn | .csOff | .byte _ | .delay _ => sdaAfter d es

/-- `es` is what a transaction of the condensed trace `ts` emitted before a timeout cut it: a proper part of its events
from the first one on, up to a release of the clock or the check of SDA, where alone a timeout can come (41_transport.md
R182, R184, R190). -/
def CutByTimeout (ts : List BusToken) (es : List Event) : Prop :=
  (∃ more, more ≠ [] ∧ busTrace ts = es ++ more) ∧ (es.getLast? = some .sclRel ∨ es.getLast? = some .waitSda)

/-- s after a timeout that followed the events `es` and n draws, with SDA last driven to `sda` (41_transport.md R190,
R199). -/
def State.afterTimeout (s : State) (sda : Drive) (es : List Event) (n : Nat) (rest : List Bool) : State :=
  { s with
    sclDrv := .rel
    sdaDrv := sda
    busInit := false
    busHeld := false
    trace := s.trace ++ es
    sensor := .oracle rest
    drawn := s.drawn + n
    replies := s.replies ++ [⟨.timeout, []⟩] }

/-- The bus address byte (30_encoding.md R123). -/
def writeByteOf (a : Word) : Byte := BitVec.ofNat 8 (2 * a.toNat)

/-- The bus address byte of a read (R123). -/
def readByteOf (a : Word) : Byte := BitVec.ofNat 8 (2 * a.toNat + 1)

/-- The state in which attempt k + 1 of a retried transaction begins: every failed attempt before it is followed by
`initBus()` (42_register_access.md R230). -/
def attemptStart (tx : State → Reply × State) : Nat → State → State
  | 0, s => s
  | k + 1, s => initBus (tx (attemptStart tx k s)).2

/-- The state t a retried transaction ends in (R230): that of the first attempt that returns OK, or after MAX_ATTEMPTS
failures the last one's, with its status as the cause. -/
def RetryEnds (tx : State → Reply × State) (s t : State) : Prop :=
  (∃ k, k < s.par.maxAttempts ∧
    (∀ j, j < k → (tx (attemptStart tx j s)).1.status ≠ .ok) ∧
    (tx (attemptStart tx k s)).1.status = .ok ∧
    t = (tx (attemptStart tx k s)).2.reply (tx (attemptStart tx k s)).1) ∨
  ((∀ j, j < s.par.maxAttempts → (tx (attemptStart tx j s)).1.status ≠ .ok) ∧
    t = (tx (attemptStart tx (s.par.maxAttempts - 1) s)).2.reply
      ⟨.retryExhausted, [(tx (attemptStart tx (s.par.maxAttempts - 1) s)).1.status.word,
        attemptsWord s.par.maxAttempts]⟩)

/-- The condensed trace of n refused attempts, each but the last followed by a reinitialisation (42_register_access.md
R233). -/
def refusedAttempts (addr : Byte) : Nat → List BusToken
  | 0 => []
  | 1 => refusedTokens addr
  | n + 2 => refusedTokens addr ++ .init :: refusedAttempts addr (n + 1)

/-! ## What may change -/

/-- At most the two-wire bus controller, the agent on its bus, the draws and the trace changed. -/
def OnlyBus (s t : State) : Prop :=
  t = { s with sclDrv := t.sclDrv, sdaDrv := t.sdaDrv, busInit := t.busInit, busHeld := t.busHeld,
               trace := t.trace, sensor := t.sensor, drawn := t.drawn }

/-- At most the display lines and the trace changed. -/
def OnlyDisplay (s t : State) : Prop := t = { s with dcLine := t.dcLine, csLine := t.csLine, trace := t.trace }

/-- At most Frame and Dirty changed. -/
def OnlyDrawing (s t : State) : Prop := t = { s with frame := t.frame, dirty := t.dirty }

/-- At most the mapper changed. -/
def OnlyMapper (s t : State) : Prop :=
  t = { s with mapValid := t.mapValid, mapA := t.mapA, mapB := t.mapB, mapRot := t.mapRot }

/-- The trace grew by events of the two-wire bus only (41_transport.md R201). -/
def GrewByBusEvents (s t : State) : Prop := ∃ es, t.trace = s.trace ++ es ∧ ∀ e ∈ es, e.isBus = true

/-- The trace grew by events of the display link and delays only. -/
def GrewByDisplayEvents (s t : State) : Prop := ∃ es, t.trace = s.trace ++ es ∧ ∀ e ∈ es, e.isBus = false

/-! ## Commands by unit and by what they may return (10_state.md R46; 60_exceptions.md R401) -/

/-- The command drives the two-wire bus: BUS and REG (R46). -/
def usesBus : Instr → Bool
  | .busInit | .busWrite _ _ _ _ | .busRead _ _ _ | .regReadw _ _ _ | .regWritew _ _ _ => true
  | .pixPack _ _ _ | .pixUnpack _ | .dlInit | .dlCmd _ | .dlData _ _ | .dlWords _ _ | .dlWindow _ _ _ _
  | .fbPixel _ _ _ | .fbGetpixel _ _ | .fbRect _ _ _ _ _ | .fbLine _ _ _ _ _ | .fbCircle _ _ _ _ | .fbFlush
  | .fbChar _ _ _ _ _ _ | .fbText _ _ _ _ _ _ _ | .mapConfig _ _ _ _ | .mapPoint _ _ => false

/-- The command drives the display link: DL and FB.FLUSH (R46). -/
def usesDisplay : Instr → Bool
  | .dlInit | .dlCmd _ | .dlData _ _ | .dlWords _ _ | .dlWindow _ _ _ _ | .fbFlush => true
  | .pixPack _ _ _ | .pixUnpack _ | .busInit | .busWrite _ _ _ _ | .busRead _ _ _ | .regReadw _ _ _ | .regWritew _ _ _
  | .fbPixel _ _ _ | .fbGetpixel _ _ | .fbRect _ _ _ _ _ | .fbLine _ _ _ _ _ | .fbCircle _ _ _ _
  | .fbChar _ _ _ _ _ _ | .fbText _ _ _ _ _ _ _ | .mapConfig _ _ _ _ | .mapPoint _ _ => false

/-- The raw display commands, which can break the flush guarantee (44_framebuffer.md R341; 70_reset_and_hazards.md
R463). -/
def rawDisplay : Instr → Bool
  | .dlCmd _ | .dlData _ _ | .dlWords _ _ | .dlWindow _ _ _ _ => true
  | .pixPack _ _ _ | .pixUnpack _ | .busInit | .busWrite _ _ _ _ | .busRead _ _ _ | .regReadw _ _ _ | .regWritew _ _ _
  | .dlInit | .fbPixel _ _ _ | .fbGetpixel _ _ | .fbRect _ _ _ _ _ | .fbLine _ _ _ _ _ | .fbCircle _ _ _ _ | .fbFlush
  | .fbChar _ _ _ _ _ _ | .fbText _ _ _ _ _ _ _ | .mapConfig _ _ _ _ | .mapPoint _ _ => false

/-- The command draws: it writes Frame through PLOT (R46). -/
def draws : Instr → Bool
  | .fbPixel _ _ _ | .fbRect _ _ _ _ _ | .fbLine _ _ _ _ _ | .fbCircle _ _ _ _ | .fbChar _ _ _ _ _ _
  | .fbText _ _ _ _ _ _ _ => true
  | .pixPack _ _ _ | .pixUnpack _ | .busInit | .busWrite _ _ _ _ | .busRead _ _ _ | .regReadw _ _ _ | .regWritew _ _ _
  | .dlInit | .dlCmd _ | .dlData _ _ | .dlWords _ _ | .dlWindow _ _ _ _ | .fbGetpixel _ _ | .fbFlush
  | .mapConfig _ _ _ _ | .mapPoint _ _ => false

/-- The error statuses a command may return besides OK (R401). -/
def errorsOf (c : Config) : Instr → List Status
  | .pixPack _ _ _ => [.badArg]
  | .pixUnpack _ => []
  | .busInit => []
  | .busWrite _ _ _ _ => [.badArg, .nackAddr, .nackData, .timeout]
  | .busRead _ _ _ => [.badArg, .nackAddr, .timeout]
  | .regReadw _ _ _ => [.badArg, .retryExhausted]
  | .regWritew _ _ _ => [.badArg, .retryExhausted]
  | .dlInit => []
  | .dlCmd _ => [.badArg]
  | .dlData _ _ => [.badArg]
  | .dlWords _ _ => []
  | .dlWindow _ _ _ _ => [.badArg]
  | .fbPixel _ _ _ => []
  | .fbGetpixel _ _ => if c.clipMode = .discard then [.badArg] else []
  | .fbRect _ _ _ _ _ => if c.fillrectMayFail then [.alloc] else []
  | .fbLine _ _ _ _ _ => []
  | .fbCircle _ _ _ _ => []
  | .fbFlush => []
  | .fbChar _ _ _ _ _ _ => [.badArg]
  | .fbText _ _ _ _ _ _ _ => [.badArg]
  | .mapConfig _ _ _ _ => [.config]
  | .mapPoint _ _ => [.badArg]

/-- RLEN of an error result: the index of the NACKed byte, the cause and the bound of a retry, else none (R400). -/
def infoWords : Status → Nat
  | .nackData => 1
  | .retryExhausted => 2
  | .ok | .nackAddr | .timeout | .illegalCmd | .badArg | .alloc | .config => 0

/-- RLEN of a success (30_encoding.md R117). -/
def resultWords : Instr → Nat
  | .pixPack _ _ _ => 1
  | .pixUnpack _ => 3
  | .busInit => 0
  | .busWrite _ _ _ _ => 0
  | .busRead _ _ n => ceilHalf n.toNat
  | .regReadw _ _ count => count.toNat
  | .regWritew _ _ _ => 0
  | .dlInit => 0
  | .dlCmd _ => 0
  | .dlData _ _ => 0
  | .dlWords _ _ => 0
  | .dlWindow _ _ _ _ => 0
  | .fbPixel _ _ _ => 0
  | .fbGetpixel _ _ => 1
  | .fbRect _ _ _ _ _ => 0
  | .fbLine _ _ _ _ _ => 0
  | .fbCircle _ _ _ _ => 0
  | .fbFlush => 1
  | .fbChar _ _ _ _ _ _ => 0
  | .fbText _ _ _ _ _ _ _ => 0
  | .mapConfig _ _ _ _ => 1
  | .mapPoint _ _ => 2

/-! ## Bounds and runs -/

/-- The most events a command emits (70_reset_and_hazards.md R472). -/
def eventBound (c : Config) : Instr → Nat
  | .busInit => 2
  | .busWrite _ _ n _ => 2 + 5 + 28 * (n.toNat + 1) + 3
  | .busRead _ _ n => 2 + 5 + 28 + 29 * n.toNat + 3
  | .regReadw _ _ count => c.maxAttempts * (127 + 58 * count.toNat) + 2 * (c.maxAttempts - 1)
  | .regWritew _ _ _ => c.maxAttempts * (2 + 5 + 28 * (4 + 1) + 3) + 2 * (c.maxAttempts - 1)
  | .dlInit => 43
  | .dlCmd _ => 4
  | .dlData n _ => 3 + n.toNat
  | .dlWords n _ => 3 + 2 * n.toNat
  | .dlWindow _ _ _ _ => 26
  | .fbFlush => c.cells * (26 + 3 + 2 * (c.cellW * c.cellH))
  | .pixPack _ _ _ | .pixUnpack _ | .fbPixel _ _ _ | .fbGetpixel _ _ | .fbRect _ _ _ _ _ | .fbLine _ _ _ _ _
  | .fbCircle _ _ _ _ | .fbChar _ _ _ _ _ _ | .fbText _ _ _ _ _ _ _ | .mapConfig _ _ _ _ | .mapPoint _ _ => 0

/-- Commands executed one after the other (20_memory.md R90). -/
def runCommands : List Instr → State → Host.Outcome State Fault Refusal
  | [], s => .next s
  | i :: is, s =>
    match exec i s with
    | .next t => runCommands is t
    | .fault r => .fault r
    | .refused r => .refused r

end Sys2Proof.Machine
end

