-- ==== Sys2Proof/Certificates/Slice0/Obligations.lean ====
section
/-! DEFINITION. The statements about TC-CORE. Each docstring names the rules of spec/ it formalises; one that rests on a
choice of the model names the log entry. -/

open Sys2Proof Sys2Proof.Machine

/-! ## Reset (70_reset_and_hazards.md) -/

/-- R450: power-on (State.reset) and the reset input, between commands or inside one (log 13), put the block into one
reset state: the value of every element's row of R451, with D/C at any level, and an empty trace; the sensor is not reset
and the parameters stay. -/
def Obligations.ResetValues : Prop :=
  (∀ s : State, (s = State.reset ∨ (∃ (u : State) (dc : Dc), s = u.assertReset dc) ∨
      ∃ (u : State) (dc : Dc) (sensor : Sensor) (alloc : List Bool) (drawn : Nat),
        s = u.resetInCommand dc sensor alloc drawn) →
    s.sclDrv = .rel ∧ s.sdaDrv = .rel ∧ s.busInit = false ∧ s.busHeld = false ∧ s.csLine = .off ∧ s.dispInit = false ∧
    (∀ p, s.frameAt p = 0#16) ∧ (∀ p, s.baselineAt p = 0#16) ∧ (∀ k, s.dirtyAt k = true) ∧ (∀ k, s.staleAt k = true) ∧
    s.mapValid = false ∧ s.mapA = ⟨0#16, 0#16⟩ ∧ s.mapB = ⟨0#16, 0#16⟩ ∧ s.mapRot = .r0 ∧ s.trace = []) ∧
  ∀ (s : State) (dc : Dc),
    (s.assertReset dc).dcLine = dc ∧ (s.assertReset dc).sensor = s.sensor ∧ (s.assertReset dc).cfg = s.cfg

/-- Every invariant of this file holds in every reset state: at power-on whatever the parameters and the level of D/C, and
after the reset input between commands or inside one (log 13); INV2 against every controller (10_state.md R44;
44_framebuffer.md R341). -/
def Obligations.ResetHasInvariants : Prop :=
  ∀ s : State, (s = State.reset ∨ (∃ (b : Board) (dc : Dc), s = State.resetOf b dc) ∨
      (∃ (u : State) (dc : Dc), s = u.assertReset dc) ∨
      ∃ (u : State) (dc : Dc) (sensor : Sensor) (alloc : List Bool) (drawn : Nat),
        s = u.resetInCommand dc sensor alloc drawn) →
    Inv0 s ∧ Inv1 s ∧ (∀ k : Controller, Inv2 k s) ∧ MemoriesLegal s ∧ BusLegal s ∧ ChipSelectOff s ∧ MapperLegal s

/-! ## Encoding (30_encoding.md) -/

/-- Decoding the frame of a well-formed command gives the command back, every operand at every value. -/
def Obligations.EncodeThenDecode : Prop :=
  ∀ i : Instr, i.wf = true → decode (encode i) = .ok i

/-- What decodes is the frame of the command decoded, which is well-formed: every legal frame has one meaning. -/
def Obligations.DecodeThenEncode : Prop :=
  ∀ (ws : List Word) (i : Instr), decode ws = .ok i → encode i = ws ∧ i.wf = true

/-- R118, R116: a reserved opcode (0x00, the opcode of a frame of zeros, among them), a nonzero RSV, a flag on a flagless
opcode and a wrong LEN each end with ERR_ILLEGAL_CMD and RLEN 0; nothing changes but that the frame's LEN + 2 words leave
the port, and no event is emitted. -/
def Obligations.IllegalFrameIsHarmless : Prop :=
  ∀ (s : State) (header len : Word) (ops rest : List Word),
    s.port = header :: len :: (ops ++ rest) → ops.length = len.toNat →
    (let op := (header.extractLsb' 0 8).toNat
     header.extractLsb' 9 7 ≠ 0#7 ∨
     (op = 0x00 ∨ (0x03 ≤ op ∧ op ≤ 0x0F) ∨ (0x13 ≤ op ∧ op ≤ 0x1F) ∨ (0x22 ≤ op ∧ op ≤ 0x2F) ∨
      (0x35 ≤ op ∧ op ≤ 0x3F) ∨ (0x46 ≤ op ∧ op ≤ 0x47) ∨ (0x4A ≤ op ∧ op ≤ 0x4F) ∨ (0x52 ≤ op ∧ op ≤ 0xFF)) ∨
     (header.getLsbD 8 = true ∧ ∃ o : Opcode, o.code.toNat = op ∧ o.hasFlag = false) ∨
     (∃ o : Opcode, o.code.toNat = op ∧ o.requiredLen ops ≠ some len.toNat)) →
    step s = .next { s with port := rest, replies := s.replies ++ [⟨.illegalCmd, []⟩] }

/-- The words of a few frames, written out from the encodings of R110, R113 and R117, decode to their commands. -/
def Obligations.WrittenWordsDecode : Prop :=
  decode [0x0001#16, 0x0003#16, 0x0012#16, 0x0034#16, 0x0056#16] = .ok (.pixPack 0x12#16 0x34#16 0x56#16) ∧
  decode [0x0111#16, 0x0003#16, 0x0033#16, 0x0002#16, 0x8000#16] =
    .ok (.busWrite true 0x33#16 2#16 [0x8000#16]) ∧
  decode [0x0112#16, 0x0002#16, 0x0033#16, 0x0003#16] = .ok (.busRead true 0x33#16 3#16) ∧
  decode [0x0020#16, 0x0003#16, 0x0033#16, 0x8000#16, 0x0002#16] = .ok (.regReadw 0x33#16 0x8000#16 2#16) ∧
  decode [0x0021#16, 0x0003#16, 0x0033#16, 0x800D#16, 0x1901#16] = .ok (.regWritew 0x33#16 0x800D#16 0x1901#16) ∧
  decode [0x0034#16, 0x0004#16, 8#16, 16#16, 15#16, 23#16] = .ok (.dlWindow 8#16 16#16 15#16 23#16) ∧
  decode [0x0044#16, 0x0004#16, 3#16, 2#16, 0xFFFF#16, 1#16] = .ok (.fbCircle 3#16 2#16 0xFFFF#16 1#16) ∧
  decode [0x0045#16, 0x0000#16] = .ok .fbFlush ∧
  decode [0x0049#16, 0x0006#16, 0#16, 0#16, 0xFFFF#16, 0#16, 2#16, 0x4142#16] =
    .ok (.fbText false 0#16 0#16 0xFFFF#16 0#16 2#16 [0x4142#16]) ∧
  decode [0x0050#16, 0x0004#16, 0#16, 3#16, 7#16, 0#16] = .ok (.mapConfig 0#16 3#16 7#16 0#16)

/-- R122: each pseudo-command assembles to the frames of its expansion. -/
def Obligations.PseudoCommandsExpand : Prop :=
  (∀ (b : Board) (c : Word), assemble b.val ⟨"FB.CLEAR", false, [.num c.toNat]⟩ =
    some [encode (.fbRect 0#16 0#16 (wordOfNat (b.val.width - 1)) (wordOfNat (b.val.height - 1)) c)]) ∧
  (∀ (b : Board) (a : Word), assemble b.val ⟨"BUS.PROBE", false, [.num a.toNat]⟩ =
    some [encode (.busWrite false a 0#16 [])]) ∧
  (∀ (b : Board) (a r : Word), assemble b.val ⟨"REG.READ1", false, [.num a.toNat, .num r.toNat]⟩ =
    some [encode (.regReadw a r 1#16)]) ∧
  (∀ (b : Board) (x0 x1 y c : Word),
    assemble b.val ⟨"FB.HLINE", false, [.num x0.toInt, .num x1.toInt, .num y.toInt, .num c.toNat]⟩ =
    some [encode (.fbRect x0 y x1 y c)]) ∧
  ∀ (b : Board) (x0 y0 x1 y1 : Word) (ws : List Word), ws.length ≤ 65534 →
    (ws.length : Int) = ((x1.toNat : Int) - x0.toNat + 1) * ((y1.toNat : Int) - y0.toNat + 1) →
    assemble b.val ⟨"DL.PIXELS", false, [.num x0.toNat, .num y0.toNat, .num x1.toNat, .num y1.toNat, .words ws]⟩ =
    some [encode (.dlWindow x0 y0 x1 y1), encode (.dlWords (wordOfNat ws.length) ws)]

/-! ## The step (10_state.md R47; 20_memory.md R90) -/

/-- R47: while the words of a frame have not all arrived the block waits and its state stays. That a waiting step is a
stutter is the model's choice (log 4). -/
def Obligations.WaitsForWholeFrame : Prop :=
  ∀ s : State, (s.port.length < 2 ∨ ∃ header len rest, s.port = header :: len :: rest ∧ rest.length < len.toNat) →
    step s = .next s

/-- A step runs the decoded command: with the frame of a well-formed command at the head of the port, step is exec of that
command on the state whose port holds the words after the frame (R96, R110). -/
def Obligations.StepRunsDecodedCommand : Prop :=
  ∀ (s : State) (i : Instr) (frame rest : List Word), i.wf = true → s.port = frame ++ rest → decode frame = .ok i →
    step s = exec i { s with port := rest }

/-- R412: no error is fatal. Every step answers a next state. -/
def Obligations.StepNeverStops : Prop := ∀ s : State, ∃ t, step s = .next t

/-- R111, R90, R96: a command returns exactly one result frame, of STATUS, RLEN and the RLEN result words; the trace only
grows; the port and the parameters stay. -/
def Obligations.OneReplyPerCommand : Prop :=
  ∀ (i : Instr) (s t : State), exec i s = .next t →
    ∃ r es rlen, t.replies = s.replies ++ [r] ∧ r.frame = r.status.word :: rlen :: r.words ∧
      rlen.toNat = r.words.length ∧ t.trace = s.trace ++ es ∧ t.port = s.port ∧ t.cfg = s.cfg

/-- R400, R401, R117: every command returns OK or one of its own errors, with the number of result words that its success
or that error has; and the status words are the codes of R400. -/
def Obligations.StatusesPerCommand : Prop :=
  ([Status.ok, .nackAddr, .nackData, .timeout, .retryExhausted, .illegalCmd, .badArg, .alloc, .config].map Status.word =
    [0x0000#16, 0xFFFF#16, 0xFFFE#16, 0xFFFD#16, 0xFFFC#16, 0xFFFB#16, 0xFFFA#16, 0xFFF9#16, 0xFFF8#16]) ∧
  ∀ (i : Instr) (s t : State) (r : Reply), exec i s = .next t → t.replies = s.replies ++ [r] →
    (r.status = .ok ∧ r.words.length = resultWords i) ∨
    (r.status ∈ errorsOf s.par i ∧ r.words.length = infoWords r.status)

/-- R402, classes 1 and 2: a command that ends with ERR_BAD_ARG did nothing else, and it returns no words. -/
def Obligations.BadArgIsPrecise : Prop :=
  ∀ (i : Instr) (s t : State) (words : List Word), exec i s = .next t → t.replies = s.replies ++ [⟨.badArg, words⟩] →
    words = [] ∧ t = { s with replies := s.replies ++ [⟨.badArg, []⟩] }

/-- R119 with R112, R113: each operand check that fails ends its command with ERR_BAD_ARG, RLEN 0, before any state
change or event. -/
def Obligations.OperandChecks : Prop :=
  ∀ s : State, let bad : Host.Outcome State Fault Refusal := .next { s with replies := s.replies ++ [⟨.badArg, []⟩] }
    (∀ (hold : Bool) (a n : Word) (data : List Word), 128 ≤ a.toNat → exec (.busWrite hold a n data) s = bad) ∧
    (∀ (hold : Bool) (a n : Word), 128 ≤ a.toNat → exec (.busRead hold a n) s = bad) ∧
    (∀ a start count : Word, 128 ≤ a.toNat → exec (.regReadw a start count) s = bad) ∧
    (∀ a addr value : Word, 128 ≤ a.toNat → exec (.regWritew a addr value) s = bad) ∧
    (∀ (n last : Word) (data : List Word), n.toNat = 2 * data.length + 1 → last.toNat % 256 ≠ 0 →
      (∀ (hold : Bool) (a : Word), exec (.busWrite hold a n (data ++ [last])) s = bad) ∧
      exec (.dlData n (data ++ [last])) s = bad ∧
      ∀ (transp : Bool) (x y fg bg : Word), exec (.fbText transp x y fg bg n (data ++ [last])) s = bad) ∧
    (∀ a start count : Word, count.toNat = 0 ∨ s.par.maxReadWords < count.toNat →
      exec (.regReadw a start count) s = bad) ∧
    (∀ code : Word, 256 ≤ code.toNat → exec (.dlCmd code) s = bad) ∧
    (∀ (transp : Bool) (x y ch fg bg : Word), 256 ≤ ch.toNat → exec (.fbChar transp x y ch fg bg) s = bad) ∧
    (∀ r g b : Word, 256 ≤ r.toNat ∨ 256 ≤ g.toNat ∨ 256 ≤ b.toNat → exec (.pixPack r g b) s = bad) ∧
    (∀ x0 y0 x1 y1 : Word,
      ¬(x0.toNat ≤ x1.toNat ∧ x1.toNat ≤ s.par.width - 1 ∧ y0.toNat ≤ y1.toNat ∧ y1.toNat ≤ s.par.height - 1) →
      exec (.dlWindow x0 y0 x1 y1) s = bad) ∧
    (∀ x y : Word, s.par.clipMode = .discard →
      ¬(0 ≤ x.toInt ∧ x.toInt < s.par.width ∧ 0 ≤ y.toInt ∧ y.toInt < s.par.height) →
      exec (.fbGetpixel x y) s = bad)

/-! ## Invariants every step keeps -/

/-- R44: INV0 and INV1 hold in every reset state and are kept by every step, from every state that has them. -/
def Obligations.StepKeepsFramebufferInvariants : Prop :=
  (∀ (b : Board) (dc : Dc), Inv0 (State.resetOf b dc) ∧ Inv1 (State.resetOf b dc)) ∧
  ∀ s t : State, Inv0 s → Inv1 s → step s = .next t → Inv0 t ∧ Inv1 t

/-- R80, R81, R301: no step reaches a Frame, Baseline, Dirty or Stale index outside its space, and the memories keep their
canonical form (log 10). -/
def Obligations.StepKeepsMemories : Prop :=
  ∀ s t : State, MemoriesLegal s → step s = .next t → MemoriesLegal t

/-- R37, R39, R199: between commands the bus is held with SCL low or released, and chip-select is off. R45, R380-R382: the
mapper is in its identity state or holds non-degenerate anchors with their rotation. -/
def Obligations.StepKeepsLinesAndMapper : Prop :=
  ∀ s t : State, step s = .next t →
    (BusLegal s → BusLegal t) ∧ (ChipSelectOff s → ChipSelectOff t) ∧ (MapperLegal s → MapperLegal t)

/-! ## Units (10_state.md R46; 20_memory.md R91; 60_exceptions.md R412) -/

/-- R46, R91, R201, R412: a command writes only the state of its unit, and drives only its wire. The agents and the draws
in State are the model's (log 2). -/
def Obligations.UnitsAreSeparate : Prop :=
  ∀ (i : Instr) (s t : State), exec i s = .next t →
    (usesBus i = false → t.sclDrv = s.sclDrv ∧ t.sdaDrv = s.sdaDrv ∧ t.busInit = s.busInit ∧ t.busHeld = s.busHeld ∧
      t.sensor = s.sensor) ∧
    (usesDisplay i = false → t.dcLine = s.dcLine ∧ t.csLine = s.csLine) ∧
    (i ≠ .dlInit → t.dispInit = s.dispInit) ∧
    (draws i = false → t.frame = s.frame) ∧
    (i ≠ .fbFlush → t.baseline = s.baseline) ∧
    (draws i = false → i ≠ .fbFlush → i ≠ .dlInit → t.dirty = s.dirty) ∧
    (i ≠ .fbFlush → i ≠ .dlInit → t.stale = s.stale) ∧
    ((∀ ax ay bx byy, i ≠ .mapConfig ax ay bx byy) →
      t.mapValid = s.mapValid ∧ t.mapA = s.mapA ∧ t.mapB = s.mapB ∧ t.mapRot = s.mapRot) ∧
    (usesBus i = true → GrewByBusEvents s t) ∧
    (usesDisplay i = true → GrewByDisplayEvents s t) ∧
    (usesBus i = false → usesDisplay i = false → t.trace = s.trace)

/-- R472, R470: every command ends after at most the events its unit's rules count. -/
def Obligations.EventsAreBounded : Prop :=
  ∀ (i : Instr) (s t : State), exec i s = .next t → t.trace.length ≤ s.trace.length + eventBound s.par i

/-! ## Pixel format (40_color.md) -/

/-- R160: PIX.PACK keeps the top 5, 6 and 5 bits of its channels; nothing else changes. -/
def Obligations.PixPackResult : Prop :=
  ∀ (s : State) (r g b : Word),
    encode (.pixPack r g b) = [0x0001#16, 3#16, r, g, b] ∧
    (r.toNat ≤ 255 ∧ g.toNat ≤ 255 ∧ b.toNat ≤ 255 →
      exec (.pixPack r g b) s = .next { s with
        replies := s.replies ++ [⟨.ok, [wordOfNat (r.toNat / 8 * 2048 + g.toNat / 4 * 32 + b.toNat / 8)]⟩] }) ∧
    (¬(r.toNat ≤ 255 ∧ g.toNat ≤ 255 ∧ b.toNat ≤ 255) →
      exec (.pixPack r g b) s = .next { s with replies := s.replies ++ [⟨.badArg, []⟩] })

/-- R161: PIX.UNPACK returns the three channels with zero low bits; nothing else changes. -/
def Obligations.PixUnpackResult : Prop :=
  ∀ (s : State) (c : Word),
    encode (.pixUnpack c) = [0x0002#16, 1#16, c] ∧
    exec (.pixUnpack c) s = .next { s with
      replies := s.replies ++ [⟨.ok, [wordOfNat (c.toNat / 2048 * 8), wordOfNat (c.toNat / 32 % 64 * 4),
        wordOfNat (c.toNat % 32 * 8)]⟩] }

/-- R162: unpacking a packed colour gives each channel's top bits, and packing an unpacked colour gives the colour. -/
def Obligations.PixRoundTrip : Prop :=
  (∀ (s : State) (r g b : Word), r.toNat ≤ 255 → g.toNat ≤ 255 → b.toNat ≤ 255 →
    ∃ c t, exec (.pixPack r g b) s = .next t ∧ t.replies = s.replies ++ [⟨.ok, [c]⟩] ∧
      exec (.pixUnpack c) t = .next { t with
        replies := t.replies ++ [⟨.ok, [r &&& 0xF8#16, g &&& 0xFC#16, b &&& 0xF8#16]⟩] }) ∧
  ∀ (s : State) (c : Word), ∃ r g b t,
    exec (.pixUnpack c) s = .next t ∧ t.replies = s.replies ++ [⟨.ok, [r, g, b]⟩] ∧
    exec (.pixPack r g b) t = .next { t with replies := t.replies ++ [⟨.ok, [c]⟩] }

/-! ## Two-wire bus (41_transport.md) -/

/-- R191: BUS.INIT releases SDA then SCL, sets busInit, clears busHeld, and draws nothing. -/
def Obligations.BusInitResult : Prop :=
  encode .busInit = [0x0010#16, 0#16] ∧
  ∀ s : State, exec .busInit s = .next { s with
    sclDrv := .rel, sdaDrv := .rel, busInit := true, busHeld := false, trace := s.trace ++ [.sdaRel, .sclRel],
    sensor := (s.sensor.observe .sdaRel).observe .sclRel, replies := s.replies ++ [⟨.ok, []⟩] }

/-- R193, R192, R197: a BUS.WRITE of the bytes `bytes` that is ACKed throughout gives exactly the trace of R193, lazily
initialising the bus, and returns OK with the lines of R199. -/
def Obligations.BusWriteAcked : Prop :=
  ∀ (s : State) (hold : Bool) (a : Word) (bytes : List Byte) (rest : List Bool), a.toNat ≤ 127 → bytes.length ≤ 65535 →
    (let ts := lazyTokens s ++ writeTokens (writeByteOf a) bytes hold
     s.sensor = .oracle (busAnswers ts ++ rest) →
     exec (.busWrite hold a (wordOfNat bytes.length) (packBytes bytes)) s = .next (s.afterBus ts hold rest ⟨.ok, []⟩))

/-- R195, R196, R113: a BUS.READ whose address byte is ACKed and that receives the bytes `vs` gives exactly the trace of
R195 with the acknowledgments of READ_FINAL_ACK, and returns the bytes packed. -/
def Obligations.BusReadAcked : Prop :=
  ∀ (s : State) (hold : Bool) (a : Word) (vs : List Byte) (rest : List Bool), a.toNat ≤ 127 → vs.length ≤ 65535 →
    (let ts := lazyTokens s ++ readTokens s.par.readFinalAck (readByteOf a) vs hold
     s.sensor = .oracle (busAnswers ts ++ rest) →
     exec (.busRead hold a (wordOfNat vs.length)) s = .next (s.afterBus ts hold rest ⟨.ok, packBytes vs⟩))

/-- R193, R194, R195: a NACKed address byte ends a write or a read with a stop and ERR_NACK_ADDR; a NACKed data byte k ends
a write with a stop and ERR_NACK_DATA [k], whatever H is, and no later byte is sent. R190: when the clock does not read high
in that stop, ERR_TIMEOUT takes the place of the NACK's status, and SDA stays pulled low. -/
def Obligations.BusNacked : Prop :=
  ∀ (s : State) (hold : Bool) (a : Word) (bytes : List Byte) (rest : List Bool), a.toNat ≤ 127 → bytes.length ≤ 65535 →
    (s.sensor = .oracle (busAnswers (lazyTokens s ++ refusedTokens (writeByteOf a)) ++ rest) →
      exec (.busWrite hold a (wordOfNat bytes.length) (packBytes bytes)) s =
        .next (s.afterBus (lazyTokens s ++ refusedTokens (writeByteOf a)) false rest ⟨.nackAddr, []⟩)) ∧
    (s.sensor = .oracle (busAnswers (lazyTokens s ++ refusedTokens (readByteOf a)) ++ rest) →
      ∀ n : Word, exec (.busRead hold a n) s =
        .next (s.afterBus (lazyTokens s ++ refusedTokens (readByteOf a)) false rest ⟨.nackAddr, []⟩)) ∧
    (∀ k, k < bytes.length →
      s.sensor = .oracle (busAnswers (lazyTokens s ++ cutTokens (writeByteOf a) bytes k) ++ rest) →
      exec (.busWrite hold a (wordOfNat bytes.length) (packBytes bytes)) s =
        .next (s.afterBus (lazyTokens s ++ cutTokens (writeByteOf a) bytes k) false rest ⟨.nackData, [wordOfNat k]⟩)) ∧
    (let stuckStop := fun (ts : List BusToken) =>
       s.afterTimeout .low (busTrace ts ++ [.sdaLo, .sclRel]) ((busAnswers ts).length + 1) rest
     let before := fun (ts : List BusToken) => lazyTokens s ++ ts.dropLast
     (s.sensor = .oracle (busAnswers (before (refusedTokens (writeByteOf a))) ++ false :: rest) →
       exec (.busWrite hold a (wordOfNat bytes.length) (packBytes bytes)) s =
         .next (stuckStop (before (refusedTokens (writeByteOf a))))) ∧
     (s.sensor = .oracle (busAnswers (before (refusedTokens (readByteOf a))) ++ false :: rest) →
       ∀ n : Word, exec (.busRead hold a n) s = .next (stuckStop (before (refusedTokens (readByteOf a))))) ∧
     ∀ k, k < bytes.length →
       s.sensor = .oracle (busAnswers (before (cutTokens (writeByteOf a) bytes k)) ++ false :: rest) →
       exec (.busWrite hold a (wordOfNat bytes.length) (packBytes bytes)) s =
         .next (stuckStop (before (cutTokens (writeByteOf a) bytes k))))

/-- R182, R184, R190: a start whose clock never reads high, or whose data line is stuck, ends the transaction with
ERR_TIMEOUT at once; busInit and busHeld are cleared and the drivers keep their last values, released. -/
def Obligations.BusStartTimesOut : Prop :=
  ∀ (s : State) (hold : Bool) (a : Word) (bytes : List Byte) (n : Word) (rest : List Bool), a.toNat ≤ 127 →
    bytes.length ≤ 65535 →
    (s.sensor = .oracle (false :: rest) →
      exec (.busWrite hold a (wordOfNat bytes.length) (packBytes bytes)) s =
        .next (s.afterTimeout .rel (busTrace (lazyTokens s) ++ [.sdaRel, .sclRel]) 1 rest) ∧
      exec (.busRead hold a n) s = .next (s.afterTimeout .rel (busTrace (lazyTokens s) ++ [.sdaRel, .sclRel]) 1 rest)) ∧
    (s.sensor = .oracle (true :: false :: rest) →
      exec (.busWrite hold a (wordOfNat bytes.length) (packBytes bytes)) s =
        .next (s.afterTimeout .rel (busTrace (lazyTokens s) ++ [.sdaRel, .sclRel, .waitSda]) 2 rest) ∧
      exec (.busRead hold a n) s =
        .next (s.afterTimeout .rel (busTrace (lazyTokens s) ++ [.sdaRel, .sclRel, .waitSda]) 2 rest))

/-- R199, R201, R190: against every agent on the bus a BUS.WRITE ends in one of four ways: OK, an address NACK or a data NACK,
each with its exact trace, lines and flags; or a timeout, whose trace is that of one of these three cut at a release of the
clock or at the check of SDA, the stop after a NACK among them, with SCL released, SDA as last written and both flags 0.
Only the bus side changes and only bus events are emitted. -/
def Obligations.BusWriteEnds : Prop :=
  ∀ (s : State) (hold : Bool) (a : Word) (bytes : List Byte), a.toNat ≤ 127 → bytes.length ≤ 65535 →
    ∃ t r, exec (.busWrite hold a (wordOfNat bytes.length) (packBytes bytes)) s = .next t ∧
      OnlyBus { s with replies := s.replies ++ [r] } t ∧ GrewByBusEvents s t ∧
      ((r = ⟨.ok, []⟩ ∧ t.trace = s.trace ++ busTrace (lazyTokens s ++ writeTokens (writeByteOf a) bytes hold) ∧
          t.sclDrv = (if hold then .low else .rel) ∧ t.sdaDrv = .rel ∧ t.busInit = true ∧ t.busHeld = hold) ∨
       (r = ⟨.nackAddr, []⟩ ∧ t.trace = s.trace ++ busTrace (lazyTokens s ++ refusedTokens (writeByteOf a)) ∧
          t.sclDrv = .rel ∧ t.sdaDrv = .rel ∧ t.busInit = true ∧ t.busHeld = false) ∨
       (∃ k, k < bytes.length ∧ r = ⟨.nackData, [wordOfNat k]⟩ ∧
          t.trace = s.trace ++ busTrace (lazyTokens s ++ cutTokens (writeByteOf a) bytes k) ∧
          t.sclDrv = .rel ∧ t.sdaDrv = .rel ∧ t.busInit = true ∧ t.busHeld = false) ∨
       (r = ⟨.timeout, []⟩ ∧ t.sclDrv = .rel ∧ t.busInit = false ∧ t.busHeld = false ∧
          ∃ ts es, (ts = writeTokens (writeByteOf a) bytes hold ∨ ts = refusedTokens (writeByteOf a) ∨
              ∃ k, k < bytes.length ∧ ts = cutTokens (writeByteOf a) bytes k) ∧
            CutByTimeout ts es ∧ t.trace = s.trace ++ (busTrace (lazyTokens s) ++ es) ∧ t.sdaDrv = sdaAfter .rel es))

/-- R199, R201, R190, R195: against every agent on the bus a BUS.READ ends in one of three ways: OK or an address NACK, with
its exact trace, lines and flags; or a timeout, whose trace is that of one of these two cut at a release of the clock or at
the check of SDA, the stop after a NACK among them, with SCL released, SDA as last written and both flags 0. On an error the
result carries no data; only the bus side changes and only bus events are emitted. -/
def Obligations.BusReadEnds : Prop :=
  ∀ (s : State) (hold : Bool) (a n : Word), a.toNat ≤ 127 →
    ∃ t r, exec (.busRead hold a n) s = .next t ∧
      OnlyBus { s with replies := s.replies ++ [r] } t ∧ GrewByBusEvents s t ∧
      ((∃ vs : List Byte, vs.length = n.toNat ∧ r = ⟨.ok, packBytes vs⟩ ∧
          t.trace = s.trace ++ busTrace (lazyTokens s ++ readTokens s.par.readFinalAck (readByteOf a) vs hold) ∧
          t.sclDrv = (if hold then .low else .rel) ∧ t.sdaDrv = .rel ∧ t.busInit = true ∧ t.busHeld = hold) ∨
       (r = ⟨.nackAddr, []⟩ ∧ t.trace = s.trace ++ busTrace (lazyTokens s ++ refusedTokens (readByteOf a)) ∧
          t.sclDrv = .rel ∧ t.sdaDrv = .rel ∧ t.busInit = true ∧ t.busHeld = false) ∨
       (r = ⟨.timeout, []⟩ ∧ t.sclDrv = .rel ∧ t.busInit = false ∧ t.busHeld = false ∧
          ∃ ts es, ((∃ vs : List Byte, vs.length = n.toNat ∧
              ts = readTokens s.par.readFinalAck (readByteOf a) vs hold) ∨ ts = refusedTokens (readByteOf a)) ∧
            CutByTimeout ts es ∧ t.trace = s.trace ++ (busTrace (lazyTokens s) ++ es) ∧ t.sdaDrv = sdaAfter .rel es))

/-! ## Sensor registers (42_register_access.md) -/

/-- R230: a REG command makes attempts until one returns OK, at most MAX_ATTEMPTS, with `initBus()` between them and none
after the last; then it returns the last cause and MAX_ATTEMPTS. (For a MAX_ATTEMPTS that fits no u16 the second word is the
model's choice, a free value: log 7.) -/
def Obligations.RegRetries : Prop :=
  (∀ (s : State) (a start count : Word), a.toNat ≤ 127 → 1 ≤ count.toNat → count.toNat ≤ s.par.maxReadWords →
    ∃ t, exec (.regReadw a start count) s = .next t ∧ RetryEnds (txReadWords a start count) s t) ∧
  ∀ (s : State) (a addr value : Word), a.toNat ≤ 127 →
    ∃ t, exec (.regWritew a addr value) s = .next t ∧ RetryEnds (txWriteWord a addr value) s t

/-- R231, R232: a REG.READW whose first attempt succeeds writes the pointer with the bus held, reads two bytes a word with
the bus released, and returns exactly the words; a REG.WRITEW whose first attempt succeeds is one four-byte write, address
and value high byte first, and a stop. -/
def Obligations.RegFirstAttempt : Prop :=
  (∀ (s : State) (a start : Word) (ws : List Word) (rest : List Bool), a.toNat ≤ 127 → 1 ≤ ws.length →
    ws.length ≤ s.par.maxReadWords →
    (let ts := lazyTokens s ++ writeTokens (writeByteOf a) [hi start, lo start] true ++
       readTokens s.par.readFinalAck (readByteOf a) (bytesOfWords ws) false
     s.sensor = .oracle (busAnswers ts ++ rest) →
     exec (.regReadw a start (wordOfNat ws.length)) s = .next (s.afterBus ts false rest ⟨.ok, ws⟩))) ∧
  ∀ (s : State) (a addr value : Word) (rest : List Bool), a.toNat ≤ 127 →
    (let ts := lazyTokens s ++ writeTokens (writeByteOf a) [hi addr, lo addr, hi value, lo value] false
     s.sensor = .oracle (busAnswers ts ++ rest) →
     exec (.regWritew a addr value) s = .next (s.afterBus ts false rest ⟨.ok, []⟩))

/-- R233, R467: against no target a REG command returns ERR_RETRY_EXHAUSTED [0xFFFF, MAX_ATTEMPTS] after exactly
MAX_ATTEMPTS address bytes and MAX_ATTEMPTS - 1 reinitialisations; against a target that holds SDA low, the same with cause
0xFFFD, and the bus is left uninitialised. (The second word is the model's free value where the parameter fits no u16,
log 7.) -/
def Obligations.RegAgainstDeadBus : Prop :=
  ∀ (s : State) (i : Instr) (a : Word), a.toNat ≤ 127 →
    ((∃ start count, i = .regReadw a start count ∧ 1 ≤ count.toNat ∧ count.toNat ≤ s.par.maxReadWords) ∨
     ∃ addr value, i = .regWritew a addr value) →
    (s.sensor = .absent → ∃ t w, exec i s = .next t ∧
      t.replies = s.replies ++ [⟨.retryExhausted, [0xFFFF#16, w]⟩] ∧
      (s.par.maxAttempts ≤ 65535 → w = wordOfNat s.par.maxAttempts) ∧
      t.trace = s.trace ++ busTrace (lazyTokens s ++ refusedAttempts (writeByteOf a) s.par.maxAttempts)) ∧
    (s.sensor = .stuck → ∃ t w, exec i s = .next t ∧
      t.replies = s.replies ++ [⟨.retryExhausted, [0xFFFD#16, w]⟩] ∧
      (s.par.maxAttempts ≤ 65535 → w = wordOfNat s.par.maxAttempts) ∧ t.busInit = false)

/-- R464, R233: against every agent on the bus a REG command that passes its operand checks leaves the bus released, changes
only the bus side, and returns OK or ERR_RETRY_EXHAUSTED. -/
def Obligations.RegNeverHoldsBus : Prop :=
  ∀ (s : State) (i : Instr),
    ((∃ a start count : Word, i = .regReadw a start count ∧ a.toNat ≤ 127 ∧ 1 ≤ count.toNat ∧
        count.toNat ≤ s.par.maxReadWords) ∨
     ∃ a addr value : Word, i = .regWritew a addr value ∧ a.toNat ≤ 127) →
    ∃ t r, exec i s = .next t ∧ OnlyBus { s with replies := s.replies ++ [r] } t ∧ GrewByBusEvents s t ∧
      t.busHeld = false ∧ t.sclDrv = .rel ∧ (r.status = .ok ∨ r.status = .retryExhausted)

/-- R250 with R231, R232: what REG.WRITEW writes to the reference target, REG.READW reads back, and every other register
reads as before. The bit-level target is the model's reading of R250 (log 14). -/
def Obligations.TargetReadsBackWrites : Prop :=
  ∀ (s : State) (memory : Memory Word) (a addr value other : Word), a.toNat ≤ 127 →
    s.sensor = .device (Target.mk0 (a.extractLsb' 0 7) memory 0 0 none) →
    ∃ t u, exec (.regWritew a addr value) s = .next t ∧ t.replies = s.replies ++ [⟨.ok, []⟩] ∧
      exec (.regReadw a other 1#16) t = .next u ∧
      u.replies = t.replies ++ [⟨.ok, [if other = addr then value else memory.read 0#16 other.toNat]⟩]

/-! ## Display link (43_display_link.md) -/

/-- R264: DL.CMD sends one command byte in its own frame, or nothing and ERR_BAD_ARG for a code above 0xFF. -/
def Obligations.DlCmdResult : Prop :=
  ∀ (s : State) (code : Word),
    encode (.dlCmd code) = [0x0031#16, 1#16, code] ∧
    (code.toNat ≤ 255 → exec (.dlCmd code) s = .next { s with
      dcLine := .cmd, csLine := .off, trace := s.trace ++ [.dc .cmd, .csOn, .byte (lo code), .csOff],
      replies := s.replies ++ [⟨.ok, []⟩] }) ∧
    (256 ≤ code.toNat → exec (.dlCmd code) s = .next { s with replies := s.replies ++ [⟨.badArg, []⟩] })

/-- R265: DL.DATA sends its bytes in one data frame, and nothing for no bytes; a nonzero pad byte is ERR_BAD_ARG. -/
def Obligations.DlDataResult : Prop :=
  (∀ (n : Word) (data : List Word), encode (.dlData n data) = 0x0032#16 :: wordOfNat (1 + data.length) :: n :: data) ∧
  (∀ (s : State) (bytes : List Byte), bytes.length ≤ 65535 →
    (packBytes bytes).length = (bytes.length + 1) / 2 ∧
    exec (.dlData (wordOfNat bytes.length) (packBytes bytes)) s = .next (
      if bytes = [] then { s with replies := s.replies ++ [⟨.ok, []⟩] }
      else { s with dcLine := .data, csLine := .off, trace := s.trace ++ [.dc .data, .csOn] ++ bytes.map .byte ++ [.csOff],
                    replies := s.replies ++ [⟨.ok, []⟩] })) ∧
  ∀ (s : State) (n last : Word) (data : List Word), n.toNat = 2 * data.length + 1 → last.toNat % 256 ≠ 0 →
    exec (.dlData n (data ++ [last])) s = .next { s with replies := s.replies ++ [⟨.badArg, []⟩] }

/-- R266: DL.WORDS sends its words in one data frame, each high byte first, and nothing for no words. -/
def Obligations.DlWordsResult : Prop :=
  ∀ (s : State) (words : List Word), words.length ≤ 65534 →
    encode (.dlWords (wordOfNat words.length) words) =
      0x0033#16 :: wordOfNat (1 + words.length) :: wordOfNat words.length :: words ∧
    exec (.dlWords (wordOfNat words.length) words) s = .next (
      if words = [] then { s with replies := s.replies ++ [⟨.ok, []⟩] }
      else { s with
        dcLine := .data, csLine := .off,
        trace := s.trace ++ ([.dc .data, .csOn] ++ (words.flatMap fun w => [.byte (hi w), .byte (lo w)]) ++ [.csOff]),
        replies := s.replies ++ [⟨.ok, []⟩] })

/-- R267: DL.WINDOW sends the five frames of a window inside the display, and nothing and ERR_BAD_ARG for any other. -/
def Obligations.DlWindowResult : Prop :=
  ∀ (s : State) (x0 y0 x1 y1 : Word),
    encode (.dlWindow x0 y0 x1 y1) = [0x0034#16, 4#16, x0, y0, x1, y1] ∧
    (x0.toNat ≤ x1.toNat ∧ x1.toNat ≤ s.par.width - 1 ∧ y0.toNat ≤ y1.toNat ∧ y1.toNat ≤ s.par.height - 1 →
      exec (.dlWindow x0 y0 x1 y1) s = .next { s with
        dcLine := .cmd, csLine := .off,
        trace := s.trace ++
          [.dc .cmd, .csOn, .byte s.par.cmdCaset, .csOff,
           .dc .data, .csOn, .byte (hi x0), .byte (lo x0), .byte (hi x1), .byte (lo x1), .csOff,
           .dc .cmd, .csOn, .byte s.par.cmdRaset, .csOff,
           .dc .data, .csOn, .byte (hi y0), .byte (lo y0), .byte (hi y1), .byte (lo y1), .csOff,
           .dc .cmd, .csOn, .byte s.par.cmdRamwr, .csOff],
        replies := s.replies ++ [⟨.ok, []⟩] }) ∧
    (¬(x0.toNat ≤ x1.toNat ∧ x1.toNat ≤ s.par.width - 1 ∧ y0.toNat ≤ y1.toNat ∧ y1.toNat ≤ s.par.height - 1) →
      exec (.dlWindow x0 y0 x1 y1) s = .next { s with replies := s.replies ++ [⟨.badArg, []⟩] })

/-- R270: DL.INIT, in every state, emits the nine frames and seven delays in order, sets dispInit and every Dirty and Stale
flag of the grid, and changes no other flag and nothing else. -/
def Obligations.DlInitResult : Prop :=
  encode .dlInit = [0x0030#16, 0#16] ∧
  ∀ s : State, ∃ t, exec .dlInit s = .next t ∧
    t = { s with
      dcLine := .cmd, csLine := .off, dispInit := true, dirty := t.dirty, stale := t.stale,
      trace := s.trace ++ initSequenceEvents s.par, replies := s.replies ++ [⟨.ok, []⟩] } ∧
    (∀ k, k < s.par.cells → t.dirtyAt k = true ∧ t.staleAt k = true) ∧
    ∀ k, s.par.cells ≤ k → t.dirtyAt k = s.dirtyAt k ∧ t.staleAt k = s.staleAt k

/-- R292: after a DL.WINDOW and a DL.WORDS of exactly its pixels, the reference controller holds the words in the order of
PIXEL_ORDER, and no other cell of its memory changed. `ready` and the distinct codes are the model's reading of R286 and
R287 (log 15). -/
def Obligations.WindowWriteLaw : Prop :=
  ∀ (s : State) (k : Controller) (x0 y0 x1 y1 : Word) (ws : List Word),
    WindowCodesDistinct s.par → k.ready = true →
    x0.toNat ≤ x1.toNat → x1.toNat ≤ s.par.width - 1 → y0.toNat ≤ y1.toNat → y1.toNat ≤ s.par.height - 1 →
    ws.length ≤ 65534 → ws.length = (x1.toNat - x0.toNat + 1) * (y1.toNat - y0.toNat + 1) →
    ∃ t u es, exec (.dlWindow x0 y0 x1 y1) s = .next t ∧ exec (.dlWords (wordOfNat ws.length) ws) t = .next u ∧
      u.trace = s.trace ++ es ∧
      (∀ i j, i ≤ x1.toNat - x0.toNat → j ≤ y1.toNat - y0.toNat →
        (k.run s.par es).gramAt (idx s.par (x0.toNat + i) (y0.toNat + j)) =
          match s.par.pixelOrder with
          | .rowMajor => ws[j * (x1.toNat - x0.toNat + 1) + i]?
          | .columnMajor => ws[i * (y1.toNat - y0.toNat + 1) + j]?) ∧
      ∀ p, (∀ i j, i ≤ x1.toNat - x0.toNat → j ≤ y1.toNat - y0.toNat →
          p ≠ idx s.par (x0.toNat + i) (y0.toNat + j)) →
        (k.run s.par es).gramAt p = k.gramAt p

/-! ## Drawing (44_framebuffer.md) -/

/-- R301, R80: CLAMP moves a point to the nearest pixel, DISCARD drops one outside; what is left is a pixel of the Frame,
at an index of its memory. -/
def Obligations.ClipPoint : Prop :=
  ∀ (b : Board) (x y : Int),
    (b.val.clipMode = .clamp → clipPoint b.val x y =
      some ((min (max x 0) (b.val.width - 1)).toNat, (min (max y 0) (b.val.height - 1)).toNat)) ∧
    (b.val.clipMode = .discard → 0 ≤ x ∧ x < b.val.width ∧ 0 ≤ y ∧ y < b.val.height →
      clipPoint b.val x y = some (x.toNat, y.toNat)) ∧
    (b.val.clipMode = .discard → ¬(0 ≤ x ∧ x < b.val.width ∧ 0 ≤ y ∧ y < b.val.height) →
      clipPoint b.val x y = none) ∧
    ∀ q, clipPoint b.val x y = some q → q.1 < b.val.width ∧ q.2 < b.val.height ∧
      q.2 * b.val.width + q.1 < b.val.width * b.val.height

/-- R302: FB.PIXEL writes the one pixel its point is clipped to and marks its cell when the colour differs from
Baseline; a dropped point writes nothing. -/
def Obligations.FbPixelResult : Prop :=
  ∀ (s : State) (x y c : Word), encode (.fbPixel x y c) = [0x0040#16, 3#16, x, y, c] ∧
    ∃ t, exec (.fbPixel x y c) s = .next t ∧
    t = { s with frame := t.frame, dirty := t.dirty, replies := s.replies ++ [⟨.ok, []⟩] } ∧
    (clipPoint s.par x.toInt y.toInt = none → t.frame = s.frame ∧ t.dirty = s.dirty) ∧
    ∀ q, clipPoint s.par x.toInt y.toInt = some q →
      (∀ p, t.frameAt p = if p = q.2 * s.par.width + q.1 then c else s.frameAt p) ∧
      ∀ k, t.dirtyAt k =
        if k = cellOf s.par q.1 q.2 ∧ c ≠ s.baselineAt (q.2 * s.par.width + q.1) then true else s.dirtyAt k

/-- R303: FB.GETPIXEL returns the Frame pixel its point is clipped to and changes nothing; a dropped point is
ERR_BAD_ARG. -/
def Obligations.FbGetpixelResult : Prop :=
  ∀ (s : State) (x y : Word),
    encode (.fbGetpixel x y) = [0x0041#16, 2#16, x, y] ∧
    (∀ q, clipPoint s.par x.toInt y.toInt = some q → exec (.fbGetpixel x y) s =
      .next { s with replies := s.replies ++ [⟨.ok, [s.frameAt (q.2 * s.par.width + q.1)]⟩] }) ∧
    (clipPoint s.par x.toInt y.toInt = none →
      exec (.fbGetpixel x y) s = .next { s with replies := s.replies ++ [⟨.badArg, []⟩] })

/-- R310: FB.RECT whose allocation does not fail paints exactly the pixels of the normalised rectangle, its corners clamped
under CLAMP and the rectangle cut under DISCARD, and marks exactly the cells where the colour differs from Baseline. One
whose allocation fails ends with ERR_ALLOC and changes nothing but the draws (log 2), which are taken only when
FILLRECT_MAY_FAIL. -/
def Obligations.FbRectResult : Prop :=
  ∀ (s : State) (x0 y0 x1 y1 c : Word),
    encode (.fbRect x0 y0 x1 y1 c) = [0x0042#16, 5#16, x0, y0, x1, y1, c] ∧
    (let alloc := if s.par.fillrectMayFail then s.alloc.tail else s.alloc
     let drawn := if s.par.fillrectMayFail then s.drawn + 1 else s.drawn
     (s.allocFails = true → exec (.fbRect x0 y0 x1 y1 c) s =
       .next { s with alloc := alloc, drawn := drawn, replies := s.replies ++ [⟨.alloc, []⟩] }) ∧
     (s.allocFails = false → ∃ t, exec (.fbRect x0 y0 x1 y1 c) s = .next t ∧
       t = { s with frame := t.frame, dirty := t.dirty, alloc := alloc, drawn := drawn,
                    replies := s.replies ++ [⟨.ok, []⟩] } ∧
       (let clip := fun (v : Int) (n : Nat) => if s.par.clipMode = .clamp then min (max v 0) ((n : Int) - 1) else v
        let inside := fun (x y : Nat) =>
          clip (min x0.toInt x1.toInt) s.par.width ≤ x ∧ x ≤ clip (max x0.toInt x1.toInt) s.par.width ∧
          clip (min y0.toInt y1.toInt) s.par.height ≤ y ∧ y ≤ clip (max y0.toInt y1.toInt) s.par.height
        (∀ x y, x < s.par.width → y < s.par.height → inside x y → t.frameAt (y * s.par.width + x) = c) ∧
        (∀ p, (∀ x y, x < s.par.width → y < s.par.height → inside x y → p ≠ y * s.par.width + x) →
          t.frameAt p = s.frameAt p) ∧
        ∀ k, t.dirtyAt k = true ↔ (s.dirtyAt k = true ∨ ∃ x y, x < s.par.width ∧ y < s.par.height ∧ inside x y ∧
          k = cellOf s.par x y ∧ c ≠ s.baselineAt (y * s.par.width + x)))))

/-- R320, R321: FB.LINE plots a list of points in its colour, and the Frame and the Dirty flags are those of the plots. The
list has as many points as the longer side needs, all distinct, with both ends, each a step from the one before; the other
way round it is the same; and along the major coordinate, rising, point i lies as far off as the error term of R320 has
stepped. -/
def Obligations.FbLineResult : Prop :=
  ∀ (s : State) (x0 y0 x1 y1 c : Word), encode (.fbLine x0 y0 x1 y1 c) = [0x0043#16, 5#16, x0, y0, x1, y1, c] ∧
    ∃ t points, exec (.fbLine x0 y0 x1 y1 c) s = .next t ∧
    t = { s with frame := t.frame, dirty := t.dirty, replies := s.replies ++ [⟨.ok, []⟩] } ∧
    (∀ p, t.frameAt p =
      if ∃ d ∈ points, ∃ q, clipPoint s.par d.1 d.2 = some q ∧ p = q.2 * s.par.width + q.1 then c
      else s.frameAt p) ∧
    (∀ k, t.dirtyAt k = true ↔ (s.dirtyAt k = true ∨ ∃ d ∈ points, ∃ q, clipPoint s.par d.1 d.2 = some q ∧
      k = cellOf s.par q.1 q.2 ∧ c ≠ s.baselineAt (q.2 * s.par.width + q.1))) ∧
    points = linePoints x0.toInt y0.toInt x1.toInt y1.toInt ∧
    points = linePoints x1.toInt y1.toInt x0.toInt y0.toInt ∧
    points.length = (max |x1.toInt - x0.toInt| |y1.toInt - y0.toInt|).toNat + 1 ∧
    points.Nodup ∧ (x0.toInt, y0.toInt) ∈ points ∧ (x1.toInt, y1.toInt) ∈ points ∧
    (points.IsChain fun d e =>
      if |x1.toInt - x0.toInt| < |y1.toInt - y0.toInt| then |e.2 - d.2| = 1 ∧ |e.1 - d.1| ≤ 1
      else |e.1 - d.1| = 1 ∧ |e.2 - d.2| ≤ 1) ∧
    (let steps := fun (i : Nat) (dx dy : Int) => ((i : Int) * dy + dx - 1 - dx / 2) / dx
     (|y1.toInt - y0.toInt| ≤ x1.toInt - x0.toInt → ∀ i, i < points.length → points[i]? = some (x0.toInt + i,
       y0.toInt + (if y0.toInt < y1.toInt then 1 else -1) * steps i (x1.toInt - x0.toInt) |y1.toInt - y0.toInt|)) ∧
     (|x1.toInt - x0.toInt| < y1.toInt - y0.toInt → ∀ i, i < points.length → points[i]? = some (
       x0.toInt + (if x0.toInt < x1.toInt then 1 else -1) * steps i (y1.toInt - y0.toInt) |x1.toInt - x0.toInt|,
       y0.toInt + i)))

/-- R330, R331: whatever CIRCLE_SET is admitted, FB.CIRCLE of a radius R ≥ 0 paints its centre, paints no pixel but those
its points within R + 1 of the centre are clipped to, marks no cell but theirs, and clears no Dirty flag; R < 0 draws
nothing. -/
def Obligations.FbCircleAnySet : Prop :=
  ∀ (s : State) (cx cy r c : Word), ∃ t, exec (.fbCircle cx cy r c) s = .next t ∧
    t = { s with frame := t.frame, dirty := t.dirty, replies := s.replies ++ [⟨.ok, []⟩] } ∧
    (r.toInt < 0 → t.frame = s.frame ∧ t.dirty = s.dirty) ∧
    (0 ≤ r.toInt → ∀ q, clipPoint s.par cx.toInt cy.toInt = some q → t.frameAt (q.2 * s.par.width + q.1) = c) ∧
    (∀ p, (∀ (dx dy : Int) (q : Nat × Nat), dx * dx + dy * dy ≤ (r.toInt + 1) * (r.toInt + 1) →
        clipPoint s.par (cx.toInt + dx) (cy.toInt + dy) = some q → p ≠ q.2 * s.par.width + q.1) →
      t.frameAt p = s.frameAt p) ∧
    (∀ k, s.dirtyAt k = true → t.dirtyAt k = true) ∧
    ∀ k, t.dirtyAt k = true → s.dirtyAt k = false → ∃ (dx dy : Int) (q : Nat × Nat),
      dx * dx + dy * dy ≤ (r.toInt + 1) * (r.toInt + 1) ∧
      clipPoint s.par (cx.toInt + dx) (cy.toInt + dy) = some q ∧ k = cellOf s.par q.1 q.2

/-- R332, R330: with the default DISK, FB.CIRCLE paints exactly the pixels of dx² + dy² ≤ R², and marks exactly the cells
where the colour differs from Baseline. -/
def Obligations.FbCircleDisk : Prop :=
  ∀ (s : State) (cx cy r c : Word), s.par.circleSet = .disk → 0 ≤ r.toInt →
    ∃ t, exec (.fbCircle cx cy r c) s = .next t ∧
      t = { s with frame := t.frame, dirty := t.dirty, replies := s.replies ++ [⟨.ok, []⟩] } ∧
      (let hit := fun (q : Nat × Nat) => ∃ dx dy : Int, dx * dx + dy * dy ≤ r.toInt * r.toInt ∧
         clipPoint s.par (cx.toInt + dx) (cy.toInt + dy) = some q
       (∀ q, hit q → t.frameAt (q.2 * s.par.width + q.1) = c) ∧
       (∀ p, (∀ q, hit q → p ≠ q.2 * s.par.width + q.1) → t.frameAt p = s.frameAt p) ∧
       ∀ k, t.dirtyAt k = true ↔ (s.dirtyAt k = true ∨
         ∃ q, hit q ∧ k = cellOf s.par q.1 q.2 ∧ c ≠ s.baselineAt (q.2 * s.par.width + q.1)))

/-! ## Text (45_text.md) -/

/-- R361: FB.CHAR makes the PLOT calls of its glyph in every place; with its box inside the Frame it writes exactly the box:
foreground where the font has a 1, background or, with T, nothing where it has a 0; the cells of written pixels that differ
from Baseline are marked. A character above 0xFF is ERR_BAD_ARG. -/
def Obligations.FbCharResult : Prop :=
  ∀ (s : State) (transp : Bool) (x y ch fg bg : Word),
    encode (.fbChar transp x y ch fg bg) = [if transp then 0x0148#16 else 0x0048#16, 5#16, x, y, ch, fg, bg] ∧
    (256 ≤ ch.toNat → exec (.fbChar transp x y ch fg bg) s =
      .next { s with replies := s.replies ++ [⟨.badArg, []⟩] }) ∧
    (ch.toNat ≤ 255 → ∃ t, exec (.fbChar transp x y ch fg bg) s = .next t ∧
      t = (s.plotAll ((List.range s.par.glyphH).flatMap fun j => (List.range s.par.glyphW).flatMap fun i =>
        if fontBit s.par (lo ch) j i then [⟨x.toInt + i, y.toInt + j, fg⟩]
        else if transp then [] else [⟨x.toInt + i, y.toInt + j, bg⟩])).finish [] ∧
      t = { s with frame := t.frame, dirty := t.dirty, replies := s.replies ++ [⟨.ok, []⟩] } ∧
      (∀ k, s.dirtyAt k = true → t.dirtyAt k = true) ∧
      (0 ≤ x.toInt → x.toInt + s.par.glyphW ≤ s.par.width → 0 ≤ y.toInt → y.toInt + s.par.glyphH ≤ s.par.height →
        (∀ i j, i < s.par.glyphW → j < s.par.glyphH →
          t.frameAt ((y.toInt.toNat + j) * s.par.width + (x.toInt.toNat + i)) =
            if fontBit s.par (lo ch) j i then fg
            else if transp then s.frameAt ((y.toInt.toNat + j) * s.par.width + (x.toInt.toNat + i)) else bg) ∧
        (∀ p, (∀ i j, i < s.par.glyphW → j < s.par.glyphH →
            p ≠ (y.toInt.toNat + j) * s.par.width + (x.toInt.toNat + i)) → t.frameAt p = s.frameAt p) ∧
        ∀ k, t.dirtyAt k = true ↔ (s.dirtyAt k = true ∨ ∃ i j, i < s.par.glyphW ∧ j < s.par.glyphH ∧
          (fontBit s.par (lo ch) j i = true ∨ transp = false) ∧
          k = cellOf s.par (x.toInt.toNat + i) (y.toInt.toNat + j) ∧
          (if fontBit s.par (lo ch) j i then fg else bg) ≠
            s.baselineAt ((y.toInt.toNat + j) * s.par.width + (x.toInt.toNat + i)))))

/-- R362: FB.TEXT makes the PLOT calls of glyph m at X + m*ADVANCE, computed in int, one glyph after the other; where the
positions fit s16 it draws what the FB.CHAR commands at X, X + ADVANCE, ... draw, in that order. A nonzero pad byte is
ERR_BAD_ARG. -/
def Obligations.FbTextResult : Prop :=
  (∀ (transp : Bool) (x y fg bg n : Word) (chars : List Word), encode (.fbText transp x y fg bg n chars) =
    (if transp then 0x0149#16 else 0x0049#16) :: wordOfNat (5 + chars.length) :: x :: y :: fg :: bg :: n :: chars) ∧
  (∀ (s : State) (transp : Bool) (x y fg bg : Word) (chars : List Byte), chars.length ≤ 65535 →
    (packBytes chars).length = (chars.length + 1) / 2 ∧
    ∃ t, exec (.fbText transp x y fg bg (wordOfNat chars.length) (packBytes chars)) s = .next t ∧
      t = (s.plotAll (chars.zipIdx.flatMap fun p =>
        glyphPlots s.par (x.toInt + (p.2 : Int) * s.par.advance) y.toInt p.1 fg bg transp)).finish [] ∧
      t = { s with frame := t.frame, dirty := t.dirty, replies := s.replies ++ [⟨.ok, []⟩] } ∧
      (x.toInt + (chars.length : Int) * s.par.advance ≤ 32767 →
        ∃ u, runCommands (chars.zipIdx.map fun p =>
            .fbChar transp (wordOfInt (x.toInt + (p.2 : Int) * s.par.advance)) y (p.1.setWidth 16) fg bg) s = .next u ∧
          t.frame = u.frame ∧ t.dirty = u.dirty)) ∧
  ∀ (s : State) (transp : Bool) (x y fg bg n last : Word) (data : List Word), n.toNat = 2 * data.length + 1 →
    last.toNat % 256 ≠ 0 →
    exec (.fbText transp x y fg bg n (data ++ [last])) s = .next { s with replies := s.replies ++ [⟨.badArg, []⟩] }

/-! ## Flush (44_framebuffer.md R340-R343) -/

/-- R340, R343: FB.FLUSH in every state. The cells it sends are those that are dirty and either stale or different from
Baseline, in row-major order; it emits for each its six frames and nothing else, its CELL_W*CELL_H pixel words in the order
of PIXEL_ORDER; it returns their number; every Dirty flag of the grid is cleared, the Stale flags and the Baseline pixels of
the sent cells are updated, and nothing else changes. With INV0 and INV1 every Stale flag is 0 after it and Baseline is the
Frame. -/
def Obligations.FbFlushResult : Prop :=
  encode .fbFlush = [0x0045#16, 0#16] ∧
  (∀ (s : State) (gx gy : Nat), (cellWords s gx gy).length = s.par.cellW * s.par.cellH ∧
    ∀ i j, i < s.par.cellW → j < s.par.cellH →
      (cellWords s gx gy)[match s.par.pixelOrder with
        | .rowMajor => j * s.par.cellW + i
        | .columnMajor => i * s.par.cellH + j]? =
        some (s.frameAt (idx s.par (gx * s.par.cellW + i) (gy * s.par.cellH + j)))) ∧
  ∀ s : State, ∃ t sent, exec .fbFlush s = .next t ∧
    sent.Sublist (cellsInOrder s.par) ∧
    (∀ gx gy, (gx, gy) ∈ sent ↔ gx < s.par.gridW ∧ gy < s.par.gridH ∧
      s.dirtyAt (gy * s.par.gridW + gx) = true ∧ (s.staleAt (gy * s.par.gridW + gx) = true ∨
        ∃ x y, gx * s.par.cellW ≤ x ∧ x < gx * s.par.cellW + s.par.cellW ∧ gy * s.par.cellH ≤ y ∧
          y < gy * s.par.cellH + s.par.cellH ∧ s.frameAt (idx s.par x y) ≠ s.baselineAt (idx s.par x y))) ∧
    t = { s with
      dcLine := if sent = [] then s.dcLine else .data
      csLine := if sent = [] then s.csLine else .off
      baseline := t.baseline, dirty := t.dirty, stale := t.stale
      trace := s.trace ++ sent.flatMap (cellEvents s)
      replies := s.replies ++ [⟨.ok, [wordOfNat sent.length]⟩] } ∧
    sent.length ≤ s.par.cells ∧ sent.length ≤ 65535 ∧
    (sent.flatMap (cellEvents s)).count .csOn = 6 * sent.length ∧
    (sent.flatMap (cellEvents s)).length = sent.length * (26 + 3 + 2 * (s.par.cellW * s.par.cellH)) ∧
    (∀ k, t.dirtyAt k = if k < s.par.cells then false else s.dirtyAt k) ∧
    (∀ k, t.staleAt k = if ∃ g ∈ sent, k = g.2 * s.par.gridW + g.1 then false else s.staleAt k) ∧
    (∀ x y, x < s.par.width → y < s.par.height → t.baselineAt (idx s.par x y) =
      if (x / s.par.cellW, y / s.par.cellH) ∈ sent then s.frameAt (idx s.par x y) else s.baselineAt (idx s.par x y)) ∧
    (∀ p, s.par.width * s.par.height ≤ p → t.baselineAt p = s.baselineAt p) ∧
    (Inv0 s → Inv1 s → (∀ k, k < s.par.cells → t.staleAt k = false) ∧
      ∀ x y, x < s.par.width → y < s.par.height → t.baselineAt (idx s.par x y) = s.frameAt (idx s.par x y))

/-- R341: the flush guarantee. A flush of a state with INV0, INV1 and INV2 keeps INV2 and leaves the controller showing
Frame. `ready` and the distinct codes are the model's reading of R286 and R287 (log 15). -/
def Obligations.FlushGuarantee : Prop :=
  ∀ (s : State) (k : Controller), WindowCodesDistinct s.par → k.ready = true → Inv0 s → Inv1 s → Inv2 k s →
    ∃ t es, exec .fbFlush s = .next t ∧ t.trace = s.trace ++ es ∧ Inv2 (k.run s.par es) t ∧
      ∀ x y, x < s.par.width → y < s.par.height →
        (k.run s.par es).gramAt (idx s.par x y) = some (t.frameAt (idx s.par x y))

/-- R341, last sentence, R463: from any state and any controller, after a DL.INIT, any commands but the raw display
commands, and an FB.FLUSH, the controller shows Frame. The distinct codes are the model's reading of R287 (log 15). -/
def Obligations.DisplayShowsFrame : Prop :=
  ∀ (s : State) (k : Controller) (commands : List Instr), WindowCodesDistinct s.par →
    s.par.cmdDispon ≠ s.par.cmdSwreset → (∀ i ∈ commands, rawDisplay i = false) →
    ∃ t es, runCommands (.dlInit :: commands ++ [.fbFlush]) s = .next t ∧ t.trace = s.trace ++ es ∧
      ∀ x y, x < s.par.width → y < s.par.height →
        (k.run s.par es).gramAt (idx s.par x y) = some (t.frameAt (idx s.par x y))

/-- R342: after a flush, a second one with no drawing command and no DL.INIT between emits no event, returns [0] and
changes nothing else; with drawing commands between too, from a state with INV0 and INV1, whenever every pixel equals its
Baseline again, but that it clears the Dirty flags the drawing set. -/
def Obligations.FlushIsIdempotent : Prop :=
  (∀ (s : State) (commands : List Instr),
    (∀ i ∈ commands, draws i = false ∧ i ≠ .dlInit) →
    ∃ t u, runCommands (.fbFlush :: commands) s = .next t ∧ exec .fbFlush t = .next u ∧
      u = { t with baseline := u.baseline, dirty := u.dirty, stale := u.stale, replies := t.replies ++ [⟨.ok, [0#16]⟩] } ∧
      (∀ p, u.baselineAt p = t.baselineAt p) ∧ (∀ k, u.dirtyAt k = t.dirtyAt k) ∧ ∀ k, u.staleAt k = t.staleAt k) ∧
  ∀ (s : State) (commands : List Instr), Inv0 s → Inv1 s → (∀ i ∈ commands, i ≠ .dlInit) →
    ∃ t u, runCommands (.fbFlush :: commands) s = .next t ∧ exec .fbFlush t = .next u ∧
      ((∀ x y, x < s.par.width → y < s.par.height → t.frameAt (idx s.par x y) = t.baselineAt (idx s.par x y)) →
        u = { t with baseline := u.baseline, dirty := u.dirty, stale := u.stale,
                     replies := t.replies ++ [⟨.ok, [0#16]⟩] } ∧
        (∀ p, u.baselineAt p = t.baselineAt p) ∧ (∀ k, u.staleAt k = t.staleAt k) ∧
        ∀ k, u.dirtyAt k = if k < t.par.cells then false else t.dirtyAt k)

/-- R340, corner case: the first flush after a reset or a DL.INIT sends every cell, whatever was drawn between. -/
def Obligations.FirstFlushSendsEveryCell : Prop :=
  ∀ (s t : State) (commands : List Instr),
    ((∃ (b : Board) (dc : Dc), s = State.resetOf b dc) ∨ ∃ u, exec .dlInit u = .next s) →
    (∀ i ∈ commands, i ≠ .fbFlush) → runCommands commands s = .next t →
    ∃ v, exec .fbFlush t = .next v ∧ v.replies = t.replies ++ [⟨.ok, [wordOfNat t.par.cells]⟩] ∧
      v.trace = t.trace ++ (cellsInOrder t.par).flatMap (cellEvents t)

/-! ## Mapper (46_mapper.md) -/

/-- R380, R381, R382: MAP.CONFIG stores non-degenerate anchors with their rotation and returns it; degenerate ones install
the identity state and return ERR_CONFIG. Nothing else changes. -/
def Obligations.MapConfigResult : Prop :=
  ∀ (s : State) (ax ay bx byy : Word),
    encode (.mapConfig ax ay bx byy) = [0x0050#16, 4#16, ax, ay, bx, byy] ∧
    (ax = bx ∨ ay = byy → exec (.mapConfig ax ay bx byy) s = .next { s with
      mapValid := false, mapA := ⟨0#16, 0#16⟩, mapB := ⟨0#16, 0#16⟩, mapRot := .r0,
      replies := s.replies ++ [⟨.config, []⟩] }) ∧
    (ax ≠ bx → ay ≠ byy → ∃ rot word, exec (.mapConfig ax ay bx byy) s = .next { s with
        mapValid := true, mapA := ⟨ax, ay⟩, mapB := ⟨bx, byy⟩, mapRot := rot,
        replies := s.replies ++ [⟨.ok, [word]⟩] } ∧
      (ax.toInt < bx.toInt → ay.toInt < byy.toInt → rot = .r0 ∧ word = 0#16) ∧
      (ax.toInt < bx.toInt → byy.toInt < ay.toInt → rot = .r90 ∧ word = 90#16) ∧
      (bx.toInt < ax.toInt → byy.toInt < ay.toInt → rot = .r180 ∧ word = 180#16) ∧
      (bx.toInt < ax.toInt → ay.toInt < byy.toInt → rot = .r270 ∧ word = 270#16))

/-- R383, R384, R385: MAP.POINT returns, of the exact rational point, each coordinate rounded half up, the roles of row and
column swapped for 90 and 270 degrees; ERR_BAD_ARG when one does not fit s16; in the identity state x = COL, y = ROW.
Nothing changes. -/
def Obligations.MapPointResult : Prop :=
  ∀ (s : State) (row col : Word),
    encode (.mapPoint row col) = [0x0051#16, 2#16, row, col] ∧
    (s.mapValid = false →
      exec (.mapPoint row col) s = .next { s with replies := s.replies ++ [⟨.ok, [col, row]⟩] }) ∧
    (s.mapValid = true →
      let swap := s.mapRot = .r90 ∨ s.mapRot = .r270
      let u : ℚ := if swap then row.toInt else col.toInt
      let v : ℚ := if swap then col.toInt else row.toInt
      let maxU : ℚ := if swap then s.par.sensorMaxRow else s.par.sensorMaxCol
      let maxV : ℚ := if swap then s.par.sensorMaxCol else s.par.sensorMaxRow
      let x : ℤ := ⌊(s.mapA.x.toInt : ℚ) + (s.mapB.x.toInt - s.mapA.x.toInt) / maxU * u + 1 / 2⌋
      let y : ℤ := ⌊(s.mapA.y.toInt : ℚ) + (s.mapB.y.toInt - s.mapA.y.toInt) / maxV * v + 1 / 2⌋
      ((-32768 ≤ x ∧ x ≤ 32767) ∧ (-32768 ≤ y ∧ y ≤ 32767) →
        exec (.mapPoint row col) s = .next { s with replies := s.replies ++ [⟨.ok, [wordOfInt x, wordOfInt y]⟩] }) ∧
      (¬((-32768 ≤ x ∧ x ≤ 32767) ∧ (-32768 ≤ y ∧ y ≤ 32767)) →
        exec (.mapPoint row col) s = .next { s with replies := s.replies ++ [⟨.badArg, []⟩] }))

/-- R386, first bullet: with the anchors of the 0 and the 90 degree cases on the display's corners, the sensor's corners
map to the display's corners, the axes swapped at 90 degrees. -/
def Obligations.MapCorners : Prop :=
  ∀ s : State, 2 ≤ s.par.width → 2 ≤ s.par.height → s.par.sensorMaxRow ≤ 32767 → s.par.sensorMaxCol ≤ 32767 →
    (let w1 := wordOfNat (s.par.width - 1)
     let h1 := wordOfNat (s.par.height - 1)
     let rmax := wordOfNat s.par.sensorMaxRow
     let cmax := wordOfNat s.par.sensorMaxCol
     let gives := fun (t : State) (row col x y : Word) =>
       exec (.mapPoint row col) t = .next { t with replies := t.replies ++ [⟨.ok, [x, y]⟩] }
     (∃ t, exec (.mapConfig 0#16 0#16 w1 h1) s = .next t ∧
       gives t 0#16 0#16 0#16 0#16 ∧ gives t rmax cmax w1 h1) ∧
     ∃ t, exec (.mapConfig 0#16 h1 w1 0#16) s = .next t ∧
       gives t 0#16 0#16 0#16 h1 ∧ gives t rmax cmax w1 0#16 ∧ gives t rmax 0#16 w1 h1 ∧ gives t 0#16 cmax 0#16 0#16)

/-- R386, second and third bullets: for sensor addresses inside the sensor, MAP.POINT answers with a point between the
anchors, and each display coordinate is monotone in its sensor coordinate. -/
def Obligations.MapBetweenAndMonotone : Prop :=
  ∀ s : State, s.mapValid = true →
    (∀ row col : Word, 0 ≤ row.toInt → row.toInt ≤ s.par.sensorMaxRow → 0 ≤ col.toInt →
      col.toInt ≤ s.par.sensorMaxCol →
      ∃ x y : Word, exec (.mapPoint row col) s = .next { s with replies := s.replies ++ [⟨.ok, [x, y]⟩] } ∧
        min s.mapA.x.toInt s.mapB.x.toInt ≤ x.toInt ∧ x.toInt ≤ max s.mapA.x.toInt s.mapB.x.toInt ∧
        min s.mapA.y.toInt s.mapB.y.toInt ≤ y.toInt ∧ y.toInt ≤ max s.mapA.y.toInt s.mapB.y.toInt) ∧
    ∀ row col row' col' x y x' y' : Word,
      exec (.mapPoint row col) s = .next { s with replies := s.replies ++ [⟨.ok, [x, y]⟩] } →
      exec (.mapPoint row' col') s = .next { s with replies := s.replies ++ [⟨.ok, [x', y']⟩] } →
      row.toInt ≤ row'.toInt → col.toInt ≤ col'.toInt →
      (s.mapA.x.toInt ≤ s.mapB.x.toInt → x.toInt ≤ x'.toInt) ∧ (s.mapB.x.toInt ≤ s.mapA.x.toInt → x'.toInt ≤ x.toInt) ∧
      (s.mapA.y.toInt ≤ s.mapB.y.toInt → y.toInt ≤ y'.toInt) ∧ (s.mapB.y.toInt ≤ s.mapA.y.toInt → y'.toInt ≤ y.toInt)

/-! ## The display over many steps (44_framebuffer.md R341; 70_reset_and_hazards.md R461, R463) -/

/-- R341, second bullet: every command but the raw display ones keeps INV2, and the controller stays initialised unless a
DL.INIT whose two codes are one resets it; so does every step that runs no raw display command. `ready` and the distinct
codes are the model's reading of R286 and R287 (log 15). -/
def Obligations.StepKeepsDisplayInvariant : Prop :=
  ∀ (s t : State) (k : Controller) (es : List Event), WindowCodesDistinct s.par → k.ready = true → Inv0 s → Inv1 s →
    Inv2 k s → t.trace = s.trace ++ es →
    (∀ i : Instr, rawDisplay i = false → exec i s = .next t →
      Inv2 (k.run s.par es) t ∧
      ((i = .dlInit → s.par.cmdDispon ≠ s.par.cmdSwreset) → (k.run s.par es).ready = true)) ∧
    ((∀ i frame rest, s.port = frame ++ rest → decode frame = .ok i → rawDisplay i = false) → step s = .next t →
      Inv2 (k.run s.par es) t ∧ (s.par.cmdDispon ≠ s.par.cmdSwreset → (k.run s.par es).ready = true))

/-- R461, R289: after a DL.WINDOW the block sends as many words as the next DL.WORDS has. Fewer than the window's pixels leave
the rest of the window unchanged, and however many there are, no cell outside the window changes. After a DL.CMD between,
which ends the pixel mode, the words change no cell. After a DL.DATA of some bytes between, which ends the pixel mode too, no
cell outside the window has changed and the words change no cell; what the bytes of the DL.DATA itself did to the window's
cells is left unknown, the model's choice (log 19). `ready` and the distinct codes are the model's reading of R286 and R287
(log 15). -/
def Obligations.WindowCountHazards : Prop :=
  ∀ (s : State) (k : Controller) (x0 y0 x1 y1 : Word), WindowCodesDistinct s.par → k.ready = true →
    x0.toNat ≤ x1.toNat → x1.toNat ≤ s.par.width - 1 → y0.toNat ≤ y1.toNat → y1.toNat ≤ s.par.height - 1 →
    ∃ t es, exec (.dlWindow x0 y0 x1 y1) s = .next t ∧ t.trace = s.trace ++ es ∧
      (let k1 := k.run s.par es
       let w := x1.toNat - x0.toNat + 1
       let h := y1.toNat - y0.toNat + 1
       let outside := fun (p : Nat) => ∀ i j, i < w → j < h → p ≠ idx s.par (x0.toNat + i) (y0.toNat + j)
       (∀ ws : List Word, ws.length ≤ 65534 → ∃ u fs, exec (.dlWords (wordOfNat ws.length) ws) t = .next u ∧
         u.trace = t.trace ++ fs ∧ (∀ p, outside p → (k1.run s.par fs).gramAt p = k.gramAt p) ∧
         (ws.length ≤ w * h → ∀ i j, i < w → j < h →
           (k1.run s.par fs).gramAt (idx s.par (x0.toNat + i) (y0.toNat + j)) =
             match ws[match s.par.pixelOrder with | .rowMajor => j * w + i | .columnMajor => i * h + j]? with
             | some c => some c
             | none => k.gramAt (idx s.par (x0.toNat + i) (y0.toNat + j)))) ∧
       (∀ (code : Word) (ws : List Word), code.toNat ≤ 255 → lo code ≠ s.par.cmdRamwr → lo code ≠ s.par.cmdSwreset →
         ws.length ≤ 65534 → ∃ u v fs, exec (.dlCmd code) t = .next u ∧
           exec (.dlWords (wordOfNat ws.length) ws) u = .next v ∧ v.trace = t.trace ++ fs ∧
           ∀ p, (k1.run s.par fs).gramAt p = k.gramAt p) ∧
       ∀ bytes : List Byte, bytes ≠ [] → bytes.length ≤ 65535 →
         ∃ i u fs, i = .dlData (wordOfNat bytes.length) (packBytes bytes) ∧ exec i t = .next u ∧
           u.trace = t.trace ++ fs ∧ (∀ p, outside p → (k1.runCommand s.par i fs).gramAt p = k.gramAt p) ∧
           (∀ a b, a < w → b < h → (k1.runCommand s.par i fs).gramAt (idx s.par (x0.toNat + a) (y0.toNat + b)) = none) ∧
           ∀ ws : List Word, ws.length ≤ 65534 → ∃ j v gs, j = .dlWords (wordOfNat ws.length) ws ∧ exec j u = .next v ∧
             v.trace = u.trace ++ gs ∧ ∀ p, ((k1.runCommand s.par i fs).runCommand s.par j gs).gramAt p =
               (k1.runCommand s.par i fs).gramAt p)
end

