-- ==== Sys2Proof/Laws/Bits.lean ====
section
/-! SUPPORT. Small facts about bytes, words and packed arrays. -/

namespace Sys2Proof

@[simp] theorem hi_toNat (w : Word) : (hi w).toNat = w.toNat / 256 := by
  have := w.isLt
  simp only [hi, BitVec.extractLsb'_toNat, Nat.shiftRight_eq_div_pow]
  omega

@[simp] theorem lo_toNat (w : Word) : (lo w).toNat = w.toNat % 256 := by
  simp [lo, BitVec.extractLsb'_toNat]

@[simp] theorem cat_toNat (h l : Byte) : (cat h l).toNat = h.toNat * 256 + l.toNat := by
  have := l.isLt
  show (BitVec.append h l).toNat = _
  rw [show BitVec.append h l = h ++ l from rfl, BitVec.toNat_append, Nat.shiftLeft_eq,
    Nat.mul_comm, ← Nat.two_pow_add_eq_or_of_lt (by omega), Nat.mul_comm]

@[simp] theorem hi_cat (h l : Byte) : hi (cat h l) = h := by
  apply BitVec.eq_of_toNat_eq
  have := l.isLt
  rw [hi_toNat, cat_toNat]
  omega

@[simp] theorem lo_cat (h l : Byte) : lo (cat h l) = l := by
  apply BitVec.eq_of_toNat_eq
  have := l.isLt
  rw [lo_toNat, cat_toNat]
  omega

@[simp] theorem cat_hi_lo (w : Word) : cat (hi w) (lo w) = w := by
  apply BitVec.eq_of_toNat_eq
  rw [cat_toNat, hi_toNat, lo_toNat]
  omega

@[simp] theorem wordOfNat_toNat {n : Nat} (h : n ≤ 65535) : (wordOfNat n).toNat = n := by
  rw [wordOfNat, BitVec.toNat_ofNat]
  omega

@[simp] theorem wordOfNat_toNat_self (w : Word) : wordOfNat w.toNat = w := by
  simp [wordOfNat]

theorem bytesOfWords_length (ws : List Word) : (bytesOfWords ws).length = 2 * ws.length := by
  induction ws with
  | nil => rfl
  | cons w ws ih => simp only [bytesOfWords, List.flatMap_cons, List.length_append, List.length_cons,
      List.length_nil] at *; omega

theorem packBytes_length : ∀ bs : List Byte, (packBytes bs).length = ceilHalf bs.length
  | [] => rfl
  | [_] => by simp [packBytes, ceilHalf]
  | _ :: _ :: rest => by
    have := packBytes_length rest
    simp only [packBytes, List.length_cons, ceilHalf] at *
    omega

theorem packBytes_bytesOfWords (ws : List Word) : packBytes (bytesOfWords ws) = ws := by
  induction ws with
  | nil => rfl
  | cons w ws ih =>
    rw [show bytesOfWords (w :: ws) = hi w :: lo w :: bytesOfWords ws from rfl, packBytes, cat_hi_lo, ih]

theorem unpackBytes_length (n : Word) (ws : List Word) (h : ws.length = ceilHalf n.toNat) :
    (unpackBytes n ws).length = n.toNat := by
  simp only [unpackBytes, List.length_take, bytesOfWords_length, h, ceilHalf]
  omega

theorem bytesOfWords_packBytes :
    ∀ bs : List Byte, (bytesOfWords (packBytes bs)).take bs.length = bs
  | [] => rfl
  | [b] => by simp [packBytes, bytesOfWords]
  | b :: c :: rest => by
    have ih := bytesOfWords_packBytes rest
    rw [show bytesOfWords (packBytes (b :: c :: rest)) = hi (cat b c) :: lo (cat b c) :: bytesOfWords (packBytes rest)
      from rfl, hi_cat, lo_cat]
    simp [ih]

/-- The bits of a byte, put together most significant first, are the byte. -/
theorem bitsMsbFirst_value (b : Byte) :
    (bitsMsbFirst b).foldl (fun v x => 2 * v + x.toNat) 0 = b.toNat := by
  revert b
  decide

@[simp] theorem bitsMsbFirst_length (b : Byte) : (bitsMsbFirst b).length = 8 := rfl

/-- Packed bytes have the pad byte 0 (R113). -/
theorem padIsZero_pack (bytes : List Byte) (h : bytes.length ≤ 65535) :
    padIsZero (wordOfNat bytes.length) (packBytes bytes) = true := by
  rw [padIsZero, wordOfNat_toNat h]
  have : ∀ bytes : List Byte, bytes.length % 2 = 1 → lo ((packBytes bytes).getD (bytes.length / 2) 0#16) = 0#8 := by
    intro bytes
    induction bytes using packBytes.induct with
    | case1 => simp
    | case2 b => intro; simp [packBytes]
    | case3 b c rest ih =>
      intro hl
      rw [packBytes]
      simp only [List.length_cons] at hl ⊢
      rw [show (rest.length + 1 + 1) / 2 = rest.length / 2 + 1 by omega, List.getD_cons_succ]
      exact ih (by omega)
  by_cases hl : bytes.length % 2 = 1
  · rw [this bytes hl]
    exact Bool.or_true _
  · rw [Bool.or_eq_true, beq_iff_eq]
    left
    omega

/-- A nonzero pad byte is found (R113). -/
theorem padIsZero_odd {n last : Word} {data : List Word} (h : n.toNat = 2 * data.length + 1)
    (hl : last.toNat % 256 ≠ 0) : padIsZero n (data ++ [last]) = false := by
  have : n.toNat / 2 = data.length := by omega
  rw [padIsZero, this, Bool.or_eq_false_iff]
  constructor
  · rw [beq_eq_false_iff_ne]; omega
  · rw [beq_eq_false_iff_ne]
    intro h'
    apply hl
    have := congrArg BitVec.toNat h'
    simpa using this

/-- Unpacking packed bytes gives them back (R113). -/
theorem unpack_pack (bytes : List Byte) (h : bytes.length ≤ 65535) :
    unpackBytes (wordOfNat bytes.length) (packBytes bytes) = bytes := by
  rw [unpackBytes, wordOfNat_toNat h, bytesOfWords_packBytes]

/-- A value that fits an s16 is the value of its word. -/
theorem wordOfInt_toInt {i : Int} (h : -32768 ≤ i ∧ i ≤ 32767) : (wordOfInt i).toInt = i := by
  rw [wordOfInt, BitVec.toInt_ofInt]
  rw [Int.bmod_def]
  split <;> omega

end Sys2Proof
end

