-- ==== Sys2Proof/Laws/Config.lean ====
section
/-! SUPPORT. What every board has, read off the constraints of 00_scope.md R9, and the arithmetic of pixels and cells
(20_memory.md R80, R82). -/

namespace Sys2Proof.Machine

theorem board_width (b : Board) : 1 ≤ b.val.width ∧ b.val.width ≤ 32767 := b.property.1
theorem board_height (b : Board) : 1 ≤ b.val.height ∧ b.val.height ≤ 32767 := b.property.2.1
theorem board_cellW (b : Board) : 1 ≤ b.val.cellW ∧ b.val.width % b.val.cellW = 0 := b.property.2.2.1
theorem board_cellH (b : Board) : 1 ≤ b.val.cellH ∧ b.val.height % b.val.cellH = 0 := b.property.2.2.2.1
theorem board_cells (b : Board) : b.val.cells ≤ 65535 := b.property.2.2.2.2.1
theorem board_circleSet (b : Board) : b.val.circleSet.Admitted := b.property.2.2.2.2.2.1
theorem board_advance (b : Board) : b.val.glyphW ≤ b.val.advance := b.property.2.2.2.2.2.2.2.2.1
theorem board_glyph (b : Board) : 1 ≤ b.val.glyphW ∧ 1 ≤ b.val.glyphH :=
  ⟨b.property.2.2.2.2.2.2.1, b.property.2.2.2.2.2.2.2.1⟩
theorem board_maxAttempts (b : Board) : 1 ≤ b.val.maxAttempts := b.property.2.2.2.2.2.2.2.2.2.1
theorem board_maxReadWords (b : Board) : 1 ≤ b.val.maxReadWords ∧ b.val.maxReadWords ≤ 32767 :=
  b.property.2.2.2.2.2.2.2.2.2.2.2.1
theorem board_sensorMax (b : Board) : 1 ≤ b.val.sensorMaxRow ∧ 1 ≤ b.val.sensorMaxCol :=
  b.property.2.2.2.2.2.2.2.2.2.2.2.2.2.1

/-- W = GW*CELL_W. -/
theorem board_width_eq (b : Board) : b.val.gridW * b.val.cellW = b.val.width :=
  Nat.div_mul_cancel (Nat.dvd_of_mod_eq_zero (board_cellW b).2)

/-- H = GH*CELL_H. -/
theorem board_height_eq (b : Board) : b.val.gridH * b.val.cellH = b.val.height :=
  Nat.div_mul_cancel (Nat.dvd_of_mod_eq_zero (board_cellH b).2)

/-- A pixel's column of cells exists. -/
theorem cellX_lt (b : Board) {x : Nat} (h : x < b.val.width) : x / b.val.cellW < b.val.gridW := by
  rw [Nat.div_lt_iff_lt_mul (board_cellW b).1, board_width_eq]
  exact h

/-- A pixel's row of cells exists. -/
theorem cellY_lt (b : Board) {y : Nat} (h : y < b.val.height) : y / b.val.cellH < b.val.gridH := by
  rw [Nat.div_lt_iff_lt_mul (board_cellH b).1, board_height_eq]
  exact h

/-- The index of a pixel of the Frame is in the Frame memory (R80). -/
theorem idx_lt (c : Config) {x y : Nat} (hx : x < c.width) (hy : y < c.height) : idx c x y < c.width * c.height := by
  have h : (y + 1) * c.width ≤ c.height * c.width := Nat.mul_le_mul_right _ hy
  rw [idx, Nat.mul_comm c.width]
  rw [Nat.add_mul] at h
  omega

/-- Two pixels of the Frame with one index are one pixel (R80). -/
theorem idx_inj (c : Config) {x y x' y' : Nat} (hx : x < c.width) (hx' : x' < c.width)
    (h : idx c x y = idx c x' y') : x = x' ∧ y = y' := by
  simp only [idx] at h
  have hw : 0 < c.width := by omega
  have hy : y = y' := by
    have h1 : (y * c.width + x) / c.width = y := by
      rw [Nat.mul_comm, Nat.mul_add_div hw, Nat.div_eq_of_lt hx, Nat.add_zero]
    have h2 : (y' * c.width + x') / c.width = y' := by
      rw [Nat.mul_comm, Nat.mul_add_div hw, Nat.div_eq_of_lt hx', Nat.add_zero]
    rw [← h1, ← h2, h]
  subst hy
  exact ⟨by omega, rfl⟩

/-- The cell of a pixel of the Frame is a cell of the grid (R82). -/
theorem cellOf_lt (b : Board) {x y : Nat} (hx : x < b.val.width) (hy : y < b.val.height) :
    cellOf b.val x y < b.val.cells := by
  have h1 := cellX_lt b hx
  have h2 : (y / b.val.cellH + 1) * b.val.gridW ≤ b.val.gridH * b.val.gridW :=
    Nat.mul_le_mul_right _ (cellY_lt b hy)
  rw [cellOf, Config.cells, Nat.mul_comm b.val.gridW]
  rw [Nat.add_mul] at h2
  omega

/-- Two cells of the grid with one number are one cell. -/
theorem cell_inj (c : Config) {gx gy gx' gy' : Nat} (hx : gx < c.gridW) (hx' : gx' < c.gridW)
    (h : gy * c.gridW + gx = gy' * c.gridW + gx') : gx = gx' ∧ gy = gy' := by
  have hw : 0 < c.gridW := by omega
  have hy : gy = gy' := by
    have h1 : (gy * c.gridW + gx) / c.gridW = gy := by
      rw [Nat.mul_comm, Nat.mul_add_div hw, Nat.div_eq_of_lt hx, Nat.add_zero]
    have h2 : (gy' * c.gridW + gx') / c.gridW = gy' := by
      rw [Nat.mul_comm, Nat.mul_add_div hw, Nat.div_eq_of_lt hx', Nat.add_zero]
    rw [← h1, ← h2, h]
  subst hy
  exact ⟨by omega, rfl⟩

/-- A clamped value lies in its range. -/
theorem clamp_mem {v low high : Int} (h : low ≤ high) : low ≤ clamp v low high ∧ clamp v low high ≤ high := by
  simp only [clamp]
  omega

/-- A value in the range stays. -/
theorem clamp_of_mem {v low high : Int} (h1 : low ≤ v) (h2 : v ≤ high) : clamp v low high = v := by
  simp only [clamp]
  omega

/-- Every clipped point is a pixel of the Frame: no access is out of bounds (44_framebuffer.md R301). -/
theorem clipPoint_mem (b : Board) {x y : Int} {q : Nat × Nat} (h : clipPoint b.val x y = some q) :
    q.1 < b.val.width ∧ q.2 < b.val.height := by
  have hw := board_width b
  have hh := board_height b
  rw [clipPoint] at h
  split at h
  · have h1 := clamp_mem (v := x) (low := 0) (high := b.val.width - 1) (by omega)
    have h2 := clamp_mem (v := y) (low := 0) (high := b.val.height - 1) (by omega)
    cases h
    constructor <;> simp only <;> omega
  · split at h
    · cases h
      constructor <;> simp only <;> omega
    · cases h

/-- A point of the Frame is clipped to itself (R301). -/
theorem clipPoint_inside (c : Config) {x y : Nat} (hx : x < c.width) (hy : y < c.height) :
    clipPoint c x y = some (x, y) := by
  rw [clipPoint]
  split
  · rw [clamp_of_mem (by omega) (by omega), clamp_of_mem (by omega) (by omega)]
    simp
  · rw [if_pos (by omega)]
    simp

end Sys2Proof.Machine
end

