-- ==== Sys2Proof/Laws/Memory.lean ====
section
/-! SUPPORT. The memories: reading after writing, for any list; and the canonical form, which every write keeps. -/

namespace Sys2Proof.Machine

variable {α : Type}

@[simp] theorem Memory.read_nil (d : α) (a : Nat) : Memory.read d [] a = d := rfl

theorem Memory.read_insert_self (d : α) (a : Nat) (v : α) (m : Memory α) (h : ∀ e ∈ m, e.1 ≠ a) :
    (Memory.insert a v m).read d a = v := by
  induction m with
  | nil => simp [Memory.insert, Memory.read]
  | cons e m ih =>
    obtain ⟨b, w⟩ := e
    have hb : a ≠ b := fun hab => h (b, w) (by simp) hab.symm
    rw [Memory.insert]
    split
    · simp [Memory.read]
    · simp only [Memory.read, hb, if_false]
      exact ih fun e he => h e (by simp [he])

theorem Memory.read_insert_ne (d : α) {a a' : Nat} (v : α) (m : Memory α) (h : a' ≠ a) :
    (Memory.insert a v m).read d a' = m.read d a' := by
  induction m with
  | nil => simp [Memory.insert, Memory.read, h]
  | cons e m ih =>
    obtain ⟨b, w⟩ := e
    rw [Memory.insert]
    split
    · simp [Memory.read, h]
    · simp only [Memory.read, ih]

theorem Memory.read_filter_ne (d : α) {a a' : Nat} (m : Memory α) (h : a' ≠ a) :
    Memory.read d (m.filter fun e => e.1 ≠ a) a' = m.read d a' := by
  induction m with
  | nil => rfl
  | cons e m ih =>
    obtain ⟨b, w⟩ := e
    by_cases hb : b = a
    · subst hb
      simp only [ne_eq, not_true_eq_false, decide_false, Bool.false_eq_true, not_false_eq_true,
        List.filter_cons_of_neg, Memory.read, h, if_false]
      exact ih
    · simp only [ne_eq, hb, not_false_eq_true, decide_true, List.filter_cons_of_pos, Memory.read]
      rw [← ih]

theorem Memory.read_of_unlisted (d : α) (a : Nat) (m : Memory α) (h : ∀ e ∈ m, e.1 ≠ a) : m.read d a = d := by
  induction m with
  | nil => rfl
  | cons e m ih =>
    have he : a ≠ e.1 := fun h' => h e (by simp) h'.symm
    simp only [Memory.read, he, if_false]
    exact ih fun e' h' => h e' (by simp [h'])

variable [DecidableEq α]

/-- What a write leaves at its own index. -/
@[simp] theorem Memory.read_write_self (d : α) (m : Memory α) (a : Nat) (v : α) : (m.write d a v).read d a = v := by
  have hrest : ∀ e ∈ m.filter (fun e => e.1 ≠ a), e.1 ≠ a := fun e he => by simpa using (List.mem_filter.mp he).2
  rw [Memory.write]
  split
  · rename_i hv
    rw [Memory.read_of_unlisted d a _ hrest, hv]
  · exact Memory.read_insert_self d a v _ hrest

/-- A write leaves every other index alone. -/
theorem Memory.read_write_ne (d : α) (m : Memory α) {a a' : Nat} (v : α) (h : a' ≠ a) :
    (m.write d a v).read d a' = m.read d a' := by
  rw [Memory.write]
  split
  · exact Memory.read_filter_ne d m h
  · exact (Memory.read_insert_ne d v _ h).trans (Memory.read_filter_ne d m h)

/-- A read after a write. -/
theorem Memory.read_write (d : α) (m : Memory α) (a a' : Nat) (v : α) :
    (m.write d a v).read d a' = if a' = a then v else m.read d a' := by
  split
  · rename_i h
    rw [h, Memory.read_write_self]
  · rename_i h
    exact Memory.read_write_ne d m v h

omit [DecidableEq α] in
theorem Memory.mem_insert {a : Nat} {v : α} {m : Memory α} {e : Nat × α} :
    e ∈ Memory.insert a v m ↔ e = (a, v) ∨ e ∈ m := by
  induction m with
  | nil => simp [Memory.insert]
  | cons f m ih =>
    rw [Memory.insert]
    split
    · simp
    · simp only [List.mem_cons, ih]
      tauto

/-- What a written memory lists: the new entry, and what was listed elsewhere. -/
theorem Memory.mem_write {d : α} {m : Memory α} {a : Nat} {v : α} {e : Nat × α} (he : e ∈ m.write d a v) :
    e = (a, v) ∨ e ∈ m := by
  rw [Memory.write] at he
  split at he
  · exact .inr (List.mem_filter.mp he).1
  · rcases Memory.mem_insert.mp he with h | h
    · exact .inl h
    · exact .inr (List.mem_filter.mp h).1

omit [DecidableEq α] in
theorem Memory.insert_rising {a : Nat} {v : α} {m : Memory α} (hm : m.Pairwise fun e f => e.1 < f.1)
    (ha : ∀ e ∈ m, e.1 ≠ a) : (Memory.insert a v m).Pairwise fun e f => e.1 < f.1 := by
  induction m with
  | nil => simp [Memory.insert]
  | cons e m ih =>
    obtain ⟨hhead, htail⟩ := List.pairwise_cons.mp hm
    have hne : e.1 ≠ a := ha e (by simp)
    rw [Memory.insert]
    split
    · rename_i hlt
      refine List.pairwise_cons.mpr ⟨fun f hf => ?_, hm⟩
      rcases List.mem_cons.mp hf with rfl | hf
      · exact hlt
      · exact Nat.lt_trans hlt (hhead f hf)
    · rename_i hlt
      refine List.pairwise_cons.mpr ⟨fun f hf => ?_, ih htail fun f hf => ha f (by simp [hf])⟩
      rcases Memory.mem_insert.mp hf with rfl | hf
      · simp only [] at *
        omega
      · exact hhead f hf

/-- The empty memory is canonical. -/
theorem Memory.wf_nil (d : α) : Memory.wf d [] := by simp [Memory.wf]

/-- Every write keeps the canonical form. -/
theorem Memory.wf_write {d : α} {m : Memory α} (h : Memory.wf d m) (a : Nat) (v : α) : Memory.wf d (m.write d a v) := by
  have hrest : ∀ e ∈ m.filter (fun e => e.1 ≠ a), e.1 ≠ a := fun e he => by simpa using (List.mem_filter.mp he).2
  refine ⟨?_, fun e he => ?_⟩
  · rw [Memory.write]
    split
    · exact h.1.filter _
    · exact Memory.insert_rising (h.1.filter _) hrest
  · rw [Memory.write] at he
    split at he
    · exact h.2 e (List.mem_filter.mp he).1
    · rename_i hv
      rcases Memory.mem_insert.mp he with rfl | he
      · exact hv
      · exact h.2 e (List.mem_filter.mp he).1

/-- Every write keeps the listed indices below a bound that holds the written one. -/
theorem Memory.bound_write {d : α} {m : Memory α} {n a : Nat} (h : ∀ e ∈ m, e.1 < n) (ha : a < n) (v : α) :
    ∀ e ∈ m.write d a v, e.1 < n := fun e he => by
  rcases Memory.mem_write he with rfl | he
  · exact ha
  · exact h e he

end Sys2Proof.Machine
end

