-- ==== Sys2Proof/Laws/State.lean ====
section
/-! SUPPORT. Each field after each update of the state: what the update writes, and that it writes nothing else. -/

namespace Sys2Proof.Machine

variable (s : State)

/-! ### emit -/

@[simp] theorem emit_cfg (e : Event) : (s.emit e).cfg = s.cfg := rfl
@[simp] theorem emit_par (e : Event) : (s.emit e).par = s.par := rfl
@[simp] theorem emit_sclDrv (e : Event) : (s.emit e).sclDrv = s.sclDrv := rfl
@[simp] theorem emit_sdaDrv (e : Event) : (s.emit e).sdaDrv = s.sdaDrv := rfl
@[simp] theorem emit_busInit (e : Event) : (s.emit e).busInit = s.busInit := rfl
@[simp] theorem emit_busHeld (e : Event) : (s.emit e).busHeld = s.busHeld := rfl
@[simp] theorem emit_dcLine (e : Event) : (s.emit e).dcLine = s.dcLine := rfl
@[simp] theorem emit_csLine (e : Event) : (s.emit e).csLine = s.csLine := rfl
@[simp] theorem emit_dispInit (e : Event) : (s.emit e).dispInit = s.dispInit := rfl
@[simp] theorem emit_frame (e : Event) : (s.emit e).frame = s.frame := rfl
@[simp] theorem emit_baseline (e : Event) : (s.emit e).baseline = s.baseline := rfl
@[simp] theorem emit_dirty (e : Event) : (s.emit e).dirty = s.dirty := rfl
@[simp] theorem emit_stale (e : Event) : (s.emit e).stale = s.stale := rfl
@[simp] theorem emit_mapValid (e : Event) : (s.emit e).mapValid = s.mapValid := rfl
@[simp] theorem emit_mapA (e : Event) : (s.emit e).mapA = s.mapA := rfl
@[simp] theorem emit_mapB (e : Event) : (s.emit e).mapB = s.mapB := rfl
@[simp] theorem emit_mapRot (e : Event) : (s.emit e).mapRot = s.mapRot := rfl
@[simp] theorem emit_port (e : Event) : (s.emit e).port = s.port := rfl
@[simp] theorem emit_replies (e : Event) : (s.emit e).replies = s.replies := rfl
@[simp] theorem emit_trace (e : Event) : (s.emit e).trace = s.trace ++ [e] := rfl
@[simp] theorem emit_sensor (e : Event) : (s.emit e).sensor = s.sensor.observe e := rfl
@[simp] theorem emit_alloc (e : Event) : (s.emit e).alloc = s.alloc := rfl
@[simp] theorem emit_drawn (e : Event) : (s.emit e).drawn = s.drawn := rfl

/-! ### emitDisplay -/

@[simp] theorem emitDisplay_cfg (es : List Event) : (s.emitDisplay es).cfg = s.cfg := rfl
@[simp] theorem emitDisplay_par (es : List Event) : (s.emitDisplay es).par = s.par := rfl
@[simp] theorem emitDisplay_sclDrv (es : List Event) : (s.emitDisplay es).sclDrv = s.sclDrv := rfl
@[simp] theorem emitDisplay_sdaDrv (es : List Event) : (s.emitDisplay es).sdaDrv = s.sdaDrv := rfl
@[simp] theorem emitDisplay_busInit (es : List Event) : (s.emitDisplay es).busInit = s.busInit := rfl
@[simp] theorem emitDisplay_busHeld (es : List Event) : (s.emitDisplay es).busHeld = s.busHeld := rfl
@[simp] theorem emitDisplay_dcLine (es : List Event) : (s.emitDisplay es).dcLine = s.dcLine := rfl
@[simp] theorem emitDisplay_csLine (es : List Event) : (s.emitDisplay es).csLine = s.csLine := rfl
@[simp] theorem emitDisplay_dispInit (es : List Event) : (s.emitDisplay es).dispInit = s.dispInit := rfl
@[simp] theorem emitDisplay_frame (es : List Event) : (s.emitDisplay es).frame = s.frame := rfl
@[simp] theorem emitDisplay_baseline (es : List Event) : (s.emitDisplay es).baseline = s.baseline := rfl
@[simp] theorem emitDisplay_dirty (es : List Event) : (s.emitDisplay es).dirty = s.dirty := rfl
@[simp] theorem emitDisplay_stale (es : List Event) : (s.emitDisplay es).stale = s.stale := rfl
@[simp] theorem emitDisplay_mapValid (es : List Event) : (s.emitDisplay es).mapValid = s.mapValid := rfl
@[simp] theorem emitDisplay_mapA (es : List Event) : (s.emitDisplay es).mapA = s.mapA := rfl
@[simp] theorem emitDisplay_mapB (es : List Event) : (s.emitDisplay es).mapB = s.mapB := rfl
@[simp] theorem emitDisplay_mapRot (es : List Event) : (s.emitDisplay es).mapRot = s.mapRot := rfl
@[simp] theorem emitDisplay_port (es : List Event) : (s.emitDisplay es).port = s.port := rfl
@[simp] theorem emitDisplay_replies (es : List Event) : (s.emitDisplay es).replies = s.replies := rfl
@[simp] theorem emitDisplay_trace (es : List Event) : (s.emitDisplay es).trace = s.trace ++ es := rfl
@[simp] theorem emitDisplay_sensor (es : List Event) : (s.emitDisplay es).sensor = s.sensor := rfl
@[simp] theorem emitDisplay_alloc (es : List Event) : (s.emitDisplay es).alloc = s.alloc := rfl
@[simp] theorem emitDisplay_drawn (es : List Event) : (s.emitDisplay es).drawn = s.drawn := rfl

/-! ### drawBus -/

@[simp] theorem drawBus_cfg (d : Draw) : ((s.drawBus d).2).cfg = s.cfg := rfl
@[simp] theorem drawBus_par (d : Draw) : ((s.drawBus d).2).par = s.par := rfl
@[simp] theorem drawBus_sclDrv (d : Draw) : ((s.drawBus d).2).sclDrv = s.sclDrv := rfl
@[simp] theorem drawBus_sdaDrv (d : Draw) : ((s.drawBus d).2).sdaDrv = s.sdaDrv := rfl
@[simp] theorem drawBus_busInit (d : Draw) : ((s.drawBus d).2).busInit = s.busInit := rfl
@[simp] theorem drawBus_busHeld (d : Draw) : ((s.drawBus d).2).busHeld = s.busHeld := rfl
@[simp] theorem drawBus_dcLine (d : Draw) : ((s.drawBus d).2).dcLine = s.dcLine := rfl
@[simp] theorem drawBus_csLine (d : Draw) : ((s.drawBus d).2).csLine = s.csLine := rfl
@[simp] theorem drawBus_dispInit (d : Draw) : ((s.drawBus d).2).dispInit = s.dispInit := rfl
@[simp] theorem drawBus_frame (d : Draw) : ((s.drawBus d).2).frame = s.frame := rfl
@[simp] theorem drawBus_baseline (d : Draw) : ((s.drawBus d).2).baseline = s.baseline := rfl
@[simp] theorem drawBus_dirty (d : Draw) : ((s.drawBus d).2).dirty = s.dirty := rfl
@[simp] theorem drawBus_stale (d : Draw) : ((s.drawBus d).2).stale = s.stale := rfl
@[simp] theorem drawBus_mapValid (d : Draw) : ((s.drawBus d).2).mapValid = s.mapValid := rfl
@[simp] theorem drawBus_mapA (d : Draw) : ((s.drawBus d).2).mapA = s.mapA := rfl
@[simp] theorem drawBus_mapB (d : Draw) : ((s.drawBus d).2).mapB = s.mapB := rfl
@[simp] theorem drawBus_mapRot (d : Draw) : ((s.drawBus d).2).mapRot = s.mapRot := rfl
@[simp] theorem drawBus_port (d : Draw) : ((s.drawBus d).2).port = s.port := rfl
@[simp] theorem drawBus_replies (d : Draw) : ((s.drawBus d).2).replies = s.replies := rfl
@[simp] theorem drawBus_trace (d : Draw) : ((s.drawBus d).2).trace = s.trace := rfl
@[simp] theorem drawBus_sensor (d : Draw) : ((s.drawBus d).2).sensor = (s.sensor.answer s.drawn d).2 := rfl
@[simp] theorem drawBus_alloc (d : Draw) : ((s.drawBus d).2).alloc = s.alloc := rfl
@[simp] theorem drawBus_drawn (d : Draw) : ((s.drawBus d).2).drawn = s.drawn + 1 := rfl

/-! ### reply -/

@[simp] theorem reply_cfg (r : Reply) : (s.reply r).cfg = s.cfg := rfl
@[simp] theorem reply_par (r : Reply) : (s.reply r).par = s.par := rfl
@[simp] theorem reply_sclDrv (r : Reply) : (s.reply r).sclDrv = s.sclDrv := rfl
@[simp] theorem reply_sdaDrv (r : Reply) : (s.reply r).sdaDrv = s.sdaDrv := rfl
@[simp] theorem reply_busInit (r : Reply) : (s.reply r).busInit = s.busInit := rfl
@[simp] theorem reply_busHeld (r : Reply) : (s.reply r).busHeld = s.busHeld := rfl
@[simp] theorem reply_dcLine (r : Reply) : (s.reply r).dcLine = s.dcLine := rfl
@[simp] theorem reply_csLine (r : Reply) : (s.reply r).csLine = s.csLine := rfl
@[simp] theorem reply_dispInit (r : Reply) : (s.reply r).dispInit = s.dispInit := rfl
@[simp] theorem reply_frame (r : Reply) : (s.reply r).frame = s.frame := rfl
@[simp] theorem reply_baseline (r : Reply) : (s.reply r).baseline = s.baseline := rfl
@[simp] theorem reply_dirty (r : Reply) : (s.reply r).dirty = s.dirty := rfl
@[simp] theorem reply_stale (r : Reply) : (s.reply r).stale = s.stale := rfl
@[simp] theorem reply_mapValid (r : Reply) : (s.reply r).mapValid = s.mapValid := rfl
@[simp] theorem reply_mapA (r : Reply) : (s.reply r).mapA = s.mapA := rfl
@[simp] theorem reply_mapB (r : Reply) : (s.reply r).mapB = s.mapB := rfl
@[simp] theorem reply_mapRot (r : Reply) : (s.reply r).mapRot = s.mapRot := rfl
@[simp] theorem reply_port (r : Reply) : (s.reply r).port = s.port := rfl
@[simp] theorem reply_replies (r : Reply) : (s.reply r).replies = s.replies ++ [r] := rfl
@[simp] theorem reply_trace (r : Reply) : (s.reply r).trace = s.trace := rfl
@[simp] theorem reply_sensor (r : Reply) : (s.reply r).sensor = s.sensor := rfl
@[simp] theorem reply_alloc (r : Reply) : (s.reply r).alloc = s.alloc := rfl
@[simp] theorem reply_drawn (r : Reply) : (s.reply r).drawn = s.drawn := rfl

/-! ### finish -/

@[simp] theorem finish_cfg (ws : List Word) : (s.finish ws).cfg = s.cfg := rfl
@[simp] theorem finish_par (ws : List Word) : (s.finish ws).par = s.par := rfl
@[simp] theorem finish_sclDrv (ws : List Word) : (s.finish ws).sclDrv = s.sclDrv := rfl
@[simp] theorem finish_sdaDrv (ws : List Word) : (s.finish ws).sdaDrv = s.sdaDrv := rfl
@[simp] theorem finish_busInit (ws : List Word) : (s.finish ws).busInit = s.busInit := rfl
@[simp] theorem finish_busHeld (ws : List Word) : (s.finish ws).busHeld = s.busHeld := rfl
@[simp] theorem finish_dcLine (ws : List Word) : (s.finish ws).dcLine = s.dcLine := rfl
@[simp] theorem finish_csLine (ws : List Word) : (s.finish ws).csLine = s.csLine := rfl
@[simp] theorem finish_dispInit (ws : List Word) : (s.finish ws).dispInit = s.dispInit := rfl
@[simp] theorem finish_frame (ws : List Word) : (s.finish ws).frame = s.frame := rfl
@[simp] theorem finish_baseline (ws : List Word) : (s.finish ws).baseline = s.baseline := rfl
@[simp] theorem finish_dirty (ws : List Word) : (s.finish ws).dirty = s.dirty := rfl
@[simp] theorem finish_stale (ws : List Word) : (s.finish ws).stale = s.stale := rfl
@[simp] theorem finish_mapValid (ws : List Word) : (s.finish ws).mapValid = s.mapValid := rfl
@[simp] theorem finish_mapA (ws : List Word) : (s.finish ws).mapA = s.mapA := rfl
@[simp] theorem finish_mapB (ws : List Word) : (s.finish ws).mapB = s.mapB := rfl
@[simp] theorem finish_mapRot (ws : List Word) : (s.finish ws).mapRot = s.mapRot := rfl
@[simp] theorem finish_port (ws : List Word) : (s.finish ws).port = s.port := rfl
@[simp] theorem finish_replies (ws : List Word) : (s.finish ws).replies = s.replies ++ [⟨.ok, ws⟩] := rfl
@[simp] theorem finish_trace (ws : List Word) : (s.finish ws).trace = s.trace := rfl
@[simp] theorem finish_sensor (ws : List Word) : (s.finish ws).sensor = s.sensor := rfl
@[simp] theorem finish_alloc (ws : List Word) : (s.finish ws).alloc = s.alloc := rfl
@[simp] theorem finish_drawn (ws : List Word) : (s.finish ws).drawn = s.drawn := rfl

/-! ### raise -/

@[simp] theorem raise_cfg (e : Status) (ws : List Word) : (s.raise e ws).cfg = s.cfg := rfl
@[simp] theorem raise_par (e : Status) (ws : List Word) : (s.raise e ws).par = s.par := rfl
@[simp] theorem raise_sclDrv (e : Status) (ws : List Word) : (s.raise e ws).sclDrv = s.sclDrv := rfl
@[simp] theorem raise_sdaDrv (e : Status) (ws : List Word) : (s.raise e ws).sdaDrv = s.sdaDrv := rfl
@[simp] theorem raise_busInit (e : Status) (ws : List Word) : (s.raise e ws).busInit = s.busInit := rfl
@[simp] theorem raise_busHeld (e : Status) (ws : List Word) : (s.raise e ws).busHeld = s.busHeld := rfl
@[simp] theorem raise_dcLine (e : Status) (ws : List Word) : (s.raise e ws).dcLine = s.dcLine := rfl
@[simp] theorem raise_csLine (e : Status) (ws : List Word) : (s.raise e ws).csLine = s.csLine := rfl
@[simp] theorem raise_dispInit (e : Status) (ws : List Word) : (s.raise e ws).dispInit = s.dispInit := rfl
@[simp] theorem raise_frame (e : Status) (ws : List Word) : (s.raise e ws).frame = s.frame := rfl
@[simp] theorem raise_baseline (e : Status) (ws : List Word) : (s.raise e ws).baseline = s.baseline := rfl
@[simp] theorem raise_dirty (e : Status) (ws : List Word) : (s.raise e ws).dirty = s.dirty := rfl
@[simp] theorem raise_stale (e : Status) (ws : List Word) : (s.raise e ws).stale = s.stale := rfl
@[simp] theorem raise_mapValid (e : Status) (ws : List Word) : (s.raise e ws).mapValid = s.mapValid := rfl
@[simp] theorem raise_mapA (e : Status) (ws : List Word) : (s.raise e ws).mapA = s.mapA := rfl
@[simp] theorem raise_mapB (e : Status) (ws : List Word) : (s.raise e ws).mapB = s.mapB := rfl
@[simp] theorem raise_mapRot (e : Status) (ws : List Word) : (s.raise e ws).mapRot = s.mapRot := rfl
@[simp] theorem raise_port (e : Status) (ws : List Word) : (s.raise e ws).port = s.port := rfl
@[simp] theorem raise_replies (e : Status) (ws : List Word) : (s.raise e ws).replies = s.replies ++ [⟨e, ws⟩] := rfl
@[simp] theorem raise_trace (e : Status) (ws : List Word) : (s.raise e ws).trace = s.trace := rfl
@[simp] theorem raise_sensor (e : Status) (ws : List Word) : (s.raise e ws).sensor = s.sensor := rfl
@[simp] theorem raise_alloc (e : Status) (ws : List Word) : (s.raise e ws).alloc = s.alloc := rfl
@[simp] theorem raise_drawn (e : Status) (ws : List Word) : (s.raise e ws).drawn = s.drawn := rfl

/-! ### supply -/

@[simp] theorem supply_cfg (ws : List Word) : (s.supply ws).cfg = s.cfg := rfl
@[simp] theorem supply_par (ws : List Word) : (s.supply ws).par = s.par := rfl
@[simp] theorem supply_sclDrv (ws : List Word) : (s.supply ws).sclDrv = s.sclDrv := rfl
@[simp] theorem supply_sdaDrv (ws : List Word) : (s.supply ws).sdaDrv = s.sdaDrv := rfl
@[simp] theorem supply_busInit (ws : List Word) : (s.supply ws).busInit = s.busInit := rfl
@[simp] theorem supply_busHeld (ws : List Word) : (s.supply ws).busHeld = s.busHeld := rfl
@[simp] theorem supply_dcLine (ws : List Word) : (s.supply ws).dcLine = s.dcLine := rfl
@[simp] theorem supply_csLine (ws : List Word) : (s.supply ws).csLine = s.csLine := rfl
@[simp] theorem supply_dispInit (ws : List Word) : (s.supply ws).dispInit = s.dispInit := rfl
@[simp] theorem supply_frame (ws : List Word) : (s.supply ws).frame = s.frame := rfl
@[simp] theorem supply_baseline (ws : List Word) : (s.supply ws).baseline = s.baseline := rfl
@[simp] theorem supply_dirty (ws : List Word) : (s.supply ws).dirty = s.dirty := rfl
@[simp] theorem supply_stale (ws : List Word) : (s.supply ws).stale = s.stale := rfl
@[simp] theorem supply_mapValid (ws : List Word) : (s.supply ws).mapValid = s.mapValid := rfl
@[simp] theorem supply_mapA (ws : List Word) : (s.supply ws).mapA = s.mapA := rfl
@[simp] theorem supply_mapB (ws : List Word) : (s.supply ws).mapB = s.mapB := rfl
@[simp] theorem supply_mapRot (ws : List Word) : (s.supply ws).mapRot = s.mapRot := rfl
@[simp] theorem supply_port (ws : List Word) : (s.supply ws).port = s.port ++ ws := rfl
@[simp] theorem supply_replies (ws : List Word) : (s.supply ws).replies = s.replies := rfl
@[simp] theorem supply_trace (ws : List Word) : (s.supply ws).trace = s.trace := rfl
@[simp] theorem supply_sensor (ws : List Word) : (s.supply ws).sensor = s.sensor := rfl
@[simp] theorem supply_alloc (ws : List Word) : (s.supply ws).alloc = s.alloc := rfl
@[simp] theorem supply_drawn (ws : List Word) : (s.supply ws).drawn = s.drawn := rfl

/-! ### takeFrame -/

@[simp] theorem takeFrame_cfg (ws : List Word) : (s.takeFrame ws).cfg = s.cfg := rfl
@[simp] theorem takeFrame_par (ws : List Word) : (s.takeFrame ws).par = s.par := rfl
@[simp] theorem takeFrame_sclDrv (ws : List Word) : (s.takeFrame ws).sclDrv = s.sclDrv := rfl
@[simp] theorem takeFrame_sdaDrv (ws : List Word) : (s.takeFrame ws).sdaDrv = s.sdaDrv := rfl
@[simp] theorem takeFrame_busInit (ws : List Word) : (s.takeFrame ws).busInit = s.busInit := rfl
@[simp] theorem takeFrame_busHeld (ws : List Word) : (s.takeFrame ws).busHeld = s.busHeld := rfl
@[simp] theorem takeFrame_dcLine (ws : List Word) : (s.takeFrame ws).dcLine = s.dcLine := rfl
@[simp] theorem takeFrame_csLine (ws : List Word) : (s.takeFrame ws).csLine = s.csLine := rfl
@[simp] theorem takeFrame_dispInit (ws : List Word) : (s.takeFrame ws).dispInit = s.dispInit := rfl
@[simp] theorem takeFrame_frame (ws : List Word) : (s.takeFrame ws).frame = s.frame := rfl
@[simp] theorem takeFrame_baseline (ws : List Word) : (s.takeFrame ws).baseline = s.baseline := rfl
@[simp] theorem takeFrame_dirty (ws : List Word) : (s.takeFrame ws).dirty = s.dirty := rfl
@[simp] theorem takeFrame_stale (ws : List Word) : (s.takeFrame ws).stale = s.stale := rfl
@[simp] theorem takeFrame_mapValid (ws : List Word) : (s.takeFrame ws).mapValid = s.mapValid := rfl
@[simp] theorem takeFrame_mapA (ws : List Word) : (s.takeFrame ws).mapA = s.mapA := rfl
@[simp] theorem takeFrame_mapB (ws : List Word) : (s.takeFrame ws).mapB = s.mapB := rfl
@[simp] theorem takeFrame_mapRot (ws : List Word) : (s.takeFrame ws).mapRot = s.mapRot := rfl
@[simp] theorem takeFrame_port (ws : List Word) : (s.takeFrame ws).port = ws := rfl
@[simp] theorem takeFrame_replies (ws : List Word) : (s.takeFrame ws).replies = s.replies := rfl
@[simp] theorem takeFrame_trace (ws : List Word) : (s.takeFrame ws).trace = s.trace := rfl
@[simp] theorem takeFrame_sensor (ws : List Word) : (s.takeFrame ws).sensor = s.sensor := rfl
@[simp] theorem takeFrame_alloc (ws : List Word) : (s.takeFrame ws).alloc = s.alloc := rfl
@[simp] theorem takeFrame_drawn (ws : List Word) : (s.takeFrame ws).drawn = s.drawn := rfl

/-! ### setFrame -/

@[simp] theorem setFrame_cfg (p : Nat) (c : Word) : (s.setFrame p c).cfg = s.cfg := rfl
@[simp] theorem setFrame_par (p : Nat) (c : Word) : (s.setFrame p c).par = s.par := rfl
@[simp] theorem setFrame_sclDrv (p : Nat) (c : Word) : (s.setFrame p c).sclDrv = s.sclDrv := rfl
@[simp] theorem setFrame_sdaDrv (p : Nat) (c : Word) : (s.setFrame p c).sdaDrv = s.sdaDrv := rfl
@[simp] theorem setFrame_busInit (p : Nat) (c : Word) : (s.setFrame p c).busInit = s.busInit := rfl
@[simp] theorem setFrame_busHeld (p : Nat) (c : Word) : (s.setFrame p c).busHeld = s.busHeld := rfl
@[simp] theorem setFrame_dcLine (p : Nat) (c : Word) : (s.setFrame p c).dcLine = s.dcLine := rfl
@[simp] theorem setFrame_csLine (p : Nat) (c : Word) : (s.setFrame p c).csLine = s.csLine := rfl
@[simp] theorem setFrame_dispInit (p : Nat) (c : Word) : (s.setFrame p c).dispInit = s.dispInit := rfl
@[simp] theorem setFrame_frame (p : Nat) (c : Word) : (s.setFrame p c).frame = s.frame.write 0#16 p c := rfl
@[simp] theorem setFrame_baseline (p : Nat) (c : Word) : (s.setFrame p c).baseline = s.baseline := rfl
@[simp] theorem setFrame_dirty (p : Nat) (c : Word) : (s.setFrame p c).dirty = s.dirty := rfl
@[simp] theorem setFrame_stale (p : Nat) (c : Word) : (s.setFrame p c).stale = s.stale := rfl
@[simp] theorem setFrame_mapValid (p : Nat) (c : Word) : (s.setFrame p c).mapValid = s.mapValid := rfl
@[simp] theorem setFrame_mapA (p : Nat) (c : Word) : (s.setFrame p c).mapA = s.mapA := rfl
@[simp] theorem setFrame_mapB (p : Nat) (c : Word) : (s.setFrame p c).mapB = s.mapB := rfl
@[simp] theorem setFrame_mapRot (p : Nat) (c : Word) : (s.setFrame p c).mapRot = s.mapRot := rfl
@[simp] theorem setFrame_port (p : Nat) (c : Word) : (s.setFrame p c).port = s.port := rfl
@[simp] theorem setFrame_replies (p : Nat) (c : Word) : (s.setFrame p c).replies = s.replies := rfl
@[simp] theorem setFrame_trace (p : Nat) (c : Word) : (s.setFrame p c).trace = s.trace := rfl
@[simp] theorem setFrame_sensor (p : Nat) (c : Word) : (s.setFrame p c).sensor = s.sensor := rfl
@[simp] theorem setFrame_alloc (p : Nat) (c : Word) : (s.setFrame p c).alloc = s.alloc := rfl
@[simp] theorem setFrame_drawn (p : Nat) (c : Word) : (s.setFrame p c).drawn = s.drawn := rfl

/-! ### setBaseline -/

@[simp] theorem setBaseline_cfg (p : Nat) (c : Word) : (s.setBaseline p c).cfg = s.cfg := rfl
@[simp] theorem setBaseline_par (p : Nat) (c : Word) : (s.setBaseline p c).par = s.par := rfl
@[simp] theorem setBaseline_sclDrv (p : Nat) (c : Word) : (s.setBaseline p c).sclDrv = s.sclDrv := rfl
@[simp] theorem setBaseline_sdaDrv (p : Nat) (c : Word) : (s.setBaseline p c).sdaDrv = s.sdaDrv := rfl
@[simp] theorem setBaseline_busInit (p : Nat) (c : Word) : (s.setBaseline p c).busInit = s.busInit := rfl
@[simp] theorem setBaseline_busHeld (p : Nat) (c : Word) : (s.setBaseline p c).busHeld = s.busHeld := rfl
@[simp] theorem setBaseline_dcLine (p : Nat) (c : Word) : (s.setBaseline p c).dcLine = s.dcLine := rfl
@[simp] theorem setBaseline_csLine (p : Nat) (c : Word) : (s.setBaseline p c).csLine = s.csLine := rfl
@[simp] theorem setBaseline_dispInit (p : Nat) (c : Word) : (s.setBaseline p c).dispInit = s.dispInit := rfl
@[simp] theorem setBaseline_frame (p : Nat) (c : Word) : (s.setBaseline p c).frame = s.frame := rfl
@[simp] theorem setBaseline_baseline (p : Nat) (c : Word) : (s.setBaseline p c).baseline = s.baseline.write 0#16 p c := rfl
@[simp] theorem setBaseline_dirty (p : Nat) (c : Word) : (s.setBaseline p c).dirty = s.dirty := rfl
@[simp] theorem setBaseline_stale (p : Nat) (c : Word) : (s.setBaseline p c).stale = s.stale := rfl
@[simp] theorem setBaseline_mapValid (p : Nat) (c : Word) : (s.setBaseline p c).mapValid = s.mapValid := rfl
@[simp] theorem setBaseline_mapA (p : Nat) (c : Word) : (s.setBaseline p c).mapA = s.mapA := rfl
@[simp] theorem setBaseline_mapB (p : Nat) (c : Word) : (s.setBaseline p c).mapB = s.mapB := rfl
@[simp] theorem setBaseline_mapRot (p : Nat) (c : Word) : (s.setBaseline p c).mapRot = s.mapRot := rfl
@[simp] theorem setBaseline_port (p : Nat) (c : Word) : (s.setBaseline p c).port = s.port := rfl
@[simp] theorem setBaseline_replies (p : Nat) (c : Word) : (s.setBaseline p c).replies = s.replies := rfl
@[simp] theorem setBaseline_trace (p : Nat) (c : Word) : (s.setBaseline p c).trace = s.trace := rfl
@[simp] theorem setBaseline_sensor (p : Nat) (c : Word) : (s.setBaseline p c).sensor = s.sensor := rfl
@[simp] theorem setBaseline_alloc (p : Nat) (c : Word) : (s.setBaseline p c).alloc = s.alloc := rfl
@[simp] theorem setBaseline_drawn (p : Nat) (c : Word) : (s.setBaseline p c).drawn = s.drawn := rfl

/-! ### setDirty -/

@[simp] theorem setDirty_cfg (k : Nat) (v : Bool) : (s.setDirty k v).cfg = s.cfg := rfl
@[simp] theorem setDirty_par (k : Nat) (v : Bool) : (s.setDirty k v).par = s.par := rfl
@[simp] theorem setDirty_sclDrv (k : Nat) (v : Bool) : (s.setDirty k v).sclDrv = s.sclDrv := rfl
@[simp] theorem setDirty_sdaDrv (k : Nat) (v : Bool) : (s.setDirty k v).sdaDrv = s.sdaDrv := rfl
@[simp] theorem setDirty_busInit (k : Nat) (v : Bool) : (s.setDirty k v).busInit = s.busInit := rfl
@[simp] theorem setDirty_busHeld (k : Nat) (v : Bool) : (s.setDirty k v).busHeld = s.busHeld := rfl
@[simp] theorem setDirty_dcLine (k : Nat) (v : Bool) : (s.setDirty k v).dcLine = s.dcLine := rfl
@[simp] theorem setDirty_csLine (k : Nat) (v : Bool) : (s.setDirty k v).csLine = s.csLine := rfl
@[simp] theorem setDirty_dispInit (k : Nat) (v : Bool) : (s.setDirty k v).dispInit = s.dispInit := rfl
@[simp] theorem setDirty_frame (k : Nat) (v : Bool) : (s.setDirty k v).frame = s.frame := rfl
@[simp] theorem setDirty_baseline (k : Nat) (v : Bool) : (s.setDirty k v).baseline = s.baseline := rfl
@[simp] theorem setDirty_dirty (k : Nat) (v : Bool) : (s.setDirty k v).dirty = s.dirty.write true k v := rfl
@[simp] theorem setDirty_stale (k : Nat) (v : Bool) : (s.setDirty k v).stale = s.stale := rfl
@[simp] theorem setDirty_mapValid (k : Nat) (v : Bool) : (s.setDirty k v).mapValid = s.mapValid := rfl
@[simp] theorem setDirty_mapA (k : Nat) (v : Bool) : (s.setDirty k v).mapA = s.mapA := rfl
@[simp] theorem setDirty_mapB (k : Nat) (v : Bool) : (s.setDirty k v).mapB = s.mapB := rfl
@[simp] theorem setDirty_mapRot (k : Nat) (v : Bool) : (s.setDirty k v).mapRot = s.mapRot := rfl
@[simp] theorem setDirty_port (k : Nat) (v : Bool) : (s.setDirty k v).port = s.port := rfl
@[simp] theorem setDirty_replies (k : Nat) (v : Bool) : (s.setDirty k v).replies = s.replies := rfl
@[simp] theorem setDirty_trace (k : Nat) (v : Bool) : (s.setDirty k v).trace = s.trace := rfl
@[simp] theorem setDirty_sensor (k : Nat) (v : Bool) : (s.setDirty k v).sensor = s.sensor := rfl
@[simp] theorem setDirty_alloc (k : Nat) (v : Bool) : (s.setDirty k v).alloc = s.alloc := rfl
@[simp] theorem setDirty_drawn (k : Nat) (v : Bool) : (s.setDirty k v).drawn = s.drawn := rfl

/-! ### setStale -/

@[simp] theorem setStale_cfg (k : Nat) (v : Bool) : (s.setStale k v).cfg = s.cfg := rfl
@[simp] theorem setStale_par (k : Nat) (v : Bool) : (s.setStale k v).par = s.par := rfl
@[simp] theorem setStale_sclDrv (k : Nat) (v : Bool) : (s.setStale k v).sclDrv = s.sclDrv := rfl
@[simp] theorem setStale_sdaDrv (k : Nat) (v : Bool) : (s.setStale k v).sdaDrv = s.sdaDrv := rfl
@[simp] theorem setStale_busInit (k : Nat) (v : Bool) : (s.setStale k v).busInit = s.busInit := rfl
@[simp] theorem setStale_busHeld (k : Nat) (v : Bool) : (s.setStale k v).busHeld = s.busHeld := rfl
@[simp] theorem setStale_dcLine (k : Nat) (v : Bool) : (s.setStale k v).dcLine = s.dcLine := rfl
@[simp] theorem setStale_csLine (k : Nat) (v : Bool) : (s.setStale k v).csLine = s.csLine := rfl
@[simp] theorem setStale_dispInit (k : Nat) (v : Bool) : (s.setStale k v).dispInit = s.dispInit := rfl
@[simp] theorem setStale_frame (k : Nat) (v : Bool) : (s.setStale k v).frame = s.frame := rfl
@[simp] theorem setStale_baseline (k : Nat) (v : Bool) : (s.setStale k v).baseline = s.baseline := rfl
@[simp] theorem setStale_dirty (k : Nat) (v : Bool) : (s.setStale k v).dirty = s.dirty := rfl
@[simp] theorem setStale_stale (k : Nat) (v : Bool) : (s.setStale k v).stale = s.stale.write true k v := rfl
@[simp] theorem setStale_mapValid (k : Nat) (v : Bool) : (s.setStale k v).mapValid = s.mapValid := rfl
@[simp] theorem setStale_mapA (k : Nat) (v : Bool) : (s.setStale k v).mapA = s.mapA := rfl
@[simp] theorem setStale_mapB (k : Nat) (v : Bool) : (s.setStale k v).mapB = s.mapB := rfl
@[simp] theorem setStale_mapRot (k : Nat) (v : Bool) : (s.setStale k v).mapRot = s.mapRot := rfl
@[simp] theorem setStale_port (k : Nat) (v : Bool) : (s.setStale k v).port = s.port := rfl
@[simp] theorem setStale_replies (k : Nat) (v : Bool) : (s.setStale k v).replies = s.replies := rfl
@[simp] theorem setStale_trace (k : Nat) (v : Bool) : (s.setStale k v).trace = s.trace := rfl
@[simp] theorem setStale_sensor (k : Nat) (v : Bool) : (s.setStale k v).sensor = s.sensor := rfl
@[simp] theorem setStale_alloc (k : Nat) (v : Bool) : (s.setStale k v).alloc = s.alloc := rfl
@[simp] theorem setStale_drawn (k : Nat) (v : Bool) : (s.setStale k v).drawn = s.drawn := rfl

/-! ### busAbort -/

@[simp] theorem busAbort_cfg : (busAbort s).cfg = s.cfg := rfl
@[simp] theorem busAbort_par : (busAbort s).par = s.par := rfl
@[simp] theorem busAbort_sclDrv : (busAbort s).sclDrv = s.sclDrv := rfl
@[simp] theorem busAbort_sdaDrv : (busAbort s).sdaDrv = s.sdaDrv := rfl
@[simp] theorem busAbort_busInit : (busAbort s).busInit = false := rfl
@[simp] theorem busAbort_busHeld : (busAbort s).busHeld = false := rfl
@[simp] theorem busAbort_dcLine : (busAbort s).dcLine = s.dcLine := rfl
@[simp] theorem busAbort_csLine : (busAbort s).csLine = s.csLine := rfl
@[simp] theorem busAbort_dispInit : (busAbort s).dispInit = s.dispInit := rfl
@[simp] theorem busAbort_frame : (busAbort s).frame = s.frame := rfl
@[simp] theorem busAbort_baseline : (busAbort s).baseline = s.baseline := rfl
@[simp] theorem busAbort_dirty : (busAbort s).dirty = s.dirty := rfl
@[simp] theorem busAbort_stale : (busAbort s).stale = s.stale := rfl
@[simp] theorem busAbort_mapValid : (busAbort s).mapValid = s.mapValid := rfl
@[simp] theorem busAbort_mapA : (busAbort s).mapA = s.mapA := rfl
@[simp] theorem busAbort_mapB : (busAbort s).mapB = s.mapB := rfl
@[simp] theorem busAbort_mapRot : (busAbort s).mapRot = s.mapRot := rfl
@[simp] theorem busAbort_port : (busAbort s).port = s.port := rfl
@[simp] theorem busAbort_replies : (busAbort s).replies = s.replies := rfl
@[simp] theorem busAbort_trace : (busAbort s).trace = s.trace := rfl
@[simp] theorem busAbort_sensor : (busAbort s).sensor = s.sensor := rfl
@[simp] theorem busAbort_alloc : (busAbort s).alloc = s.alloc := rfl
@[simp] theorem busAbort_drawn : (busAbort s).drawn = s.drawn := rfl

/-! ### sdaLow -/

@[simp] theorem sdaLow_cfg : (sdaLow s).cfg = s.cfg := rfl
@[simp] theorem sdaLow_par : (sdaLow s).par = s.par := rfl
@[simp] theorem sdaLow_sclDrv : (sdaLow s).sclDrv = s.sclDrv := rfl
@[simp] theorem sdaLow_sdaDrv : (sdaLow s).sdaDrv = .low := rfl
@[simp] theorem sdaLow_busInit : (sdaLow s).busInit = s.busInit := rfl
@[simp] theorem sdaLow_busHeld : (sdaLow s).busHeld = s.busHeld := rfl
@[simp] theorem sdaLow_dcLine : (sdaLow s).dcLine = s.dcLine := rfl
@[simp] theorem sdaLow_csLine : (sdaLow s).csLine = s.csLine := rfl
@[simp] theorem sdaLow_dispInit : (sdaLow s).dispInit = s.dispInit := rfl
@[simp] theorem sdaLow_frame : (sdaLow s).frame = s.frame := rfl
@[simp] theorem sdaLow_baseline : (sdaLow s).baseline = s.baseline := rfl
@[simp] theorem sdaLow_dirty : (sdaLow s).dirty = s.dirty := rfl
@[simp] theorem sdaLow_stale : (sdaLow s).stale = s.stale := rfl
@[simp] theorem sdaLow_mapValid : (sdaLow s).mapValid = s.mapValid := rfl
@[simp] theorem sdaLow_mapA : (sdaLow s).mapA = s.mapA := rfl
@[simp] theorem sdaLow_mapB : (sdaLow s).mapB = s.mapB := rfl
@[simp] theorem sdaLow_mapRot : (sdaLow s).mapRot = s.mapRot := rfl
@[simp] theorem sdaLow_port : (sdaLow s).port = s.port := rfl
@[simp] theorem sdaLow_replies : (sdaLow s).replies = s.replies := rfl
@[simp] theorem sdaLow_trace : (sdaLow s).trace = s.trace ++ [.sdaLo] := rfl
@[simp] theorem sdaLow_sensor : (sdaLow s).sensor = s.sensor.observe .sdaLo := rfl
@[simp] theorem sdaLow_alloc : (sdaLow s).alloc = s.alloc := rfl
@[simp] theorem sdaLow_drawn : (sdaLow s).drawn = s.drawn := rfl

/-! ### sdaRel -/

@[simp] theorem sdaRel_cfg : (sdaRel s).cfg = s.cfg := rfl
@[simp] theorem sdaRel_par : (sdaRel s).par = s.par := rfl
@[simp] theorem sdaRel_sclDrv : (sdaRel s).sclDrv = s.sclDrv := rfl
@[simp] theorem sdaRel_sdaDrv : (sdaRel s).sdaDrv = .rel := rfl
@[simp] theorem sdaRel_busInit : (sdaRel s).busInit = s.busInit := rfl
@[simp] theorem sdaRel_busHeld : (sdaRel s).busHeld = s.busHeld := rfl
@[simp] theorem sdaRel_dcLine : (sdaRel s).dcLine = s.dcLine := rfl
@[simp] theorem sdaRel_csLine : (sdaRel s).csLine = s.csLine := rfl
@[simp] theorem sdaRel_dispInit : (sdaRel s).dispInit = s.dispInit := rfl
@[simp] theorem sdaRel_frame : (sdaRel s).frame = s.frame := rfl
@[simp] theorem sdaRel_baseline : (sdaRel s).baseline = s.baseline := rfl
@[simp] theorem sdaRel_dirty : (sdaRel s).dirty = s.dirty := rfl
@[simp] theorem sdaRel_stale : (sdaRel s).stale = s.stale := rfl
@[simp] theorem sdaRel_mapValid : (sdaRel s).mapValid = s.mapValid := rfl
@[simp] theorem sdaRel_mapA : (sdaRel s).mapA = s.mapA := rfl
@[simp] theorem sdaRel_mapB : (sdaRel s).mapB = s.mapB := rfl
@[simp] theorem sdaRel_mapRot : (sdaRel s).mapRot = s.mapRot := rfl
@[simp] theorem sdaRel_port : (sdaRel s).port = s.port := rfl
@[simp] theorem sdaRel_replies : (sdaRel s).replies = s.replies := rfl
@[simp] theorem sdaRel_trace : (sdaRel s).trace = s.trace ++ [.sdaRel] := rfl
@[simp] theorem sdaRel_sensor : (sdaRel s).sensor = s.sensor.observe .sdaRel := rfl
@[simp] theorem sdaRel_alloc : (sdaRel s).alloc = s.alloc := rfl
@[simp] theorem sdaRel_drawn : (sdaRel s).drawn = s.drawn := rfl

/-! ### sclLow -/

@[simp] theorem sclLow_cfg : (sclLow s).cfg = s.cfg := rfl
@[simp] theorem sclLow_par : (sclLow s).par = s.par := rfl
@[simp] theorem sclLow_sclDrv : (sclLow s).sclDrv = .low := rfl
@[simp] theorem sclLow_sdaDrv : (sclLow s).sdaDrv = s.sdaDrv := rfl
@[simp] theorem sclLow_busInit : (sclLow s).busInit = s.busInit := rfl
@[simp] theorem sclLow_busHeld : (sclLow s).busHeld = s.busHeld := rfl
@[simp] theorem sclLow_dcLine : (sclLow s).dcLine = s.dcLine := rfl
@[simp] theorem sclLow_csLine : (sclLow s).csLine = s.csLine := rfl
@[simp] theorem sclLow_dispInit : (sclLow s).dispInit = s.dispInit := rfl
@[simp] theorem sclLow_frame : (sclLow s).frame = s.frame := rfl
@[simp] theorem sclLow_baseline : (sclLow s).baseline = s.baseline := rfl
@[simp] theorem sclLow_dirty : (sclLow s).dirty = s.dirty := rfl
@[simp] theorem sclLow_stale : (sclLow s).stale = s.stale := rfl
@[simp] theorem sclLow_mapValid : (sclLow s).mapValid = s.mapValid := rfl
@[simp] theorem sclLow_mapA : (sclLow s).mapA = s.mapA := rfl
@[simp] theorem sclLow_mapB : (sclLow s).mapB = s.mapB := rfl
@[simp] theorem sclLow_mapRot : (sclLow s).mapRot = s.mapRot := rfl
@[simp] theorem sclLow_port : (sclLow s).port = s.port := rfl
@[simp] theorem sclLow_replies : (sclLow s).replies = s.replies := rfl
@[simp] theorem sclLow_trace : (sclLow s).trace = s.trace ++ [.sclLo] := rfl
@[simp] theorem sclLow_sensor : (sclLow s).sensor = s.sensor.observe .sclLo := rfl
@[simp] theorem sclLow_alloc : (sclLow s).alloc = s.alloc := rfl
@[simp] theorem sclLow_drawn : (sclLow s).drawn = s.drawn := rfl

/-! ### sclFree -/

@[simp] theorem sclFree_cfg : (sclFree s).cfg = s.cfg := rfl
@[simp] theorem sclFree_par : (sclFree s).par = s.par := rfl
@[simp] theorem sclFree_sclDrv : (sclFree s).sclDrv = .rel := rfl
@[simp] theorem sclFree_sdaDrv : (sclFree s).sdaDrv = s.sdaDrv := rfl
@[simp] theorem sclFree_busInit : (sclFree s).busInit = s.busInit := rfl
@[simp] theorem sclFree_busHeld : (sclFree s).busHeld = s.busHeld := rfl
@[simp] theorem sclFree_dcLine : (sclFree s).dcLine = s.dcLine := rfl
@[simp] theorem sclFree_csLine : (sclFree s).csLine = s.csLine := rfl
@[simp] theorem sclFree_dispInit : (sclFree s).dispInit = s.dispInit := rfl
@[simp] theorem sclFree_frame : (sclFree s).frame = s.frame := rfl
@[simp] theorem sclFree_baseline : (sclFree s).baseline = s.baseline := rfl
@[simp] theorem sclFree_dirty : (sclFree s).dirty = s.dirty := rfl
@[simp] theorem sclFree_stale : (sclFree s).stale = s.stale := rfl
@[simp] theorem sclFree_mapValid : (sclFree s).mapValid = s.mapValid := rfl
@[simp] theorem sclFree_mapA : (sclFree s).mapA = s.mapA := rfl
@[simp] theorem sclFree_mapB : (sclFree s).mapB = s.mapB := rfl
@[simp] theorem sclFree_mapRot : (sclFree s).mapRot = s.mapRot := rfl
@[simp] theorem sclFree_port : (sclFree s).port = s.port := rfl
@[simp] theorem sclFree_replies : (sclFree s).replies = s.replies := rfl
@[simp] theorem sclFree_trace : (sclFree s).trace = s.trace ++ [.sclRel] := rfl
@[simp] theorem sclFree_sensor : (sclFree s).sensor = s.sensor.observe .sclRel := rfl
@[simp] theorem sclFree_alloc : (sclFree s).alloc = s.alloc := rfl
@[simp] theorem sclFree_drawn : (sclFree s).drawn = s.drawn := rfl

/-! ### mapIdentity -/

@[simp] theorem mapIdentity_cfg : (mapIdentity s).cfg = s.cfg := rfl
@[simp] theorem mapIdentity_par : (mapIdentity s).par = s.par := rfl
@[simp] theorem mapIdentity_sclDrv : (mapIdentity s).sclDrv = s.sclDrv := rfl
@[simp] theorem mapIdentity_sdaDrv : (mapIdentity s).sdaDrv = s.sdaDrv := rfl
@[simp] theorem mapIdentity_busInit : (mapIdentity s).busInit = s.busInit := rfl
@[simp] theorem mapIdentity_busHeld : (mapIdentity s).busHeld = s.busHeld := rfl
@[simp] theorem mapIdentity_dcLine : (mapIdentity s).dcLine = s.dcLine := rfl
@[simp] theorem mapIdentity_csLine : (mapIdentity s).csLine = s.csLine := rfl
@[simp] theorem mapIdentity_dispInit : (mapIdentity s).dispInit = s.dispInit := rfl
@[simp] theorem mapIdentity_frame : (mapIdentity s).frame = s.frame := rfl
@[simp] theorem mapIdentity_baseline : (mapIdentity s).baseline = s.baseline := rfl
@[simp] theorem mapIdentity_dirty : (mapIdentity s).dirty = s.dirty := rfl
@[simp] theorem mapIdentity_stale : (mapIdentity s).stale = s.stale := rfl
@[simp] theorem mapIdentity_mapValid : (mapIdentity s).mapValid = false := rfl
@[simp] theorem mapIdentity_mapA : (mapIdentity s).mapA = ⟨0#16, 0#16⟩ := rfl
@[simp] theorem mapIdentity_mapB : (mapIdentity s).mapB = ⟨0#16, 0#16⟩ := rfl
@[simp] theorem mapIdentity_mapRot : (mapIdentity s).mapRot = .r0 := rfl
@[simp] theorem mapIdentity_port : (mapIdentity s).port = s.port := rfl
@[simp] theorem mapIdentity_replies : (mapIdentity s).replies = s.replies := rfl
@[simp] theorem mapIdentity_trace : (mapIdentity s).trace = s.trace := rfl
@[simp] theorem mapIdentity_sensor : (mapIdentity s).sensor = s.sensor := rfl
@[simp] theorem mapIdentity_alloc : (mapIdentity s).alloc = s.alloc := rfl
@[simp] theorem mapIdentity_drawn : (mapIdentity s).drawn = s.drawn := rfl

end Sys2Proof.Machine
end

