-- ==== Sys2Proof/Laws/Ops.lean ====
section
/-! SUPPORT. What the shared operations do, said once: the memories of the framebuffer, the plot primitive, the port. -/

namespace Sys2Proof.Machine

/-! ## Reads after writes of the four memories -/

@[simp] theorem frameAt_setFrame (s : State) (p p' : Nat) (c : Word) :
    (s.setFrame p c).frameAt p' = if p' = p then c else s.frameAt p' := Memory.read_write _ _ _ _ _

@[simp] theorem baselineAt_setBaseline (s : State) (p p' : Nat) (c : Word) :
    (s.setBaseline p c).baselineAt p' = if p' = p then c else s.baselineAt p' := Memory.read_write _ _ _ _ _

@[simp] theorem dirtyAt_setDirty (s : State) (k k' : Nat) (v : Bool) :
    (s.setDirty k v).dirtyAt k' = if k' = k then v else s.dirtyAt k' := Memory.read_write _ _ _ _ _

@[simp] theorem staleAt_setStale (s : State) (k k' : Nat) (v : Bool) :
    (s.setStale k v).staleAt k' = if k' = k then v else s.staleAt k' := Memory.read_write _ _ _ _ _

@[simp] theorem frameAt_setBaseline (s : State) (p p' : Nat) (c : Word) :
    (s.setBaseline p c).frameAt p' = s.frameAt p' := rfl
@[simp] theorem frameAt_setDirty (s : State) (k p : Nat) (v : Bool) : (s.setDirty k v).frameAt p = s.frameAt p := rfl
@[simp] theorem frameAt_setStale (s : State) (k p : Nat) (v : Bool) : (s.setStale k v).frameAt p = s.frameAt p := rfl
@[simp] theorem baselineAt_setFrame (s : State) (p p' : Nat) (c : Word) :
    (s.setFrame p c).baselineAt p' = s.baselineAt p' := rfl
@[simp] theorem baselineAt_setDirty (s : State) (k p : Nat) (v : Bool) :
    (s.setDirty k v).baselineAt p = s.baselineAt p := rfl
@[simp] theorem baselineAt_setStale (s : State) (k p : Nat) (v : Bool) :
    (s.setStale k v).baselineAt p = s.baselineAt p := rfl
@[simp] theorem dirtyAt_setFrame (s : State) (p k : Nat) (c : Word) : (s.setFrame p c).dirtyAt k = s.dirtyAt k := rfl
@[simp] theorem dirtyAt_setBaseline (s : State) (p k : Nat) (c : Word) :
    (s.setBaseline p c).dirtyAt k = s.dirtyAt k := rfl
@[simp] theorem dirtyAt_setStale (s : State) (k k' : Nat) (v : Bool) :
    (s.setStale k v).dirtyAt k' = s.dirtyAt k' := rfl
@[simp] theorem staleAt_setFrame (s : State) (p k : Nat) (c : Word) : (s.setFrame p c).staleAt k = s.staleAt k := rfl
@[simp] theorem staleAt_setBaseline (s : State) (p k : Nat) (c : Word) :
    (s.setBaseline p c).staleAt k = s.staleAt k := rfl
@[simp] theorem staleAt_setDirty (s : State) (k k' : Nat) (v : Bool) :
    (s.setDirty k v).staleAt k' = s.staleAt k' := rfl

@[simp] theorem frameAt_emitDisplay (s : State) (es : List Event) (p : Nat) :
    (s.emitDisplay es).frameAt p = s.frameAt p := rfl
@[simp] theorem frameAt_reply (s : State) (r : Reply) (p : Nat) : (s.reply r).frameAt p = s.frameAt p := rfl
@[simp] theorem baselineAt_reply (s : State) (r : Reply) (p : Nat) : (s.reply r).baselineAt p = s.baselineAt p := rfl
@[simp] theorem dirtyAt_reply (s : State) (r : Reply) (k : Nat) : (s.reply r).dirtyAt k = s.dirtyAt k := rfl
@[simp] theorem staleAt_reply (s : State) (r : Reply) (k : Nat) : (s.reply r).staleAt k = s.staleAt k := rfl
@[simp] theorem frameAt_finish (s : State) (ws : List Word) (p : Nat) : (s.finish ws).frameAt p = s.frameAt p := rfl
@[simp] theorem baselineAt_finish (s : State) (ws : List Word) (p : Nat) :
    (s.finish ws).baselineAt p = s.baselineAt p := rfl
@[simp] theorem dirtyAt_finish (s : State) (ws : List Word) (k : Nat) : (s.finish ws).dirtyAt k = s.dirtyAt k := rfl
@[simp] theorem staleAt_finish (s : State) (ws : List Word) (k : Nat) : (s.finish ws).staleAt k = s.staleAt k := rfl

/-! ## What may change: reflexive and transitive -/

theorem OnlyBus.refl (s : State) : OnlyBus s s := rfl

theorem OnlyBus.trans {s t u : State} (h1 : OnlyBus s t) (h2 : OnlyBus t u) : OnlyBus s u := by
  rw [OnlyBus] at *
  rw [h2, h1]

theorem OnlyDisplay.refl (s : State) : OnlyDisplay s s := rfl

theorem OnlyDisplay.trans {s t u : State} (h1 : OnlyDisplay s t) (h2 : OnlyDisplay t u) : OnlyDisplay s u := by
  rw [OnlyDisplay] at *
  rw [h2, h1]

theorem OnlyDrawing.refl (s : State) : OnlyDrawing s s := rfl

theorem OnlyDrawing.trans {s t u : State} (h1 : OnlyDrawing s t) (h2 : OnlyDrawing t u) : OnlyDrawing s u := by
  rw [OnlyDrawing] at *
  rw [h2, h1]

theorem GrewByBusEvents.refl (s : State) : GrewByBusEvents s s := ⟨[], by simp, by simp⟩

theorem GrewByBusEvents.trans {s t u : State} (h1 : GrewByBusEvents s t) (h2 : GrewByBusEvents t u) :
    GrewByBusEvents s u := by
  obtain ⟨es, he, hes⟩ := h1
  obtain ⟨fs, hf, hfs⟩ := h2
  refine ⟨es ++ fs, by rw [hf, he, List.append_assoc], fun e h => ?_⟩
  rcases List.mem_append.mp h with h | h
  · exact hes e h
  · exact hfs e h

/-! ## The plot primitive (44_framebuffer.md R300) -/

/-- A write inside the Frame: its pixel takes the colour. -/
theorem frameAt_plotAt (s : State) (q : Nat × Nat) (c : Word) (p : Nat) :
    (s.plotAt q c).frameAt p = if p = idx s.par q.1 q.2 then c else s.frameAt p := by
  rw [State.plotAt]
  simp only [ne_eq]
  split <;> simp

/-- A write inside the Frame: its cell is marked when the colour differs from Baseline, and no flag is cleared. -/
theorem dirtyAt_plotAt (s : State) (q : Nat × Nat) (c : Word) (k : Nat) :
    (s.plotAt q c).dirtyAt k =
      if c ≠ s.baselineAt (idx s.par q.1 q.2) ∧ k = cellOf s.par q.1 q.2 then true else s.dirtyAt k := by
  rw [State.plotAt]
  simp only [baselineAt_setFrame, setFrame_par, ne_eq]
  by_cases h : c = s.baselineAt (idx s.par q.1 q.2) <;> simp [h]

theorem plotAt_only (s : State) (q : Nat × Nat) (c : Word) : OnlyDrawing s (s.plotAt q c) := by
  rw [OnlyDrawing, State.plotAt]
  simp only [ne_eq]
  split <;> rfl

theorem plot_only (s : State) (p : Plot) : OnlyDrawing s (s.plot p) := by
  rw [State.plot]
  split
  · exact OnlyDrawing.refl s
  · exact plotAt_only s _ _

@[simp] theorem plotAll_nil (s : State) : s.plotAll [] = s := rfl

@[simp] theorem plotAll_cons (s : State) (p : Plot) (ps : List Plot) : s.plotAll (p :: ps) = (s.plot p).plotAll ps := rfl

theorem plotAll_append (s : State) (ps qs : List Plot) : s.plotAll (ps ++ qs) = (s.plotAll ps).plotAll qs :=
  List.foldl_append

/-- Every sequence of PLOT calls changes Frame and Dirty only. -/
theorem plotAll_only (s : State) (ps : List Plot) : OnlyDrawing s (s.plotAll ps) := by
  induction ps generalizing s with
  | nil => exact OnlyDrawing.refl s
  | cons p ps ih => exact (plot_only s p).trans (ih _)

theorem OnlyDrawing.par {s t : State} (h : OnlyDrawing s t) : t.par = s.par := by
  rw [OnlyDrawing] at h
  rw [h]
  rfl

theorem OnlyDrawing.baselineAt {s t : State} (h : OnlyDrawing s t) (p : Nat) : t.baselineAt p = s.baselineAt p := by
  rw [OnlyDrawing] at h
  rw [h]
  rfl

theorem OnlyDrawing.staleAt {s t : State} (h : OnlyDrawing s t) (k : Nat) : t.staleAt k = s.staleAt k := by
  rw [OnlyDrawing] at h
  rw [h]
  rfl

/-- No PLOT call clears a Dirty flag. -/
theorem dirtyAt_plot_of_dirty (s : State) (p : Plot) {k : Nat} (h : s.dirtyAt k = true) : (s.plot p).dirtyAt k = true := by
  rw [State.plot]
  split
  · exact h
  · rw [dirtyAt_plotAt]
    split
    · rfl
    · exact h

theorem dirtyAt_plotAll_of_dirty (s : State) (ps : List Plot) {k : Nat} (h : s.dirtyAt k = true) :
    (s.plotAll ps).dirtyAt k = true := by
  induction ps generalizing s with
  | nil => exact h
  | cons p ps ih => exact ih _ (dirtyAt_plot_of_dirty s p h)

/-- Calls of one colour: a Frame word takes the colour iff some point is clipped onto it. -/
theorem frameAt_plotAll_colour (s : State) (c : Word) (ps : List Plot) (hps : ∀ p ∈ ps, p.c = c) (w : Nat) :
    (s.plotAll ps).frameAt w =
      if ∃ p ∈ ps, ∃ q, clipPoint s.par p.x p.y = some q ∧ idx s.par q.1 q.2 = w then c else s.frameAt w := by
  induction ps generalizing s with
  | nil => simp
  | cons p ps ih =>
    rw [plotAll_cons, ih (s.plot p) fun q hq => hps q (by simp [hq]), (plot_only s p).par]
    have hpc : p.c = c := hps p (by simp)
    by_cases hrest : ∃ p' ∈ ps, ∃ q, clipPoint s.par p'.x p'.y = some q ∧ idx s.par q.1 q.2 = w
    · rw [if_pos hrest, if_pos]
      obtain ⟨p', hp', hq⟩ := hrest
      exact ⟨p', by simp [hp'], hq⟩
    · rw [if_neg hrest, State.plot]
      cases hclip : clipPoint s.par p.x p.y with
      | none =>
        simp only [List.mem_cons, exists_eq_or_imp, hclip, reduceCtorEq, false_and, exists_false, false_or]
        rw [if_neg hrest]
      | some q =>
        simp only [List.mem_cons, exists_eq_or_imp, hclip, Option.some.injEq, exists_eq_left', frameAt_plotAt, hpc]
        by_cases hw : w = idx s.par q.1 q.2
        · rw [if_pos hw, if_pos (.inl hw.symm)]
        · rw [if_neg hw, if_neg]
          rintro (h | h)
          · exact hw h.symm
          · exact hrest h

/-! ## The command port (10_state.md R47) -/

/-- A complete frame at the head of the port is taken whole, whatever follows it. -/
theorem nextFrame_append (header len : Word) (ops rest : List Word) (h : ops.length = len.toNat) :
    nextFrame (header :: len :: (ops ++ rest)) = some (header :: len :: ops, rest) := by
  have h1 : len.toNat ≤ (ops ++ rest).length := by
    rw [List.length_append]
    omega
  rw [nextFrame, if_pos h1, ← h]
  simp

/-- What is taken is the head of the port, and a frame of LEN + 2 words. -/
theorem nextFrame_spec {port frame rest : List Word} (h : nextFrame port = some (frame, rest)) :
    port = frame ++ rest ∧ ∃ header len ops, frame = header :: len :: ops ∧ ops.length = len.toNat := by
  match port, h with
  | header :: len :: tail, h =>
    rw [nextFrame] at h
    split at h
    · rename_i hle
      cases h
      refine ⟨by simp, header, len, _, rfl, ?_⟩
      rw [List.length_take]
      omega
    · cases h

/-! ## Operand checks -/

/-- A byte operand is at most 255 (30_encoding.md R112). -/
theorem byteOk_iff (w : Word) : byteOk w = true ↔ w.toNat ≤ 255 := by
  have hw := w.isLt
  simp only [byteOk, beq_iff_eq]
  rw [← BitVec.toNat_inj, hi_toNat]
  simp
  omega

/-- A target address is at most 127 (30_encoding.md R112, R119). -/
theorem addressOk_iff (a : Word) : addressOk a = true ↔ a.toNat ≤ 127 := by
  have := a.isLt
  simp only [addressOk, beq_iff_eq]
  rw [← BitVec.toNat_inj, BitVec.extractLsb'_toNat, Nat.shiftRight_eq_div_pow]
  simp
  omega

/-- COUNT is between 1 and MAX_READ_WORDS (30_encoding.md R119). -/
theorem countOk_iff (c : Config) (count : Word) :
    countOk c count = true ↔ 1 ≤ count.toNat ∧ count.toNat ≤ c.maxReadWords := by
  simp [countOk]

/-- A window lies inside the display (43_display_link.md R267). -/
theorem windowOk_iff (c : Config) (x0 y0 x1 y1 : Word) : windowOk c x0 y0 x1 y1 = true ↔
    x0.toNat ≤ x1.toNat ∧ x1.toNat ≤ c.width - 1 ∧ y0.toNat ≤ y1.toNat ∧ y1.toNat ≤ c.height - 1 := by
  simp [windowOk, and_assoc]

end Sys2Proof.Machine
end

