-- ==== Sys2Proof/Laws/Dl.lean ====
section
/-! SUPPORT. What the display link does, said once: each piece is one record update (43_display_link.md R260-R270). -/

namespace Sys2Proof.Machine

/-- `frame(d, b)` (R260). -/
theorem displayFrame_eq (d : Dc) (bytes : List Byte) (s : State) :
    displayFrame d bytes s = { s with dcLine := d, csLine := .off, trace := s.trace ++ frameEvents d bytes } := by
  simp [displayFrame, State.emitDisplay, frameEvents]

/-- `sendCommand(code)` (R261). -/
theorem sendCommand_eq (code : Byte) (s : State) :
    sendCommand code s = { s with dcLine := .cmd, csLine := .off, trace := s.trace ++ frameEvents .cmd [code] } :=
  displayFrame_eq .cmd [code] s

/-- `sendData(b)` for at least one byte (R262). -/
theorem sendData_eq {bytes : List Byte} (h : bytes ≠ []) (s : State) :
    sendData bytes s = { s with dcLine := .data, csLine := .off, trace := s.trace ++ frameEvents .data bytes } := by
  rw [sendData, if_neg (by simpa using h)]
  exact displayFrame_eq .data bytes s

/-- `sendData` of no bytes does nothing (R262). -/
@[simp] theorem sendData_nil (s : State) : sendData [] s = s := rfl

theorem bytesOfWords_eq_nil {ws : List Word} : bytesOfWords ws = [] ↔ ws = [] := by
  cases ws <;> simp [bytesOfWords]

/-- `sendDataWords(w)` for at least one word (R263). -/
theorem sendDataWords_eq {ws : List Word} (h : ws ≠ []) (s : State) :
    sendDataWords ws s =
      { s with dcLine := .data, csLine := .off, trace := s.trace ++ frameEvents .data (bytesOfWords ws) } :=
  sendData_eq (fun h' => h (bytesOfWords_eq_nil.mp h')) s

/-- `setWindow(x0, y0, x1, y1)` (R267, R293). -/
theorem setWindow_eq (x0 y0 x1 y1 : Word) (s : State) :
    setWindow x0 y0 x1 y1 s =
      { s with dcLine := .cmd, csLine := .off, trace := s.trace ++ windowEvents s.par x0 y0 x1 y1 } := by
  simp [setWindow, sendCommand_eq, sendData_eq, windowEvents, State.par]

/-- The frames and delays of DL.INIT (R270). -/
theorem initSequence_eq (s : State) :
    initSequence s = { s with dcLine := .cmd, csLine := .off, trace := s.trace ++ initSequenceEvents s.par } := by
  simp [initSequence, sendCommand_eq, sendData_eq, settle, State.emitDisplay, initSequenceEvents, State.par]

/-- A display frame is 3 + n events (70_reset_and_hazards.md R472). -/
@[simp] theorem frameEvents_length (d : Dc) (bytes : List Byte) : (frameEvents d bytes).length = 3 + bytes.length := by
  simp [frameEvents]
  omega

@[simp] theorem windowEvents_length (c : Config) (x0 y0 x1 y1 : Word) : (windowEvents c x0 y0 x1 y1).length = 26 := by
  simp [windowEvents]

@[simp] theorem initSequenceEvents_length (c : Config) : (initSequenceEvents c).length = 43 := by
  simp [initSequenceEvents]

theorem frameEvents_notBus (d : Dc) (bytes : List Byte) : ∀ e ∈ frameEvents d bytes, e.isBus = false := by
  intro e he
  simp only [frameEvents, List.mem_append, List.mem_cons, List.mem_map, List.not_mem_nil, or_false] at he
  rcases he with ((rfl | rfl) | ⟨b, -, rfl⟩) | rfl <;> rfl

theorem windowEvents_notBus (c : Config) (x0 y0 x1 y1 : Word) : ∀ e ∈ windowEvents c x0 y0 x1 y1, e.isBus = false := by
  intro e he
  simp only [windowEvents, List.mem_append] at he
  rcases he with (((h | h) | h) | h) | h <;> exact frameEvents_notBus _ _ e h

/-- The loop that sets flags (R270): a read after it. -/
theorem dirtyAt_markLoop (ks : List Nat) (s : State) (k : Nat) :
    (ks.foldl (fun s k => (s.setDirty k true).setStale k true) s).dirtyAt k = if k ∈ ks then true else s.dirtyAt k := by
  induction ks generalizing s with
  | nil => simp
  | cons j ks ih =>
    rw [List.foldl_cons, ih]
    by_cases h : k ∈ ks <;> by_cases h' : k = j <;> simp [h, h']

theorem staleAt_markLoop (ks : List Nat) (s : State) (k : Nat) :
    (ks.foldl (fun s k => (s.setDirty k true).setStale k true) s).staleAt k = if k ∈ ks then true else s.staleAt k := by
  induction ks generalizing s with
  | nil => simp
  | cons j ks ih =>
    rw [List.foldl_cons, ih]
    by_cases h : k ∈ ks <;> by_cases h' : k = j <;> simp [h, h']

/-- Every Dirty flag of the grid is set, no other changes. -/
theorem dirtyAt_markAllCells (s : State) (k : Nat) :
    (markAllCells s).dirtyAt k = if k < s.par.cells then true else s.dirtyAt k := by
  rw [markAllCells, dirtyAt_markLoop]
  simp

/-- Every Stale flag of the grid is set, no other changes. -/
theorem staleAt_markAllCells (s : State) (k : Nat) :
    (markAllCells s).staleAt k = if k < s.par.cells then true else s.staleAt k := by
  rw [markAllCells, staleAt_markLoop]
  simp

/-- Only Dirty and Stale change. -/
theorem markAllCells_only (s : State) :
    markAllCells s = { s with dirty := (markAllCells s).dirty, stale := (markAllCells s).stale } := by
  have : ∀ (ks : List Nat) (s : State),
      (ks.foldl (fun s k => (s.setDirty k true).setStale k true) s) =
        { s with dirty := (ks.foldl (fun s k => (s.setDirty k true).setStale k true) s).dirty,
                 stale := (ks.foldl (fun s k => (s.setDirty k true).setStale k true) s).stale } := by
    intro ks
    induction ks with
    | nil => exact fun s => rfl
    | cons j ks ih =>
      intro s
      rw [List.foldl_cons]
      exact ih _
  exact this _ s

end Sys2Proof.Machine
end

