-- ==== Sys2Proof/Laws/Controller.lean ====
section
/-! SUPPORT. What the reference controller makes of a window and of the pixels after it (43_display_link.md R287-R292). -/

namespace Sys2Proof.Machine

theorem run_append (c : Config) (k : Controller) (es fs : List Event) :
    k.run c (es ++ fs) = (k.run c es).run c fs := List.foldl_append

@[simp] theorem run_cons (c : Config) (k : Controller) (e : Event) (es : List Event) :
    k.run c (e :: es) = (k.observe c e).run c es := rfl

@[simp] theorem run_nil (c : Config) (k : Controller) : k.run c [] = k := rfl

/-- The controller does not see the two-wire bus. -/
theorem run_bus (c : Config) (k : Controller) (es : List Event) (h : ∀ e ∈ es, e.isBus = true) : k.run c es = k := by
  induction es with
  | nil => rfl
  | cons e es ih =>
    have he := h e (by simp)
    have : k.observe c e = k := by
      cases e <;> first | rfl | cases he
    rw [run_cons, this]
    exact ih fun e' h' => h e' (by simp [h'])

/-- Five frames set a window and start its pixels (R287, R288). -/
theorem run_window (c : Config) (k : Controller) (x0 y0 x1 y1 : Word) (hc : WindowCodesDistinct c) (hr : k.ready = true) :
    k.run c (windowEvents c x0 y0 x1 y1) =
      { k with cols := some (x0, x1), rows := some (y0, y1), mode := .pixels x0.toNat y0.toNat none, dc := .cmd,
               cs := .off } := by
  obtain ⟨h1, h2, h3, h4, h5, h6⟩ := hc
  obtain ⟨gram, cols, rows, mode, ready, dc, cs⟩ := k
  simp only at hr
  subst hr
  simp [windowEvents, frameEvents, Controller.run, Controller.observe, Controller.command, Controller.data,
    Controller.argument, h2, h3, h4, h5, h6, h1.symm]

/-- The pixels of a window in the order the controller fills it (R268, R289). -/
def windowPixels (order : PixelOrder) (x0 y0 w h : Nat) : List (Nat × Nat) :=
  match order with
  | .rowMajor => (List.range' y0 h).flatMap fun y => (List.range' x0 w).map fun x => (x, y)
  | .columnMajor => (List.range' x0 w).flatMap fun x => (List.range' y0 h).map fun y => (x, y)

theorem mem_windowPixels (order : PixelOrder) (x0 y0 w h : Nat) (q : Nat × Nat) :
    q ∈ windowPixels order x0 y0 w h ↔ (x0 ≤ q.1 ∧ q.1 < x0 + w) ∧ (y0 ≤ q.2 ∧ q.2 < y0 + h) := by
  obtain ⟨x, y⟩ := q
  cases order
  · simp only [windowPixels, List.mem_flatMap, List.mem_map, Prod.mk.injEq, List.mem_range'_1]
    constructor
    · rintro ⟨y', hy, x', hx, rfl, rfl⟩
      exact ⟨hx, hy⟩
    · rintro ⟨hx, hy⟩
      exact ⟨y, hy, x, hx, rfl, rfl⟩
  · simp only [windowPixels, List.mem_flatMap, List.mem_map, Prod.mk.injEq, List.mem_range'_1]
    constructor
    · rintro ⟨x', hx, y', hy, rfl, rfl⟩
      exact ⟨hx, hy⟩
    · rintro ⟨hx, hy⟩
      exact ⟨x, hx, y, hy, rfl, rfl⟩

theorem windowPixels_length (order : PixelOrder) (x0 y0 w h : Nat) : (windowPixels order x0 y0 w h).length = w * h := by
  cases order
  · simp [windowPixels, List.length_flatMap, Nat.mul_comm]
  · simp [windowPixels, List.length_flatMap]

/-- The rows of a grid, one after the other, step from pixel to pixel as `next` says. -/
theorem grid_chain {α β : Type} (next : α × β → α × β → Prop) (outer : List β) (inner : List α) (hi : inner ≠ [])
    (hin : ∀ y ∈ outer, inner.IsChain fun x x' => next (x, y) (x', y))
    (hout : outer.IsChain fun y y' => next (inner.getLast hi, y) (inner.head hi, y')) :
    (outer.flatMap fun y => inner.map fun x => (x, y)).IsChain next := by
  induction outer with
  | nil => exact List.IsChain.nil
  | cons y ys ih =>
    rw [List.flatMap_cons]
    refine List.IsChain.append ?_ (ih (fun y' h => hin y' (by simp [h])) hout.tail) ?_
    · exact (List.isChain_map _).mpr (hin y (by simp))
    · intro p hp q hq
      cases ys with
      | nil => simp at hq
      | cons y' ys =>
        have hn := (List.isChain_cons_cons.mp hout).1
        rw [List.getLast?_map, List.getLast?_eq_some_getLast hi] at hp
        rw [List.flatMap_cons, List.head?_append_of_ne_nil _ (by simpa using hi), List.head?_map,
          List.head?_eq_some_head hi] at hq
        simp only [Option.map_some, Option.mem_def, Option.some.injEq] at hp hq
        rw [← hp, ← hq]
        exact hn

theorem range'_chain (a n : Nat) (R : Nat → Nat → Prop) (h : ∀ i, a ≤ i → i + 1 < a + n → R i (i + 1)) :
    (List.range' a n).IsChain R := by
  rw [List.isChain_iff_getElem]
  intro i hi
  rw [List.length_range'] at hi
  simp only [List.getElem_range', Nat.one_mul]
  exact h (a + i) (by omega) (by omega)

/-- Consecutive pixels of a window are the controller's pointer and its next place (R289). -/
theorem windowPixels_chain (order : PixelOrder) (cols rows : Word × Word) (w h : Nat) (hw : 0 < w) (hh : 0 < h)
    (hx : cols.2.toNat + 1 = cols.1.toNat + w) (hy : rows.2.toNat + 1 = rows.1.toNat + h) :
    (windowPixels order cols.1.toNat rows.1.toNat w h).IsChain
      fun p q => nextPixel order cols rows p.1 p.2 = some q := by
  have hne : ∀ a n, 0 < n → List.range' a n ≠ [] := fun a n hn h => by
    have := congrArg List.length h
    simp at this
    omega
  have hlast : ∀ a n (hn : 0 < n), (List.range' a n).getLast (hne a n hn) = a + n - 1 := fun a n hn => by
    rw [List.getLast_eq_getElem]
    simp
    omega
  have hhead : ∀ a n (hn : 0 < n), (List.range' a n).head (hne a n hn) = a := fun a n hn => by
    cases n with
    | zero => omega
    | succ n => rfl
  cases order
  · refine grid_chain (fun p q => nextPixel .rowMajor cols rows p.1 p.2 = some q) _ _ (hne _ _ hw) (fun y _ => ?_) ?_
    · refine range'_chain _ _ _ fun i h1 h2 => ?_
      rw [nextPixel, if_neg (by simp only; omega)]
    · refine range'_chain _ _ _ fun i h1 h2 => ?_
      rw [hlast _ _ hw, hhead _ _ hw, nextPixel, if_pos (by simp only; omega), if_neg (by simp only; omega)]
  · have := grid_chain (fun p q => nextPixel .columnMajor cols rows p.2 p.1 = some (q.2, q.1))
      (List.range' cols.1.toNat w) (List.range' rows.1.toNat h) (hne _ _ hh) (fun x _ => ?_) ?_
    · rw [windowPixels]
      have hswap : ((List.range' cols.1.toNat w).flatMap fun x => (List.range' rows.1.toNat h).map fun y => (x, y)) =
          ((List.range' cols.1.toNat w).flatMap fun x => (List.range' rows.1.toNat h).map fun y => (y, x)).map
            fun p => (p.2, p.1) := by
        rw [List.map_flatMap]
        simp [List.map_map, Function.comp_def]
      rw [hswap, List.isChain_map]
      exact this
    · refine range'_chain _ _ _ fun i h1 h2 => ?_
      rw [nextPixel, if_neg (by simp only; omega)]
    · refine range'_chain _ _ _ fun i h1 h2 => ?_
      rw [hlast _ _ hh, hhead _ _ hh, nextPixel, if_pos (by simp only; omega), if_neg (by simp only; omega)]

/-- The pixels of `ps` written one by one with the colours of `ws`. -/
def putPixels (c : Config) (k : Controller) (ps : List (Nat × Nat)) (ws : List Word) : Controller :=
  (ps.zip ws).foldl (fun k q => k.putPixel c q.1.1 q.1.2 q.2) k

/-- Everything but the pixel memory and the mode. -/
theorem putPixel_keeps (c : Config) (cc cr : Nat) (p : Word) (k : Controller) :
    k.putPixel c cc cr p = { k with gram := (k.putPixel c cc cr p).gram } := by
  rw [Controller.putPixel]
  split <;> rfl

theorem gramAt_putPixel (c : Config) (cc cr : Nat) (p : Word) (k : Controller) (hr : k.ready = true)
    (hx : cc < c.width) (hy : cr < c.height) (i : Nat) :
    (k.putPixel c cc cr p).gramAt i = if i = cr * c.width + cc then some p else k.gramAt i := by
  rw [Controller.putPixel, if_pos ⟨hr, hx, hy⟩]
  exact Memory.read_write none k.gram (cr * c.width + cc) i (some p)

/-- The bytes of pixel words, while the pointer follows `ps`: the pixels are written, the windows and lines stay. -/
theorem run_words (c : Config) (order : PixelOrder) (hord : order = c.pixelOrder) (cols rows : Word × Word)
    (ps : List (Nat × Nat)) (ws : List Word) (hlen : ws.length = ps.length) (q : Nat × Nat) (hq : ps.head? = some q)
    (hchain : ps.IsChain fun p q => nextPixel order cols rows p.1 p.2 = some q) (k : Controller)
    (hcols : k.cols = some cols) (hrows : k.rows = some rows) (hmode : k.mode = .pixels q.1 q.2 none)
    (hdc : k.dc = .data) (hcs : k.cs = .on) :
    ∃ m, (∀ a b h, m ≠ .pixels a b (some h)) ∧
      k.run c ((bytesOfWords ws).map .byte) = { putPixels c k ps ws with mode := m } := by
  subst hord
  induction ps generalizing ws k q with
  | nil => simp at hq
  | cons p ps ih =>
    cases ws with
    | nil => simp at hlen
    | cons w ws =>
      simp only [List.head?_cons, Option.some.injEq] at hq
      subst hq
      obtain ⟨gram, kcols, krows, mode, ready, dc, cs⟩ := k
      simp only at hcols hrows hmode hdc hcs
      subst hcols hrows hmode hdc hcs
      have hbytes : (bytesOfWords (w :: ws)).map Event.byte =
          .byte (hi w) :: .byte (lo w) :: (bytesOfWords ws).map Event.byte := rfl
      rw [hbytes, run_cons, run_cons]
      have hput := putPixel_keeps c p.1 p.2 w
        { gram := gram, cols := some cols, rows := some rows, mode := .pixels p.1 p.2 none, ready := ready, dc := .data, cs := .on }
      have hgram : ∀ m m', (Controller.putPixel c p.1 p.2 w
          { gram := gram, cols := some cols, rows := some rows, mode := m, ready := ready, dc := .data, cs := .on }).gram =
          (Controller.putPixel c p.1 p.2 w
          { gram := gram, cols := some cols, rows := some rows, mode := m', ready := ready, dc := .data, cs := .on }).gram := by
        intro m m'
        rw [Controller.putPixel, Controller.putPixel]
        split <;> rfl
      have hstep : ∀ n, nextPixel c.pixelOrder cols rows p.1 p.2 = n →
          (Controller.observe c (Controller.observe c
            { gram := gram, cols := some cols, rows := some rows, mode := .pixels p.1 p.2 none, ready := ready, dc := .data, cs := .on }
            (.byte (hi w))) (.byte (lo w))) =
          { Controller.putPixel c p.1 p.2 w
              { gram := gram, cols := some cols, rows := some rows, mode := .pixels p.1 p.2 none, ready := ready, dc := .data, cs := .on } with
            mode := match n with | some q => .pixels q.1 q.2 none | none => .lost } := by
        intro n hn
        simp only [Controller.observe, Controller.data, cat_hi_lo]
        rw [putPixel_keeps c p.1 p.2 w { gram := gram, cols := some cols, rows := some rows, mode := .pixels p.1 p.2 (some (hi w)), ready := ready, dc := .data, cs := .on }]
        rw [hgram (.pixels p.1 p.2 (some (hi w))) (.pixels p.1 p.2 none)]
        rw [hput]
        simp only [hn]
        cases n <;> rfl
      cases ps with
      | nil =>
        have hws : ws = [] := by simpa using hlen
        subst hws
        rw [hstep _ rfl]
        refine ⟨_, ?_, rfl⟩
        intro a b h
        cases nextPixel c.pixelOrder cols rows p.1 p.2 <;> simp
      | cons p' ps =>
        obtain ⟨hn, hchain'⟩ := List.isChain_cons_cons.mp hchain
        rw [hstep _ hn]
        rw [hput]
        obtain ⟨m, hm, hrun⟩ := ih (ws := ws) (hlen := by simpa using hlen) (q := p') (hq := rfl) (hchain := hchain')
          (k := Controller.mk (Controller.putPixel c p.1 p.2 w
            { gram := gram, cols := some cols, rows := some rows, mode := .pixels p.1 p.2 none, ready := ready, dc := .data, cs := .on }).gram
            (some cols) (some rows) (.pixels p'.1 p'.2 none) ready .data .on)
          (hcols := rfl) (hrows := rfl) (hmode := rfl) (hdc := rfl) (hcs := rfl)
        refine ⟨m, hm, ?_⟩
        rw [hrun]
        have hmode : ∀ (l : List ((Nat × Nat) × Word)) (k : Controller) (m m' : ControllerMode),
            ({ (l.foldl (fun k q => k.putPixel c q.1.1 q.1.2 q.2) { k with mode := m }) with mode := m' } : Controller) =
            { (l.foldl (fun k q => k.putPixel c q.1.1 q.1.2 q.2) k) with mode := m' } := by
          intro l
          induction l with
          | nil => exact fun k m m' => rfl
          | cons x l ihl =>
            intro k m m'
            rw [List.foldl_cons, List.foldl_cons]
            have : Controller.putPixel c x.1.1 x.1.2 x.2 { k with mode := m } =
                { Controller.putPixel c x.1.1 x.1.2 x.2 k with mode := m } := by
              rw [Controller.putPixel, Controller.putPixel]
              split <;> rfl
            rw [this, ihl]
        rw [putPixels, putPixels, List.zip_cons_cons, List.foldl_cons]
        refine Eq.trans ?_ (hmode _ (Controller.putPixel c p.1 p.2 w
          ⟨gram, some cols, some rows, .pixels p.1 p.2 none, ready, .data, .on⟩) (.pixels p'.1 p'.2 none) m)
        have hmk : (Controller.mk (Controller.putPixel c p.1 p.2 w
            ⟨gram, some cols, some rows, .pixels p.1 p.2 none, ready, .data, .on⟩).gram
            (some cols) (some rows) (.pixels p'.1 p'.2 none) ready .data .on) =
            { (Controller.putPixel c p.1 p.2 w ⟨gram, some cols, some rows, .pixels p.1 p.2 none, ready, .data, .on⟩) with
              mode := .pixels p'.1 p'.2 none } := by rw [hput]
        rw [hmk]

/-- The pixel memory after pixels inside the Frame. -/
theorem gramAt_putPixels_other (c : Config) (k : Controller) (ps : List (Nat × Nat)) (ws : List Word)
    (hr : k.ready = true) (hps : ∀ q ∈ ps, q.1 < c.width ∧ q.2 < c.height) (i : Nat)
    (hi : ∀ q ∈ ps, idx c q.1 q.2 ≠ i) : (putPixels c k ps ws).gramAt i = k.gramAt i := by
  induction ps generalizing k ws with
  | nil => rfl
  | cons p ps ih =>
    cases ws with
    | nil => rfl
    | cons w ws =>
      rw [putPixels, List.zip_cons_cons, List.foldl_cons]
      have hp := hps p (by simp)
      have hready : (k.putPixel c p.1 p.2 w).ready = true := by
        rw [putPixel_keeps]
        exact hr
      refine (ih _ ws hready (fun q hq => hps q (by simp [hq])) (fun q hq => hi q (by simp [hq]))).trans ?_
      rw [gramAt_putPixel c p.1 p.2 w k hr hp.1 hp.2, if_neg]
      exact fun h => hi p (by simp) h.symm

/-- Each pixel of the list, none of which comes twice, holds its word. -/
theorem gramAt_putPixels (c : Config) (k : Controller) (ps : List (Nat × Nat)) (ws : List Word)
    (hr : k.ready = true) (hps : ∀ q ∈ ps, q.1 < c.width ∧ q.2 < c.height) (hnd : ps.Nodup)
    (hlen : ws.length = ps.length) (i : Nat) (hi : i < ps.length) :
    (putPixels c k ps ws).gramAt (idx c ps[i].1 ps[i].2) = some (ws[i]'(by omega)) := by
  induction ps generalizing k ws i with
  | nil => exact absurd hi (by simp)
  | cons p ps ih =>
    cases ws with
    | nil => simp at hlen
    | cons w ws =>
      have hp := hps p (by simp)
      have hready : (k.putPixel c p.1 p.2 w).ready = true := by
        rw [putPixel_keeps]
        exact hr
      rw [putPixels, List.zip_cons_cons, List.foldl_cons]
      cases i with
      | zero =>
        refine (gramAt_putPixels_other c _ ps ws hready (fun q hq => hps q (by simp [hq])) _ fun q hq h => ?_).trans ?_
        · have hq' := hps q (by simp [hq])
          have := idx_inj c hq'.1 hp.1 h
          have hqp : q = p := Prod.ext this.1 this.2
          exact (List.nodup_cons.mp hnd).1 (hqp ▸ hq)
        · rw [gramAt_putPixel c p.1 p.2 w k hr hp.1 hp.2]
          exact if_pos rfl
      | succ i =>
        exact ih _ ws hready (fun q hq => hps q (by simp [hq])) (List.nodup_cons.mp hnd).2 (by simpa using hlen) i
          (by simpa using hi)

theorem windowPixels_nodup (order : PixelOrder) (x0 y0 w h : Nat) : (windowPixels order x0 y0 w h).Nodup := by
  have hgrid : ∀ {f : Nat → Nat → Nat × Nat}, (∀ a b a' b', f a b = f a' b' → a = a' ∧ b = b') → ∀ (l m : List Nat),
      l.Nodup → m.Nodup → (l.flatMap fun a => m.map (f a)).Nodup := by
    intro f hf l m hl hm
    rw [List.nodup_flatMap]
    refine ⟨fun a _ => hm.map fun b b' h => (hf a b a b' h).2, hl.imp fun {a a'} hne => ?_⟩
    intro p hp hp'
    obtain ⟨b, -, rfl⟩ := List.mem_map.mp hp
    obtain ⟨b', -, hb⟩ := List.mem_map.mp hp'
    exact hne (hf _ _ _ _ hb).1.symm
  cases order
  · exact hgrid (f := fun y x => (x, y)) (fun a b a' b' h => by simp at h; exact ⟨h.2, h.1⟩) _ _ List.nodup_range' List.nodup_range'
  · exact hgrid (f := fun x y => (x, y)) (fun a b a' b' h => by simp at h; exact h) _ _ List.nodup_range' List.nodup_range'

/-- A window and exactly its pixels in one frame (R292): the window's cells hold the words in the controller's order, no
other cell changes, and the controller is left ready with whole pixels. -/
theorem run_window_words (c : Config) (k : Controller) (x0 y0 x1 y1 : Word) (ws : List Word) (hc : WindowCodesDistinct c)
    (hr : k.ready = true) (hx : x0.toNat ≤ x1.toNat) (hx' : x1.toNat < c.width) (hy : y0.toNat ≤ y1.toNat)
    (hy' : y1.toNat < c.height)
    (hn : ws.length = (x1.toNat - x0.toNat + 1) * (y1.toNat - y0.toNat + 1)) :
    let ps := windowPixels c.pixelOrder x0.toNat y0.toNat (x1.toNat - x0.toNat + 1) (y1.toNat - y0.toNat + 1)
    let k' := k.run c (windowEvents c x0 y0 x1 y1 ++ frameEvents .data (bytesOfWords ws))
    k'.ready = true ∧
    (∀ i, (hi : i < ps.length) → k'.gramAt (idx c ps[i].1 ps[i].2) = ws[i]?) ∧
    (∀ p, (∀ q ∈ ps, idx c q.1 q.2 ≠ p) → k'.gramAt p = k.gramAt p) := by
  intro ps k'
  have hmem : ∀ q ∈ ps, q.1 < c.width ∧ q.2 < c.height := by
    intro q hq
    have := (mem_windowPixels _ _ _ _ _ q).mp hq
    omega
  have hlen : ws.length = ps.length := by rw [windowPixels_length, hn]
  have hhead : ps.head? = some (x0.toNat, y0.toNat) := by
    simp only [ps]
    cases c.pixelOrder <;>
      simp [windowPixels, List.range'_succ]
  have hk1 := run_window c k x0 y0 x1 y1 hc hr
  have hev : frameEvents .data (bytesOfWords ws) =
      .dc .data :: .csOn :: ((bytesOfWords ws).map .byte ++ [.csOff]) := by
    simp [frameEvents]
  obtain ⟨m, hm, hrun⟩ := run_words c c.pixelOrder rfl (x0, x1) (y0, y1) ps ws hlen _ hhead
    (windowPixels_chain c.pixelOrder (x0, x1) (y0, y1) _ _ (by omega) (by omega) (by simp only; omega) (by simp only; omega))
    { k with cols := some (x0, x1), rows := some (y0, y1), mode := .pixels x0.toNat y0.toNat none, dc := .data, cs := .on }
    rfl rfl rfl rfl rfl
  have hk' : k' = { (putPixels c ({ k with cols := some (x0, x1), rows := some (y0, y1), mode := .pixels x0.toNat y0.toNat none, dc := .data, cs := .on } : Controller) ps ws) with mode := m, cs := .off } := by
    simp only [k']
    rw [run_append, hk1, hev, run_cons, run_cons, run_append]
    have hobs : (Controller.observe c (Controller.observe c
        { k with cols := some (x0, x1), rows := some (y0, y1), mode := .pixels x0.toNat y0.toNat none, dc := .cmd, cs := .off }
        (.dc .data)) .csOn) =
        { k with cols := some (x0, x1), rows := some (y0, y1), mode := .pixels x0.toNat y0.toNat none, dc := .data, cs := .on } := rfl
    rw [hobs, hrun, run_cons, run_nil, Controller.observe]
    simp only
    cases m with
    | pixels a b l =>
      cases l with
      | none => rfl
      | some h => exact absurd rfl (hm a b h)
    | idle => rfl
    | args _ _ => rfl
    | lost => rfl
  have hkeep : ∀ (l : List ((Nat × Nat) × Word)) (k : Controller),
      (l.foldl (fun k q => k.putPixel c q.1.1 q.1.2 q.2) k).ready = k.ready := by
    intro l
    induction l with
    | nil => exact fun k => rfl
    | cons x l ih =>
      intro k
      rw [List.foldl_cons, ih, putPixel_keeps]
  refine ⟨?_, fun i hi => ?_, fun p hp => ?_⟩
  · rw [hk']
    exact (hkeep _ _).trans hr
  · rw [hk', List.getElem?_eq_getElem (by omega)]
    exact gramAt_putPixels c ({ k with cols := some (x0, x1), rows := some (y0, y1), mode := .pixels x0.toNat y0.toNat none, dc := .data, cs := .on } : Controller) ps ws hr hmem (windowPixels_nodup _ _ _ _ _) hlen i hi
  · rw [hk']
    exact gramAt_putPixels_other c ({ k with cols := some (x0, x1), rows := some (y0, y1), mode := .pixels x0.toNat y0.toNat none, dc := .data, cs := .on } : Controller) ps ws hr hmem p hp

end Sys2Proof.Machine
end

