-- ==== Sys2Proof/Laws/Twb.lean ====
section
/-! SUPPORT. What each piece of a bus transaction does, said once and for every agent on the bus: the events it emits, the
drivers and flags it leaves, and how a timeout ends it (41_transport.md R180-R199). -/

namespace Sys2Proof.Machine

/-- From s to t the bus emitted exactly `es`, left the drivers at `scl` and `sda` and kept its two flags. -/
def Did (es : List Event) (scl sda : Drive) (s t : State) : Prop :=
  OnlyBus s t ∧ t.trace = s.trace ++ es ∧ t.sclDrv = scl ∧ t.sdaDrv = sda ∧ t.busInit = s.busInit ∧ t.busHeld = s.busHeld

/-- From s to t a transaction met a timeout after at most n bus events (R190, R199). -/
def TimedOut (n : Nat) (s t : State) : Prop :=
  OnlyBus s t ∧ (∃ es, t.trace = s.trace ++ es ∧ es.length ≤ n ∧ ∀ e ∈ es, e.isBus = true) ∧
  t.sclDrv = .rel ∧ t.busInit = false ∧ t.busHeld = false

/-- A piece begun at s is done as P says or timed out within n events. -/
def Wire.Spec {α : Type} (m : Wire α) (n : Nat) (s : State) (P : α → State → Prop) : Prop :=
  match m with
  | .done a t => P a t
  | .timedOut t => TimedOut n s t

theorem Did.trans {es fs : List Event} {a b c d : Drive} {s t u : State} (h1 : Did es a b s t) (h2 : Did fs c d t u) :
    Did (es ++ fs) c d s u := by
  obtain ⟨o1, t1, -, -, i1, e1⟩ := h1
  obtain ⟨o2, t2, a2, b2, i2, e2⟩ := h2
  exact ⟨o1.trans o2, by rw [t2, t1, List.append_assoc], a2, b2, i2.trans i1, e2.trans e1⟩

theorem TimedOut.mono {n m : Nat} {s t : State} (h : TimedOut n s t) (hnm : n ≤ m) : TimedOut m s t := by
  obtain ⟨o, ⟨es, h1, h2, h3⟩, r⟩ := h
  exact ⟨o, ⟨es, h1, h2.trans hnm, h3⟩, r⟩

/-- A timeout after events already emitted. -/
theorem TimedOut.after {es : List Event} {n m : Nat} {s t u : State} (ho : OnlyBus s t) (ht : t.trace = s.trace ++ es)
    (hes : ∀ e ∈ es, e.isBus = true) (h : TimedOut n t u) (hm : es.length + n ≤ m) : TimedOut m s u := by
  obtain ⟨o, ⟨fs, h1, h2, h3⟩, r⟩ := h
  refine ⟨ho.trans o, ⟨es ++ fs, by rw [h1, ht, List.append_assoc], ?_, fun e he => ?_⟩, r⟩
  · rw [List.length_append]
    omega
  · rcases List.mem_append.mp he with h | h
    · exact hes e h
    · exact h3 e h

theorem Wire.Spec.mono {α : Type} {m : Wire α} {n k : Nat} {s : State} {P Q : α → State → Prop} (h : m.Spec n s P)
    (hnk : n ≤ k) (hPQ : ∀ a t, P a t → Q a t) : m.Spec k s Q := by
  cases m with
  | done a t => exact hPQ a t h
  | timedOut t => exact TimedOut.mono h hnk

/-- One piece after another: the second begins where the first, whose events are on the bus, ended. -/
theorem Wire.Spec.andThen {α β : Type} {m : Wire α} {k : α → State → Wire β} {n n' N : Nat} {s : State}
    {P : α → State → Prop} {Q : β → State → Prop} (hm : m.Spec n s P)
    (hk : ∀ a t, P a t → ∃ es, OnlyBus s t ∧ t.trace = s.trace ++ es ∧ (∀ e ∈ es, e.isBus = true) ∧
      es.length + n' ≤ N ∧ (k a t).Spec n' t Q) (hn : n ≤ N) : (m.andThen k).Spec N s Q := by
  cases m with
  | timedOut t => exact TimedOut.mono hm hn
  | done a t =>
    obtain ⟨es, ho, ht, hes, hlen, hk⟩ := hk a t hm
    show (k a t).Spec N s Q
    cases hkt : k a t with
    | done b u =>
      rw [hkt] at hk
      exact hk
    | timedOut u =>
      rw [hkt] at hk
      exact TimedOut.after ho ht hes hk hlen

/-! ## Events of the bus -/

@[simp] theorem startEvents_bus : ∀ e ∈ startEvents, e.isBus = true := by decide
@[simp] theorem stopEvents_bus : ∀ e ∈ stopEvents, e.isBus = true := by decide
@[simp] theorem initEvents_bus : ∀ e ∈ initEvents, e.isBus = true := by decide

theorem bitEvents_bus (b : Bool) : ∀ e ∈ bitEvents b, e.isBus = true := by cases b <;> decide

theorem ackEvents_bus (a : Bool) : ∀ e ∈ ackEvents a, e.isBus = true := by cases a <;> decide

theorem bits_bus (bs : List Bool) : ∀ e ∈ bs.flatMap bitEvents, e.isBus = true := fun e he => by
  obtain ⟨b, -, hb⟩ := List.mem_flatMap.mp he
  exact bitEvents_bus b e hb

theorem bits_length (bs : List Bool) : (bs.flatMap bitEvents).length = 3 * bs.length := by
  induction bs with
  | nil => rfl
  | cons b bs ih =>
    simp only [List.flatMap_cons, List.length_append, ih, List.length_cons, bitEvents, List.length_nil]
    omega

theorem ackTail_bus (b : Bool) : ∀ e ∈ [Event.sdaRel, .sclRel, .sample b, .sclLo], e.isBus = true := by
  cases b <;> decide

theorem sentByteEvents_bus (v : Byte) (nack : Bool) : ∀ e ∈ sentByteEvents v nack, e.isBus = true := fun e he => by
  rcases List.mem_append.mp he with h | h
  · exact bits_bus _ e h
  · exact ackTail_bus nack e h

/-- A sent byte is 28 events (R188). -/
theorem sentByteEvents_length (v : Byte) (nack : Bool) : (sentByteEvents v nack).length = 28 := rfl

/-- The events that clock one bit in (R189). -/
def inBitEvents (b : Bool) : List Event := [.sclRel, .sample b, .sclLo]

theorem inBitEvents_bus (b : Bool) : ∀ e ∈ inBitEvents b, e.isBus = true := by cases b <;> decide

theorem gotByteEvents_eq (v : Byte) : gotByteEvents v = .sdaRel :: (bitsMsbFirst v).flatMap inBitEvents := rfl

theorem gotByteEvents_bus (v : Byte) : ∀ e ∈ gotByteEvents v, e.isBus = true := fun e he => by
  rcases List.mem_cons.mp he with rfl | h
  · rfl
  · obtain ⟨b, -, hb⟩ := List.mem_flatMap.mp h
    exact inBitEvents_bus b e hb

/-- A received byte is 25 events (R189). -/
theorem gotByteEvents_length (v : Byte) : (gotByteEvents v).length = 25 := rfl

/-! ## Line primitives -/

theorem did_sdaLow (s : State) : Did [.sdaLo] s.sclDrv .low s (sdaLow s) := ⟨rfl, rfl, rfl, rfl, rfl, rfl⟩
theorem did_sdaRel (s : State) : Did [.sdaRel] s.sclDrv .rel s (sdaRel s) := ⟨rfl, rfl, rfl, rfl, rfl, rfl⟩
theorem did_sclLow (s : State) : Did [.sclLo] .low s.sdaDrv s (sclLow s) := ⟨rfl, rfl, rfl, rfl, rfl, rfl⟩
theorem did_sclFree (s : State) : Did [.sclRel] .rel s.sdaDrv s (sclFree s) := ⟨rfl, rfl, rfl, rfl, rfl, rfl⟩

/-- `sclRel()` (R182). -/
theorem sclRel_spec (s : State) : (sclRel s).Spec 1 s fun _ t => Did [.sclRel] .rel s.sdaDrv s t := by
  rw [sclRel]
  split
  · exact ⟨rfl, rfl, rfl, rfl, rfl, rfl⟩
  · exact ⟨rfl, ⟨[.sclRel], rfl, by simp, by decide⟩, rfl, rfl, rfl⟩

/-- `sample()` (R183). -/
theorem sample_spec (s : State) :
    (sample s).Spec 1 s fun b t => Did [.sample b] s.sclDrv s.sdaDrv s t := ⟨rfl, rfl, rfl, rfl, rfl, rfl⟩

/-- `waitSdaHigh()` with SCL released (R184). -/
theorem waitSdaHigh_spec (s : State) (h : s.sclDrv = .rel) :
    (waitSdaHigh s).Spec 1 s fun _ t => Did [.waitSda] .rel s.sdaDrv s t := by
  rw [waitSdaHigh]
  split
  · exact ⟨rfl, rfl, h, rfl, rfl, rfl⟩
  · exact ⟨rfl, ⟨[.waitSda], rfl, by simp, by decide⟩, h, rfl, rfl⟩

/-- The rule for one piece whose effect is a `Did` and a piece after it. -/
theorem Wire.Spec.andDid {α β : Type} {m : Wire α} {k : α → State → Wire β} {n n' N l : Nat} {s : State}
    {es : α → List Event} {a b : Drive} {Q : β → State → Prop}
    (hm : m.Spec n s fun v t => Did (es v) a b s t) (hes : ∀ v, ∀ e ∈ es v, e.isBus = true)
    (hl : ∀ v, (es v).length ≤ l) (hN : l + n' ≤ N) (hn : n ≤ N)
    (hk : ∀ v t, Did (es v) a b s t → (k v t).Spec n' t Q) : (m.andThen k).Spec N s Q :=
  hm.andThen (fun v t ht => ⟨es v, ht.1, ht.2.1, hes v, by have := hl v; omega, hk v t ht⟩) hn

/-- A piece begun after events already emitted. -/
theorem Wire.Spec.afterDid {α : Type} {m : Wire α} {n N : Nat} {s t : State} {es : List Event} {a b : Drive}
    {P : α → State → Prop} (ht : Did es a b s t) (hes : ∀ e ∈ es, e.isBus = true) (h : m.Spec n t P)
    (hN : es.length + n ≤ N) : m.Spec N s P := by
  cases m with
  | done v u => exact h
  | timedOut u => exact TimedOut.after ht.1 ht.2.1 hes h hN

/-! ## Framing -/

/-- `START()` (R186). -/
theorem busStart_spec (s : State) : (busStart s).Spec 5 s fun _ t => Did startEvents .low .low s t := by
  rw [busStart]
  refine Wire.Spec.afterDid (did_sdaRel s) (by decide) (n := 4) ?_ (by simp)
  refine (sclRel_spec _).andDid (l := 1) (n' := 1) (by decide) (by simp) (by omega) (by omega) fun _ t1 h1 => ?_
  refine (waitSdaHigh_spec t1 h1.2.2.1).andDid (l := 1) (n' := 0) (by decide) (by simp) (by omega) (by omega)
    fun _ t2 h2 => ?_
  have h3 := did_sdaLow t2
  have h4 := did_sclLow (sdaLow t2)
  have := (((did_sdaRel s).trans h1).trans h2).trans (h3.trans h4)
  exact this

/-- `STOP()` (R187). -/
theorem busStop_spec (s : State) : (busStop s).Spec 3 s fun _ t =>
    OnlyBus s t ∧ t.trace = s.trace ++ stopEvents ∧ t.sclDrv = .rel ∧ t.sdaDrv = .rel ∧ t.busInit = s.busInit ∧
      t.busHeld = false := by
  rw [busStop]
  refine Wire.Spec.afterDid (did_sdaLow s) (by decide) (n := 2) ?_ (by simp)
  refine (sclRel_spec _).andDid (l := 1) (n' := 0) (by decide) (by simp) (by omega) (by omega) fun _ t1 h1 => ?_
  obtain ⟨o, ht, hc, hd, hi, -⟩ := ((did_sdaLow s).trans h1).trans (did_sdaRel t1)
  exact ⟨o.trans rfl, ht, h1.2.2.1, rfl, hi, rfl⟩

/-- `sendBit(b)` (R188). -/
theorem sendBit_spec (b : Bool) (s : State) :
    (sendBit b s).Spec 2 s fun _ t => Did (bitEvents b) .low (if b then .rel else .low) s t := by
  have h0 : Did [if b then .sdaRel else .sdaLo] s.sclDrv (if b then .rel else .low) s
      (if b then sdaRel s else sdaLow s) := by
    cases b
    · exact did_sdaLow s
    · exact did_sdaRel s
  rw [sendBit]
  refine Wire.Spec.afterDid h0 (by cases b <;> decide) (n := 1) ?_ (by simp)
  refine (sclRel_spec _).andDid (l := 1) (n' := 0) (by decide) (by simp) (by omega) (by omega) fun _ t1 h1 => ?_
  have := (h0.trans h1).trans (did_sclLow t1)
  rw [h1.2.2.2.1, h0.2.2.2.1] at this
  exact this

/-- Bits in order, with SCL low before and after (R188). -/
theorem sendBits_spec (bs : List Bool) (s : State) (hs : s.sclDrv = .low) :
    (sendBits bs s).Spec (3 * bs.length) s fun _ t =>
      OnlyBus s t ∧ t.trace = s.trace ++ bs.flatMap bitEvents ∧ t.sclDrv = .low ∧ t.busInit = s.busInit ∧
        t.busHeld = s.busHeld := by
  induction bs generalizing s with
  | nil => exact ⟨rfl, by simp, hs, rfl, rfl⟩
  | cons b bs ih =>
    rw [sendBits]
    refine (sendBit_spec b s).andThen (n' := 3 * bs.length) (fun _ t h => ⟨bitEvents b, h.1, h.2.1, bitEvents_bus b, ?_, ?_⟩)
      (by simp only [List.length_cons]; omega)
    · simp only [bitEvents, List.length_cons, List.length_nil]
      omega
    · refine (ih t h.2.2.1).mono (le_refl _) fun _ u hu => ?_
      obtain ⟨o, ht, hc, hi, hh⟩ := hu
      exact ⟨h.1.trans o, by rw [ht, h.2.1, List.flatMap_cons, List.append_assoc], hc, hi.trans h.2.2.2.2.1,
        hh.trans h.2.2.2.2.2⟩

/-- `getAck()` (R188). -/
theorem getAck_spec (s : State) : (getAck s).Spec 4 s fun nack t =>
    Did [.sdaRel, .sclRel, .sample nack, .sclLo] .low .rel s t := by
  rw [getAck]
  refine Wire.Spec.afterDid (did_sdaRel s) (by decide) (n := 3) ?_ (by simp)
  refine (sclRel_spec _).andDid (l := 1) (n' := 2) (by decide) (by simp) (by omega) (by omega) fun _ t1 h1 => ?_
  refine (sample_spec t1).andDid (l := 1) (n' := 1) (by intro v; cases v <;> decide) (by simp) (by omega) (by omega)
    fun nack t2 h2 => ?_
  have := (((did_sdaRel s).trans h1).trans h2).trans (did_sclLow t2)
  rw [h2.2.2.2.1, h1.2.2.2.1] at this
  exact this

/-- `sendByte(v)` with SCL low (R188). -/
theorem sendByte_spec (v : Byte) (s : State) (hs : s.sclDrv = .low) :
    (sendByte v s).Spec 28 s fun nack t => Did (sentByteEvents v nack) .low .rel s t := by
  rw [sendByte]
  refine (sendBits_spec (bitsMsbFirst v) s hs).andThen (n' := 4)
    (fun _ t h => ⟨_, h.1, h.2.1, bits_bus _, by rw [bits_length]; simp, ?_⟩) (by simp)
  refine (getAck_spec t).mono (le_refl _) fun nack u hu => ?_
  obtain ⟨o, ht, hc, hd, hi, hh⟩ := hu
  exact ⟨h.1.trans o, by rw [ht, h.2.1, sentByteEvents, List.append_assoc], hc, hd, hi.trans h.2.2.2.1,
    hh.trans h.2.2.2.2⟩

/-- `sendAck(k)` with SCL low (R189). -/
theorem sendAck_spec (ack : Bool) (s : State) :
    (sendAck ack s).Spec 4 s fun _ t => Did (ackEvents ack) .low .rel s t := by
  have h0 : Did [if ack then .sdaLo else .sdaRel] s.sclDrv (if ack then .low else .rel) s
      (if ack then sdaLow s else sdaRel s) := by
    cases ack
    · exact did_sdaRel s
    · exact did_sdaLow s
  rw [sendAck]
  refine Wire.Spec.afterDid h0 (by cases ack <;> decide) (n := 3) ?_ (by simp)
  refine (sclRel_spec _).andDid (l := 1) (n' := 0) (by decide) (by simp) (by omega) (by omega) fun _ t1 h1 => ?_
  exact (h0.trans h1).trans ((did_sclLow t1).trans (did_sdaRel _))

/-- `n` bits clocked in: the bits sampled, and the number they make below `v` (R189). -/
theorem recvBits_spec (n v : Nat) (s : State) (hs : s.sclDrv = .low) (hd : s.sdaDrv = .rel) :
    (recvBits n v s).Spec (3 * n) s fun w t => ∃ bs : List Bool, bs.length = n ∧
      w = bs.foldl (fun v x => 2 * v + x.toNat) v ∧ Did (bs.flatMap inBitEvents) .low .rel s t := by
  induction n generalizing v s with
  | zero => exact ⟨[], rfl, rfl, rfl, by simp, hs, hd, rfl, rfl⟩
  | succ n ih =>
    rw [recvBits]
    refine (sclRel_spec s).andDid (l := 1) (n' := 3 * n + 2) (by decide) (by simp) (by omega) (by omega)
      fun _ t1 h1 => ?_
    refine (sample_spec t1).andDid (l := 1) (n' := 3 * n + 1) (by intro v; cases v <;> decide) (by simp) (by omega)
      (by omega) fun b t2 h2 => ?_
    have h3 := (h1.trans h2).trans (did_sclLow t2)
    rw [h2.2.2.2.1, h1.2.2.2.1, hd] at h3
    refine Wire.Spec.afterDid (did_sclLow t2) (by decide) (n := 3 * n) ?_ (by simp; omega)
    refine (ih (2 * v + b.toNat) _ h3.2.2.1 h3.2.2.2.1).mono (le_refl _) fun w u hu => ?_
    obtain ⟨bs, hl, hw, hdid⟩ := hu
    exact ⟨b :: bs, by simp [hl], by simpa using hw, h3.trans hdid⟩

/-- Eight bits are the bits of the byte they make. -/
theorem bits_of_byte (bs : List Bool) (h : bs.length = 8) :
    bitsMsbFirst (BitVec.ofNat 8 (bs.foldl (fun v x => 2 * v + x.toNat) 0)) = bs := by
  obtain ⟨a, b, c, d, e, f, g, i, rfl⟩ : ∃ a b c d e f g i, bs = [a, b, c, d, e, f, g, i] := by
    match bs, h with
    | [a, b, c, d, e, f, g, i], _ => exact ⟨a, b, c, d, e, f, g, i, rfl⟩
  revert a b c d e f g i
  decide

/-- `recvByte()` with SCL low (R189). -/
theorem recvByte_spec (s : State) (hs : s.sclDrv = .low) :
    (recvByte s).Spec 25 s fun v t => Did (gotByteEvents v) .low .rel s t := by
  rw [recvByte]
  refine Wire.Spec.afterDid (did_sdaRel s) (by decide) (n := 24) ?_ (by simp)
  refine (recvBits_spec 8 0 (sdaRel s) hs rfl).andThen (n' := 0) (fun w t h => ?_) (by omega)
  obtain ⟨bs, hl, hw, hdid⟩ := h
  refine ⟨_, hdid.1, hdid.2.1, ?_, ?_, ?_⟩
  · intro e he
    obtain ⟨b, -, hb⟩ := List.mem_flatMap.mp he
    exact inBitEvents_bus b e hb
  · rw [List.length_flatMap]
    have : (bs.map fun b => (inBitEvents b).length) = List.replicate 8 3 := by
      rw [List.eq_replicate_iff]
      refine ⟨by simp [hl], fun x hx => ?_⟩
      obtain ⟨b, -, rfl⟩ := List.mem_map.mp hx
      rfl
    rw [this]
    decide
  · have := (did_sdaRel s).trans hdid
    show Did (gotByteEvents _) .low .rel s t
    rw [gotByteEvents_eq, hw, bits_of_byte bs hl]
    exact this

/-! ## Transactions -/

theorem busTrace_append (ts us : List BusToken) : busTrace (ts ++ us) = busTrace ts ++ busTrace us := List.flatMap_append

@[simp] theorem busTrace_nil : busTrace [] = [] := rfl

@[simp] theorem busTrace_cons (t : BusToken) (ts : List BusToken) : busTrace (t :: ts) = t.events ++ busTrace ts := rfl

theorem token_bus (t : BusToken) : ∀ e ∈ t.events, e.isBus = true := by
  cases t with
  | start => exact startEvents_bus
  | stop => exact stopEvents_bus
  | init => exact initEvents_bus
  | wrote v nack => exact sentByteEvents_bus v nack
  | got v ack =>
    cases ack with
    | none => exact gotByteEvents_bus v
    | some a => exact fun e he => (List.mem_append.mp he).elim (gotByteEvents_bus v e) (ackEvents_bus a e)

/-- A condensed trace is events of the bus only. -/
theorem busTrace_bus (ts : List BusToken) : ∀ e ∈ busTrace ts, e.isBus = true := fun e he => by
  obtain ⟨t, -, ht⟩ := List.mem_flatMap.mp he
  exact token_bus t e ht

/-- `initBus()` (R191): it cannot fail. -/
theorem initBus_spec (s : State) : OnlyBus s (initBus s) ∧ (initBus s).trace = s.trace ++ initEvents ∧
    (initBus s).sclDrv = .rel ∧ (initBus s).sdaDrv = .rel ∧ (initBus s).busInit = true ∧ (initBus s).busHeld = false :=
  ⟨rfl, by simp [initBus, sclFree, sdaRel, initEvents], rfl, rfl, rfl, rfl⟩

/-- The lazy initialisation (R192). -/
theorem lazyInit_spec (s : State) : OnlyBus s (lazyInit s) ∧ (lazyInit s).trace = s.trace ++ busTrace (lazyTokens s) ∧
    (lazyInit s).busInit = true := by
  by_cases h : s.busInit = true
  · simp [lazyInit, lazyTokens, h, OnlyBus.refl]
  · have := initBus_spec s
    rw [lazyInit, lazyTokens, if_neg h, if_neg h]
    exact ⟨this.1, this.2.1, this.2.2.2.2.1⟩

/-- The events of the lazy initialisation. -/
def lazyCount (s : State) : Nat := if s.busInit then 0 else 2

theorem lazyTokens_length (s : State) : (busTrace (lazyTokens s)).length = lazyCount s := by
  rw [lazyTokens, lazyCount]
  split <;> rfl

theorem lazyCount_le (s : State) : lazyCount s ≤ 2 := by
  rw [lazyCount]
  split <;> omega

/-- A transaction's first piece: the lazy initialisation, the start and the address byte. -/
theorem opened_spec {β : Type} {k : Bool → State → Wire β} (addr : Byte) (s : State) (n N : Nat) {Q : β → State → Prop}
    (hN : lazyCount s + 33 + n ≤ N)
    (hk : ∀ nack t, OnlyBus s t → t.trace = s.trace ++ busTrace (lazyTokens s ++ [.start, .wrote addr nack]) →
      t.sclDrv = .low → t.sdaDrv = .rel → t.busInit = true → (k nack t).Spec n t Q) :
    ((busStart (lazyInit s)).andThen fun _ s => (sendByte addr s).andThen k).Spec N s Q := by
  obtain ⟨o0, t0, i0⟩ := lazyInit_spec s
  have l0 := lazyTokens_length s
  have h : ((busStart (lazyInit s)).andThen fun _ s => (sendByte addr s).andThen k).Spec (33 + n) (lazyInit s) Q := by
    refine (busStart_spec _).andDid (l := 5) (n' := 28 + n) (fun _ => startEvents_bus) (by simp [startEvents]) (by omega) (by omega)
      fun _ t1 h1 => ?_
    refine (sendByte_spec addr t1 h1.2.2.1).andDid (l := 28) (n' := n) (fun v => sentByteEvents_bus addr v)
      (fun v => by rw [sentByteEvents_length]) (by omega) (by omega) fun nack t2 h2 => ?_
    refine hk nack t2 ((o0.trans h1.1).trans h2.1) ?_ h2.2.2.1 h2.2.2.2.1 ((h2.2.2.2.2.1.trans h1.2.2.2.2.1).trans i0)
    rw [h2.2.1, h1.2.1, t0, busTrace_append]
    simp [BusToken.events]
  revert h
  cases hw : ((busStart (lazyInit s)).andThen fun _ s => (sendByte addr s).andThen k) with
  | done b t => exact fun h => h
  | timedOut t => exact fun h => TimedOut.after o0 t0 (busTrace_bus _) h (by omega)

/-- n ACKed bytes are 28n events. -/
theorem acked_length (bytes : List Byte) : (busTrace (bytes.map fun b => .wrote b false)).length = 28 * bytes.length := by
  induction bytes with
  | nil => rfl
  | cons b bs ih =>
    rw [List.map_cons, busTrace_cons, List.length_append, ih, BusToken.events, sentByteEvents_length, List.length_cons]
    omega

/-- The data bytes of a write from index k on (R193). -/
theorem sendBytes_spec (k : Nat) (bytes : List Byte) (s : State) (hs : s.sclDrv = .low) (hd : s.sdaDrv = .rel) :
    (sendBytes k bytes s).Spec (28 * bytes.length) s fun r t => OnlyBus s t ∧ t.sclDrv = .low ∧ t.sdaDrv = .rel ∧
      t.busInit = s.busInit ∧
      ((r = none ∧ t.trace = s.trace ++ busTrace (bytes.map fun b => .wrote b false)) ∨
       ∃ j, j < bytes.length ∧ r = some (k + j) ∧ t.trace = s.trace ++
         busTrace (((bytes.take j).map fun b => .wrote b false) ++ [.wrote (bytes.getD j 0#8) true])) := by
  induction bytes generalizing k s with
  | nil => exact ⟨rfl, hs, hd, rfl, .inl ⟨rfl, by simp⟩⟩
  | cons b bs ih =>
    rw [sendBytes]
    refine (sendByte_spec b s hs).andDid (l := 28) (n' := 28 * bs.length) (fun v => sentByteEvents_bus b v)
      (fun v => by rw [sentByteEvents_length]) (by simp; omega) (by simp) fun nack t h => ?_
    obtain ⟨o, ht, hc, hd', hi, -⟩ := h
    cases nack with
    | true =>
      refine ⟨o, hc, hd', hi, .inr ⟨0, by simp, by simp, ?_⟩⟩
      rw [ht]
      simp [BusToken.events]
    | false =>
      refine (ih (k + 1) t hc hd').mono (le_refl _) fun r u hu => ?_
      obtain ⟨o', hc', hd'', hi', hr⟩ := hu
      refine ⟨o.trans o', hc', hd'', hi'.trans hi, ?_⟩
      rcases hr with ⟨rfl, htr⟩ | ⟨j, hj, rfl, htr⟩
      · refine .inl ⟨rfl, ?_⟩
        rw [htr, ht]
        simp [BusToken.events]
      · refine .inr ⟨j + 1, by simpa using hj, by simp; omega, ?_⟩
        rw [htr, ht]
        simp [BusToken.events]

/-- The end of a successful transaction (R193, R195, R197). -/
theorem endTransfer_spec (hold : Bool) (s : State) (hs : s.sclDrv = .low) (hd : s.sdaDrv = .rel) :
    (endTransfer hold s).Spec 3 s fun _ t => OnlyBus s t ∧
      t.trace = s.trace ++ busTrace (if hold then [] else [.stop]) ∧ t.sclDrv = (if hold then .low else .rel) ∧
      t.sdaDrv = .rel ∧ t.busInit = s.busInit ∧ t.busHeld = hold := by
  cases hold with
  | true => exact ⟨rfl, by simp, hs, hd, rfl, rfl⟩
  | false =>
    refine (busStop_spec s).mono (le_refl _) fun _ t h => ?_
    simpa [BusToken.events] using h

/-- The ways `busWrite(a, b, hold)` ends when it meets no timeout (R193, R194, R199). -/
def WriteEnds (addr : Byte) (bytes : List Byte) (hold : Bool) (s : State) (r : Reply) (t : State) : Prop :=
  OnlyBus s t ∧ t.busInit = true ∧ t.sdaDrv = .rel ∧
  ((r = ⟨.ok, []⟩ ∧ t.trace = s.trace ++ busTrace (lazyTokens s ++ writeTokens addr bytes hold) ∧
      t.sclDrv = (if hold then .low else .rel) ∧ t.busHeld = hold) ∨
   (r = ⟨.nackAddr, []⟩ ∧ t.trace = s.trace ++ busTrace (lazyTokens s ++ refusedTokens addr) ∧
      t.sclDrv = .rel ∧ t.busHeld = false) ∨
   ∃ k, k < bytes.length ∧ r = ⟨.nackData, [wordOfNat k]⟩ ∧
      t.trace = s.trace ++ busTrace (lazyTokens s ++ cutTokens addr bytes k) ∧ t.sclDrv = .rel ∧ t.busHeld = false)

/-- The events of a write of n bytes are at most 2 + 5 + 28(n + 1) + 3 (70_reset_and_hazards.md R472). -/
theorem busWriteWire_spec (a : Word) (bytes : List Byte) (hold : Bool) (s : State) :
    (busWriteWire a bytes hold s).Spec (lazyCount s + 36 + 28 * bytes.length) s (WriteEnds (addressByte a false) bytes hold s) := by
  rw [busWriteWire]
  refine opened_spec (addressByte a false) s (28 * bytes.length + 3) _ (by omega) fun nack t o ht hc hd hi => ?_
  cases nack with
  | true =>
    refine (busStop_spec t).andThen (n' := 0) (fun _ u h => ?_) (by omega)
    obtain ⟨o', ht', hc', hd', hi', hh'⟩ := h
    refine ⟨stopEvents, o', ht', stopEvents_bus, by simp [stopEvents], o.trans o', hi'.trans hi, hd', .inr (.inl ?_)⟩
    refine ⟨rfl, ?_, hc', hh'⟩
    rw [ht', ht, refusedTokens]
    simp [busTrace_append, BusToken.events]
  | false =>
    refine (sendBytes_spec 0 bytes t hc hd).andThen (n' := 3) (fun r u h => ?_) (by omega)
    obtain ⟨o1, hc1, hd1, hi1, hr⟩ := h
    rcases hr with ⟨rfl, ht1⟩ | ⟨k, hk, rfl, ht1⟩
    · refine ⟨_, o1, ht1, busTrace_bus _, ?_, ?_⟩
      · rw [acked_length]
      · refine (endTransfer_spec hold u hc1 hd1).andThen (n' := 0) (fun _ v h => ?_) (by omega)
        obtain ⟨o2, ht2, hc2, hd2, hi2, hh2⟩ := h
        refine ⟨_, o2, ht2, busTrace_bus _, ?_, (o.trans o1).trans o2, (hi2.trans hi1).trans hi, hd2, .inl ⟨rfl, ?_, hc2, hh2⟩⟩
        · cases hold <;> decide
        · rw [ht2, ht1, ht, writeTokens]
          simp [busTrace_append]
    · refine ⟨_, o1, ht1, busTrace_bus _, ?_, ?_⟩
      · rw [busTrace_append, List.length_append, acked_length, List.length_take]
        have : (busTrace [.wrote (bytes.getD k 0#8) true]).length = 28 := rfl
        omega
      · refine (busStop_spec u).andThen (n' := 0) (fun _ v h => ?_) (by omega)
        obtain ⟨o', ht', hc', hd', hi', hh'⟩ := h
        refine ⟨stopEvents, o', ht', stopEvents_bus, by simp [stopEvents], (o.trans o1).trans o', (hi'.trans hi1).trans hi, hd', .inr (.inr ?_)⟩
        refine ⟨k, hk, by simp, ?_, hc', hh'⟩
        rw [ht', ht1, ht, cutTokens]
        simp [busTrace_append, BusToken.events]

/-- `finalAck()` (R196). -/
theorem finalAck_spec (s : State) (hs : s.sclDrv = .low) (hd : s.sdaDrv = .rel) :
    (finalAck s).Spec 4 s fun _ t => Did (match finalMark s.par.readFinalAck with
      | some a => ackEvents a | none => []) .low .rel s t := by
  rw [finalAck]
  cases hf : s.par.readFinalAck with
  | ackAll => exact sendAck_spec true s
  | nackLast => exact sendAck_spec false s
  | omitLast => exact ⟨rfl, by simp [finalMark], hs, hd, rfl, rfl⟩

theorem OnlyBus.par {s t : State} (h : OnlyBus s t) : t.par = s.par := by
  rw [OnlyBus] at h
  rw [h]
  rfl

/-- n received bytes are at most 29n events. -/
theorem gotTokens_length (f : ReadFinalAck) (vs : List Byte) : (busTrace (gotTokens f vs)).length ≤ 29 * vs.length := by
  induction vs with
  | nil => simp [gotTokens]
  | cons u us ih2 =>
    cases us with
    | nil => cases f <;> simp [gotTokens, BusToken.events, finalMark, gotByteEvents_length, ackEvents]
    | cons w us =>
      simp only [gotTokens, busTrace_cons, List.length_append, BusToken.events, gotByteEvents_length, ackEvents,
        List.length_cons, List.length_nil] at *
      omega

/-- The bytes of a read (R195). -/
theorem recvBytes_spec (n : Nat) (s : State) (hs : s.sclDrv = .low) (hd : s.sdaDrv = .rel) :
    (recvBytes n s).Spec (29 * n) s fun vs t => vs.length = n ∧
      Did (busTrace (gotTokens s.par.readFinalAck vs)) .low .rel s t := by
  induction n generalizing s with
  | zero => exact ⟨rfl, rfl, by simp [gotTokens], hs, hd, rfl, rfl⟩
  | succ n ih =>
    rw [recvBytes]
    refine (recvByte_spec s hs).andDid (l := 25) (n' := 4 + 29 * n) gotByteEvents_bus
      (fun v => by rw [gotByteEvents_length]) (by omega) (by omega) fun v t1 h1 => ?_
    have p1 : t1.par = s.par := h1.1.par
    by_cases hn : n = 0
    · subst hn
      rw [if_pos rfl]
      have hf := finalAck_spec t1 h1.2.2.1 h1.2.2.2.1
      refine hf.andDid (l := 4) (n' := 0) (fun _ => ?_) (fun _ => ?_) (by omega) (by omega) fun _ t2 h2 => ?_
      · cases t1.par.readFinalAck <;> decide
      · cases t1.par.readFinalAck <;> decide
      · refine ⟨rfl, ?_⟩
        have := h1.trans h2
        rw [p1] at this
        cases hf : s.par.readFinalAck <;> rw [hf] at this <;>
          simpa [gotTokens, BusToken.events, finalMark] using this
    · rw [if_neg hn]
      refine (sendAck_spec true t1).andDid (l := 4) (n' := 29 * n) (fun _ => ackEvents_bus true)
        (fun _ => by decide) (by omega) (by omega) fun _ t2 h2 => ?_
      refine (ih t2 h2.2.2.1 h2.2.2.2.1).andThen (n' := 0) (fun vs t3 h3 => ?_) (by omega)
      obtain ⟨hl, h3⟩ := h3
      have p2 : t2.par = s.par := h2.1.par.trans p1
      rw [p2] at h3
      refine ⟨_, h3.1, h3.2.1, busTrace_bus _, ?_, by simp [hl], ?_⟩
      · have := gotTokens_length s.par.readFinalAck vs
        omega
      · have := (h1.trans h2).trans h3
        match vs, hl, this with
        | w :: ws, _, this => simpa [gotTokens, BusToken.events] using this
        | [], hl, _ => exact absurd hl.symm hn

/-- The ways `busRead(a, N, hold)` ends when it meets no timeout (R195, R199). -/
def ReadEnds (addr : Byte) (n : Nat) (hold : Bool) (s : State) (r : Status × List Byte) (t : State) : Prop :=
  OnlyBus s t ∧ t.busInit = true ∧ t.sdaDrv = .rel ∧
  ((∃ vs, vs.length = n ∧ r = (.ok, vs) ∧
      t.trace = s.trace ++ busTrace (lazyTokens s ++ readTokens s.par.readFinalAck addr vs hold) ∧
      t.sclDrv = (if hold then .low else .rel) ∧ t.busHeld = hold) ∨
   (r = (.nackAddr, []) ∧ t.trace = s.trace ++ busTrace (lazyTokens s ++ refusedTokens addr) ∧
      t.sclDrv = .rel ∧ t.busHeld = false))

/-- The events of a read of n bytes are at most 2 + 5 + 28 + 29n + 3 (70_reset_and_hazards.md R472). -/
theorem busReadWire_spec (a : Word) (n : Nat) (hold : Bool) (s : State) :
    (busReadWire a n hold s).Spec (lazyCount s + 36 + 29 * n) s (ReadEnds (addressByte a true) n hold s) := by
  rw [busReadWire]
  refine opened_spec (addressByte a true) s (29 * n + 3) _ (by omega) fun nack t o ht hc hd hi => ?_
  cases nack with
  | true =>
    refine (busStop_spec t).andThen (n' := 0) (fun _ u h => ?_) (by omega)
    obtain ⟨o', ht', hc', hd', hi', hh'⟩ := h
    refine ⟨stopEvents, o', ht', stopEvents_bus, by simp [stopEvents], o.trans o', hi'.trans hi, hd', .inr ?_⟩
    refine ⟨rfl, ?_, hc', hh'⟩
    rw [ht', ht, refusedTokens]
    simp [busTrace_append, BusToken.events]
  | false =>
    refine (recvBytes_spec n t hc hd).andThen (n' := 3) (fun vs u h => ?_) (by omega)
    obtain ⟨hl, h1⟩ := h
    rw [o.par] at h1
    have hlen := gotTokens_length s.par.readFinalAck vs
    refine ⟨_, h1.1, h1.2.1, busTrace_bus _, by omega, ?_⟩
    refine (endTransfer_spec hold u h1.2.2.1 h1.2.2.2.1).andThen (n' := 0) (fun _ v h => ?_) (by omega)
    obtain ⟨o2, ht2, hc2, hd2, hi2, hh2⟩ := h
    refine ⟨_, o2, ht2, busTrace_bus _, ?_, (o.trans h1.1).trans o2, (hi2.trans h1.2.2.2.2.1).trans hi, hd2,
      .inl ⟨vs, hl, rfl, ?_, hc2, hh2⟩⟩
    · cases hold <;> decide
    · rw [ht2, h1.2.1, ht, readTokens]
      simp [busTrace_append]

/-! ## What a whole transaction may change -/

/-- At most the bus side changed, within n bus events. -/
def Moved (n : Nat) (s t : State) : Prop :=
  OnlyBus s t ∧ ∃ es, t.trace = s.trace ++ es ∧ es.length ≤ n ∧ ∀ e ∈ es, e.isBus = true

theorem Moved.refl (s : State) : Moved 0 s s := ⟨rfl, [], by simp, by simp, by simp⟩

theorem Moved.mono {n m : Nat} {s t : State} (h : Moved n s t) (hm : n ≤ m) : Moved m s t := by
  obtain ⟨o, es, h1, h2, h3⟩ := h
  exact ⟨o, es, h1, h2.trans hm, h3⟩

theorem Moved.trans {n m : Nat} {s t u : State} (h1 : Moved n s t) (h2 : Moved m t u) : Moved (n + m) s u := by
  obtain ⟨o1, es, t1, l1, b1⟩ := h1
  obtain ⟨o2, fs, t2, l2, b2⟩ := h2
  refine ⟨o1.trans o2, es ++ fs, by rw [t2, t1, List.append_assoc], by rw [List.length_append]; omega, fun e he => ?_⟩
  rcases List.mem_append.mp he with h | h
  · exact b1 e h
  · exact b2 e h

theorem TimedOut.moved {n : Nat} {s t : State} (h : TimedOut n s t) : Moved n s t := ⟨h.1, h.2.1⟩

theorem moved_initBus (s : State) : Moved 2 s (initBus s) :=
  ⟨(initBus_spec s).1, initEvents, (initBus_spec s).2.1, by decide, initEvents_bus⟩

/-- `busWrite(a, b, hold)` ends as R193 says or with ERR_TIMEOUT (R190). -/
theorem busWrite_ends (a : Word) (bytes : List Byte) (hold : Bool) (s : State) :
    WriteEnds (addressByte a false) bytes hold s (busWrite a bytes hold s).1 (busWrite a bytes hold s).2 ∨
    ((busWrite a bytes hold s).1 = ⟨.timeout, []⟩ ∧
      TimedOut (lazyCount s + 36 + 28 * bytes.length) s (busWrite a bytes hold s).2) := by
  have h := busWriteWire_spec a bytes hold s
  rw [busWrite]
  cases hw : busWriteWire a bytes hold s with
  | done r t =>
    rw [hw] at h
    exact .inl h
  | timedOut t =>
    rw [hw] at h
    exact .inr ⟨rfl, h⟩

/-- `busRead(a, N, hold)` ends as R195 says or with ERR_TIMEOUT (R190). -/
theorem busRead_ends (a : Word) (n : Nat) (hold : Bool) (s : State) :
    ReadEnds (addressByte a true) n hold s (busRead a n hold s).1 (busRead a n hold s).2 ∨
    ((busRead a n hold s).1 = (.timeout, []) ∧
      TimedOut (lazyCount s + 36 + 29 * n) s (busRead a n hold s).2) := by
  have h := busReadWire_spec a n hold s
  rw [busRead]
  cases hw : busReadWire a n hold s with
  | done r t =>
    rw [hw] at h
    exact .inl h
  | timedOut t =>
    rw [hw] at h
    exact .inr ⟨rfl, h⟩

theorem writeTokens_length (addr : Byte) (bytes : List Byte) (hold : Bool) :
    (busTrace (writeTokens addr bytes hold)).length = 33 + 28 * bytes.length + if hold then 0 else 3 := by
  cases hold <;>
    simp [writeTokens, busTrace_append, acked_length, BusToken.events, startEvents, stopEvents, sentByteEvents_length] <;>
    omega

theorem cutTokens_length (addr : Byte) (bytes : List Byte) {k : Nat} (h : k < bytes.length) :
    (busTrace (cutTokens addr bytes k)).length ≤ 36 + 28 * bytes.length := by
  have ha := acked_length (bytes.take k)
  rw [List.length_take] at ha
  rw [cutTokens, busTrace_append, List.length_append, busTrace_cons, busTrace_cons, List.length_append, List.length_append,
    ha]
  have h1 : (BusToken.start.events).length = 5 := rfl
  have h2 : ((BusToken.wrote addr false).events).length = 28 := rfl
  have h3 : (busTrace [BusToken.wrote (bytes.getD k 0#8) true, .stop]).length = 31 := rfl
  omega

theorem readTokens_length (f : ReadFinalAck) (addr : Byte) (vs : List Byte) (hold : Bool) :
    (busTrace (readTokens f addr vs hold)).length ≤ 36 + 29 * vs.length := by
  have := gotTokens_length f vs
  cases hold <;>
    simp [readTokens, busTrace_append, BusToken.events, startEvents, stopEvents, sentByteEvents_length] <;> omega

theorem refusedTokens_length (addr : Byte) : (busTrace (refusedTokens addr)).length = 36 := rfl

theorem WriteEnds.moved {addr : Byte} {bytes : List Byte} {hold : Bool} {s t : State} {r : Reply}
    (h : WriteEnds addr bytes hold s r t) : Moved (lazyCount s + 36 + 28 * bytes.length) s t := by
  obtain ⟨o, -, -, h⟩ := h
  rcases h with ⟨-, ht, -⟩ | ⟨-, ht, -⟩ | ⟨k, hk, -, ht, -⟩
  · refine ⟨o, _, ht, ?_, busTrace_bus _⟩
    rw [busTrace_append, List.length_append, lazyTokens_length, writeTokens_length]
    split <;> omega
  · refine ⟨o, _, ht, ?_, busTrace_bus _⟩
    rw [busTrace_append, List.length_append, lazyTokens_length, refusedTokens_length]
    omega
  · refine ⟨o, _, ht, ?_, busTrace_bus _⟩
    have := cutTokens_length addr bytes hk
    rw [busTrace_append, List.length_append, lazyTokens_length]
    omega

theorem ReadEnds.moved {addr : Byte} {n : Nat} {hold : Bool} {s t : State} {r : Status × List Byte}
    (h : ReadEnds addr n hold s r t) : Moved (lazyCount s + 36 + 29 * n) s t := by
  obtain ⟨o, -, -, h⟩ := h
  rcases h with ⟨vs, hl, -, ht, -⟩ | ⟨-, ht, -⟩
  · refine ⟨o, _, ht, ?_, busTrace_bus _⟩
    have := readTokens_length s.par.readFinalAck addr vs hold
    rw [busTrace_append, List.length_append, lazyTokens_length]
    omega
  · refine ⟨o, _, ht, ?_, busTrace_bus _⟩
    rw [busTrace_append, List.length_append, lazyTokens_length, refusedTokens_length]
    omega

/-! ## Register transactions and the retry loop (42_register_access.md R230-R232) -/

/-- The bus is released between commands: no transfer of a REG command is held (70_reset_and_hazards.md R464). -/
def Released (t : State) : Prop := t.busHeld = false ∧ t.sclDrv = .rel

/-- One attempt of REG.READW: within its events, the bus released, OK with COUNT words or an error without words. -/
theorem txReadWords_spec (a start count : Word) (s : State) :
    Moved (127 + 58 * count.toNat) s (txReadWords a start count s).2 ∧ Released (txReadWords a start count s).2 ∧
    ((txReadWords a start count s).1.status = .ok → (txReadWords a start count s).1.words.length = count.toNat) ∧
    ((txReadWords a start count s).1.status ≠ .ok → (txReadWords a start count s).1.words = []) ∧
    (txReadWords a start count s).1.status ∈ [Status.ok, .nackAddr, .nackData, .timeout] := by
  have hl := lazyCount_le s
  have hw := busWrite_ends a [hi start, lo start] true s
  rw [txReadWords]
  generalize hwr : busWrite a [hi start, lo start] true s = w at hw
  rcases hw with hw | ⟨hw, ht⟩
  · have hm := hw.moved
    obtain ⟨o, i, -, hw⟩ := hw
    rcases hw with ⟨h, htr, -, -⟩ | ⟨h, -, hc, hh⟩ | ⟨k, -, h, -, hc, hh⟩
    · have hm1 : Moved 91 s w.2 := by
        refine ⟨o, _, htr, ?_, busTrace_bus _⟩
        rw [busTrace_append, List.length_append, lazyTokens_length, writeTokens_length]
        simp
        omega
      rw [if_neg (by simp [h])]
      have hr := busRead_ends a (2 * count.toNat) false w.2
      generalize hrd : busRead a (2 * count.toNat) false w.2 = r at hr
      have hlz : lazyCount w.2 = 0 := by simp [lazyCount, i]
      rw [hlz] at hr
      rcases hr with hr | ⟨hr, ht⟩
      · have hm2 := hr.moved
        rw [hlz] at hm2
        have hm3 := (hm1.trans hm2).mono (m := 127 + 58 * count.toNat) (by omega)
        obtain ⟨-, -, -, hr⟩ := hr
        rcases hr with ⟨vs, hl, hr, -, hc, hh⟩ | ⟨hr, -, hc, hh⟩
        · rw [if_neg (by simp [hr])]
          refine ⟨hm3, ⟨hh, hc⟩, fun _ => ?_, fun h => absurd rfl h, by simp⟩
          simp only [hr, packBytes_length, hl, ceilHalf]
          omega
        · rw [if_pos (by simp [hr])]
          exact ⟨hm3, ⟨hh, hc⟩, fun h => by simp [hr] at h, fun _ => rfl, by simp [hr]⟩
      · rw [if_pos (by simp [hr])]
        exact ⟨(hm1.trans ht.moved).mono (by omega), ⟨ht.2.2.2.2, ht.2.2.1⟩, fun h => by simp [hr] at h, fun _ => rfl,
          by simp [hr]⟩
    · rw [if_pos (by simp [h])]
      exact ⟨hm.mono (by simp; omega), ⟨hh, hc⟩, fun h' => by simp [h] at h', fun _ => rfl, by simp [h]⟩
    · rw [if_pos (by simp [h])]
      exact ⟨hm.mono (by simp; omega), ⟨hh, hc⟩, fun h' => by simp [h] at h', fun _ => rfl, by simp [h]⟩
  · rw [if_pos (by simp [hw])]
    exact ⟨ht.moved.mono (by simp; omega), ⟨ht.2.2.2.2, ht.2.2.1⟩, fun h' => by simp [hw] at h', fun _ => rfl, by simp [hw]⟩

/-- One attempt of REG.WRITEW. -/
theorem txWriteWord_spec (a addr value : Word) (s : State) :
    Moved 150 s (txWriteWord a addr value s).2 ∧ Released (txWriteWord a addr value s).2 ∧
    (txWriteWord a addr value s).1.words = [] ∧
    (txWriteWord a addr value s).1.status ∈ [Status.ok, .nackAddr, .nackData, .timeout] := by
  have hl := lazyCount_le s
  have hw := busWrite_ends a [hi addr, lo addr, hi value, lo value] false s
  rw [txWriteWord]
  generalize hwr : busWrite a [hi addr, lo addr, hi value, lo value] false s = w at hw
  rcases hw with hw | ⟨hw, ht⟩
  · have hm := hw.moved.mono (m := 150) (by simp; omega)
    obtain ⟨-, -, -, hw⟩ := hw
    rcases hw with ⟨h, -, hc, hh⟩ | ⟨h, -, hc, hh⟩ | ⟨k, -, h, -, hc, hh⟩
    · exact ⟨hm, ⟨hh, hc⟩, rfl, by simp [h]⟩
    · exact ⟨hm, ⟨hh, hc⟩, rfl, by simp [h]⟩
    · exact ⟨hm, ⟨hh, hc⟩, rfl, by simp [h]⟩
  · exact ⟨ht.moved.mono (by simp; omega), ⟨ht.2.2.2.2, ht.2.2.1⟩, rfl, by simp [hw]⟩

/-- The retry loop: what every attempt keeps within n events, the loop keeps within m*(n + 2), and it ends OK as an
attempt did or with ERR_RETRY_EXHAUSTED. -/
theorem retryLoop_moved (tx : State → Reply × State) (n : Nat) (htx : ∀ s, Moved n s (tx s).2 ∧ Released (tx s).2)
    (m : Nat) (cause : Status) (s : State) (hs : m = 0 → Released s) :
    Moved (m * n + 2 * (m - 1)) s (retryLoop tx m cause s).2 ∧ Released (retryLoop tx m cause s).2 ∧
    ((retryLoop tx m cause s).1.status = .ok ∧ (∃ u, (retryLoop tx m cause s).1 = (tx u).1) ∨
     (retryLoop tx m cause s).1.status = .retryExhausted ∧ (retryLoop tx m cause s).1.words.length = 2) := by
  induction m generalizing cause s with
  | zero => exact ⟨(Moved.refl s).mono (by omega), hs rfl, .inr ⟨rfl, rfl⟩⟩
  | succ m ih =>
    rw [retryLoop]
    obtain ⟨hm, hr⟩ := htx s
    by_cases hok : (tx s).1.status = .ok
    · rw [if_pos hok]
      refine ⟨hm.mono ?_, hr, .inl ⟨hok, s, rfl⟩⟩
      have : n ≤ (m + 1) * n := Nat.le_mul_of_pos_left n (by omega)
      omega
    · rw [if_neg hok]
      by_cases hm0 : m = 0
      · subst hm0
        rw [if_pos rfl]
        obtain ⟨h1, h2, h3⟩ := ih (tx s).1.status (tx s).2 fun _ => hr
        exact ⟨(hm.trans h1).mono (by simp), h2, h3⟩
      · rw [if_neg hm0]
        obtain ⟨h1, h2, h3⟩ := ih (tx s).1.status (initBus (tx s).2) fun h => absurd h hm0
        refine ⟨((hm.trans (moved_initBus _)).trans h1).mono ?_, h2, h3⟩
        rw [Nat.add_mul]
        omega

end Sys2Proof.Machine
end

