-- ==== Sys2Proof/Laws/Cut.lean ====
section
/-! SUPPORT. Where a timeout cuts a transaction: against every agent on the bus, the events emitted before it are a first
part of the events of a transaction that ran to its end (41_transport.md R190, R199). -/

namespace Sys2Proof.Machine

/-- The last event is one of the two at which a timeout can come (R182, R184). -/
def EndsInWait (es : List Event) : Prop := es.getLast? = some .sclRel ∨ es.getLast? = some .waitSda

/-- A piece begun at s that is done with value a has emitted some events R allows for a; one that timed out has emitted a
first part of such events, up to a wait. SDA is as last written. -/
def Wire.Traced {α : Type} (m : Wire α) (s : State) (R : α → List Event → Prop) : Prop :=
  match m with
  | .done a t => ∃ es, R a es ∧ t.trace = s.trace ++ es ∧ t.sdaDrv = sdaAfter s.sdaDrv es ∧ t.cfg = s.cfg
  | .timedOut t => ∃ a es more, R a (es ++ more) ∧ EndsInWait es ∧ t.trace = s.trace ++ es ∧
      t.sdaDrv = sdaAfter s.sdaDrv es

theorem sdaAfter_append (d : Drive) (es fs : List Event) : sdaAfter d (es ++ fs) = sdaAfter (sdaAfter d es) fs := by
  induction es generalizing d with
  | nil => rfl
  | cons e es ih => cases e <;> simp only [List.cons_append, sdaAfter] <;> exact ih _

theorem EndsInWait.append {es : List Event} (fs : List Event) (h : EndsInWait es) : EndsInWait (fs ++ es) := by
  cases es with
  | nil => rcases h with h | h <;> cases h
  | cons e es =>
    rw [EndsInWait, List.getLast?_append_of_ne_nil _ (by simp)]
    exact h

/-- Nothing emitted. -/
theorem traced_done {α : Type} {a : α} {s t : State} {R : α → List Event → Prop} (h : R a [])
    (ht : t.trace = s.trace) (hd : t.sdaDrv = s.sdaDrv) (hc : t.cfg = s.cfg) : (Wire.done a t).Traced s R :=
  ⟨[], h, by rw [ht, List.append_nil], hd, hc⟩

/-- A piece begun after events already emitted. -/
theorem Wire.Traced.after {α : Type} {m : Wire α} {s t : State} {es : List Event} {R : α → List Event → Prop}
    (h : m.Traced t fun a fs => R a (es ++ fs)) (ht : t.trace = s.trace ++ es) (hd : t.sdaDrv = sdaAfter s.sdaDrv es)
    (hc : t.cfg = s.cfg) : m.Traced s R := by
  cases m with
  | done a u =>
    obtain ⟨fs, hR, h1, h2, h3⟩ := h
    exact ⟨es ++ fs, hR, by rw [h1, ht, List.append_assoc], by rw [h2, hd, sdaAfter_append], h3.trans hc⟩
  | timedOut u =>
    obtain ⟨a, fs, more, hR, hw, h1, h2⟩ := h
    exact ⟨a, es ++ fs, more, by rwa [List.append_assoc], hw.append es, by rw [h1, ht, List.append_assoc],
      by rw [h2, hd, sdaAfter_append]⟩

/-- One piece after another, when what the first one emitted can always be carried on. -/
theorem Wire.Traced.andThen {α β : Type} {m : Wire α} {k : α → State → Wire β} {s : State} {R : α → List Event → Prop}
    {Q : β → List Event → Prop} (hm : m.Traced s R) (hext : ∀ a es, R a es → ∃ b fs, Q b (es ++ fs))
    (hk : ∀ a t es, R a es → t.cfg = s.cfg → (k a t).Traced t fun b fs => Q b (es ++ fs)) : (m.andThen k).Traced s Q := by
  cases m with
  | done a t =>
    obtain ⟨es, hR, h1, h2, h3⟩ := hm
    exact (hk a t es hR h3).after h1 h2 h3
  | timedOut t =>
    obtain ⟨a, es, more, hR, hw, h1, h2⟩ := hm
    obtain ⟨b, fs, hQ⟩ := hext a _ hR
    exact ⟨b, es, more ++ fs, by rwa [← List.append_assoc], hw, h1, h2⟩

/-- What the first piece emitted is settled by its value. -/
theorem Wire.Traced.andEq {α β : Type} {m : Wire α} {k : α → State → Wire β} {s : State} {f : α → List Event}
    {Q : β → List Event → Prop} (hm : m.Traced s fun a es => es = f a) (hext : ∀ a, ∃ b fs, Q b (f a ++ fs))
    (hk : ∀ a t, t.cfg = s.cfg → (k a t).Traced t fun b fs => Q b (f a ++ fs)) : (m.andThen k).Traced s Q :=
  hm.andThen (fun a _ h => h ▸ hext a) fun a t _ h hc => h ▸ hk a t hc

theorem Wire.Traced.mono {α : Type} {m : Wire α} {s : State} {R Q : α → List Event → Prop} (h : m.Traced s R)
    (hRQ : ∀ a es, R a es → Q a es) : m.Traced s Q := by
  cases m with
  | done a t =>
    obtain ⟨es, hR, h⟩ := h
    exact ⟨es, hRQ a es hR, h⟩
  | timedOut t =>
    obtain ⟨a, es, more, hR, h⟩ := h
    exact ⟨a, es, more, hRQ a _ hR, h⟩

/-! ## The pieces -/

/-- `sclRel()` (R182). -/
theorem sclRel_traced (s : State) : (sclRel s).Traced s fun _ es => es = [.sclRel] := by
  rw [sclRel]
  split
  · exact ⟨[.sclRel], rfl, rfl, rfl, rfl⟩
  · exact ⟨(), [.sclRel], [], rfl, .inl rfl, rfl, rfl⟩

/-- `sample()` (R183). -/
theorem sample_traced (s : State) : (sample s).Traced s fun b es => es = [.sample b] := ⟨_, rfl, rfl, rfl, rfl⟩

/-- `waitSdaHigh()` (R184). -/
theorem waitSdaHigh_traced (s : State) : (waitSdaHigh s).Traced s fun _ es => es = [.waitSda] := by
  rw [waitSdaHigh]
  split
  · exact ⟨[.waitSda], rfl, rfl, rfl, rfl⟩
  · exact ⟨(), [.waitSda], [], rfl, .inr rfl, rfl, rfl⟩

/-- `START()` (R186). -/
theorem busStart_traced (s : State) : (busStart s).Traced s fun _ es => es = startEvents := by
  rw [busStart]
  refine Wire.Traced.after (t := sdaRel s) (es := [.sdaRel]) ?_ rfl rfl rfl
  refine (sclRel_traced _).andEq (fun _ => ⟨(), [.waitSda, .sdaLo, .sclLo], rfl⟩) fun _ t _ => ?_
  refine (waitSdaHigh_traced t).andEq (fun _ => ⟨(), [.sdaLo, .sclLo], rfl⟩) fun _ u _ => ?_
  exact ⟨[.sdaLo, .sclLo], rfl, by simp [sclLow, sdaLow, State.emit], rfl, rfl⟩

/-- `STOP()` (R187). -/
theorem busStop_traced (s : State) : (busStop s).Traced s fun _ es => es = stopEvents := by
  rw [busStop]
  refine Wire.Traced.after (t := sdaLow s) (es := [.sdaLo]) ?_ rfl rfl rfl
  refine (sclRel_traced _).andEq (fun _ => ⟨(), [.sdaRel], rfl⟩) fun _ t _ => ?_
  exact ⟨[.sdaRel], rfl, rfl, rfl, rfl⟩

/-- `sendBit(b)` (R188). -/
theorem sendBit_traced (b : Bool) (s : State) : (sendBit b s).Traced s fun _ es => es = bitEvents b := by
  rw [sendBit]
  refine Wire.Traced.after (t := if b then sdaRel s else sdaLow s) (es := [if b then .sdaRel else .sdaLo]) ?_
    (by cases b <;> rfl) (by cases b <;> rfl) (by cases b <;> rfl)
  refine (sclRel_traced _).andEq (fun _ => ⟨(), [.sclLo], rfl⟩) fun _ t _ => ?_
  exact ⟨[.sclLo], rfl, rfl, rfl, rfl⟩

theorem sendBits_traced (bs : List Bool) (s : State) :
    (sendBits bs s).Traced s fun _ es => es = bs.flatMap bitEvents := by
  induction bs generalizing s with
  | nil => exact traced_done rfl rfl rfl rfl
  | cons b bs ih =>
    rw [sendBits]
    refine (sendBit_traced b s).andEq (fun _ => ⟨(), bs.flatMap bitEvents, rfl⟩) fun _ t _ => ?_
    exact (ih t).mono fun _ es h => by rw [h]; rfl

/-- `getAck()` (R188). -/
theorem getAck_traced (s : State) :
    (getAck s).Traced s fun nack es => es = [.sdaRel, .sclRel, .sample nack, .sclLo] := by
  rw [getAck]
  refine Wire.Traced.after (t := sdaRel s) (es := [.sdaRel]) ?_ rfl rfl rfl
  refine (sclRel_traced _).andEq (fun _ => ⟨true, [.sample true, .sclLo], rfl⟩) fun _ t _ => ?_
  refine (sample_traced t).andEq (fun b => ⟨b, [.sclLo], rfl⟩) fun b u _ => ?_
  exact ⟨[.sclLo], rfl, rfl, rfl, rfl⟩

/-- `sendByte(v)` (R188). -/
theorem sendByte_traced (v : Byte) (s : State) : (sendByte v s).Traced s fun nack es => es = sentByteEvents v nack := by
  rw [sendByte]
  refine (sendBits_traced (bitsMsbFirst v) s).andEq (fun _ => ⟨true, _, rfl⟩) fun _ t _ => ?_
  exact (getAck_traced t).mono fun nack es h => by rw [h]; rfl

/-- `sendAck(k)` (R189). -/
theorem sendAck_traced (ack : Bool) (s : State) : (sendAck ack s).Traced s fun _ es => es = ackEvents ack := by
  rw [sendAck]
  refine Wire.Traced.after (t := if ack then sdaLow s else sdaRel s) (es := [if ack then .sdaLo else .sdaRel]) ?_
    (by cases ack <;> rfl) (by cases ack <;> rfl) (by cases ack <;> rfl)
  refine (sclRel_traced _).andEq (fun _ => ⟨(), [.sclLo, .sdaRel], rfl⟩) fun _ t _ => ?_
  exact ⟨[.sclLo, .sdaRel], rfl, by simp [sdaRel, sclLow, State.emit], rfl, rfl⟩

theorem recvBits_traced (n v : Nat) (s : State) : (recvBits n v s).Traced s fun w es => ∃ bs : List Bool, bs.length = n ∧
    w = bs.foldl (fun v x => 2 * v + x.toNat) v ∧ es = bs.flatMap inBitEvents := by
  induction n generalizing v s with
  | zero => exact traced_done ⟨[], rfl, rfl, rfl⟩ rfl rfl rfl
  | succ n ih =>
    have hfill : ∀ b : Bool, ∃ (w : Nat) (fs : List Event), ∃ bs : List Bool, bs.length = n + 1 ∧
        w = bs.foldl (fun v x => 2 * v + x.toNat) v ∧ inBitEvents b ++ fs = bs.flatMap inBitEvents := fun b =>
      ⟨_, (List.replicate n true).flatMap inBitEvents, b :: List.replicate n true, by simp, rfl, rfl⟩
    rw [recvBits]
    refine (sclRel_traced s).andEq (fun _ => ?_) fun _ t _ => ?_
    · obtain ⟨w, fs, h⟩ := hfill true
      exact ⟨w, .sample true :: .sclLo :: fs, h⟩
    refine (sample_traced t).andEq (fun b => ?_) fun b u _ => ?_
    · obtain ⟨w, fs, h⟩ := hfill b
      exact ⟨w, .sclLo :: fs, h⟩
    refine Wire.Traced.after (t := sclLow u) (es := [.sclLo]) ?_ rfl rfl rfl
    refine (ih (2 * v + b.toNat) (sclLow u)).mono fun w es h => ?_
    obtain ⟨bs, hl, hw, he⟩ := h
    exact ⟨b :: bs, by simp [hl], by simpa using hw, by rw [he]; rfl⟩

/-- `recvByte()` (R189). -/
theorem recvByte_traced (s : State) : (recvByte s).Traced s fun v es => es = gotByteEvents v := by
  rw [recvByte]
  refine Wire.Traced.after (t := sdaRel s) (es := [.sdaRel]) ?_ rfl rfl rfl
  refine (recvBits_traced 8 0 _).andThen (fun w es h => ?_) fun w t es h _ => ?_
  · obtain ⟨bs, hl, -, he⟩ := h
    exact ⟨_, [], by rw [gotByteEvents_eq, bits_of_byte bs hl, he, List.append_nil]; rfl⟩
  · obtain ⟨bs, hl, hw, he⟩ := h
    refine traced_done ?_ rfl rfl rfl
    rw [gotByteEvents_eq, hw, bits_of_byte bs hl, he, List.append_nil]
    rfl

/-! ## Transactions -/

/-- The data bytes of a write: all ACKed, or one NACKed and none after it (R193). -/
theorem sendBytes_traced (k : Nat) (bytes : List Byte) (s : State) : (sendBytes k bytes s).Traced s fun r es =>
    (r = none ∧ es = busTrace (bytes.map fun b => .wrote b false)) ∨ ∃ j, j < bytes.length ∧ r = some (k + j) ∧
      es = busTrace (((bytes.take j).map fun b => .wrote b false) ++ [.wrote (bytes.getD j 0#8) true]) := by
  induction bytes generalizing k s with
  | nil => exact traced_done (.inl ⟨rfl, rfl⟩) rfl rfl rfl
  | cons b bs ih =>
    have hnack : busTrace ((((b :: bs).take 0).map fun b => .wrote b false) ++
        [.wrote ((b :: bs).getD 0 0#8) true]) = sentByteEvents b true := by
      simp [BusToken.events]
    rw [sendBytes]
    refine (sendByte_traced b s).andEq (fun nack => ?_) fun nack t _ => ?_
    · cases nack
      · exact ⟨none, busTrace (bs.map fun b => .wrote b false), .inl ⟨rfl, rfl⟩⟩
      · exact ⟨some k, [], .inr ⟨0, by simp, rfl, by rw [hnack, List.append_nil]⟩⟩
    · cases nack
      · rw [if_neg (by simp)]
        refine (ih (k + 1) t).mono fun r es h => ?_
        rcases h with ⟨hr, he⟩ | ⟨j, hj, hr, he⟩
        · exact .inl ⟨hr, by rw [he]; rfl⟩
        · exact .inr ⟨j + 1, by simpa using hj, by rw [hr]; congr 1; omega, by rw [he]; rfl⟩
      · rw [if_pos rfl]
        exact traced_done (.inr ⟨0, by simp, rfl, by rw [hnack, List.append_nil]⟩) rfl rfl rfl

theorem endTransfer_traced (hold : Bool) (s : State) :
    (endTransfer hold s).Traced s fun _ es => es = busTrace (if hold then [] else [.stop]) := by
  cases hold
  · exact (busStop_traced s).mono fun _ es h => by rw [h]; rfl
  · exact traced_done rfl rfl rfl rfl

/-- The bytes of a read with their acknowledgments (R195, R196). -/
theorem recvBytes_traced (n : Nat) (s : State) : (recvBytes n s).Traced s fun vs es =>
    vs.length = n ∧ es = busTrace (gotTokens s.par.readFinalAck vs) := by
  induction n generalizing s with
  | zero => exact traced_done ⟨rfl, rfl⟩ rfl rfl rfl
  | succ n ih =>
    let mark : Option Bool := if n = 0 then finalMark s.par.readFinalAck else some true
    have htok : ∀ (v : Byte) (vs : List Byte), vs.length = n → busTrace (gotTokens s.par.readFinalAck (v :: vs)) =
        gotByteEvents v ++ (mark.elim [] ackEvents ++ busTrace (gotTokens s.par.readFinalAck vs)) := by
      intro v vs hl
      cases vs with
      | nil =>
        subst hl
        simp only [mark, gotTokens, busTrace, List.flatMap_cons, List.flatMap_nil, List.append_nil]
        cases finalMark s.par.readFinalAck <;> simp [BusToken.events]
      | cons w ws =>
        have hn : n ≠ 0 := by
          rw [← hl]
          simp
        simp only [mark, if_neg hn, gotTokens, busTrace, List.flatMap_cons, BusToken.events, Option.elim_some,
          List.append_assoc]
    have hack : ∀ t : State, t.cfg = s.cfg → Wire.Traced (if n = 0 then finalAck t else sendAck true t) t
        fun _ es => es = mark.elim [] ackEvents := by
      intro t ht
      by_cases hn : n = 0
      · simp only [mark, if_pos hn, finalAck, State.par, ht]
        cases s.cfg.val.readFinalAck
        · exact sendAck_traced false t
        · exact sendAck_traced true t
        · exact traced_done rfl rfl rfl rfl
      · simp only [mark, if_neg hn]
        exact sendAck_traced true t
    rw [recvBytes]
    refine (recvByte_traced s).andEq (fun v => ⟨v :: List.replicate n 0#8, _, by simp, (htok _ _ (by simp)).symm⟩)
      fun v t ht => ?_
    refine (hack t ht).andEq (fun _ => ⟨v :: List.replicate n 0#8, _, by simp, (htok _ _ (by simp)).symm⟩)
      fun _ u hu => ?_
    have hpar : u.par = s.par := by rw [State.par, State.par, hu, ht]
    refine (ih u).andThen (fun vs es h => ?_) fun vs w es h _ => ?_
    · exact ⟨v :: vs, [], by simp [h.1], by rw [h.2, hpar, htok v vs h.1, List.append_nil]⟩
    · exact traced_done ⟨by simp [h.1], by rw [h.2, hpar, htok v vs h.1, List.append_nil]⟩ rfl rfl rfl

/-- The events of a write after the lazy initialisation are those of R193, in one of its three ways. -/
theorem busWriteWire_traced (a : Word) (bytes : List Byte) (hold : Bool) (s : State) :
    (busWriteWire a bytes hold s).Traced (lazyInit s) fun _ es => ∃ ts, es = busTrace ts ∧
      (ts = writeTokens (addressByte a false) bytes hold ∨ ts = refusedTokens (addressByte a false) ∨
        ∃ k, k < bytes.length ∧ ts = cutTokens (addressByte a false) bytes k) := by
  rw [busWriteWire]
  refine (busStart_traced _).andEq (fun _ => ⟨⟨.nackAddr, []⟩, _, refusedTokens (addressByte a false), rfl, .inr (.inl rfl)⟩)
    fun _ t _ => ?_
  refine (sendByte_traced (addressByte a false) t).andEq (fun nack => ?_) fun nack u _ => ?_
  · cases nack
    · exact ⟨⟨.ok, []⟩, _, writeTokens (addressByte a false) bytes hold, rfl, .inl rfl⟩
    · exact ⟨⟨.nackAddr, []⟩, _, refusedTokens (addressByte a false), rfl, .inr (.inl rfl)⟩
  cases nack
  · rw [if_neg (by simp)]
    have hok : startEvents ++ (sentByteEvents (addressByte a false) false ++
        (busTrace (bytes.map fun b => .wrote b false) ++ busTrace (if hold then [] else [.stop]))) =
        busTrace (writeTokens (addressByte a false) bytes hold) := by
      simp [writeTokens, busTrace_append, BusToken.events]
    have hcut : ∀ j, startEvents ++ (sentByteEvents (addressByte a false) false ++
        (busTrace (((bytes.take j).map fun b => .wrote b false) ++ [.wrote (bytes.getD j 0#8) true]) ++ stopEvents)) =
        busTrace (cutTokens (addressByte a false) bytes j) := fun j => by
      simp [cutTokens, busTrace_append, BusToken.events]
    refine (sendBytes_traced 0 bytes u).andThen (fun r es h => ?_) fun r v es h _ => ?_
    · rcases h with ⟨rfl, rfl⟩ | ⟨j, hj, rfl, rfl⟩
      · exact ⟨⟨.ok, []⟩, busTrace (if hold then [] else [.stop]), _, hok, .inl rfl⟩
      · exact ⟨⟨.ok, []⟩, stopEvents, _, hcut j, .inr (.inr ⟨j, hj, rfl⟩)⟩
    · rcases h with ⟨rfl, rfl⟩ | ⟨j, hj, rfl, rfl⟩
      · refine (endTransfer_traced hold v).andEq (fun _ => ?_) fun _ w _ => ?_
        · exact ⟨⟨.ok, []⟩, [], _, by rw [List.append_nil]; exact hok, .inl rfl⟩
        · exact traced_done ⟨_, by rw [List.append_nil]; exact hok, .inl rfl⟩ rfl rfl rfl
      · refine (busStop_traced v).andEq (fun _ => ?_) fun _ w _ => ?_
        · exact ⟨⟨.ok, []⟩, [], _, by rw [List.append_nil]; exact hcut j, .inr (.inr ⟨j, hj, rfl⟩)⟩
        · exact traced_done ⟨_, by rw [List.append_nil]; exact hcut j, .inr (.inr ⟨j, hj, rfl⟩)⟩ rfl rfl rfl
  · rw [if_pos rfl]
    refine (busStop_traced u).andEq (fun _ => ?_) fun _ w _ => ?_
    · exact ⟨⟨.nackAddr, []⟩, [], refusedTokens (addressByte a false), rfl, .inr (.inl rfl)⟩
    · exact traced_done ⟨refusedTokens (addressByte a false), rfl, .inr (.inl rfl)⟩ rfl rfl rfl

/-- The events of a read after the lazy initialisation are those of R195, in one of its two ways. -/
theorem busReadWire_traced (a : Word) (n : Nat) (hold : Bool) (s : State) :
    (busReadWire a n hold s).Traced (lazyInit s) fun _ es => ∃ ts, es = busTrace ts ∧
      ((∃ vs : List Byte, vs.length = n ∧ ts = readTokens s.par.readFinalAck (addressByte a true) vs hold) ∨
        ts = refusedTokens (addressByte a true)) := by
  rw [busReadWire]
  refine (busStart_traced _).andEq (fun _ => ⟨(.nackAddr, []), _, refusedTokens (addressByte a true), rfl, .inr rfl⟩)
    fun _ t ht => ?_
  have hread : ∀ vs : List Byte, startEvents ++ (sentByteEvents (addressByte a true) false ++
      (busTrace (gotTokens s.par.readFinalAck vs) ++ busTrace (if hold then [] else [.stop]))) =
      busTrace (readTokens s.par.readFinalAck (addressByte a true) vs hold) := fun vs => by
    simp [readTokens, busTrace_append, BusToken.events]
  refine (sendByte_traced (addressByte a true) t).andEq (fun nack => ?_) fun nack u hu => ?_
  · cases nack
    · exact ⟨(.ok, []), _, _, hread (List.replicate n 0#8), .inl ⟨_, by simp, rfl⟩⟩
    · exact ⟨(.nackAddr, []), _, refusedTokens (addressByte a true), rfl, .inr rfl⟩
  cases nack
  · rw [if_neg (by simp)]
    have hpar : u.par = s.par := by
      rw [State.par, State.par, hu, ht, lazyInit]
      split <;> rfl
    refine (recvBytes_traced n u).andThen (fun vs es h => ?_) fun vs v es h _ => ?_
    · rw [hpar] at h
      exact ⟨(.ok, vs), busTrace (if hold then [] else [.stop]), _, by rw [h.2]; exact hread vs, .inl ⟨vs, h.1, rfl⟩⟩
    · rw [hpar] at h
      refine (endTransfer_traced hold v).andEq (fun _ => ?_) fun _ w _ => ?_
      · exact ⟨(.ok, vs), [], _, by rw [h.2, List.append_nil]; exact hread vs, .inl ⟨vs, h.1, rfl⟩⟩
      · exact traced_done ⟨_, by rw [h.2, List.append_nil]; exact hread vs, .inl ⟨vs, h.1, rfl⟩⟩ rfl rfl rfl
  · rw [if_pos rfl]
    refine (busStop_traced u).andEq (fun _ => ?_) fun _ w _ => ?_
    · exact ⟨(.nackAddr, []), [], refusedTokens (addressByte a true), rfl, .inr rfl⟩
    · exact traced_done ⟨refusedTokens (addressByte a true), rfl, .inr rfl⟩ rfl rfl rfl

/-! ## The cut -/

/-- A transaction without a reinitialisation never ends in a wait. -/
theorem not_endsInWait (ts : List BusToken) (h : .init ∉ ts) : ¬EndsInWait (busTrace ts) := by
  have htok : ∀ t : BusToken, t ≠ .init → t.events ≠ [] ∧ ¬EndsInWait t.events := by
    intro t ht
    have hbits : ∀ v : Byte, ∃ es, gotByteEvents v = es ++ [.sclLo] := fun v =>
      ⟨(gotByteEvents v).dropLast, rfl⟩
    cases t with
    | init => exact absurd rfl ht
    | start => exact ⟨by simp [BusToken.events, startEvents], by simp [EndsInWait, BusToken.events, startEvents]⟩
    | stop => exact ⟨by simp [BusToken.events, stopEvents], by simp [EndsInWait, BusToken.events, stopEvents]⟩
    | wrote v nack => exact ⟨by simp [BusToken.events, sentByteEvents], by simp [EndsInWait, BusToken.events, sentByteEvents]⟩
    | got v ack =>
      cases ack with
      | none =>
        obtain ⟨es, he⟩ := hbits v
        exact ⟨by simp [BusToken.events, he], by simp [EndsInWait, BusToken.events, he]⟩
      | some a => exact ⟨by simp [BusToken.events, ackEvents], by simp [EndsInWait, BusToken.events, ackEvents]⟩
  rcases List.eq_nil_or_concat ts with rfl | ⟨ts, t, rfl⟩
  · simp [EndsInWait]
  · obtain ⟨h1, h2⟩ := htok t fun ht => h (by simp [ht])
    rw [List.concat_eq_append, busTrace_append, busTrace_cons, busTrace_nil, List.append_nil, EndsInWait,
      List.getLast?_append_of_ne_nil _ h1]
    exact h2

/-- A first part up to a wait is a proper part. -/
theorem cutByTimeout_of {ts : List BusToken} {es more : List Event} (h : .init ∉ ts) (he : es ++ more = busTrace ts)
    (hw : EndsInWait es) : CutByTimeout ts es := by
  refine ⟨⟨more, ?_, he.symm⟩, hw⟩
  rintro rfl
  rw [List.append_nil] at he
  exact not_endsInWait ts h (he ▸ hw)

theorem gotTokens_not_init (f : ReadFinalAck) (vs : List Byte) : .init ∉ gotTokens f vs := by
  induction vs with
  | nil => simp [gotTokens]
  | cons v vs ih =>
    cases vs with
    | nil => simp [gotTokens]
    | cons w ws => simpa [gotTokens] using ih

/-- A transaction begins with a release of SDA, so its earlier level does not matter. -/
theorem sdaAfter_cut {ts : List BusToken} {es : List Event} (h : CutByTimeout (.start :: ts) es) (d : Drive) :
    sdaAfter d es = sdaAfter .rel es := by
  obtain ⟨⟨more, -, he⟩, hw⟩ := h
  cases es with
  | nil => rcases hw with h | h <;> cases h
  | cons e es =>
    rw [busTrace_cons] at he
    have : e = .sdaRel := by
      have := congrArg List.head? he
      exact (Option.some.inj this).symm
    subst this
    rfl

/-- The lazy initialisation emits `initBus()` or nothing (R192). -/
theorem lazyInit_trace (s : State) : (lazyInit s).trace = s.trace ++ busTrace (lazyTokens s) := by
  rw [lazyInit, lazyTokens]
  split
  · simp
  · simp [initBus, sclFree, sdaRel, State.emit, BusToken.events, initEvents]

/-- A BUS.WRITE that timed out was cut in one of the three ways of R193, with SDA as last written (R190, R199). -/
theorem busWriteWire_cut (a : Word) (bytes : List Byte) (hold : Bool) (s t : State)
    (h : busWriteWire a bytes hold s = .timedOut t) : ∃ ts es,
      (ts = writeTokens (addressByte a false) bytes hold ∨ ts = refusedTokens (addressByte a false) ∨
        ∃ k, k < bytes.length ∧ ts = cutTokens (addressByte a false) bytes k) ∧
      CutByTimeout ts es ∧ t.trace = s.trace ++ (busTrace (lazyTokens s) ++ es) ∧ t.sdaDrv = sdaAfter .rel es := by
  have hs := busWriteWire_traced a bytes hold s
  rw [h] at hs
  obtain ⟨-, es, more, ⟨ts, he, hts⟩, hw, h1, h2⟩ := hs
  have hcut : CutByTimeout ts es := cutByTimeout_of (by
    rcases hts with rfl | rfl | ⟨k, -, rfl⟩
    · cases hold <;> simp [writeTokens]
    · simp [refusedTokens]
    · simp [cutTokens, -List.map_take]) he hw
  refine ⟨ts, es, hts, hcut, by rw [h1, lazyInit_trace, List.append_assoc], ?_⟩
  rw [h2]
  rcases hts with rfl | rfl | ⟨k, -, rfl⟩ <;> exact sdaAfter_cut hcut _

/-- A BUS.READ that timed out was cut in one of the two ways of R195, with SDA as last written (R190, R199). -/
theorem busReadWire_cut (a : Word) (n : Nat) (hold : Bool) (s t : State) (h : busReadWire a n hold s = .timedOut t) :
    ∃ ts es, ((∃ vs : List Byte, vs.length = n ∧ ts = readTokens s.par.readFinalAck (addressByte a true) vs hold) ∨
        ts = refusedTokens (addressByte a true)) ∧
      CutByTimeout ts es ∧ t.trace = s.trace ++ (busTrace (lazyTokens s) ++ es) ∧ t.sdaDrv = sdaAfter .rel es := by
  have hs := busReadWire_traced a n hold s
  rw [h] at hs
  obtain ⟨-, es, more, ⟨ts, he, hts⟩, hw, h1, h2⟩ := hs
  have hcut : CutByTimeout ts es := cutByTimeout_of (by
    rcases hts with ⟨vs, -, rfl⟩ | rfl
    · have := gotTokens_not_init s.par.readFinalAck vs
      cases hold <;> simp [readTokens, this]
    · simp [refusedTokens]) he hw
  refine ⟨ts, es, hts, hcut, by rw [h1, lazyInit_trace, List.append_assoc], ?_⟩
  rw [h2]
  rcases hts with ⟨vs, -, rfl⟩ | rfl <;> exact sdaAfter_cut hcut _

end Sys2Proof.Machine
end

