-- ==== Sys2Proof/Laws/Decode.lean ====
section
/-! SUPPORT. The header's fields, the opcode map and the operand words. -/

namespace Sys2Proof

/-- No two opcodes of R117 have one OP byte. -/
theorem opcode_codes_distinct : Opcode.all.Pairwise fun o o' => o.code ≠ o'.code := by decide

theorem opcode_mem_all (o : Opcode) : o ∈ Opcode.all := by cases o <;> decide

@[simp] theorem opcodeOf_code (o : Opcode) : opcodeOf o.code = some o := by cases o <;> decide

theorem code_of_opcodeOf {b : Byte} {o : Opcode} (h : opcodeOf b = some o) : o.code = b := by
  have := List.find?_some h
  simpa using this

@[simp] theorem opOf_headerWord (o : Opcode) (f : Bool) : opOf (headerWord o f) = o.code := by
  cases o <;> cases f <;> decide

@[simp] theorem flagOf_headerWord (o : Opcode) (f : Bool) : flagOf (headerWord o f) = f := by
  cases o <;> cases f <;> decide

@[simp] theorem rsvOf_headerWord (o : Opcode) (f : Bool) : rsvOf (headerWord o f) = 0#7 := by
  cases o <;> cases f <;> decide

/-- A header is its three fields (R110). -/
theorem header_eq_of_fields {h : Word} {o : Opcode} (hr : rsvOf h = 0#7) (ho : opOf h = o.code) :
    h = headerWord o (flagOf h) := by
  have key : ∀ w : Word, w = BitVec.append (BitVec.append (rsvOf w) (BitVec.ofBool (flagOf w))) (opOf w) := by
    intro w
    apply BitVec.eq_of_getLsbD_eq
    intro i hi
    show _ = ((rsvOf w ++ BitVec.ofBool (flagOf w)) ++ opOf w : BitVec (7 + 1 + 8)).getLsbD i
    rw [BitVec.getLsbD_append, BitVec.getLsbD_append]
    by_cases h8 : i < 8
    · simp [h8, opOf]
    · by_cases h9 : i - 8 < 1
      · have : i = 8 := by omega
        subst this
        simp [flagOf]
      · have h9' : 9 + (i - 8 - 1) = i := by omega
        simp only [h8, h9, if_false, rsvOf, BitVec.getLsbD_extractLsb', h9']
        have : i - 8 - 1 < 7 := by omega
        simp [this]
  have := key h
  rw [hr, ho] at this
  exact this

/-- The operand words of a command make the command again. -/
theorem build_operands (i : Instr) : i.opcode.build i.flag i.operands = some i := by cases i <;> rfl

/-- Operand words that make a command are its operand words. -/
theorem operands_of_build {o : Opcode} {f : Bool} {ops : List Word} {i : Instr} (h : o.build f ops = some i) :
    i.opcode = o ∧ i.operands = ops ∧ (o.hasFlag = true → i.flag = f) := by
  cases o <;> simp only [Opcode.build] at h <;> split at h <;> cases h <;>
    exact ⟨rfl, rfl, fun hf => by first | rfl | cases hf⟩

theorem flag_of_not_hasFlag {i : Instr} (h : i.opcode.hasFlag = false) : i.flag = false := by
  cases i <;> simp_all [Instr.opcode, Opcode.hasFlag, Instr.flag]

end Sys2Proof
end

