-- ==== Sys2Proof/Laws/Draw.lean ====
section
/-! SUPPORT. Sequences of PLOT calls, and the point lists of the drawing commands (44_framebuffer.md R300-R332;
45_text.md R361, R362). -/

namespace Sys2Proof.Machine

/-! ## Sequences of PLOT calls -/

/-- A word of Frame that no call is clipped onto stays. -/
theorem frameAt_plotAll_other (s : State) (ps : List Plot) (w : Nat)
    (h : ∀ p ∈ ps, ∀ q, clipPoint s.par p.x p.y = some q → idx s.par q.1 q.2 ≠ w) :
    (s.plotAll ps).frameAt w = s.frameAt w := by
  induction ps generalizing s with
  | nil => rfl
  | cons p ps ih =>
    have hpar := (plot_only s p).par
    rw [plotAll_cons, ih (s.plot p) fun p' hp' q hq => by rw [hpar] at hq ⊢; exact h p' (by simp [hp']) q hq, State.plot]
    cases hc : clipPoint s.par p.x p.y with
    | none => rfl
    | some q =>
      simp only [frameAt_plotAt]
      rw [if_neg fun hw => h p (by simp) q hc hw.symm]

/-- Where no two calls are clipped onto one pixel, each pixel called takes the colour of its call. -/
theorem frameAt_plotAll_distinct (s : State) (ps : List Plot)
    (hd : ps.Pairwise fun p p' => ∀ q q', clipPoint s.par p.x p.y = some q → clipPoint s.par p'.x p'.y = some q' →
      idx s.par q.1 q.2 ≠ idx s.par q'.1 q'.2)
    {p : Plot} (hp : p ∈ ps) {q : Nat × Nat} (hq : clipPoint s.par p.x p.y = some q) :
    (s.plotAll ps).frameAt (idx s.par q.1 q.2) = p.c := by
  induction ps generalizing s with
  | nil => cases hp
  | cons p' ps ih =>
    obtain ⟨h1, h2⟩ := List.pairwise_cons.mp hd
    have hpar := (plot_only s p').par
    rw [plotAll_cons]
    rcases List.mem_cons.mp hp with rfl | hp
    · rw [frameAt_plotAll_other (s.plot p) ps _ fun p' hp' q' hq' => by
        rw [hpar] at hq' ⊢
        exact (h1 p' hp' q q' hq hq').symm, State.plot]
      simp only [hq, frameAt_plotAt, if_true]
    · have := ih (s.plot p') (by rw [hpar]; exact h2) hp (by rw [hpar]; exact hq)
      rwa [hpar] at this

/-- A Dirty flag after a sequence of calls: set before, or by a call whose colour differs from Baseline. -/
theorem dirtyAt_plotAll (s : State) (ps : List Plot) (k : Nat) :
    (s.plotAll ps).dirtyAt k = true ↔ (s.dirtyAt k = true ∨ ∃ p ∈ ps, ∃ q, clipPoint s.par p.x p.y = some q ∧
      k = cellOf s.par q.1 q.2 ∧ p.c ≠ s.baselineAt (idx s.par q.1 q.2)) := by
  induction ps generalizing s with
  | nil => simp
  | cons p ps ih =>
    have ho := plot_only s p
    have hb : ∀ w, (s.plot p).baselineAt w = s.baselineAt w := ho.baselineAt
    rw [plotAll_cons, ih (s.plot p), ho.par]
    simp only [hb, List.mem_cons, exists_eq_or_imp]
    rw [State.plot]
    cases hc : clipPoint s.par p.x p.y with
    | none => simp
    | some q =>
      simp only [dirtyAt_plotAt, Option.some.injEq, exists_eq_left']
      by_cases h : p.c ≠ s.baselineAt (idx s.par q.1 q.2) ∧ k = cellOf s.par q.1 q.2
      · simp [h]
      · rw [if_neg h]
        constructor
        · rintro (h' | h')
          · exact .inl h'
          · exact .inr (.inr h')
        · rintro (h' | ⟨h1, h2⟩ | h')
          · exact .inl h'
          · exact absurd ⟨h2, h1⟩ h
          · exact .inr h'

/-- The fields a drawing command leaves. -/
theorem plotAll_finish (s : State) (ps : List Plot) (ws : List Word) :
    (s.plotAll ps).finish ws = { s with
      frame := (s.plotAll ps).frame, dirty := (s.plotAll ps).dirty, replies := s.replies ++ [⟨.ok, ws⟩] } := by
  have h := plotAll_only s ps
  rw [OnlyDrawing] at h
  rw [State.finish, State.reply]
  rw [show (s.plotAll ps).replies = s.replies from by rw [h]]
  conv_lhs => rw [h]

/-- PLOT keeps INV0 (R300). -/
theorem plotAll_inv0 {s : State} (h : Inv0 s) (ps : List Plot) : Inv0 (s.plotAll ps) := by
  have ho := plotAll_only s ps
  intro k hk hs
  rw [ho.par] at hk
  rw [ho.staleAt] at hs
  exact dirtyAt_plotAll_of_dirty s ps (h k hk hs)

/-- PLOT keeps INV1 (R300). -/
theorem plot_inv1 {s : State} (h : Inv1 s) (p : Plot) : Inv1 (s.plot p) := by
  have ho := plot_only s p
  intro x y hx hy hne
  rw [ho.par] at hx hy
  rw [ho.par] at hne ⊢
  rw [ho.baselineAt] at hne
  rw [State.plot] at hne ⊢
  cases hc : clipPoint s.par p.x p.y with
  | none =>
    simp only [hc] at hne ⊢
    exact h x y hx hy hne
  | some q =>
    simp only [hc, frameAt_plotAt, dirtyAt_plotAt] at hne ⊢
    have hq := clipPoint_mem s.cfg hc
    by_cases hi : idx s.par x y = idx s.par q.1 q.2
    · obtain ⟨rfl, rfl⟩ := idx_inj s.par hx hq.1 hi
      rw [if_pos rfl] at hne
      rw [if_pos ⟨hne, rfl⟩]
    · rw [if_neg hi] at hne
      split
      · rfl
      · exact h x y hx hy hne

theorem plotAll_inv1 {s : State} (h : Inv1 s) (ps : List Plot) : Inv1 (s.plotAll ps) := by
  induction ps generalizing s with
  | nil => exact h
  | cons p ps ih => exact ih (plot_inv1 h p)

/-- PLOT keeps the memories canonical and within their spaces (R301). -/
theorem plot_memories {s : State} (h : MemoriesLegal s) (p : Plot) : MemoriesLegal (s.plot p) := by
  rw [State.plot]
  cases hc : clipPoint s.par p.x p.y with
  | none => exact h
  | some q =>
    have hq := clipPoint_mem s.cfg hc
    obtain ⟨⟨f1, f2⟩, b, ⟨d1, d2⟩, t⟩ := h
    show MemoriesLegal (s.plotAt q p.c)
    rw [State.plotAt]
    simp only [setFrame_par]
    have hf : Memory.wf 0#16 (s.setFrame (idx s.par q.1 q.2) p.c).frame ∧
        ∀ e ∈ (s.setFrame (idx s.par q.1 q.2) p.c).frame, e.1 < s.par.width * s.par.height :=
      ⟨Memory.wf_write f1 _ _, Memory.bound_write (d := 0#16) f2 (idx_lt s.par hq.1 hq.2) _⟩
    split
    · exact ⟨hf, b, ⟨Memory.wf_write d1 (cellOf s.par q.1 q.2) true,
        Memory.bound_write (d := true) d2 (cellOf_lt s.cfg hq.1 hq.2) true⟩, t⟩
    · exact ⟨hf, b, ⟨d1, d2⟩, t⟩

theorem plotAll_memories {s : State} (h : MemoriesLegal s) (ps : List Plot) : MemoriesLegal (s.plotAll ps) := by
  induction ps generalizing s with
  | nil => exact h
  | cons p ps ih => exact ih (plot_memories h p)

/-! ## Point lists -/

theorem mem_intRange {a b v : Int} : v ∈ intRange a b ↔ a ≤ v ∧ v ≤ b := by
  simp only [intRange, List.mem_map, List.mem_range]
  constructor
  · rintro ⟨i, hi, rfl⟩
    omega
  · rintro ⟨h1, h2⟩
    exact ⟨(v - a).toNat, by omega, by omega⟩

/-- The points of a rectangle (R310). -/
theorem mem_rectPoints {x0 y0 x1 y1 : Int} {d : Int × Int} : d ∈ rectPoints x0 y0 x1 y1 ↔
    (min x0 x1 ≤ d.1 ∧ d.1 ≤ max x0 x1) ∧ (min y0 y1 ≤ d.2 ∧ d.2 ≤ max y0 y1) := by
  obtain ⟨x, y⟩ := d
  simp only [rectPoints, List.mem_flatMap, List.mem_map, mem_intRange, Prod.mk.injEq]
  constructor
  · rintro ⟨y', hy, x', hx, rfl, rfl⟩
    exact ⟨hx, hy⟩
  · rintro ⟨hx, hy⟩
    exact ⟨y, hy, x, hx, rfl, rfl⟩

/-- The offsets of DISK (R332). -/
theorem mem_diskOffsets {r : Nat} {d : Int × Int} :
    d ∈ diskOffsets r ↔ d.1 * d.1 + d.2 * d.2 ≤ (r : Int) * (r : Int) := by
  simp only [diskOffsets, List.mem_filter, mem_rectPoints, decide_eq_true_eq, and_iff_right_iff_imp]
  intro h
  have h1 : ∀ a b : Int, a * a + b * b ≤ (r : Int) * r → -(r : Int) ≤ a ∧ a ≤ r := by
    intro a b h
    constructor <;> nlinarith [mul_self_nonneg b, mul_self_nonneg a, mul_self_nonneg (a - r), mul_self_nonneg (a + r)]
  have hx := h1 d.1 d.2 h
  have hy := h1 d.2 d.1 (by linarith)
  omega

/-- Every admitted CIRCLE_SET has the centre and stays within R + 1 (R331: P2, P3). -/
theorem circleOffsets_admitted {c : CircleSet} (h : c.Admitted) (r : Nat) : circleOffsetsAdmitted r (circleOffsets c r) := by
  have hdisk : circleOffsetsAdmitted r (diskOffsets r) := by
    refine ⟨mem_diskOffsets.mpr (by simp; positivity), fun d hd => ?_⟩
    have := mem_diskOffsets.mp hd
    nlinarith
  cases c with
  | disk => exact hdisk
  | listed table =>
    rw [circleOffsets, List.getD_eq_getElem?_getD]
    cases hr : table[r]? with
    | none => exact hdisk
    | some offsets =>
      refine h (offsets, r) ?_
      rw [CircleSet.rows, List.mem_zipIdx_iff_getElem?]
      exact hr

theorem plotsOf_colour (c : Word) (ds : List (Int × Int)) : ∀ p ∈ plotsOf c ds, p.c = c := by
  intro p hp
  obtain ⟨d, -, rfl⟩ := List.mem_map.mp hp
  rfl

/-- Frame after the plots of points in one colour. -/
theorem frameAt_points (s : State) (c : Word) (ds : List (Int × Int)) (w : Nat) :
    (s.plotAll (plotsOf c ds)).frameAt w = if ∃ d ∈ ds, ∃ q, clipPoint s.par d.1 d.2 = some q ∧ w = idx s.par q.1 q.2 then c else s.frameAt w := by
  rw [frameAt_plotAll_colour s c _ (plotsOf_colour c ds)]
  simp only [plotsOf, List.mem_map, exists_exists_and_eq_and]
  congr 1
  simp only [eq_comm]

/-- Dirty after the plots of points in one colour. -/
theorem dirtyAt_points (s : State) (c : Word) (ds : List (Int × Int)) (k : Nat) :
    (s.plotAll (plotsOf c ds)).dirtyAt k = true ↔ (s.dirtyAt k = true ∨ ∃ d ∈ ds, ∃ q, clipPoint s.par d.1 d.2 = some q ∧
      k = cellOf s.par q.1 q.2 ∧ c ≠ s.baselineAt (idx s.par q.1 q.2)) := by
  rw [dirtyAt_plotAll]
  simp only [plotsOf, List.mem_map, exists_exists_and_eq_and]

/-- The pixels a rectangle is clipped onto: the rectangle with its corners clamped, or cut by the Frame (R310). -/
theorem rect_hit (b : Board) (x0 y0 x1 y1 : Int) (q : Nat × Nat) :
    (∃ d ∈ rectPoints x0 y0 x1 y1, clipPoint b.val d.1 d.2 = some q) ↔
    (q.1 < b.val.width ∧ q.2 < b.val.height ∧
      (let clip := fun (v : Int) (n : Nat) => if b.val.clipMode = .clamp then min (max v 0) ((n : Int) - 1) else v
       clip (min x0 x1) b.val.width ≤ q.1 ∧ (q.1 : Int) ≤ clip (max x0 x1) b.val.width ∧
       clip (min y0 y1) b.val.height ≤ q.2 ∧ (q.2 : Int) ≤ clip (max y0 y1) b.val.height)) := by
  obtain ⟨x, y⟩ := q
  have hw := board_width b
  have hh := board_height b
  simp only [mem_rectPoints, Prod.exists, clipPoint]
  cases hm : b.val.clipMode
  · simp only [if_true, Option.some.injEq, Prod.mk.injEq, clamp]
    constructor
    · rintro ⟨a, b', h, h1, h2⟩
      omega
    · rintro ⟨h1, h2, h3, h4, h5, h6⟩
      refine ⟨min (max (x : Int) (min x0 x1)) (max x0 x1), min (max (y : Int) (min y0 y1)) (max y0 y1), ?_, ?_, ?_⟩ <;>
        omega
  · simp only [reduceCtorEq, if_false]
    constructor
    · rintro ⟨a, b', h, h1⟩
      split at h1
      · cases h1; omega
      · cases h1
    · rintro ⟨h1, h2, h3, h4, h5, h6⟩
      refine ⟨x, y, by omega, ?_⟩
      rw [if_pos (by omega)]
      simp

/-! ### Lines (R320) -/

/-- How many minor steps a line has taken at its point i: the error term of R320, solved. -/
def minorSteps (dx dy : Int) (i : Nat) : Int := ((i : Int) * dy + dx - 1 - dx / 2) / dx

/-- The error term stays in 0..dx-1, and says how many minor steps have been taken. -/
theorem lineWalk_get (dx dy ystep : Int) (hdy : 0 ≤ dy) (hdx : dy ≤ dx) (hpos : 0 < dx) (n i : Nat) (k : Nat) (x y err : Int)
    (m : Int) (herr : err = dx / 2 - (k : Int) * dy + m * dx) (h0 : 0 ≤ err) (h1 : err < dx) (hi : i < n) :
    (lineWalk dx dy ystep n x y err)[i]? = some (x + i, y + ystep * (minorSteps dx dy (k + i) - m)) := by
  induction n generalizing i k x y err m with
  | zero => omega
  | succ n ih =>
    have hm : minorSteps dx dy k = m := by
      rw [minorSteps]
      have hnum : (k : Int) * dy + dx - 1 - dx / 2 = (dx - 1 - err) + m * dx := by rw [herr]; ring
      rw [hnum, Int.add_mul_ediv_right _ _ (by omega), Int.ediv_eq_zero_of_lt (by omega) (by omega), zero_add]
    rw [lineWalk]
    cases i with
    | zero => simp [hm]
    | succ i =>
      simp only [List.getElem?_cons_succ]
      split
      · rw [ih i (k + 1) (x + 1) (y + ystep) (err - dy + dx) (m + 1) (by rw [herr]; push_cast; ring) (by omega) (by omega)
          (by omega)]
        congr 2
        · push_cast; ring
        · rw [show k + 1 + i = k + (i + 1) by omega]; ring
      · rw [ih i (k + 1) (x + 1) y (err - dy) m (by rw [herr]; push_cast; ring) (by omega) (by omega) (by omega)]
        congr 2
        · push_cast; ring
        · rw [show k + 1 + i = k + (i + 1) by omega]

theorem lineWalk_length (dx dy ystep : Int) (n : Nat) (x y err : Int) : (lineWalk dx dy ystep n x y err).length = n := by
  induction n generalizing x y err with
  | zero => rfl
  | succ n ih =>
    rw [lineWalk]
    simp only [List.length_cons]
    split <;> rw [ih]

/-- The points of a line from its lesser end on, in closed form (R320). -/
theorem lineMajor_eq (x0 y0 x1 y1 : Int) (h : |y1 - y0| ≤ x1 - x0) :
    lineMajor x0 y0 x1 y1 = (List.range ((x1 - x0).toNat + 1)).map fun i : Nat =>
      (x0 + (i : Int), y0 + (if y0 < y1 then 1 else -1) * minorSteps (x1 - x0) |y1 - y0| i) := by
  have habs := abs_nonneg (y1 - y0)
  apply List.ext_getElem?
  intro i
  rw [lineMajor, List.getElem?_map]
  by_cases hi : i < (x1 - x0).toNat + 1
  · rw [List.getElem?_range hi]
    by_cases hdx : x1 - x0 = 0
    · have hi0 : i = 0 := by omega
      subst hi0
      simp [hdx, lineWalk, minorSteps]
    · rw [lineWalk_get (x1 - x0) |y1 - y0| _ habs h (by omega) _ i 0 x0 y0 _ 0 (by simp) (by omega) (by omega) (by omega)]
      simp
  · rw [List.getElem?_eq_none (by rw [lineWalk_length]; omega), List.getElem?_eq_none (by simp; omega)]
    rfl

/-- The first and the last minor step counts (R321: both ends are among the points). -/
theorem minorSteps_zero (dx dy : Int) (h : 0 ≤ dx) : minorSteps dx dy 0 = 0 := by
  rw [minorSteps]
  rcases eq_or_lt_of_le h with h | h
  · simp [← h]
  · rw [Int.ediv_eq_zero_of_lt] <;> simp <;> omega

theorem minorSteps_last (dx dy : Int) (h : 0 ≤ dy) (h' : dy ≤ dx) : minorSteps dx dy dx.toNat = dy := by
  rw [minorSteps, Int.toNat_of_nonneg (by omega)]
  rcases eq_or_lt_of_le (h.trans h') with h0 | h0
  · have : dy = 0 := by omega
    simp [← h0, this]
  · rw [show dx * dy + dx - 1 - dx / 2 = (dx - 1 - dx / 2) + dy * dx by ring, Int.add_mul_ediv_right _ _ (by omega),
      Int.ediv_eq_zero_of_lt (by omega) (by omega), zero_add]

/-- From point to point the minor coordinate moves by at most one step. -/
theorem minorSteps_succ (dx dy : Int) (h : 0 ≤ dy) (h' : dy ≤ dx) (i : Nat) :
    minorSteps dx dy i ≤ minorSteps dx dy (i + 1) ∧ minorSteps dx dy (i + 1) ≤ minorSteps dx dy i + 1 := by
  rw [minorSteps, minorSteps]
  rcases eq_or_lt_of_le (h.trans h') with h0 | h0
  · simp [← h0]
  · push_cast
    constructor
    · apply Int.ediv_le_ediv h0
      nlinarith
    · rw [← Int.add_mul_ediv_right _ 1 (by omega : dx ≠ 0)]
      apply Int.ediv_le_ediv h0
      nlinarith

/-- A line that is not steep, rising along x, in closed form (R320). -/
theorem linePoints_shallow {x0 y0 x1 y1 : Int} (h : |y1 - y0| ≤ x1 - x0) :
    linePoints x0 y0 x1 y1 = (List.range ((x1 - x0).toNat + 1)).map fun i : Nat =>
      (x0 + (i : Int), y0 + (if y0 < y1 then 1 else -1) * minorSteps (x1 - x0) |y1 - y0| i) := by
  have h0 := abs_nonneg (y1 - y0)
  have h1 : |x1 - x0| = x1 - x0 := abs_of_nonneg (by omega)
  rw [linePoints, h1, if_neg (by omega), lineOrdered, if_neg (by omega), lineMajor_eq _ _ _ _ h]

/-- A steep line, rising along y, in closed form (R320). -/
theorem linePoints_steep {x0 y0 x1 y1 : Int} (h : |x1 - x0| < y1 - y0) :
    linePoints x0 y0 x1 y1 = (List.range ((y1 - y0).toNat + 1)).map fun i : Nat =>
      (x0 + (if x0 < x1 then 1 else -1) * minorSteps (y1 - y0) |x1 - x0| i, y0 + (i : Int)) := by
  have h0 := abs_nonneg (x1 - x0)
  have h1 : |y1 - y0| = y1 - y0 := abs_of_nonneg (by omega)
  rw [linePoints, h1, if_pos h, lineOrdered, if_neg (by omega), lineMajor_eq _ _ _ _ (by omega), List.map_map]
  rfl

/-- The other way round it is the same list (R321). -/
theorem linePoints_comm (x0 y0 x1 y1 : Int) : linePoints x1 y1 x0 y0 = linePoints x0 y0 x1 y1 := by
  simp only [linePoints, abs_sub_comm x0 x1, abs_sub_comm y0 y1]
  have hord : ∀ a b c d : Int, |d - b| ≤ |c - a| → lineOrdered c d a b = lineOrdered a b c d := by
    intro a b c d hle
    simp only [lineOrdered]
    rcases lt_trichotomy a c with h | h | h
    · rw [if_pos h, if_neg (by omega)]
    · subst h
      have : d = b := by
        have : d - b = 0 := by simpa using hle
        omega
      subst this
      rfl
    · rw [if_neg (by omega), if_pos h]
  split
  · rw [hord]; omega
  · rw [hord]; omega

/-- The minor coordinate ends at the far end. -/
theorem minor_end (y0 y1 : Int) : y0 + (if y0 < y1 then 1 else -1) * |y1 - y0| = y1 := by
  split
  · rw [abs_of_nonneg (by omega)]; omega
  · rw [abs_of_nonpos (by omega)]; omega

/-! ## Text -/

/-- A call of a glyph: bit (i, j) and its colour; none for a 0 bit when transparent. -/
theorem mem_glyphPlots {c : Config} {x y : Int} {ch : Byte} {fg bg : Word} {transp : Bool} {p : Plot} :
    p ∈ glyphPlots c x y ch fg bg transp ↔ ∃ i j, i < c.glyphW ∧ j < c.glyphH ∧
      (fontBit c ch j i = true ∨ transp = false) ∧ p = ⟨x + (i : Int), y + (j : Int), if fontBit c ch j i then fg else bg⟩ := by
  simp only [glyphPlots, List.mem_flatMap, List.mem_range]
  constructor
  · rintro ⟨j, hj, i, hi, hp⟩
    refine ⟨i, j, hi, hj, ?_⟩
    cases hf : fontBit c ch j i <;> cases transp <;> simp_all
  · rintro ⟨i, j, hi, hj, hf, rfl⟩
    refine ⟨j, hj, i, hi, ?_⟩
    cases hb : fontBit c ch j i <;> cases transp <;> simp_all

/-- No two calls of a glyph are for one point. -/
theorem glyphPlots_distinct (c : Config) (x y : Int) (ch : Byte) (fg bg : Word) (transp : Bool) :
    (glyphPlots c x y ch fg bg transp).Pairwise fun p p' => (p.x, p.y) ≠ (p'.x, p'.y) := by
  rw [glyphPlots, List.pairwise_flatMap]
  refine ⟨fun j _ => ?_, ?_⟩
  · rw [List.pairwise_flatMap]
    refine ⟨fun i _ => ?_, ?_⟩
    · split
      · simp
      · split <;> simp
    · refine List.Pairwise.imp ?_ (List.nodup_range)
      intro i i' hne p hp p' hp' h
      have h1 : p.x = x + (i : Int) := by split at hp <;> (try split at hp) <;> simp_all
      have h2 : p'.x = x + (i' : Int) := by split at hp' <;> (try split at hp') <;> simp_all
      simp only [Prod.mk.injEq] at h
      omega
  · refine List.Pairwise.imp ?_ (List.nodup_range)
    intro j j' hne p hp p' hp' h
    obtain ⟨i, -, hp⟩ := List.mem_flatMap.mp hp
    obtain ⟨i', -, hp'⟩ := List.mem_flatMap.mp hp'
    have h1 : p.y = y + (j : Int) := by split at hp <;> (try split at hp) <;> simp_all
    have h2 : p'.y = y + (j' : Int) := by split at hp' <;> (try split at hp') <;> simp_all
    simp only [Prod.mk.injEq] at h
    omega

/-- The calls of a string, glyph by glyph (45_text.md R362). -/
theorem textPlots_eq (c : Config) (y : Int) (fg bg : Word) (transp : Bool) (x : Int) (chars : List Byte) (k : Nat) :
    textPlots c y fg bg transp (x + (k : Int) * c.advance) chars =
      (chars.zipIdx k).flatMap fun p => glyphPlots c (x + (p.2 : Int) * c.advance) y p.1 fg bg transp := by
  induction chars generalizing k with
  | nil => rfl
  | cons ch rest ih =>
    rw [textPlots, List.zipIdx_cons, List.flatMap_cons, ← ih (k + 1)]
    congr 2
    push_cast
    ring

end Sys2Proof.Machine
end

