-- ==== Sys2Proof/Laws/Fb.lean ====
section
/-! SUPPORT. What the flush does, said once: to one cell, and to the whole grid (44_framebuffer.md R340). -/

namespace Sys2Proof.Machine

theorem cellPixels_eq (c : Config) (gx gy : Nat) :
    cellPixels c gx gy = windowPixels .rowMajor (gx * c.cellW) (gy * c.cellH) c.cellW c.cellH := rfl

theorem cellSendOrder_eq (c : Config) (gx gy : Nat) :
    cellSendOrder c gx gy = windowPixels c.pixelOrder (gx * c.cellW) (gy * c.cellH) c.cellW c.cellH := by
  rw [cellSendOrder]
  cases c.pixelOrder <;> rfl

/-- The pixels of a cell (20_memory.md R82). -/
theorem mem_cellPixels (c : Config) (gx gy : Nat) (q : Nat × Nat) :
    q ∈ cellPixels c gx gy ↔
      (gx * c.cellW ≤ q.1 ∧ q.1 < gx * c.cellW + c.cellW) ∧ (gy * c.cellH ≤ q.2 ∧ q.2 < gy * c.cellH + c.cellH) := by
  rw [cellPixels_eq]
  exact mem_windowPixels _ _ _ _ _ _

theorem mem_cellsInOrder (c : Config) (g : Nat × Nat) : g ∈ cellsInOrder c ↔ g.1 < c.gridW ∧ g.2 < c.gridH := by
  obtain ⟨gx, gy⟩ := g
  simp only [cellsInOrder, List.mem_flatMap, List.mem_map, List.mem_range, Prod.mk.injEq]
  constructor
  · rintro ⟨y, hy, x, hx, rfl, rfl⟩
    exact ⟨hx, hy⟩
  · rintro ⟨hx, hy⟩
    exact ⟨gy, hy, gx, hx, rfl, rfl⟩

theorem cellsInOrder_eq (c : Config) : cellsInOrder c = windowPixels .rowMajor 0 0 c.gridW c.gridH := by
  simp [cellsInOrder, windowPixels, List.range_eq_range']

theorem cellsInOrder_nodup (c : Config) : (cellsInOrder c).Nodup := by
  rw [cellsInOrder_eq]
  exact windowPixels_nodup _ _ _ _ _

theorem cellsInOrder_length (c : Config) : (cellsInOrder c).length = c.cells := by
  rw [cellsInOrder_eq, windowPixels_length]
  rfl

/-- The pixels of a cell of the grid lie in the Frame, and the cell is theirs (R82). -/
theorem cellPixels_mem (b : Board) {g q : Nat × Nat} (hg : g.1 < b.val.gridW ∧ g.2 < b.val.gridH)
    (hq : q ∈ cellPixels b.val g.1 g.2) :
    (q.1 < b.val.width ∧ q.2 < b.val.height) ∧ q.1 / b.val.cellW = g.1 ∧ q.2 / b.val.cellH = g.2 := by
  obtain ⟨⟨h1, h2⟩, h3, h4⟩ := (mem_cellPixels _ _ _ _).mp hq
  have hw := board_width_eq b
  have hh := board_height_eq b
  have hcw := (board_cellW b).1
  have hch := (board_cellH b).1
  have hx : (g.1 + 1) * b.val.cellW ≤ b.val.gridW * b.val.cellW := Nat.mul_le_mul_right _ hg.1
  have hy : (g.2 + 1) * b.val.cellH ≤ b.val.gridH * b.val.cellH := Nat.mul_le_mul_right _ hg.2
  rw [Nat.add_mul] at hx hy
  refine ⟨⟨by omega, by omega⟩, ?_, ?_⟩
  · exact Nat.div_eq_of_lt_le h1 (by rw [Nat.add_mul]; omega)
  · exact Nat.div_eq_of_lt_le h3 (by rw [Nat.add_mul]; omega)

theorem cellOf_of_mem (b : Board) {g q : Nat × Nat} (hg : g.1 < b.val.gridW ∧ g.2 < b.val.gridH)
    (hq : q ∈ cellPixels b.val g.1 g.2) : cellOf b.val q.1 q.2 = g.2 * b.val.gridW + g.1 := by
  obtain ⟨-, h1, h2⟩ := cellPixels_mem b hg hq
  rw [cellOf, h1, h2]

/-- Every pixel of the Frame lies in its cell (R82). -/
theorem mem_own_cell (b : Board) (x y : Nat) : (x, y) ∈ cellPixels b.val (x / b.val.cellW) (y / b.val.cellH) := by
  rw [mem_cellPixels]
  have h1 := Nat.div_add_mod x b.val.cellW
  have h2 := Nat.mod_lt x (board_cellW b).1
  have h3 := Nat.div_add_mod y b.val.cellH
  have h4 := Nat.mod_lt y (board_cellH b).1
  rw [Nat.mul_comm] at h1 h3
  simp only
  omega

/-! ## One cell -/

theorem copyLoop (qs : List (Nat × Nat)) (s : State) :
    (qs.foldl (fun s q => s.setBaseline (idx s.par q.1 q.2) (s.frameAt (idx s.par q.1 q.2))) s) =
      { s with baseline := (qs.foldl (fun s q => s.setBaseline (idx s.par q.1 q.2) (s.frameAt (idx s.par q.1 q.2))) s).baseline } ∧
    ∀ p, (qs.foldl (fun s q => s.setBaseline (idx s.par q.1 q.2) (s.frameAt (idx s.par q.1 q.2))) s).baselineAt p =
      if ∃ q ∈ qs, idx s.par q.1 q.2 = p then s.frameAt p else s.baselineAt p := by
  induction qs generalizing s with
  | nil => exact ⟨rfl, fun p => by simp⟩
  | cons q qs ih =>
    rw [List.foldl_cons]
    obtain ⟨h1, h2⟩ := ih (s.setBaseline (idx s.par q.1 q.2) (s.frameAt (idx s.par q.1 q.2)))
    refine ⟨h1, fun p => ?_⟩
    rw [h2 p]
    simp only [setBaseline_par, frameAt_setBaseline, baselineAt_setBaseline, List.mem_cons, exists_eq_or_imp]
    by_cases hq : idx s.par q.1 q.2 = p
    · by_cases hr : ∃ q' ∈ qs, idx s.par q'.1 q'.2 = p <;> simp [hq, hr]
    · by_cases hr : ∃ q' ∈ qs, idx s.par q'.1 q'.2 = p
      · simp [hr]
      · simp [hq, hr, Ne.symm hq]

/-- The copy of a cell into Baseline (R340). -/
theorem copyCell_only (gx gy : Nat) (s : State) : copyCell gx gy s = { s with baseline := (copyCell gx gy s).baseline } :=
  (copyLoop (cellPixels s.par gx gy) s).1

theorem baselineAt_copyCell (gx gy : Nat) (s : State) (p : Nat) :
    (copyCell gx gy s).baselineAt p =
      if ∃ q ∈ cellPixels s.par gx gy, idx s.par q.1 q.2 = p then s.frameAt p else s.baselineAt p :=
  (copyLoop (cellPixels s.par gx gy) s).2 p

theorem cellWords_length (s : State) (gx gy : Nat) : (cellWords s gx gy).length = s.par.cellW * s.par.cellH := by
  rw [cellWords, List.length_map, cellSendOrder_eq, windowPixels_length]

theorem cellWords_ne_nil (s : State) (gx gy : Nat) : cellWords s gx gy ≠ [] := by
  have h := cellWords_length s gx gy
  have h1 : 1 ≤ s.par.cellW := (board_cellW s.cfg).1
  have h2 : 1 ≤ s.par.cellH := (board_cellH s.cfg).1
  intro hn
  rw [hn] at h
  have : 0 < s.par.cellW * s.par.cellH := Nat.mul_pos h1 h2
  rw [List.length_nil] at h
  omega

/-- A sent cell: its six frames, its Baseline and its Stale flag (R340). -/
theorem sendCell_eq (gx gy : Nat) (s : State) :
    sendCell gx gy s = { s with
      dcLine := .data, csLine := .off, trace := s.trace ++ cellEvents s (gx, gy),
      baseline := (copyCell gx gy s).baseline,
      stale := (s.setStale (gy * s.par.gridW + gx) false).stale } := by
  have hw := sendDataWords_eq (cellWords_ne_nil s gx gy)
  have hcopy : ∀ (u : State), u.par = s.par → u.frame = s.frame → u.baseline = s.baseline →
      copyCell gx gy u = { u with baseline := (copyCell gx gy s).baseline } := by
    intro u h1 h2 h3
    have : ∀ (qs : List (Nat × Nat)) (u s : State), u.par = s.par → u.frame = s.frame → u.baseline = s.baseline →
        (qs.foldl (fun s q => s.setBaseline (idx s.par q.1 q.2) (s.frameAt (idx s.par q.1 q.2))) u).baseline =
        (qs.foldl (fun s q => s.setBaseline (idx s.par q.1 q.2) (s.frameAt (idx s.par q.1 q.2))) s).baseline := by
      intro qs
      induction qs with
      | nil => exact fun u s _ _ h => h
      | cons q qs ih =>
        intro u s h1 h2 h3
        rw [List.foldl_cons, List.foldl_cons]
        refine ih _ _ h1 h2 ?_
        simp only [setBaseline_baseline, State.frameAt, h1, h2, h3]
    rw [copyCell_only]
    congr 1
    rw [copyCell, copyCell, h1]
    exact this _ u s h1 h2 h3
  let u : State := { s with dcLine := .data, csLine := .off, trace := s.trace ++ cellEvents s (gx, gy) }
  have hu : sendDataWords (cellWords s gx gy) (setWindow (wordOfNat (gx * s.par.cellW)) (wordOfNat (gy * s.par.cellH))
      (wordOfNat (gx * s.par.cellW + s.par.cellW - 1)) (wordOfNat (gy * s.par.cellH + s.par.cellH - 1)) s) = u := by
    rw [setWindow_eq, hw]
    simp [u, cellEvents]
  show (copyCell gx gy (sendDataWords (cellWords s gx gy) (setWindow _ _ _ _ s))).setStale _ false = _
  rw [hu, hcopy u rfl rfl rfl]
  rfl

theorem cellDiffers_iff (s : State) (gx gy : Nat) : cellDiffers s gx gy = true ↔
    ∃ q ∈ cellPixels s.par gx gy, s.frameAt (idx s.par q.1 q.2) ≠ s.baselineAt (idx s.par q.1 q.2) := by
  simp [cellDiffers, List.any_eq_true]

/-- When a cell is sent (R340). -/
theorem cellMustGo_iff (s : State) (gx gy : Nat) : cellMustGo s gx gy = true ↔
    s.dirtyAt (gy * s.par.gridW + gx) = true ∧ (s.staleAt (gy * s.par.gridW + gx) = true ∨
      ∃ q ∈ cellPixels s.par gx gy, s.frameAt (idx s.par q.1 q.2) ≠ s.baselineAt (idx s.par q.1 q.2)) := by
  rw [← cellDiffers_iff]
  simp [cellMustGo]

/-! ## The whole grid -/

/-- The number of a cell. -/
def cellNo (c : Config) (g : Nat × Nat) : Nat := g.2 * c.gridW + g.1

/-- The cells of a list that a flush sends. -/
def sentOf (s : State) (gs : List (Nat × Nat)) : List (Nat × Nat) := gs.filter fun g => cellMustGo s g.1 g.2

/-- What a flush of the cells `gs` makes of s, NSENT counted from n. -/
def Flushed (s : State) (gs : List (Nat × Nat)) (t : State) : Prop :=
  t = { s with dcLine := t.dcLine, csLine := t.csLine, baseline := t.baseline, dirty := t.dirty, stale := t.stale,
               trace := s.trace ++ (sentOf s gs).flatMap (cellEvents s) } ∧
  (t.dcLine = if sentOf s gs = [] then s.dcLine else .data) ∧
  (t.csLine = if sentOf s gs = [] then s.csLine else .off) ∧
  (∀ k, t.dirtyAt k = if k ∈ gs.map (cellNo s.par) then false else s.dirtyAt k) ∧
  (∀ k, t.staleAt k = if k ∈ (sentOf s gs).map (cellNo s.par) then false else s.staleAt k) ∧
  ∀ p, t.baselineAt p =
    if ∃ g ∈ sentOf s gs, ∃ q ∈ cellPixels s.par g.1 g.2, idx s.par q.1 q.2 = p then s.frameAt p else s.baselineAt p

/-- One cell of the flush loop. -/
theorem flushCell_flushed (s : State) (n : Nat) (g : Nat × Nat) :
    Flushed s [g] (flushCell (s, n) g).1 ∧ (flushCell (s, n) g).2 = n + (sentOf s [g]).length := by
  by_cases h : cellMustGo s g.1 g.2 = true
  · have hsent : sentOf s [g] = [g] := by simp [sentOf, h]
    rw [flushCell, Flushed, hsent]
    simp only [h, if_true, List.length_singleton, and_true]
    rw [sendCell_eq]
    refine ⟨?_, rfl, rfl, fun k => ?_, fun k => ?_, fun p => ?_⟩
    · simp [State.setDirty]
    · simp only [dirtyAt_setDirty, List.map_cons, List.map_nil, List.mem_singleton, cellNo, State.par]
      rfl
    · simp only [staleAt_setDirty, List.map_cons, List.map_nil, List.mem_singleton, cellNo]
      exact staleAt_setStale s _ k false
    · simp only [baselineAt_setDirty, List.mem_singleton, exists_eq_left]
      exact baselineAt_copyCell g.1 g.2 s p
  · have hsent : sentOf s [g] = [] := by simp [sentOf, h]
    have hcell : flushCell (s, n) g = (s.setDirty (cellNo s.par g) false, n) := if_neg h
    rw [hcell, Flushed, hsent]
    refine ⟨⟨?_, rfl, rfl, fun k => ?_, fun k => ?_, fun p => ?_⟩, rfl⟩
    · simp [State.setDirty]
    · simp
    · simp
    · simp

theorem cellNo_inj (c : Config) {g g' : Nat × Nat} (hg : g.1 < c.gridW) (hg' : g'.1 < c.gridW)
    (h : cellNo c g = cellNo c g') : g = g' := Prod.ext (cell_inj c hg hg' h).1 (cell_inj c hg hg' h).2

/-- Two cells of the grid share no pixel. -/
theorem cells_disjoint (b : Board) {g g' q q' : Nat × Nat} (hg : g.1 < b.val.gridW ∧ g.2 < b.val.gridH)
    (hg' : g'.1 < b.val.gridW ∧ g'.2 < b.val.gridH) (hq : q ∈ cellPixels b.val g.1 g.2)
    (hq' : q' ∈ cellPixels b.val g'.1 g'.2) (h : idx b.val q.1 q.2 = idx b.val q'.1 q'.2) : g = g' := by
  obtain ⟨hin, h1, h2⟩ := cellPixels_mem b hg hq
  obtain ⟨hin', h1', h2'⟩ := cellPixels_mem b hg' hq'
  obtain ⟨hx, hy⟩ := idx_inj b.val hin.1 hin'.1 h
  rw [hx] at h1
  rw [hy] at h2
  exact Prod.ext (h1.symm.trans h1') (h2.symm.trans h2')

/-- Flushing one cell changes nothing that another cell's turn reads. -/
theorem Flushed.other {s t : State} {g g' : Nat × Nat} (h : Flushed s [g] t)
    (hg : g.1 < s.par.gridW ∧ g.2 < s.par.gridH) (hg' : g'.1 < s.par.gridW ∧ g'.2 < s.par.gridH) (hne : g' ≠ g) :
    cellMustGo t g'.1 g'.2 = cellMustGo s g'.1 g'.2 ∧ cellEvents t g' = cellEvents s g' := by
  obtain ⟨ht, -, -, hd, hs, hb⟩ := h
  have hpar : t.par = s.par := by rw [ht]; rfl
  have hframe : ∀ p, t.frameAt p = s.frameAt p := fun p => by rw [ht]; rfl
  have hk : cellNo s.par g' ≠ cellNo s.par g := fun h => hne (cellNo_inj s.par hg'.1 hg.1 h)
  have hdirty : t.dirtyAt (cellNo s.par g') = s.dirtyAt (cellNo s.par g') := by
    rw [hd, if_neg]
    simpa using hk
  have hstale : t.staleAt (cellNo s.par g') = s.staleAt (cellNo s.par g') := by
    rw [hs, if_neg]
    intro hm
    obtain ⟨g2, hg2, hkk⟩ := List.mem_map.mp hm
    have : g2 = g := by simpa using List.mem_of_mem_filter hg2
    exact hk (by rw [← hkk, this])
  have hbase : ∀ q ∈ cellPixels s.par g'.1 g'.2, t.baselineAt (idx s.par q.1 q.2) = s.baselineAt (idx s.par q.1 q.2) := by
    intro q hq
    rw [hb, if_neg]
    rintro ⟨g2, hg2, q2, hq2, hi⟩
    have : g2 = g := by simpa using List.mem_of_mem_filter hg2
    subst this
    exact hne (cells_disjoint s.cfg hg' hg hq hq2 hi.symm)
  refine ⟨?_, ?_⟩
  · have hdif : cellDiffers t g'.1 g'.2 = cellDiffers s g'.1 g'.2 := by
      rw [Bool.eq_iff_iff, cellDiffers_iff, cellDiffers_iff, hpar]
      constructor
      · rintro ⟨q, hq, h⟩
        exact ⟨q, hq, by rwa [hframe, hbase q hq] at h⟩
      · rintro ⟨q, hq, h⟩
        exact ⟨q, hq, by rwa [hframe, hbase q hq]⟩
    simp only [cellMustGo, hdif, hpar]
    rw [show g'.2 * s.par.gridW + g'.1 = cellNo s.par g' from rfl, hdirty, hstale]
  · simp only [cellEvents, cellWords, hpar, hframe]

/-- The loop of FB.FLUSH over cells of the grid, none of which comes twice (R340). -/
theorem flushLoop (gs : List (Nat × Nat)) (s : State) (n : Nat) (hnd : gs.Nodup)
    (hgs : ∀ g ∈ gs, g.1 < s.par.gridW ∧ g.2 < s.par.gridH) :
    Flushed s gs (gs.foldl flushCell (s, n)).1 ∧ (gs.foldl flushCell (s, n)).2 = n + (sentOf s gs).length := by
  induction gs generalizing s n with
  | nil =>
    refine ⟨⟨by simp [sentOf], rfl, rfl, fun k => by simp, fun k => by simp [sentOf], fun p => by simp [sentOf]⟩, by simp [sentOf]⟩
  | cons g gs ih =>
    obtain ⟨hnd1, hnd2⟩ := List.nodup_cons.mp hnd
    obtain ⟨h1, hn1⟩ := flushCell_flushed s n g
    have hg := hgs g (by simp)
    rw [List.foldl_cons]
    rw [show flushCell (s, n) g = ((flushCell (s, n) g).1, (flushCell (s, n) g).2) from rfl]
    generalize (flushCell (s, n) g).1 = t at h1
    generalize (flushCell (s, n) g).2 = m at hn1
    have hpar : t.par = s.par := by rw [h1.1]; rfl
    have hframe : ∀ p, t.frameAt p = s.frameAt p := fun p => by rw [h1.1]; rfl
    obtain ⟨h2, hn2⟩ := ih t m hnd2 (fun g' hg' => by rw [hpar]; exact hgs g' (by simp [hg']))
    have hoth : ∀ g' ∈ gs, cellMustGo t g'.1 g'.2 = cellMustGo s g'.1 g'.2 ∧ cellEvents t g' = cellEvents s g' :=
      fun g' hg' => h1.other hg (hgs g' (by simp [hg'])) fun h => hnd1 (h ▸ hg')
    have hsent : sentOf t gs = sentOf s gs := List.filter_congr fun g' hg' => (hoth g' hg').1
    have hsplit : sentOf s (g :: gs) = sentOf s [g] ++ sentOf s gs := by
      rw [sentOf, sentOf, sentOf, ← List.filter_append]
      rfl
    have hev : (sentOf s gs).flatMap (cellEvents t) = (sentOf s gs).flatMap (cellEvents s) := by
      rw [List.flatMap_def, List.flatMap_def]
      congr 1
      exact List.map_congr_left fun g' hg' => (hoth g' (List.mem_of_mem_filter hg')).2
    refine ⟨?_, by rw [hn2, hn1, hsent, hsplit, List.length_append, Nat.add_assoc]⟩
    generalize (gs.foldl flushCell (t, m)).1 = u at h2
    obtain ⟨hu, hdc, hcs, hd, hs, hb⟩ := h2
    obtain ⟨ht, hdc1, hcs1, hd1, hs1, hb1⟩ := h1
    rw [hsent] at hdc hcs hs hb hu
    refine ⟨?_, ?_, ?_, fun k => ?_, fun k => ?_, fun p => ?_⟩
    · have htr : t.trace = s.trace ++ (sentOf s [g]).flatMap (cellEvents s) := by rw [ht]
      rw [hev, htr, List.append_assoc, ← List.flatMap_append, ← hsplit] at hu
      have : ∀ a b c d e f, ({ t with dcLine := a, csLine := b, baseline := c, dirty := d, stale := e, trace := f } : State) =
          { s with dcLine := a, csLine := b, baseline := c, dirty := d, stale := e, trace := f } := by
        intro a b c d e f
        rw [ht]
      rw [this] at hu
      exact hu
    · rw [hdc, hdc1, hsplit]
      by_cases h1 : sentOf s [g] = [] <;> by_cases h2 : sentOf s gs = [] <;> simp [h1, h2]
    · rw [hcs, hcs1, hsplit]
      by_cases h1 : sentOf s [g] = [] <;> by_cases h2 : sentOf s gs = [] <;> simp [h1, h2]
    · rw [hd, hd1, hpar, List.map_cons]
      by_cases h1 : k = cellNo s.par g <;> by_cases h2 : k ∈ gs.map (cellNo s.par) <;> simp [h1, h2]
    · rw [hs, hs1, hpar, hsplit, List.map_append]
      by_cases h1 : k ∈ (sentOf s [g]).map (cellNo s.par) <;> by_cases h2 : k ∈ (sentOf s gs).map (cellNo s.par) <;>
        simp only [h1, h2, List.mem_append, if_true, if_false, or_true, or_false]
    · rw [hb, hb1, hpar, hframe, hsplit]
      have hiff : (∃ g' ∈ sentOf s [g] ++ sentOf s gs, ∃ q ∈ cellPixels s.par g'.1 g'.2, idx s.par q.1 q.2 = p) ↔
          (∃ g' ∈ sentOf s [g], ∃ q ∈ cellPixels s.par g'.1 g'.2, idx s.par q.1 q.2 = p) ∨
          (∃ g' ∈ sentOf s gs, ∃ q ∈ cellPixels s.par g'.1 g'.2, idx s.par q.1 q.2 = p) := by
        simp only [List.mem_append, or_and_right, exists_or]
      by_cases h1 : ∃ g' ∈ sentOf s [g], ∃ q ∈ cellPixels s.par g'.1 g'.2, idx s.par q.1 q.2 = p
      · by_cases h2 : ∃ g' ∈ sentOf s gs, ∃ q ∈ cellPixels s.par g'.1 g'.2, idx s.par q.1 q.2 = p
        · rw [if_pos h2, if_pos (hiff.mpr (.inl h1))]
        · rw [if_neg h2, if_pos h1, if_pos (hiff.mpr (.inl h1))]
      · by_cases h2 : ∃ g' ∈ sentOf s gs, ∃ q ∈ cellPixels s.par g'.1 g'.2, idx s.par q.1 q.2 = p
        · rw [if_pos h2, if_pos (hiff.mpr (.inr h2))]
        · rw [if_neg h2, if_neg h1, if_neg (fun h => (hiff.mp h).elim h1 h2)]

/-- The loop of FB.FLUSH (R340). -/
theorem flushAll_spec (s : State) :
    Flushed s (cellsInOrder s.par) (flushAll s).1 ∧ (flushAll s).2 = (sentOf s (cellsInOrder s.par)).length := by
  have := flushLoop (cellsInOrder s.par) s 0 (cellsInOrder_nodup _) fun g hg => (mem_cellsInOrder _ g).mp hg
  rw [Nat.zero_add] at this
  exact this

end Sys2Proof.Machine
end

