-- ==== Sys2Proof/Laws/PerInstr.lean ====
section
/-! SUPPORT. Statements for all commands, one lemma per command. -/

namespace Sys2Proof.Laws.EncodeLen

/-- The operand words of a well-formed command fit the LEN word, and their number is the LEN its opcode requires
(30_encoding.md R113-R115, R117; 92_eei_decisions.md D58). -/
def Statement (i : Instr) : Prop :=
  i.wf = true → i.operands.length ≤ 65535 ∧ i.opcode.requiredLen i.operands = some i.operands.length

/-- A count of bytes packs into at most half as many words, rounded up. -/
theorem ceilHalf_le (n : Word) : ceilHalf n.toNat ≤ 32768 := by
  have := n.isLt
  unfold ceilHalf
  omega

theorem pixPack (r g b : Word) : Statement (.pixPack r g b) :=
  fun _ => ⟨by simp [Instr.operands], rfl⟩

theorem pixUnpack (c : Word) : Statement (.pixUnpack c) :=
  fun _ => ⟨by simp [Instr.operands], rfl⟩

theorem busInit : Statement .busInit :=
  fun _ => ⟨by simp [Instr.operands], rfl⟩

theorem busWrite (hold : Bool) (a n : Word) (data : List Word) : Statement (.busWrite hold a n data) := by
  intro h
  have hl : data.length = ceilHalf n.toNat := by simpa [Instr.wf] using h
  have := ceilHalf_le n
  simp [Instr.operands, Instr.opcode, Opcode.requiredLen]
  omega

theorem busRead (hold : Bool) (a n : Word) : Statement (.busRead hold a n) :=
  fun _ => ⟨by simp [Instr.operands], rfl⟩

theorem regReadw (a start count : Word) : Statement (.regReadw a start count) :=
  fun _ => ⟨by simp [Instr.operands], rfl⟩

theorem regWritew (a addr value : Word) : Statement (.regWritew a addr value) :=
  fun _ => ⟨by simp [Instr.operands], rfl⟩

theorem dlInit : Statement .dlInit :=
  fun _ => ⟨by simp [Instr.operands], rfl⟩

theorem dlCmd (code : Word) : Statement (.dlCmd code) :=
  fun _ => ⟨by simp [Instr.operands], rfl⟩

theorem dlData (n : Word) (data : List Word) : Statement (.dlData n data) := by
  intro h
  have hl : data.length = ceilHalf n.toNat := by simpa [Instr.wf] using h
  have := ceilHalf_le n
  simp [Instr.operands, Instr.opcode, Opcode.requiredLen]
  omega

theorem dlWords (n : Word) (words : List Word) : Statement (.dlWords n words) := by
  intro h
  have hl : words.length = n.toNat ∧ n.toNat ≤ 65534 := by simpa [Instr.wf] using h
  simp [Instr.operands, Instr.opcode, Opcode.requiredLen]
  omega

theorem dlWindow (x0 y0 x1 y1 : Word) : Statement (.dlWindow x0 y0 x1 y1) :=
  fun _ => ⟨by simp [Instr.operands], rfl⟩

theorem fbPixel (x y c : Word) : Statement (.fbPixel x y c) :=
  fun _ => ⟨by simp [Instr.operands], rfl⟩

theorem fbGetpixel (x y : Word) : Statement (.fbGetpixel x y) :=
  fun _ => ⟨by simp [Instr.operands], rfl⟩

theorem fbRect (x0 y0 x1 y1 c : Word) : Statement (.fbRect x0 y0 x1 y1 c) :=
  fun _ => ⟨by simp [Instr.operands], rfl⟩

theorem fbLine (x0 y0 x1 y1 c : Word) : Statement (.fbLine x0 y0 x1 y1 c) :=
  fun _ => ⟨by simp [Instr.operands], rfl⟩

theorem fbCircle (cx cy r c : Word) : Statement (.fbCircle cx cy r c) :=
  fun _ => ⟨by simp [Instr.operands], rfl⟩

theorem fbFlush : Statement .fbFlush :=
  fun _ => ⟨by simp [Instr.operands], rfl⟩

theorem fbChar (transp : Bool) (x y ch fg bg : Word) : Statement (.fbChar transp x y ch fg bg) :=
  fun _ => ⟨by simp [Instr.operands], rfl⟩

theorem fbText (transp : Bool) (x y fg bg n : Word) (chars : List Word) : Statement (.fbText transp x y fg bg n chars) := by
  intro h
  have hl : chars.length = ceilHalf n.toNat := by simpa [Instr.wf] using h
  have := ceilHalf_le n
  simp [Instr.operands, Instr.opcode, Opcode.requiredLen]
  omega

theorem mapConfig (ax ay bx byy : Word) : Statement (.mapConfig ax ay bx byy) :=
  fun _ => ⟨by simp [Instr.operands], rfl⟩

theorem mapPoint (row col : Word) : Statement (.mapPoint row col) :=
  fun _ => ⟨by simp [Instr.operands], rfl⟩

end Sys2Proof.Laws.EncodeLen
end

