-- ==== Sys2Proof/Laws/Scripted.lean ====
section
/-! SUPPORT. The bus against scripted answers: an agent that answers as a condensed trace says makes the transaction give
exactly that trace (41_transport.md R185, R200). -/

namespace Sys2Proof.Machine

/-- s after the bus emitted `es` and took n answers, the script now being `rest`. -/
def State.wired (scl sda : Drive) (es : List Event) (rest : List Bool) (n : Nat) (s : State) : State :=
  { s with sclDrv := scl, sdaDrv := sda, trace := s.trace ++ es, sensor := .oracle rest, drawn := s.drawn + n }

@[simp] theorem wired_wired (a b c d : Drive) (es fs : List Event) (l r : List Bool) (n m : Nat) (s : State) :
    (s.wired a b es l n).wired c d fs r m = s.wired c d (es ++ fs) r (n + m) := by
  simp [State.wired, Nat.add_assoc]

@[simp] theorem wired_sensor (a b : Drive) (es : List Event) (l : List Bool) (n : Nat) (s : State) :
    (s.wired a b es l n).sensor = .oracle l := rfl

@[simp] theorem wired_sclDrv (a b : Drive) (es : List Event) (l : List Bool) (n : Nat) (s : State) :
    (s.wired a b es l n).sclDrv = a := rfl

@[simp] theorem wired_sdaDrv (a b : Drive) (es : List Event) (l : List Bool) (n : Nat) (s : State) :
    (s.wired a b es l n).sdaDrv = b := rfl

@[simp] theorem wired_busInit (a b : Drive) (es : List Event) (l : List Bool) (n : Nat) (s : State) :
    (s.wired a b es l n).busInit = s.busInit := rfl

@[simp] theorem wired_par (a b : Drive) (es : List Event) (l : List Bool) (n : Nat) (s : State) :
    (s.wired a b es l n).par = s.par := rfl

variable {s : State} {rest : List Bool}

/-- Nothing emitted and nothing drawn. -/
theorem wired_self {a b : Drive} (ha : s.sclDrv = a) (hb : s.sdaDrv = b) (h : s.sensor = .oracle rest) :
    s.wired a b [] rest 0 = s := by
  subst ha hb
  simp only [State.wired, List.append_nil, Nat.add_zero, ← h]

@[simp] theorem wrote_answers_length (v : Byte) (nack : Bool) : (BusToken.wrote v nack).answers.length = 10 := rfl

@[simp] theorem got_answers_length (v : Byte) (ack : Option Bool) :
    (BusToken.got v ack).answers.length = 16 + if ack.isSome then 1 else 0 := by
  cases ack <;> rfl

@[simp] theorem start_answers_length : BusToken.start.answers.length = 2 := rfl

@[simp] theorem stop_answers_length : BusToken.stop.answers.length = 1 := rfl

theorem sdaLow_wired (h : s.sensor = .oracle rest) : sdaLow s = s.wired s.sclDrv .low [.sdaLo] rest 0 := by
  simp [sdaLow, State.emit, State.wired, h, Sensor.observe]

theorem sdaRel_wired (h : s.sensor = .oracle rest) : sdaRel s = s.wired s.sclDrv .rel [.sdaRel] rest 0 := by
  simp [sdaRel, State.emit, State.wired, h, Sensor.observe]

theorem sclLow_wired (h : s.sensor = .oracle rest) : sclLow s = s.wired .low s.sdaDrv [.sclLo] rest 0 := by
  simp [sclLow, State.emit, State.wired, h, Sensor.observe]

theorem sclFree_wired (h : s.sensor = .oracle rest) : sclFree s = s.wired .rel s.sdaDrv [.sclRel] rest 0 := by
  simp [sclFree, State.emit, State.wired, h, Sensor.observe]

theorem sclRel_wired (h : s.sensor = .oracle (true :: rest)) :
    sclRel s = .done () (s.wired .rel s.sdaDrv [.sclRel] rest 1) := by
  simp [sclRel, State.emit, State.drawBus, State.wired, h, Sensor.observe, Sensor.answer]

theorem sample_wired {b : Bool} (h : s.sensor = .oracle (b :: rest)) :
    sample s = .done b (s.wired s.sclDrv s.sdaDrv [.sample b] rest 1) := by
  simp [sample, State.emit, State.drawBus, State.wired, h, Sensor.observe, Sensor.answer]

theorem waitSdaHigh_wired (h : s.sensor = .oracle (true :: rest)) :
    waitSdaHigh s = .done () (s.wired s.sclDrv s.sdaDrv [.waitSda] rest 1) := by
  simp [waitSdaHigh, State.emit, State.drawBus, State.wired, h, Sensor.observe, Sensor.answer]

theorem busStart_wired (h : s.sensor = .oracle (true :: true :: rest)) :
    busStart s = .done () (s.wired .low .low startEvents rest 2) := by
  rw [busStart, sdaRel_wired h, sclRel_wired (by rfl)]
  simp only [Wire.andThen, wired_wired]
  rw [waitSdaHigh_wired (by rfl)]
  simp only [wired_wired]
  rw [sdaLow_wired (by rfl), sclLow_wired (by rfl)]
  simp [startEvents]

theorem busStop_wired (h : s.sensor = .oracle (true :: rest)) :
    busStop s = .done () { s.wired .rel .rel stopEvents rest 1 with busHeld := false } := by
  rw [busStop, sdaLow_wired h, sclRel_wired (by rfl)]
  simp only [Wire.andThen, wired_wired]
  rw [sdaRel_wired (by rfl)]
  simp [stopEvents]

theorem sendBit_wired (b : Bool) (h : s.sensor = .oracle (true :: rest)) :
    sendBit b s = .done () (s.wired .low (if b then .rel else .low) (bitEvents b) rest 1) := by
  cases b
  · rw [sendBit, if_neg (by simp), sdaLow_wired h, sclRel_wired (by rfl)]
    simp only [Wire.andThen, wired_wired]
    rw [sclLow_wired (by rfl)]
    simp [bitEvents]
  · rw [sendBit, if_pos rfl, sdaRel_wired h, sclRel_wired (by rfl)]
    simp only [Wire.andThen, wired_wired]
    rw [sclLow_wired (by rfl)]
    simp [bitEvents]

/-- Bits and then one more piece: only the events, the script and the count of the bits matter to a piece that sets both
drivers. -/
theorem sendBits_wired (bs : List Bool) (hbs : bs ≠ []) (h : s.sensor = .oracle (List.replicate bs.length true ++ rest)) :
    ∃ sda, sendBits bs s = .done () (s.wired .low sda (bs.flatMap bitEvents) rest bs.length) := by
  induction bs generalizing s with
  | nil => exact absurd rfl hbs
  | cons b bs ih =>
    rw [sendBits, sendBit_wired b (rest := List.replicate bs.length true ++ rest) h]
    simp only [Wire.andThen]
    by_cases hnil : bs = []
    · subst hnil
      exact ⟨if b then .rel else .low, by simp [sendBits]⟩
    · obtain ⟨sda, hs⟩ := ih hnil (s := s.wired .low (if b then .rel else .low) (bitEvents b)
        (List.replicate bs.length true ++ rest) 1) rfl
      refine ⟨sda, ?_⟩
      rw [hs]
      simp [Nat.add_comm]

theorem getAck_wired {nack : Bool} (h : s.sensor = .oracle (true :: nack :: rest)) :
    getAck s = .done nack (s.wired .low .rel [.sdaRel, .sclRel, .sample nack, .sclLo] rest 2) := by
  rw [getAck, sdaRel_wired h, sclRel_wired (by rfl)]
  simp only [Wire.andThen, wired_wired]
  rw [sample_wired (by rfl)]
  simp only [wired_wired]
  rw [sclLow_wired (by rfl)]
  simp

/-- `Wxx A` or `Wxx N` (R200). -/
theorem sendByte_wired (v : Byte) {nack : Bool}
    (h : s.sensor = .oracle ((BusToken.wrote v nack).answers ++ rest)) :
    sendByte v s = .done nack (s.wired .low .rel (sentByteEvents v nack) rest 10) := by
  obtain ⟨sda, hb⟩ := sendBits_wired (s := s) (rest := true :: nack :: rest) (bitsMsbFirst v) (by simp [bitsMsbFirst])
    (by rw [h]; rfl)
  rw [sendByte, hb]
  simp only [Wire.andThen]
  rw [getAck_wired (by rfl)]
  simp [sentByteEvents]

theorem recvBits_wired (bs : List Bool) (v : Nat) (hs : s.sclDrv = .low)
    (h : s.sensor = .oracle (bs.flatMap (fun b => [true, b]) ++ rest)) :
    recvBits bs.length v s = .done (bs.foldl (fun v x => 2 * v + x.toNat) v)
      (s.wired .low s.sdaDrv (bs.flatMap inBitEvents) rest (2 * bs.length)) := by
  induction bs generalizing s v with
  | nil =>
    show Wire.done v s = _
    rw [List.flatMap_nil, List.length_nil, Nat.mul_zero, wired_self (rest := rest) hs rfl h]
    rfl
  | cons b bs ih =>
    rw [List.length_cons, recvBits, sclRel_wired (rest := b :: (bs.flatMap (fun b => [true, b]) ++ rest)) (by rw [h]; rfl)]
    simp only [Wire.andThen]
    rw [sample_wired (by rfl)]
    simp only [wired_wired]
    rw [sclLow_wired (by rfl), ih _ (by rfl) (by rfl)]
    simp [inBitEvents, Nat.mul_add, Nat.add_comm]

theorem bitsMsbFirst_byte (v : Byte) : BitVec.ofNat 8 ((bitsMsbFirst v).foldl (fun v x => 2 * v + x.toNat) 0) = v := by
  rw [bitsMsbFirst_value]
  simp

/-- `Rxx` before its acknowledgment (R200). -/
theorem recvByte_wired (v : Byte) (hs : s.sclDrv = .low)
    (h : s.sensor = .oracle ((bitsMsbFirst v).flatMap (fun b => [true, b]) ++ rest)) :
    recvByte s = .done v (s.wired .low .rel (gotByteEvents v) rest 16) := by
  rw [recvByte, sdaRel_wired h]
  have := recvBits_wired (s := s.wired s.sclDrv .rel [.sdaRel]
    ((bitsMsbFirst v).flatMap (fun b => [true, b]) ++ rest) 0) (bitsMsbFirst v) 0 hs rfl
  rw [bitsMsbFirst_length] at this
  rw [this]
  simp only [Wire.andThen, bitsMsbFirst_byte, wired_wired]
  simp [gotByteEvents_eq]

theorem sendAck_wired (ack : Bool) (h : s.sensor = .oracle (true :: rest)) :
    sendAck ack s = .done () (s.wired .low .rel (ackEvents ack) rest 1) := by
  cases ack
  · rw [sendAck, if_neg (by simp), sdaRel_wired h, sclRel_wired (by rfl)]
    simp only [Wire.andThen, wired_wired]
    rw [sclLow_wired (by rfl), sdaRel_wired (by rfl)]
    simp [ackEvents]
  · rw [sendAck, if_pos rfl, sdaLow_wired h, sclRel_wired (by rfl)]
    simp only [Wire.andThen, wired_wired]
    rw [sclLow_wired (by rfl), sdaRel_wired (by rfl)]
    simp [ackEvents]

/-- `initBus()` under scripted answers takes none. -/
theorem initBus_wired (h : s.sensor = .oracle rest) :
    initBus s = { s.wired .rel .rel initEvents rest 0 with busInit := true, busHeld := false } := by
  rw [initBus, sdaRel_wired h, sclFree_wired (by rfl)]
  simp [initEvents]

/-! ## Transactions -/

/-- The address byte as a number (30_encoding.md R123). -/
theorem addressByte_toNat (a : Word) (read : Bool) : (addressByte a read).toNat = 2 * (a.toNat % 128) + read.toNat := by
  show (BitVec.append (address7 a) (BitVec.ofBool read)).toNat = _
  rw [show BitVec.append (address7 a) (BitVec.ofBool read) = address7 a ++ BitVec.ofBool read from rfl,
    BitVec.toNat_append, Nat.shiftLeft_eq, address7, BitVec.extractLsb'_toNat]
  cases read
  · simp
    omega
  · simp [Nat.mul_comm _ 2]
    rw [← Nat.two_pow_add_eq_or_of_lt (i := 1) (by omega)]

/-- The address byte of a write is the one the statements name. -/
theorem addressByte_write (a : Word) (_h : a.toNat ≤ 127) : addressByte a false = writeByteOf a := by
  apply BitVec.eq_of_toNat_eq
  rw [addressByte_toNat, writeByteOf, BitVec.toNat_ofNat]
  simp
  omega

/-- The address byte of a read is the one the statements name. -/
theorem addressByte_read (a : Word) (_h : a.toNat ≤ 127) : addressByte a true = readByteOf a := by
  apply BitVec.eq_of_toNat_eq
  rw [addressByte_toNat, readByteOf, BitVec.toNat_ofNat]
  simp
  omega

theorem busAnswers_append (ts us : List BusToken) : busAnswers (ts ++ us) = busAnswers ts ++ busAnswers us :=
  List.flatMap_append

@[simp] theorem busAnswers_nil : busAnswers [] = [] := rfl

@[simp] theorem busAnswers_cons (t : BusToken) (ts : List BusToken) : busAnswers (t :: ts) = t.answers ++ busAnswers ts :=
  rfl

theorem lazyInit_wired (h : s.sensor = .oracle rest) :
    ∃ a b hd, lazyInit s = { s.wired a b (busTrace (lazyTokens s)) rest 0 with busInit := true, busHeld := hd } := by
  by_cases hi : s.busInit = true
  · refine ⟨s.sclDrv, s.sdaDrv, s.busHeld, ?_⟩
    rw [lazyInit, if_pos hi, lazyTokens, if_pos hi]
    simp [State.wired, ← hi, ← h]
  · refine ⟨.rel, .rel, false, ?_⟩
    rw [lazyInit, if_neg hi, lazyTokens, if_neg hi, initBus_wired h]
    simp [BusToken.events]

/-- Every byte ACKed. -/
theorem sendBytes_acked (k : Nat) (bytes : List Byte) (hs : s.sclDrv = .low) (hd : s.sdaDrv = .rel)
    (h : s.sensor = .oracle (busAnswers (bytes.map fun b => .wrote b false) ++ rest)) :
    sendBytes k bytes s = .done none (s.wired .low .rel (busTrace (bytes.map fun b => .wrote b false)) rest
      (busAnswers (bytes.map fun b => .wrote b false)).length) := by
  induction bytes generalizing s k with
  | nil =>
    rw [sendBytes, List.map_nil, busTrace_nil, busAnswers_nil, List.length_nil, wired_self (rest := rest) hs hd h]
  | cons b bs ih =>
    rw [sendBytes, sendByte_wired b (nack := false)
      (rest := busAnswers (bs.map fun b => .wrote b false) ++ rest) (by rw [h]; simp)]
    simp only [Wire.andThen, Bool.false_eq_true, if_false]
    rw [ih _ rfl rfl rfl]
    simp [BusToken.events]

/-- Byte j NACKed, the bytes before it ACKed. -/
theorem sendBytes_cut (k : Nat) (bytes : List Byte) (j : Nat) (hj : j < bytes.length) (hs : s.sclDrv = .low)
    (h : s.sensor = .oracle (busAnswers (((bytes.take j).map fun b => .wrote b false) ++
      [.wrote (bytes.getD j 0#8) true]) ++ rest)) :
    sendBytes k bytes s = .done (some (k + j)) (s.wired .low .rel
      (busTrace (((bytes.take j).map fun b => .wrote b false) ++ [.wrote (bytes.getD j 0#8) true])) rest
      (busAnswers (((bytes.take j).map fun b => .wrote b false) ++ [.wrote (bytes.getD j 0#8) true])).length) := by
  induction bytes generalizing s k j with
  | nil => exact absurd hj (by simp)
  | cons b bs ih =>
    cases j with
    | zero =>
      rw [sendBytes, sendByte_wired b (nack := true) (rest := rest) (by rw [h]; simp)]
      simp [Wire.andThen, BusToken.events]
    | succ j =>
      rw [sendBytes, sendByte_wired b (nack := false)
        (rest := busAnswers (((bs.take j).map fun b => .wrote b false) ++ [.wrote (bs.getD j 0#8) true]) ++ rest)
        (by rw [h]; simp)]
      simp only [Wire.andThen, Bool.false_eq_true, if_false]
      rw [ih (k + 1) j (by simpa using hj) rfl rfl]
      simp [BusToken.events, Nat.add_comm, Nat.add_left_comm]

theorem finalAck_wired (hs : s.sclDrv = .low) (hd : s.sdaDrv = .rel)
    (h : s.sensor = .oracle ((if (finalMark s.par.readFinalAck).isSome then [true] else []) ++ rest)) :
    finalAck s = .done () (s.wired .low .rel (match finalMark s.par.readFinalAck with
      | some a => ackEvents a | none => []) rest (if (finalMark s.par.readFinalAck).isSome then 1 else 0)) := by
  rw [finalAck]
  cases hf : s.par.readFinalAck <;> rw [hf] at h
  · simpa [finalMark] using sendAck_wired false (s := s) (rest := rest) h
  · simpa [finalMark] using sendAck_wired true (s := s) (rest := rest) h
  · exact congrArg (Wire.done ()) (wired_self hs hd h).symm

theorem recvBytes_wired (vs : List Byte) (hs : s.sclDrv = .low) (hd : s.sdaDrv = .rel)
    (h : s.sensor = .oracle (busAnswers (gotTokens s.par.readFinalAck vs) ++ rest)) :
    recvBytes vs.length s = .done vs (s.wired .low .rel (busTrace (gotTokens s.par.readFinalAck vs)) rest
      (busAnswers (gotTokens s.par.readFinalAck vs)).length) := by
  induction vs generalizing s with
  | nil =>
    show Wire.done [] s = _
    rw [gotTokens, busTrace_nil, busAnswers_nil, List.length_nil, wired_self (rest := rest) hs hd h]
  | cons v vs ih =>
    cases vs with
    | nil =>
      rw [List.length_cons, recvBytes, recvByte_wired v (rest := (if (finalMark s.par.readFinalAck).isSome then [true] else []) ++ rest)
        hs (by rw [h]; simp [gotTokens, BusToken.answers])]
      simp only [Wire.andThen, List.length_nil, if_true]
      rw [finalAck_wired rfl rfl (rest := rest) rfl]
      simp only [recvBytes, wired_wired, gotTokens]
      cases hf : s.par.readFinalAck <;> simp [finalMark, BusToken.events, hf]
    | cons w ws =>
      rw [List.length_cons, recvBytes, recvByte_wired v (rest := true :: (busAnswers (gotTokens s.par.readFinalAck (w :: ws)) ++ rest))
        hs (by rw [h]; simp [gotTokens, BusToken.answers])]
      simp only [Wire.andThen]
      rw [if_neg (by simp), sendAck_wired true rfl]
      simp only
      rw [ih rfl rfl rfl]
      simp only [wired_wired, wired_par]
      simp [gotTokens, BusToken.events, Nat.add_comm]

theorem endTransfer_wired (hold : Bool) (hs : s.sclDrv = .low) (hd : s.sdaDrv = .rel)
    (h : s.sensor = .oracle (busAnswers (if hold then [] else [.stop]) ++ rest)) :
    endTransfer hold s = .done () { s.wired (if hold then .low else .rel) .rel (busTrace (if hold then [] else [.stop]))
      rest (busAnswers (if hold then [] else [.stop])).length with busHeld := hold } := by
  cases hold with
  | true =>
    simp only [endTransfer, if_true, busTrace_nil, busAnswers_nil, List.length_nil]
    rw [wired_self (rest := rest) hs hd h]
  | false =>
    simp only [endTransfer, Bool.false_eq_true, if_false]
    rw [busStop_wired h]
    simp [BusToken.events]

/-- s after a whole transaction against its script. -/
def State.ran (scl : Drive) (held : Bool) (ts : List BusToken) (rest : List Bool) (s : State) : State :=
  { s.wired scl .rel (busTrace ts) rest (busAnswers ts).length with busInit := true, busHeld := held }

/-- A write that is ACKed throughout (R193). -/
theorem busWrite_acked (a : Word) (bytes : List Byte) (hold : Bool)
    (h : s.sensor = .oracle (busAnswers (lazyTokens s ++ writeTokens (addressByte a false) bytes hold) ++ rest)) :
    busWrite a bytes hold s = (⟨.ok, []⟩, s.ran (if hold then .low else .rel) hold
      (lazyTokens s ++ writeTokens (addressByte a false) bytes hold) rest) := by
  have hlz : busAnswers (lazyTokens s) = [] := by
    rw [lazyTokens]
    split <;> rfl
  rw [busAnswers_append, hlz, List.nil_append] at h
  obtain ⟨x, y, hd, hl⟩ := lazyInit_wired h
  rw [busWrite, busWriteWire, hl, busStart_wired (rest := busAnswers (.wrote (addressByte a false) false ::
    (bytes.map fun b => .wrote b false) ++ (if hold then [] else [.stop])) ++ rest) (by rfl)]
  simp only [Wire.andThen]
  rw [sendByte_wired _ (nack := false) (rest := busAnswers ((bytes.map fun b => .wrote b false) ++
    (if hold then [] else [.stop])) ++ rest) (by simp [State.wired, BusToken.answers])]
  simp only [Bool.false_eq_true, if_false]
  rw [sendBytes_acked 0 bytes rfl rfl (rest := busAnswers (if hold then [] else [.stop]) ++ rest)
    (by simp [busAnswers_append])]
  simp only
  rw [endTransfer_wired hold rfl rfl rfl]
  simp [State.ran, State.wired, writeTokens, busTrace_append, busAnswers_append, hlz, BusToken.events]
  omega

/-- A transaction whose address byte is NACKed (R193). -/
theorem busWrite_refused (a : Word) (bytes : List Byte) (hold : Bool)
    (h : s.sensor = .oracle (busAnswers (lazyTokens s ++ refusedTokens (addressByte a false)) ++ rest)) :
    busWrite a bytes hold s = (⟨.nackAddr, []⟩,
      s.ran .rel false (lazyTokens s ++ refusedTokens (addressByte a false)) rest) := by
  have hlz : busAnswers (lazyTokens s) = [] := by
    rw [lazyTokens]
    split <;> rfl
  rw [busAnswers_append, hlz, List.nil_append] at h
  obtain ⟨x, y, hd, hl⟩ := lazyInit_wired h
  rw [busWrite, busWriteWire, hl, busStart_wired (rest := busAnswers [.wrote (addressByte a false) true, .stop] ++ rest)
    (by rfl)]
  simp only [Wire.andThen]
  rw [sendByte_wired _ (nack := true) (rest := true :: rest) (by simp [State.wired, BusToken.answers])]
  simp only [if_true]
  rw [busStop_wired (by rfl)]
  simp [State.ran, State.wired, refusedTokens, busTrace_append, busAnswers_append, hlz, BusToken.events]

/-- A write whose data byte k is NACKed (R193, R194). -/
theorem busWrite_cut (a : Word) (bytes : List Byte) (hold : Bool) (k : Nat) (hk : k < bytes.length)
    (h : s.sensor = .oracle (busAnswers (lazyTokens s ++ cutTokens (addressByte a false) bytes k) ++ rest)) :
    busWrite a bytes hold s = (⟨.nackData, [wordOfNat k]⟩,
      s.ran .rel false (lazyTokens s ++ cutTokens (addressByte a false) bytes k) rest) := by
  have hlz : busAnswers (lazyTokens s) = [] := by
    rw [lazyTokens]
    split <;> rfl
  rw [busAnswers_append, hlz, List.nil_append] at h
  obtain ⟨x, y, hd, hl⟩ := lazyInit_wired h
  rw [busWrite, busWriteWire, hl, busStart_wired (rest := busAnswers (.wrote (addressByte a false) false ::
    ((bytes.take k).map fun b => .wrote b false) ++ [.wrote (bytes.getD k 0#8) true, .stop]) ++ rest) (by rfl)]
  simp only [Wire.andThen]
  rw [sendByte_wired _ (nack := false) (rest := busAnswers (((bytes.take k).map fun b => .wrote b false) ++
    [.wrote (bytes.getD k 0#8) true, .stop]) ++ rest) (by simp [State.wired, BusToken.answers])]
  simp only [Bool.false_eq_true, if_false]
  rw [sendBytes_cut 0 bytes k hk rfl (rest := true :: rest) (by simp [busAnswers_append, BusToken.answers])]
  simp only
  rw [busStop_wired (by rfl)]
  simp [State.ran, State.wired, cutTokens, busTrace_append, busAnswers_append, hlz, BusToken.events]
  omega

/-- A read whose address byte is ACKed (R195). -/
theorem busRead_acked (a : Word) (vs : List Byte) (hold : Bool)
    (h : s.sensor = .oracle (busAnswers (lazyTokens s ++
      readTokens s.par.readFinalAck (addressByte a true) vs hold) ++ rest)) :
    busRead a vs.length hold s = ((.ok, vs), s.ran (if hold then .low else .rel) hold
      (lazyTokens s ++ readTokens s.par.readFinalAck (addressByte a true) vs hold) rest) := by
  have hlz : busAnswers (lazyTokens s) = [] := by
    rw [lazyTokens]
    split <;> rfl
  rw [busAnswers_append, hlz, List.nil_append] at h
  obtain ⟨x, y, hd, hl⟩ := lazyInit_wired h
  rw [busRead, busReadWire, hl, busStart_wired (rest := busAnswers (.wrote (addressByte a true) false ::
    gotTokens s.par.readFinalAck vs ++ (if hold then [] else [.stop])) ++ rest) (by rfl)]
  simp only [Wire.andThen]
  rw [sendByte_wired _ (nack := false) (rest := busAnswers (gotTokens s.par.readFinalAck vs ++
    (if hold then [] else [.stop])) ++ rest) (by simp [State.wired, BusToken.answers])]
  simp only [Bool.false_eq_true, if_false]
  rw [recvBytes_wired vs rfl rfl (rest := busAnswers (if hold then [] else [.stop]) ++ rest)
    (by simp [busAnswers_append, State.wired, State.par])]
  simp only
  rw [endTransfer_wired hold rfl rfl rfl]
  simp [State.ran, State.wired, readTokens, busTrace_append, busAnswers_append, hlz, BusToken.events, State.par]
  omega

/-- A read whose address byte is NACKed (R195). -/
theorem busRead_refused (a : Word) (n : Nat) (hold : Bool)
    (h : s.sensor = .oracle (busAnswers (lazyTokens s ++ refusedTokens (addressByte a true)) ++ rest)) :
    busRead a n hold s = ((.nackAddr, []),
      s.ran .rel false (lazyTokens s ++ refusedTokens (addressByte a true)) rest) := by
  have hlz : busAnswers (lazyTokens s) = [] := by
    rw [lazyTokens]
    split <;> rfl
  rw [busAnswers_append, hlz, List.nil_append] at h
  obtain ⟨x, y, hd, hl⟩ := lazyInit_wired h
  rw [busRead, busReadWire, hl, busStart_wired (rest := busAnswers [.wrote (addressByte a true) true, .stop] ++ rest)
    (by rfl)]
  simp only [Wire.andThen]
  rw [sendByte_wired _ (nack := true) (rest := true :: rest) (by simp [State.wired, BusToken.answers])]
  simp only [if_true]
  rw [busStop_wired (by rfl)]
  simp [State.ran, State.wired, refusedTokens, busTrace_append, busAnswers_append, hlz, BusToken.events]

end Sys2Proof.Machine
end

