-- ==== Sys2Proof/Laws/Window.lean ====
section
/-! SUPPORT. What any data bytes do to the reference controller after a window was set: no cell outside the window changes;
fewer pixels than the window has leave its rest; after another command no cell changes (43_display_link.md R287-R289;
70_reset_and_hazards.md R461). -/

namespace Sys2Proof.Machine

theorem read_filter_keep (m : Memory (Option Word)) (f : Nat × Option Word → Bool) (p : Nat) (h : ∀ v, f (p, v) = true) :
    Memory.read none (m.filter f) p = Memory.read none m p := by
  induction m with
  | nil => rfl
  | cons e m ih =>
    obtain ⟨b, w⟩ := e
    by_cases hb : p = b
    · subst hb
      rw [List.filter_cons_of_pos (h w)]
      simp [Memory.read]
    · by_cases hf : f (b, w) = true
      · rw [List.filter_cons_of_pos hf]
        simp [Memory.read, hb, ih]
      · rw [List.filter_cons_of_neg hf, ih]
        simp [Memory.read, hb]

theorem read_filter_drop (m : Memory (Option Word)) (f : Nat × Option Word → Bool) (p : Nat) (h : ∀ v, f (p, v) = false) :
    Memory.read none (m.filter f) p = none := by
  induction m with
  | nil => rfl
  | cons e m ih =>
    obtain ⟨b, w⟩ := e
    by_cases hf : f (b, w) = true
    · rw [List.filter_cons_of_pos hf]
      have : p ≠ b := by
        rintro rfl
        rw [h w] at hf
        cases hf
      simp [Memory.read, this, ih]
    · rw [List.filter_cons_of_neg hf, ih]

/-- Cell p is no cell of the window. -/
def OutsideWindow (c : Config) (cols rows : Word × Word) (p : Nat) : Prop :=
  ∀ a b, cols.1.toNat ≤ a → a ≤ cols.2.toNat → rows.1.toNat ≤ b → b ≤ rows.2.toNat → p ≠ idx c a b

/-- The window lies in the display and is not reversed (R267). -/
def WindowInside (c : Config) (cols rows : Word × Word) : Prop :=
  (cols.1.toNat ≤ cols.2.toNat ∧ cols.2.toNat < c.width) ∧ (rows.1.toNat ≤ rows.2.toNat ∧ rows.2.toNat < c.height)

/-- k has the window, is initialised and takes pixels somewhere in the window or at an open place; outside the window it
holds what k0 held. -/
structure KeepsOutside (c : Config) (cols rows : Word × Word) (k0 k : Controller) : Prop where
  cols_eq : k.cols = some cols
  rows_eq : k.rows = some rows
  ready : k.ready = true
  mode : k.mode = .lost ∨ ∃ a b l, k.mode = .pixels a b l ∧ (cols.1.toNat ≤ a ∧ a ≤ cols.2.toNat) ∧
    (rows.1.toNat ≤ b ∧ b ≤ rows.2.toNat)
  gram : ∀ p, OutsideWindow c cols rows p → k.gramAt p = k0.gramAt p

variable {c : Config} {cols rows : Word × Word} {k0 k : Controller}

/-- The cells of the window become unknown, no other cell changes. -/
theorem KeepsOutside.forgetWindow (hw : WindowInside c cols rows) (h : KeepsOutside c cols rows k0 k) :
    KeepsOutside c cols rows k0 (k.forgetWindow c) ∧ (k.forgetWindow c).dc = k.dc ∧ (k.forgetWindow c).cs = k.cs ∧
    ∀ a b, cols.1.toNat ≤ a → a ≤ cols.2.toNat → rows.1.toNat ≤ b → b ≤ rows.2.toNat →
      (k.forgetWindow c).gramAt (idx c a b) = none := by
  obtain ⟨⟨hx, hx'⟩, hy, hy'⟩ := hw
  have e : k.forgetWindow c =
      { k with gram := k.gram.filter fun e => !inWindow cols rows (e.1 % c.width) (e.1 / c.width) } := by
    rw [Controller.forgetWindow, h.cols_eq, h.rows_eq]
    simp only
    rw [if_pos ⟨hx, hy⟩]
  rw [e]
  refine ⟨⟨h.cols_eq, h.rows_eq, h.ready, h.mode, fun p hp => ?_⟩, rfl, rfl, fun a b h1 h2 h3 h4 => ?_⟩
  · refine Eq.trans (read_filter_keep _ _ p fun _ => ?_) (h.gram p hp)
    simp only [inWindow, Bool.not_eq_true', Bool.and_eq_false_iff, decide_eq_false_iff_not]
    by_contra hc
    have := hp (p % c.width) (p / c.width) (by omega) (by omega) (by omega) (by omega)
    rw [idx, Nat.div_add_mod'] at this
    exact this rfl
  · refine read_filter_drop _ _ _ fun _ => ?_
    have e1 : idx c a b % c.width = a := by rw [idx, Nat.mul_comm, Nat.mul_add_mod, Nat.mod_eq_of_lt (by omega)]
    have e2 : idx c a b / c.width = b := by
      rw [idx, Nat.mul_comm, Nat.mul_add_div (by omega), Nat.div_eq_of_lt (by omega), Nat.add_zero]
    simp [inWindow, e1, e2, h1, h2, h3, h4]

/-- The next place of the pointer is in the window. -/
theorem nextPixel_inside {order : PixelOrder} {a b : Nat} {q : Nat × Nat} (hw : WindowInside c cols rows)
    (ha : cols.1.toNat ≤ a ∧ a ≤ cols.2.toNat) (hb : rows.1.toNat ≤ b ∧ b ≤ rows.2.toNat)
    (h : nextPixel order cols rows a b = some q) :
    (cols.1.toNat ≤ q.1 ∧ q.1 ≤ cols.2.toNat) ∧ (rows.1.toNat ≤ q.2 ∧ q.2 ≤ rows.2.toNat) := by
  obtain ⟨⟨hx, -⟩, hy, -⟩ := hw
  rw [nextPixel.eq_def] at h
  split at h <;> split at h
  · split at h
    · cases h
    · cases h
      simp only at *
      omega
  · cases h
    simp only at *
    omega
  · split at h
    · cases h
    · cases h
      simp only at *
      omega
  · cases h
    simp only at *
    omega

/-- One data byte (R289). -/
theorem KeepsOutside.data (hw : WindowInside c cols rows) (h : KeepsOutside c cols rows k0 k) (b : Byte) :
    KeepsOutside c cols rows k0 (k.data c b) ∧ (k.data c b).dc = k.dc ∧ (k.data c b).cs = k.cs := by
  rcases h.mode with hm | ⟨a, r, l, hm, ha, hr⟩
  · rw [Controller.data, hm]
    obtain ⟨hk, hd, hs, -⟩ := h.forgetWindow hw
    exact ⟨hk, hd, hs⟩
  · cases l with
    | none =>
      rw [Controller.data, hm]
      exact ⟨⟨h.cols_eq, h.rows_eq, h.ready, .inr ⟨_, _, _, rfl, ha, hr⟩, h.gram⟩, rfl, rfl⟩
    | some v =>
      rw [Controller.data, hm]
      simp only
      have hk := putPixel_keeps c a r (cat v b) k
      have hg : ∀ p, OutsideWindow c cols rows p → (k.putPixel c a r (cat v b)).gramAt p = k0.gramAt p := fun p hp => by
        rw [gramAt_putPixel c a r _ k h.ready (by have := hw.1.2; omega) (by have := hw.2.2; omega)]
        rw [if_neg (show p ≠ r * c.width + a from hp a r ha.1 ha.2 hr.1 hr.2)]
        exact h.gram p hp
      have h1 : (k.putPixel c a r (cat v b)).cols = some cols := by rw [hk]; exact h.cols_eq
      have h2 : (k.putPixel c a r (cat v b)).rows = some rows := by rw [hk]; exact h.rows_eq
      have h3 : (k.putPixel c a r (cat v b)).ready = true := by rw [hk]; exact h.ready
      have h4 : (k.putPixel c a r (cat v b)).dc = k.dc := by rw [hk]
      have h5 : (k.putPixel c a r (cat v b)).cs = k.cs := by rw [hk]
      rw [h1, h2]
      simp only
      split
      · rename_i q hq
        exact ⟨⟨rfl, rfl, h3, .inr ⟨_, _, _, rfl, nextPixel_inside hw ha hr hq⟩, hg⟩, h4, h5⟩
      · exact ⟨⟨rfl, rfl, h3, .inl rfl, hg⟩, h4, h5⟩

theorem KeepsOutside.bytes (hw : WindowInside c cols rows) (bs : List Byte) (h : KeepsOutside c cols rows k0 k)
    (hd : k.dc = .data) (hs : k.cs = .on) : KeepsOutside c cols rows k0 (k.run c (bs.map .byte)) := by
  induction bs generalizing k with
  | nil => exact h
  | cons b bs ih =>
    have e : k.observe c (.byte b) = k.data c b := by simp [Controller.observe, hd, hs]
    obtain ⟨h1, h2, h3⟩ := h.data hw b
    rw [List.map_cons, run_cons, e]
    exact ih h1 (h2.trans hd) (h3.trans hs)

theorem dataFrame_eq (bs : List Byte) : frameEvents .data bs = .dc .data :: .csOn :: (bs.map .byte ++ [.csOff]) := by
  simp [frameEvents]

/-- One data frame of any length (R289, R290). -/
theorem KeepsOutside.frame (hw : WindowInside c cols rows) (h : KeepsOutside c cols rows k0 k) (bs : List Byte) :
    KeepsOutside c cols rows k0 (k.run c (frameEvents .data bs)) := by
  rw [dataFrame_eq, run_cons, run_cons, run_append]
  have h1 := KeepsOutside.bytes hw bs (k := (k.observe c (.dc .data)).observe c .csOn)
    ⟨h.cols_eq, h.rows_eq, h.ready, h.mode, h.gram⟩ rfl rfl
  generalize Controller.run c ((k.observe c (.dc .data)).observe c .csOn) (bs.map .byte) = k' at h1
  rw [run_cons, run_nil, Controller.observe]
  split
  · exact ⟨h1.cols_eq, h1.rows_eq, h1.ready, .inl rfl, h1.gram⟩
  all_goals exact ⟨h1.cols_eq, h1.rows_eq, h1.ready, h1.mode, h1.gram⟩

/-- The state after a window was set (R287, R288). -/
theorem keepsOutside_window (x0 y0 x1 y1 : Word) (hc : WindowCodesDistinct c) (hr : k.ready = true)
    (hw : WindowInside c (x0, x1) (y0, y1)) :
    KeepsOutside c (x0, x1) (y0, y1) k (k.run c (windowEvents c x0 y0 x1 y1)) := by
  rw [run_window c k x0 y0 x1 y1 hc hr]
  exact ⟨rfl, rfl, hr, .inr ⟨_, _, _, rfl, ⟨le_refl _, hw.1.1⟩, le_refl _, hw.2.1⟩, fun _ _ => rfl⟩

/-- With no mode begun a data frame changes only the lines the controller sees (R287). -/
theorem idle_frame (c : Config) (bs : List Byte) (k : Controller) (hm : k.mode = .idle) :
    k.run c (frameEvents .data bs) = { k with dc := .data, cs := .off } := by
  have hbytes : ∀ k : Controller, k.mode = .idle → k.cs = .on → k.dc = .data → k.run c (bs.map .byte) = k := by
    induction bs with
    | nil => exact fun _ _ _ _ => rfl
    | cons b bs ih =>
      intro k hm hs hd
      have e : k.observe c (.byte b) = k := by simp [Controller.observe, hd, hs, Controller.data, hm]
      rw [List.map_cons, run_cons, e]
      exact ih k hm hs hd
  rw [dataFrame_eq, run_cons, run_cons, run_append, hbytes ((k.observe c (.dc .data)).observe c .csOn) hm rfl rfl]
  simp [Controller.observe, hm]

/-- The arguments of a command change no cell (R287, R288). -/
theorem args_gram (c : Config) (bs : List Byte) (k : Controller) (hm : ∃ cmd l, k.mode = .args cmd l) (hd : k.dc = .data)
    (hs : k.cs = .on) : (k.run c (bs.map .byte)).gram = k.gram := by
  induction bs generalizing k with
  | nil => rfl
  | cons b bs ih =>
    obtain ⟨cmd, l, hm⟩ := hm
    have e : k.observe c (.byte b) = k.argument c cmd (l ++ [b]) := by
      simp [Controller.observe, hd, hs, Controller.data, hm]
    have hp : (k.argument c cmd (l ++ [b])).mode = .args cmd (l ++ [b]) ∧ (k.argument c cmd (l ++ [b])).dc = k.dc ∧
        (k.argument c cmd (l ++ [b])).cs = k.cs ∧ (k.argument c cmd (l ++ [b])).gram = k.gram := by
      rw [Controller.argument.eq_def]
      simp only []
      split
      · split
        · exact ⟨rfl, rfl, rfl, rfl⟩
        · split <;> exact ⟨rfl, rfl, rfl, rfl⟩
      · exact ⟨rfl, rfl, rfl, rfl⟩
    rw [List.map_cons, run_cons, e, ih _ ⟨_, _, hp.1⟩ (hp.2.1.trans hd) (hp.2.2.1.trans hs), hp.2.2.2]

/-- A data frame among the arguments of a command changes no cell. -/
theorem args_frame_gram (c : Config) (bs : List Byte) (k : Controller) (hm : ∃ cmd l, k.mode = .args cmd l) :
    (k.run c (frameEvents .data bs)).gram = k.gram := by
  rw [dataFrame_eq, run_cons, run_cons, run_append]
  have h1 : _ = k.gram := args_gram c bs ((k.observe c (.dc .data)).observe c .csOn) hm rfl rfl
  generalize Controller.run c ((k.observe c (.dc .data)).observe c .csOn) (bs.map .byte) = k' at h1
  rw [run_cons, run_nil, Controller.observe]
  split <;> exact h1

/-- At most the pixels of a window in one frame: the first ones hold their words, the rest of the window stays (R289,
R461). -/
theorem run_fewer_words (c : Config) (k : Controller) (x0 y0 x1 y1 : Word) (ws : List Word) (hr : k.ready = true)
    (hw : WindowInside c (x0, x1) (y0, y1)) (hcols : k.cols = some (x0, x1)) (hrows : k.rows = some (y0, y1))
    (hmode : k.mode = .pixels x0.toNat y0.toNat none)
    (hn : ws.length ≤ (x1.toNat - x0.toNat + 1) * (y1.toNat - y0.toNat + 1)) (hne : ws ≠ []) :
    let ps := windowPixels c.pixelOrder x0.toNat y0.toNat (x1.toNat - x0.toNat + 1) (y1.toNat - y0.toNat + 1)
    ∀ i, (hi : i < ps.length) → (k.run c (frameEvents .data (bytesOfWords ws))).gramAt (idx c ps[i].1 ps[i].2) =
      match ws[i]? with | some w => some w | none => k.gramAt (idx c ps[i].1 ps[i].2) := by
  intro ps i hi
  obtain ⟨⟨hx, hx'⟩, hy, hy'⟩ := hw
  simp only at hx hx' hy hy'
  have hmem : ∀ q ∈ ps, q.1 < c.width ∧ q.2 < c.height := by
    intro q hq
    have := (mem_windowPixels _ _ _ _ _ q).mp hq
    omega
  have hlen : ws.length ≤ ps.length := by
    rw [windowPixels_length]
    exact hn
  have htake : (ps.take ws.length).length = ws.length := by
    rw [List.length_take]
    omega
  have hpos : 0 < ws.length := List.length_pos_iff.mpr hne
  have hhead : (ps.take ws.length).head? = some (x0.toNat, y0.toNat) := by
    rw [List.head?_take, if_neg (by omega)]
    simp only [ps]
    cases c.pixelOrder <;> simp [windowPixels, List.range'_succ]
  let kk : Controller := { k with dc := .data, cs := .on }
  have hchain : (ps.take ws.length).IsChain fun p q => nextPixel c.pixelOrder (x0, x1) (y0, y1) p.1 p.2 = some q :=
    (windowPixels_chain c.pixelOrder (x0, x1) (y0, y1) _ _ (by omega) (by omega) (by simp only; omega)
      (by simp only; omega)).take _
  obtain ⟨m, -, hrun⟩ := run_words c c.pixelOrder rfl (x0, x1) (y0, y1) (ps.take ws.length) ws htake.symm _ hhead hchain
    kk hcols hrows hmode rfl rfl
  have hg : (k.run c (frameEvents .data (bytesOfWords ws))).gram = (putPixels c kk (ps.take ws.length) ws).gram := by
    have hkk : (k.observe c (.dc .data)).observe c .csOn = kk := rfl
    rw [dataFrame_eq, run_cons, run_cons, run_append, hkk, hrun, run_cons, run_nil, Controller.observe]
    split <;> rfl
  have hin : ∀ q ∈ ps.take ws.length, q.1 < c.width ∧ q.2 < c.height := fun q hq => hmem q (List.mem_of_mem_take hq)
  have hnd : ps.Nodup := windowPixels_nodup c.pixelOrder x0.toNat y0.toNat _ _
  rw [Controller.gramAt, hg]
  rcases Nat.lt_or_ge i ws.length with hlt | hge
  · have := gramAt_putPixels c kk (ps.take ws.length) ws hr hin (hnd.sublist (List.take_sublist _ _)) htake.symm i
      (by omega)
    rw [List.getElem_take] at this
    rw [List.getElem?_eq_getElem hlt]
    exact this
  · rw [List.getElem?_eq_none hge]
    refine gramAt_putPixels_other c kk (ps.take ws.length) ws hr hin _ fun q hq h => ?_
    have := idx_inj c (hin q hq).1 (hmem ps[i] (List.getElem_mem hi)).1 h
    obtain ⟨j, hj, he⟩ := List.mem_iff_getElem.mp hq
    rw [List.getElem_take] at he
    have := (List.Nodup.getElem_inj_iff hnd (hi := by omega) (hj := hi)).mp (he.trans (Prod.ext this.1 this.2))
    omega

end Sys2Proof.Machine
end

