-- ==== Sys2Proof/Tests/Slice0.lean ====
section
/-! SUPPORT. Tests: ill-formed commands, the decoding of words written from 30_encoding.md, one-step tests with results
from 95_test_vectors.md, and witnesses of the hypotheses of the obligations. -/

open Sys2Proof Sys2Proof.Machine

namespace Sys2Proof.Tests

set_option Elab.async false

/-! ## WellFormed refuses ill-formed commands -/

theorem test_wf_busWrite_short : (Instr.busWrite false 0x33#16 3#16 [0x8000#16]).wf = false := by decide
theorem test_wf_dlData_long : (Instr.dlData 1#16 [0x1234#16, 0x5600#16]).wf = false := by decide
theorem test_wf_dlWords_short : (Instr.dlWords 2#16 [0xF800#16]).wf = false := by decide
theorem test_wf_dlWords_len_overflow (ws : List Word) : (Instr.dlWords 65535#16 ws).wf = false := by simp [Instr.wf]
theorem test_wf_fbText_short : (Instr.fbText false 0#16 0#16 0#16 0#16 2#16 []).wf = false := by decide

/-! ## Decoding: words written from the encodings of R110, R113, R117 (95_test_vectors.md part 2) -/

theorem test_decode_pixPack : decode [0x0001#16, 0x0003#16, 0x0012#16, 0x0034#16, 0x0056#16] =
    .ok (.pixPack 0x12#16 0x34#16 0x56#16) := by rfl
theorem test_decode_pixUnpack : decode [0x0002#16, 0x0001#16, 0x11AA#16] = .ok (.pixUnpack 0x11AA#16) := by rfl
theorem test_decode_busInit : decode [0x0010#16, 0x0000#16] = .ok .busInit := by rfl
theorem test_decode_busWrite : decode [0x0011#16, 0x0003#16, 0x0034#16, 0x0001#16, 0x0100#16] =
    .ok (.busWrite false 0x34#16 1#16 [0x0100#16]) := by rfl
theorem test_decode_busWrite_hold : decode [0x0111#16, 0x0003#16, 0x0033#16, 0x0002#16, 0x8000#16] =
    .ok (.busWrite true 0x33#16 2#16 [0x8000#16]) := by rfl
theorem test_decode_busRead : decode [0x0012#16, 0x0002#16, 0x0033#16, 0x0003#16] =
    .ok (.busRead false 0x33#16 3#16) := by rfl
theorem test_decode_busRead_hold : decode [0x0112#16, 0x0002#16, 0x0033#16, 0x0000#16] =
    .ok (.busRead true 0x33#16 0#16) := by rfl
theorem test_decode_regReadw : decode [0x0020#16, 0x0003#16, 0x0033#16, 0x2400#16, 0x0003#16] =
    .ok (.regReadw 0x33#16 0x2400#16 3#16) := by rfl
theorem test_decode_regWritew : decode [0x0021#16, 0x0003#16, 0x0033#16, 0x800D#16, 0x1901#16] =
    .ok (.regWritew 0x33#16 0x800D#16 0x1901#16) := by rfl
theorem test_decode_dlInit : decode [0x0030#16, 0x0000#16] = .ok .dlInit := by rfl
theorem test_decode_dlCmd : decode [0x0031#16, 0x0001#16, 0x0029#16] = .ok (.dlCmd 0x29#16) := by rfl
theorem test_decode_dlData : decode [0x0032#16, 0x0003#16, 0x0003#16, 0x1234#16, 0x5600#16] =
    .ok (.dlData 3#16 [0x1234#16, 0x5600#16]) := by rfl
theorem test_decode_dlWords : decode [0x0033#16, 0x0004#16, 0x0003#16, 0xF800#16, 0x07E0#16, 0x001F#16] =
    .ok (.dlWords 3#16 [0xF800#16, 0x07E0#16, 0x001F#16]) := by rfl
theorem test_decode_dlWindow : decode [0x0034#16, 0x0004#16, 0x0004#16, 0x0002#16, 0x0005#16, 0x0003#16] =
    .ok (.dlWindow 4#16 2#16 5#16 3#16) := by rfl
theorem test_decode_fbPixel : decode [0x0040#16, 0x0003#16, 0xFFFB#16, 0x0002#16, 0x1234#16] =
    .ok (.fbPixel 0xFFFB#16 2#16 0x1234#16) := by rfl
theorem test_decode_fbGetpixel : decode [0x0041#16, 0x0002#16, 0x0003#16, 0xFFF9#16] =
    .ok (.fbGetpixel 3#16 0xFFF9#16) := by rfl
theorem test_decode_fbRect : decode [0x0042#16, 0x0005#16, 0xFFF6#16, 0xFFF5#16, 0x0001#16, 0x0002#16, 0x07E0#16] =
    .ok (.fbRect 0xFFF6#16 0xFFF5#16 1#16 2#16 0x07E0#16) := by rfl
theorem test_decode_fbLine : decode [0x0043#16, 0x0005#16, 0x0006#16, 0xFFFF#16, 0x0007#16, 0x0005#16, 0x0001#16] =
    .ok (.fbLine 6#16 0xFFFF#16 7#16 5#16 1#16) := by rfl
theorem test_decode_fbCircle : decode [0x0044#16, 0x0004#16, 0x0003#16, 0x0002#16, 0xFFFF#16, 0x0001#16] =
    .ok (.fbCircle 3#16 2#16 0xFFFF#16 1#16) := by rfl
theorem test_decode_fbFlush : decode [0x0045#16, 0x0000#16] = .ok .fbFlush := by rfl
theorem test_decode_fbChar :
    decode [0x0148#16, 0x0005#16, 0x0001#16, 0x0000#16, 0x0041#16, 0xFFFF#16, 0x0002#16] =
      .ok (.fbChar true 1#16 0#16 0x41#16 0xFFFF#16 2#16) := by rfl
theorem test_decode_fbText :
    decode [0x0149#16, 0x0006#16, 0x0000#16, 0x0001#16, 0xFFFF#16, 0x0003#16, 0x0002#16, 0x412E#16] =
      .ok (.fbText true 0#16 1#16 0xFFFF#16 3#16 2#16 [0x412E#16]) := by rfl
theorem test_decode_mapConfig : decode [0x0050#16, 0x0004#16, 0xFF9C#16, 0x0032#16, 0x0064#16, 0xFFCE#16] =
    .ok (.mapConfig 0xFF9C#16 0x32#16 0x64#16 0xFFCE#16) := by rfl
theorem test_decode_mapPoint : decode [0x0051#16, 0x0002#16, 0xFFFD#16, 0x0007#16] =
    .ok (.mapPoint 0xFFFD#16 7#16) := by rfl

/-- ENC-1 to ENC-12: illegal frames. -/
theorem test_illegal_frames : ∀ f ∈ [[0x0000#16, 0x0000#16], [0x0003#16, 0x0000#16], [0x0046#16, 0x0001#16, 0x0000#16],
    [0x0245#16, 0x0000#16], [0x0145#16, 0x0000#16], [0x0101#16, 0x0003#16, 0x0001#16, 0x0002#16, 0x0003#16],
    [0x0045#16, 0x0001#16, 0x0000#16], [0x0001#16, 0x0002#16, 0x0001#16, 0x0002#16],
    [0x0049#16, 0x0004#16, 0x0000#16, 0x0000#16, 0x0000#16, 0x0000#16],
    [0x0011#16, 0x0002#16, 0x0033#16, 0x0002#16], [0x0212#16, 0x0002#16, 0x0033#16, 0x0001#16],
    [0x0033#16, 0x0002#16, 0x0002#16, 0xF800#16]], (decode f).toOption = none := by decide

/-- ENC-14 (R121). -/
theorem test_assembler_text : assembleText Config.small "BUS.WRITE.H 0x33, [0x80, 0x00]".toList =
    some [[0x0111#16, 0x0003#16, 0x0033#16, 0x0002#16, 0x8000#16]] := by decide +kernel
/-- ENC-15 (R121), FB.TEXT with its string. -/
theorem test_assembler_string : assemble Config.small
    ⟨"FB.TEXT", true, [.num 0, .num 1, .num 0xFFFF, .num 0, .text ['A', '.']]⟩ =
      some [[0x0149#16, 0x0006#16, 0x0000#16, 0x0001#16, 0xFFFF#16, 0x0000#16, 0x0002#16, 0x412E#16]] := by
  decide +kernel

/-! ## One step of each command (95_test_vectors.md, configuration CFG-S) -/

/-- CFG-S after reset. -/
def small : State := State.resetOf Board.small .cmd

/-- CFG-S after one FB.FLUSH, ready for a rectangle that gets its memory. -/
def clean : State :=
  { small with
    dirty := [(0, false), (1, false), (2, false), (3, false)]
    stale := [(0, false), (1, false), (2, false), (3, false)]
    alloc := [false] }

/-- The bus with TGT(0x33, M), or one of its faulty variants. -/
def withTarget (mem : Memory Word) (busy stretch : Nat) (nackByte : Option Nat) (s : State) : State :=
  { s with sensor := .device (Target.mk0 0x33#7 mem busy stretch nackByte) }

/-- What the step on a frame shows: the result frames it added, the number of events it added, and `f` of the state. -/
def sees {α : Type} (f : State → α) (s : State) (frame : List Word) : Option (List Reply × Nat × α) :=
  match step (s.supply frame) with
  | .next t => some (t.replies.drop s.replies.length, t.trace.length - s.trace.length, f t)
  | .fault _ | .refused _ => none

/-- The events a step on a frame adds. -/
def adds (s : State) (frame : List Word) : Option (List Event) :=
  match step (s.supply frame) with
  | .next t => some (t.trace.drop s.trace.length)
  | .fault _ | .refused _ => none

/-- The Dirty flags of the four cells. -/
def cells (s : State) : List Bool := (List.range 4).map s.dirtyAt

/-- The lines and flags of the bus. -/
def wires (s : State) : Drive × Drive × Bool × Bool := (s.sclDrv, s.sdaDrv, s.busInit, s.busHeld)

/-- The Frame pixels that are not 0x0000. -/
def lit (s : State) : List (Nat × Word) := s.frame

/-- PIX-1. -/
theorem test_pixPack : sees (fun _ => ()) small [0x0001#16, 3#16, 0x12#16, 0x34#16, 0x56#16] =
    some ([⟨.ok, [0x11AA#16]⟩], 0, ()) := by decide +kernel
/-- PIX-7. -/
theorem test_pixPack_range : sees (fun _ => ()) small [0x0001#16, 3#16, 0x100#16, 0#16, 0#16] =
    some ([⟨.badArg, []⟩], 0, ()) := by decide +kernel
/-- PIX-8. -/
theorem test_pixUnpack : sees (fun _ => ()) small [0x0002#16, 1#16, 0x11AA#16] =
    some ([⟨.ok, [0x10#16, 0x34#16, 0x50#16]⟩], 0, ()) := by decide +kernel
/-- BUS-1. -/
theorem test_busInit : sees wires small [0x0010#16, 0#16] = some ([⟨.ok, []⟩], 2, (.rel, .rel, true, false)) := by
  decide +kernel
/-- BUS-5. -/
theorem test_busWrite_nackByte :
    sees wires (withTarget [] 0 0 (some 1) small) [0x0111#16, 4#16, 0x33#16, 3#16, 0x8000#16, 0x1200#16] =
      some ([⟨.nackData, [1#16]⟩], 94, (.rel, .rel, true, false)) := by decide +kernel
/-- BUS-7. -/
theorem test_busWrite_hold : sees wires (withTarget [] 0 0 none small) [0x0111#16, 3#16, 0x33#16, 2#16, 0x8000#16] =
    some ([⟨.ok, []⟩], 91, (.low, .rel, true, true)) := by decide +kernel
/-- The trace of `sendByte(0xA5)` ACKed (41_transport.md R198). -/
theorem test_sendByte_trace : (match sendByte 0xA5#8 { small with sensor := .oracle (List.replicate 9 true ++ [false]) } with
    | .done nack t => some (nack, t.trace)
    | .timedOut _ => none) =
    some (false, [.sdaRel, .sclRel, .sclLo, .sdaLo, .sclRel, .sclLo, .sdaRel, .sclRel, .sclLo, .sdaLo, .sclRel, .sclLo,
      .sdaLo, .sclRel, .sclLo, .sdaRel, .sclRel, .sclLo, .sdaLo, .sclRel, .sclLo, .sdaRel, .sclRel, .sclLo,
      .sdaRel, .sclRel, .sample false, .sclLo]) := by decide +kernel
/-- BUS-9 from a reset bus: the byte and its odd pad. -/
theorem test_busRead : sees wires (withTarget [(0, 0xA5FF#16)] 0 0 none small) [0x0012#16, 2#16, 0x33#16, 1#16] =
    some ([⟨.ok, [0xA500#16]⟩], 67, (.rel, .rel, true, false)) := by decide +kernel
/-- ENC-13. -/
theorem test_busRead_absent : sees wires { small with sensor := .absent } [0x0112#16, 2#16, 0x33#16, 0#16] =
    some ([⟨.nackAddr, []⟩], 38, (.rel, .rel, true, false)) := by decide +kernel
/-- REG-3: two timeouts, then the word. -/
theorem test_regReadw : sees wires (withTarget [(0x2400, 0x00A1#16), (0x2401, 0xB2C3#16)] 0 2 none small)
    [0x0020#16, 3#16, 0x33#16, 0x2401#16, 1#16] =
      some ([⟨.ok, [0xB2C3#16]⟩], 193, (.rel, .rel, true, false)) := by decide +kernel
/-- REG-4. -/
theorem test_regReadw_absent : sees wires { small with sensor := .absent } [0x0020#16, 3#16, 0x33#16, 0x2400#16, 1#16] =
    some ([⟨.retryExhausted, [0xFFFF#16, 5#16]⟩], 190, (.rel, .rel, true, false)) := by decide +kernel
/-- REG-5. -/
theorem test_regWritew_stuck : sees wires { small with sensor := .stuck } [0x0021#16, 3#16, 0x33#16, 0x800D#16, 0x1901#16] =
    some ([⟨.retryExhausted, [0xFFFD#16, 5#16]⟩], 25, (.rel, .rel, false, false)) := by decide +kernel
/-- REG-6. -/
theorem test_regWritew_resent : sees (fun t => match t.sensor with | .device d => some d.mem | _ => none)
    (withTarget [] 0 0 (some 3) small) [0x0021#16, 3#16, 0x33#16, 0x800D#16, 0x1901#16] =
      some ([⟨.ok, []⟩], 300, some [(0x800D, 0x1901#16)]) := by decide +kernel
/-- DL-13. -/
theorem test_dlInit : sees (fun t => (t.dispInit, cells t)) clean [0x0030#16, 0#16] =
    some ([⟨.ok, []⟩], 43, (true, [true, true, true, true])) := by decide +kernel
/-- DL-1. -/
theorem test_dlCmd : adds small [0x0031#16, 1#16, 0x29#16] = some [.dc .cmd, .csOn, .byte 0x29#8, .csOff] := by
  decide +kernel
/-- DL-4. -/
theorem test_dlData : adds small [0x0032#16, 3#16, 3#16, 0x1234#16, 0x5600#16] =
    some [.dc .data, .csOn, .byte 0x12#8, .byte 0x34#8, .byte 0x56#8, .csOff] := by decide +kernel
/-- DL-5. -/
theorem test_dlData_pad : sees (fun _ => ()) small [0x0032#16, 2#16, 1#16, 0x5501#16] = some ([⟨.badArg, []⟩], 0, ()) := by
  decide +kernel
/-- DL-7. -/
theorem test_dlWords : adds small [0x0033#16, 4#16, 3#16, 0xF800#16, 0x07E0#16, 0x001F#16] =
    some [.dc .data, .csOn, .byte 0xF8#8, .byte 0x00#8, .byte 0x07#8, .byte 0xE0#8, .byte 0x00#8, .byte 0x1F#8, .csOff] := by
  decide +kernel
/-- DL-9. -/
theorem test_dlWindow : adds small [0x0034#16, 4#16, 4#16, 2#16, 4#16, 2#16] =
    some [.dc .cmd, .csOn, .byte 0x2A#8, .csOff, .dc .data, .csOn, .byte 0x00#8, .byte 0x04#8, .byte 0x00#8, .byte 0x04#8,
      .csOff, .dc .cmd, .csOn, .byte 0x2B#8, .csOff, .dc .data, .csOn, .byte 0x00#8, .byte 0x02#8, .byte 0x00#8,
      .byte 0x02#8, .csOff, .dc .cmd, .csOn, .byte 0x2C#8, .csOff] := by decide +kernel
/-- DL-12. -/
theorem test_dlWindow_outside : sees (fun _ => ()) small [0x0034#16, 4#16, 0#16, 0xFFFF#16, 3#16, 1#16] =
    some ([⟨.badArg, []⟩], 0, ()) := by decide +kernel
/-- FB-P4. -/
theorem test_fbPixel : sees (fun t => (lit t, cells t)) clean [0x0040#16, 3#16, 0xFFFB#16, 2#16, 0x1234#16] =
    some ([⟨.ok, []⟩], 0, ([(16, 0x1234#16)], [false, false, true, false])) := by decide +kernel
/-- FB-P3. -/
theorem test_fbGetpixel : sees (fun _ => ()) { clean with frame := [(3, 0x0005#16), (11, 0x1234#16)] }
    [0x0041#16, 2#16, 3#16, 0xFFF9#16] = some ([⟨.ok, [0x0005#16]⟩], 0, ()) := by decide +kernel
/-- FB-R3. -/
theorem test_fbRect : sees (fun t => (lit t, cells t)) clean [0x0042#16, 5#16, 0xFFF6#16, 0xFFF6#16, 1#16, 1#16, 0x07E0#16] =
    some ([⟨.ok, []⟩], 0, ([(0, 0x07E0#16), (1, 0x07E0#16), (8, 0x07E0#16), (9, 0x07E0#16)],
      [true, false, false, false])) := by decide +kernel
/-- FB-R6. -/
theorem test_fbRect_alloc : sees lit { clean with alloc := [true] } [0x0042#16, 5#16, 0#16, 0#16, 7#16, 3#16, 0x07E0#16] =
    some ([⟨.alloc, []⟩], 0, []) := by decide +kernel
/-- FB-L6. -/
theorem test_fbLine : sees (fun t => (lit t).map (·.1)) clean [0x0043#16, 5#16, 7#16, 0#16, 0#16, 3#16, 1#16] =
    some ([⟨.ok, []⟩], 0, [6, 7, 12, 13, 18, 19, 24, 25]) := by decide +kernel
/-- FB-L10, a steep line. -/
theorem test_fbLine_steep : sees (fun t => (lit t).map (·.1)) clean [0x0043#16, 5#16, 0#16, 0#16, 2#16, 3#16, 1#16] =
    some ([⟨.ok, []⟩], 0, [0, 9, 17, 26]) := by decide +kernel
/-- FB-C3. -/
theorem test_fbCircle : sees (fun t => ((lit t).map (·.1), cells t)) clean [0x0044#16, 4#16, 3#16, 2#16, 1#16, 1#16] =
    some ([⟨.ok, []⟩], 0, ([11, 18, 19, 20, 27], [true, false, true, true])) := by decide +kernel
/-- FL-1. -/
theorem test_fbFlush : sees (fun t => (cells t, t.stale.map (·.2))) small [0x0045#16, 0#16] =
    some ([⟨.ok, [4#16]⟩], 180, ([false, false, false, false], [false, false, false, false])) := by decide +kernel
/-- `clean` after FB.PIXEL 6, 3, 0xABCD. -/
def lastChanged : State :=
  { clean with frame := [(30, 0xABCD#16)], dirty := [(0, false), (1, false), (2, false)] }

/-- FL-4. -/
theorem test_fbFlush_cell : adds lastChanged [0x0045#16, 0#16] =
    some [.dc .cmd, .csOn, .byte 0x2A#8, .csOff, .dc .data, .csOn, .byte 0x00#8, .byte 0x04#8, .byte 0x00#8, .byte 0x07#8,
      .csOff, .dc .cmd, .csOn, .byte 0x2B#8, .csOff, .dc .data, .csOn, .byte 0x00#8, .byte 0x02#8, .byte 0x00#8,
      .byte 0x03#8, .csOff, .dc .cmd, .csOn, .byte 0x2C#8, .csOff, .dc .data, .csOn,
      .byte 0x00#8, .byte 0x00#8, .byte 0x00#8, .byte 0x00#8, .byte 0x00#8, .byte 0x00#8, .byte 0x00#8, .byte 0x00#8,
      .byte 0x00#8, .byte 0x00#8, .byte 0x00#8, .byte 0x00#8, .byte 0xAB#8, .byte 0xCD#8, .byte 0x00#8, .byte 0x00#8,
      .csOff] := by decide +kernel
/-- TX-6: clamped, the last write to a pixel wins. -/
theorem test_fbChar : sees lit clean [0x0048#16, 5#16, 6#16, 2#16, 0x42#16, 0xFFFF#16, 0#16] =
    some ([⟨.ok, []⟩], 0, [(22, 0xFFFF#16), (30, 0xFFFF#16)]) := by decide +kernel
/-- TX-8: transparent text "A." on an empty Frame. -/
theorem test_fbText : sees (fun t => (lit t).map (·.1)) clean
    [0x0149#16, 6#16, 0#16, 1#16, 0xFFFF#16, 0#16, 2#16, 0x412E#16] =
      some ([⟨.ok, []⟩], 0, [9, 16, 17, 18, 24, 26, 29]) := by decide +kernel
/-- TX-10. -/
theorem test_fbText_pad : sees lit clean [0x0049#16, 6#16, 0#16, 0#16, 0xFFFF#16, 0#16, 1#16, 0x4101#16] =
    some ([⟨.badArg, []⟩], 0, []) := by decide +kernel
/-- MAP-9. -/
theorem test_mapConfig : sees (fun t => (t.mapValid, t.mapA, t.mapRot)) small
    [0x0050#16, 4#16, 0xFF9C#16, 0x32#16, 0x64#16, 0xFFCE#16] =
      some ([⟨.ok, [0x5A#16]⟩], 0, (true, ⟨0xFF9C#16, 0x32#16⟩, .r90)) := by decide +kernel
/-- MAP-7. -/
theorem test_mapConfig_degenerate : sees (fun t => (t.mapValid, t.mapB)) { small with mapValid := true }
    [0x0050#16, 4#16, 2#16, 1#16, 2#16, 3#16] = some ([⟨.config, []⟩], 0, (false, ⟨0#16, 0#16⟩)) := by decide +kernel
/-- MAP-13: half up of negative halves and thirds. -/
theorem test_mapPoint : sees (fun _ => ()) { small with mapValid := true, mapB := ⟨7#16, 3#16⟩ }
    [0x0051#16, 2#16, 0xFFFF#16, 0xFFFF#16] = some ([⟨.ok, [0xFFFE#16, 0xFFFF#16]⟩], 0, ()) := by decide +kernel
/-- The mapper after MAP.CONFIG 0, 3, 7, 0. -/
def mapped90 : State := { small with mapValid := true, mapA := ⟨0#16, 3#16⟩, mapB := ⟨7#16, 0#16⟩, mapRot := .r90 }

/-- Section 1.5, 90 degrees: rows run along x. -/
theorem test_mapPoint_swapped : sees (fun _ => ()) mapped90 [0x0051#16, 2#16, 2#16, 0#16] = some ([⟨.ok, [7#16, 3#16]⟩], 0, ()) := by decide +kernel
/-- DL-15: the reference controller after a window and its words. -/
theorem test_controller : (let k := Controller.initialised.run Config.small (windowEvents Config.small 2#16 1#16 3#16 2#16 ++
      frameEvents .data (bytesOfWords [0x1111#16, 0x2222#16, 0x3333#16, 0x4444#16]))
    [k.gramAt 10, k.gramAt 11, k.gramAt 18, k.gramAt 19, k.gramAt 12]) =
    [some 0x1111#16, some 0x2222#16, some 0x3333#16, some 0x4444#16, none] := by decide +kernel

/-! ## Witnesses of the hypotheses of the obligations -/

/-- CFG-S with CLIP_MODE = DISCARD. -/
def discarding : State := State.resetOf ⟨{ Config.small with clipMode := .discard }, by decide⟩ .cmd

/-- The bus as BUS-7 leaves it. -/
def heldBus : State := { small with sclDrv := .low, busInit := true, busHeld := true }

/-- CFG-S after reset, with a bus that gives a condensed trace. -/
def acking (ts : List BusToken) : State := { small with sensor := .oracle (busAnswers ts ++ []) }

/-- A state of each kind of reset. -/
theorem witness_ResetValues : (∃ s, s = State.reset) ∧
    (∃ (s u : State) (dc : Dc), s = u.assertReset dc ∧ u ≠ s) ∧
    ∃ (s u : State) (dc : Dc) (sensor : Sensor) (alloc : List Bool) (drawn : Nat),
      s = u.resetInCommand dc sensor alloc drawn ∧ u ≠ s :=
  ⟨⟨_, rfl⟩, ⟨_, clean, .data, rfl, by decide +kernel⟩, _, clean, .data, .absent, [], 3, rfl, by decide +kernel⟩

/-- A state of each kind of reset; the input resets a state that had no reset value. -/
theorem witness_ResetHasInvariants : (∃ s, s = State.reset) ∧ (∃ s, s = State.resetOf Board.small .data) ∧
    (∃ (s u : State) (dc : Dc), s = u.assertReset dc ∧ u ≠ s) ∧
    ∃ (s u : State) (dc : Dc) (sensor : Sensor) (alloc : List Bool) (drawn : Nat),
      s = u.resetInCommand dc sensor alloc drawn ∧ u ≠ s :=
  ⟨⟨_, rfl⟩, ⟨_, rfl⟩, witness_ResetValues.2⟩

/-- The longest word array, and an odd byte array. -/
theorem witness_EncodeThenDecode : (Instr.dlWords 65534#16 (List.replicate 65534 0#16)).wf = true ∧
    (Instr.fbText true 0#16 0#16 0#16 0#16 3#16 [0x4142#16, 0x4300#16]).wf = true := by
  refine ⟨?_, by decide⟩
  rw [Instr.wf, List.length_replicate]
  rfl

theorem witness_DecodeThenEncode : decode [0x0045#16, 0x0000#16] = .ok .fbFlush := rfl

/-- A frame for each clause: RSV, the opcodes 0x00 and 0xFF, F on a flagless opcode, a wrong LEN. -/
theorem witness_IllegalFrameIsHarmless :
    ({ small with port := [0x0245#16, 0#16] } : State).port = 0x0245#16 :: 0#16 :: ([] ++ []) ∧
    ([] : List Word).length = (0#16 : Word).toNat ∧ (0x0245#16 : Word).extractLsb' 9 7 ≠ 0#7 ∧
    ((0x0000#16 : Word).extractLsb' 0 8).toNat = 0 ∧ ((0x00FF#16 : Word).extractLsb' 0 8).toNat = 0xFF ∧
    (0x0145#16 : Word).getLsbD 8 = true ∧ Opcode.fbFlush.code.toNat = ((0x0145#16 : Word).extractLsb' 0 8).toNat ∧
    Opcode.fbFlush.hasFlag = false ∧
    Opcode.busWrite.code.toNat = ((0x0011#16 : Word).extractLsb' 0 8).toNat ∧
    Opcode.busWrite.requiredLen [0x33#16, 2#16] ≠ some 2 := by decide +kernel

theorem witness_PseudoCommandsExpand : ([1#16, 2#16, 3#16, 4#16] : List Word).length ≤ 65534 ∧
    ((([1#16, 2#16, 3#16, 4#16] : List Word).length : Int) =
      (((5#16 : Word).toNat : Int) - (4#16 : Word).toNat + 1) * (((1#16 : Word).toNat : Int) - (0#16 : Word).toNat + 1)) := by
  decide

theorem witness_WaitsForWholeFrame : small.port.length < 2 ∧
    ∃ header len rest, (small.supply [0x0041#16, 2#16, 0#16]).port = header :: len :: rest ∧ rest.length < len.toNat :=
  ⟨by decide, _, _, _, rfl, by decide⟩

theorem witness_StepRunsDecodedCommand : Instr.fbFlush.wf = true ∧
    (small.supply [0x0045#16, 0#16, 0x0010#16]).port = [0x0045#16, 0#16] ++ [0x0010#16] ∧
    decode [0x0045#16, 0#16] = .ok .fbFlush := ⟨rfl, rfl, rfl⟩

theorem witness_OneReplyPerCommand : ∃ t, exec .fbFlush small = .next t := ⟨_, rfl⟩

theorem witness_StatusesPerCommand :
    (∃ t, exec .dlInit small = .next t ∧ t.replies = small.replies ++ [⟨.ok, []⟩]) ∧
    ∃ t, exec (.dlCmd 256#16) small = .next t ∧ t.replies = small.replies ++ [⟨.badArg, []⟩] :=
  ⟨⟨_, rfl, rfl⟩, _, rfl, rfl⟩

theorem witness_BadArgIsPrecise :
    ∃ t, exec (.dlCmd 256#16) small = .next t ∧ t.replies = small.replies ++ [⟨.badArg, []⟩] := ⟨_, rfl, rfl⟩

/-- The least operand each check turns away. -/
theorem witness_OperandChecks : 128 ≤ (128#16 : Word).toNat ∧ (3#16 : Word).toNat = 2 * [0x8000#16].length + 1 ∧
    (0x1201#16 : Word).toNat % 256 ≠ 0 ∧ (0#16 : Word).toNat = 0 ∧
    small.par.maxReadWords < (32768#16 : Word).toNat ∧ 256 ≤ (256#16 : Word).toNat ∧
    ¬((0#16 : Word).toNat ≤ (8#16 : Word).toNat ∧ (8#16 : Word).toNat ≤ small.par.width - 1 ∧
      (0#16 : Word).toNat ≤ (0#16 : Word).toNat ∧ (0#16 : Word).toNat ≤ small.par.height - 1) ∧
    discarding.par.clipMode = .discard ∧
    ¬(0 ≤ (8#16 : Word).toInt ∧ (8#16 : Word).toInt < discarding.par.width ∧ 0 ≤ (0#16 : Word).toInt ∧
      (0#16 : Word).toInt < discarding.par.height) := by decide +kernel

/-- The invariants hold after reset, where a step waits. -/
theorem small_step : step small = .next small := rfl
theorem small_inv0 : Inv0 small := fun _ _ _ => rfl
theorem small_inv1 : Inv1 small := fun _ _ _ _ _ => rfl

theorem witness_StepKeepsFramebufferInvariants :
    Inv0 (small.supply [0x0045#16, 0#16]) ∧ Inv1 (small.supply [0x0045#16, 0#16]) ∧
    ∃ t, step (small.supply [0x0045#16, 0#16]) = .next t := ⟨fun _ _ _ => rfl, fun _ _ _ _ _ => rfl, _, rfl⟩

theorem witness_StepKeepsMemories : MemoriesLegal lastChanged ∧ ∃ t, step (lastChanged.supply [0x0045#16, 0#16]) = .next t := by
  refine ⟨?_, _, rfl⟩
  simp only [MemoriesLegal]
  decide +kernel

theorem witness_StepKeepsLinesAndMapper : (∃ t, step (mapped90.supply [0x0010#16, 0#16]) = .next t) ∧
    BusLegal heldBus ∧ ChipSelectOff mapped90 ∧ MapperLegal mapped90 := by
  refine ⟨⟨_, rfl⟩, ?_, rfl, ?_⟩ <;> simp only [BusLegal, MapperLegal] <;> decide +kernel

/-- A command of each kind that UnitsAreSeparate tells apart. -/
theorem witness_UnitsAreSeparate : (∃ t, exec .busInit small = .next t) ∧ usesBus .busInit = true ∧
    usesDisplay .busInit = false ∧ draws .busInit = false ∧ usesBus .fbFlush = false ∧ usesDisplay .fbFlush = true ∧
    usesDisplay (.mapPoint 0#16 0#16) = false ∧ usesBus (.mapPoint 0#16 0#16) = false := ⟨⟨_, rfl⟩, by decide⟩

theorem witness_EventsAreBounded : ∃ t, exec .dlInit small = .next t := ⟨_, rfl⟩

theorem witness_PixPackResult : ((255#16 : Word).toNat ≤ 255 ∧ (0#16 : Word).toNat ≤ 255 ∧ (255#16 : Word).toNat ≤ 255) ∧
    ¬((255#16 : Word).toNat ≤ 255 ∧ (256#16 : Word).toNat ≤ 255 ∧ (0#16 : Word).toNat ≤ 255) := by decide

theorem witness_PixRoundTrip : (0#16 : Word).toNat ≤ 255 ∧ (255#16 : Word).toNat ≤ 255 ∧ (128#16 : Word).toNat ≤ 255 := by
  decide

/-- A bus that ACKs a held write of one byte to address 0x7F, the last one. -/
theorem witness_BusWriteAcked : (0x7F#16 : Word).toNat ≤ 127 ∧ [0xA5#8].length ≤ 65535 ∧
    (acking (lazyTokens small ++ writeTokens (writeByteOf 0x7F#16) [0xA5#8] true)).sensor = .oracle (busAnswers
      (lazyTokens (acking (lazyTokens small ++ writeTokens (writeByteOf 0x7F#16) [0xA5#8] true)) ++
        writeTokens (writeByteOf 0x7F#16) [0xA5#8] true) ++ []) := by decide +kernel

theorem witness_BusReadAcked : (0x00#16 : Word).toNat ≤ 127 ∧ [0xA5#8, 0x5A#8].length ≤ 65535 ∧
    (acking (lazyTokens small ++ readTokens small.par.readFinalAck (readByteOf 0#16) [0xA5#8, 0x5A#8] false)).sensor =
      .oracle (busAnswers (lazyTokens small ++
        readTokens small.par.readFinalAck (readByteOf 0#16) [0xA5#8, 0x5A#8] false) ++ []) := by decide +kernel

/-- The address refused by a write and by a read, and the last data byte refused. -/
theorem witness_BusNacked : (0x33#16 : Word).toNat ≤ 127 ∧ [0x80#8, 0x01#8].length ≤ 65535 ∧
    (acking (lazyTokens small ++ refusedTokens (writeByteOf 0x33#16))).sensor =
      .oracle (busAnswers (lazyTokens small ++ refusedTokens (writeByteOf 0x33#16)) ++ []) ∧
    (acking (lazyTokens small ++ refusedTokens (readByteOf 0x33#16))).sensor =
      .oracle (busAnswers (lazyTokens small ++ refusedTokens (readByteOf 0x33#16)) ++ []) ∧
    1 < [0x80#8, 0x01#8].length ∧
    (acking (lazyTokens small ++ cutTokens (writeByteOf 0x33#16) [0x80#8, 0x01#8] 1)).sensor =
      .oracle (busAnswers (lazyTokens small ++ cutTokens (writeByteOf 0x33#16) [0x80#8, 0x01#8] 1) ++ []) := by
  decide +kernel

/-- CFG-S after reset, with a bus that gives a condensed trace and then holds SCL low. -/
def stuckAfter (ts : List BusToken) : State := { small with sensor := .oracle (busAnswers ts ++ false :: []) }

/-- The clock stuck in the stop after a NACK, of each kind. -/
theorem witness_BusNacked_stop :
    (stuckAfter (lazyTokens small ++ (refusedTokens (writeByteOf 0x33#16)).dropLast)).sensor =
      .oracle (busAnswers (lazyTokens small ++ (refusedTokens (writeByteOf 0x33#16)).dropLast) ++ false :: []) ∧
    (stuckAfter (lazyTokens small ++ (refusedTokens (readByteOf 0x33#16)).dropLast)).sensor =
      .oracle (busAnswers (lazyTokens small ++ (refusedTokens (readByteOf 0x33#16)).dropLast) ++ false :: []) ∧
    0 < [0x80#8].length ∧
    (stuckAfter (lazyTokens small ++ (cutTokens (writeByteOf 0x33#16) [0x80#8] 0).dropLast)).sensor =
      .oracle (busAnswers (lazyTokens small ++ (cutTokens (writeByteOf 0x33#16) [0x80#8] 0).dropLast) ++ false :: []) := by
  decide +kernel

theorem witness_BusStartTimesOut : (0x7F#16 : Word).toNat ≤ 127 ∧ ([] : List Byte).length ≤ 65535 ∧
    ({ small with sensor := .oracle [false] } : State).sensor = .oracle (false :: []) ∧
    ({ small with sensor := .oracle [true, false] } : State).sensor = .oracle (true :: false :: []) := by decide +kernel

theorem witness_BusWriteEnds : (0x7F#16 : Word).toNat ≤ 127 ∧ (List.replicate 65535 0#8).length ≤ 65535 := by
  refine ⟨by decide, ?_⟩
  rw [List.length_replicate]

theorem witness_BusReadEnds : (0x7F#16 : Word).toNat ≤ 127 := by decide

/-- The operands of the REG statements at both ends of their ranges. -/
theorem witness_RegRetries : (0x7F#16 : Word).toNat ≤ 127 ∧ 1 ≤ (1#16 : Word).toNat ∧
    (1#16 : Word).toNat ≤ small.par.maxReadWords ∧ (32767#16 : Word).toNat ≤ small.par.maxReadWords := by decide +kernel

theorem witness_RegFirstAttempt : (0x33#16 : Word).toNat ≤ 127 ∧ 1 ≤ [0x1901#16].length ∧
    [0x1901#16].length ≤ small.par.maxReadWords ∧
    (acking (lazyTokens small ++ writeTokens (writeByteOf 0x33#16) [hi 0x800D#16, lo 0x800D#16] true ++
      readTokens small.par.readFinalAck (readByteOf 0x33#16) (bytesOfWords [0x1901#16]) false)).sensor =
      .oracle (busAnswers (lazyTokens small ++ writeTokens (writeByteOf 0x33#16) [hi 0x800D#16, lo 0x800D#16] true ++
        readTokens small.par.readFinalAck (readByteOf 0x33#16) (bytesOfWords [0x1901#16]) false) ++ []) ∧
    (acking (lazyTokens small ++ writeTokens (writeByteOf 0x33#16) [0x80#8, 0x0D#8, 0x19#8, 0x01#8] false)).sensor =
      .oracle (busAnswers (lazyTokens small ++ writeTokens (writeByteOf 0x33#16)
        [hi 0x800D#16, lo 0x800D#16, hi 0x1901#16, lo 0x1901#16] false) ++ []) := by decide +kernel

theorem witness_RegAgainstDeadBus : (0x33#16 : Word).toNat ≤ 127 ∧ 1 ≤ (1#16 : Word).toNat ∧
    (1#16 : Word).toNat ≤ ({ small with sensor := .absent } : State).par.maxReadWords ∧
    ({ small with sensor := .absent } : State).sensor = .absent ∧
    ({ small with sensor := .stuck } : State).sensor = .stuck ∧ small.par.maxAttempts ≤ 65535 := by decide +kernel

theorem witness_RegNeverHoldsBus : ∃ a addr value : Word,
    Instr.regWritew 0x7F#16 0#16 0#16 = .regWritew a addr value ∧ a.toNat ≤ 127 := ⟨_, _, _, rfl, by decide⟩

theorem witness_TargetReadsBackWrites : (0x33#16 : Word).toNat ≤ 127 ∧ (withTarget [] 0 0 none small).sensor =
    .device (Target.mk0 ((0x33#16 : Word).extractLsb' 0 7) [] 0 0 none) := by decide +kernel

theorem witness_DlCmdResult : (255#16 : Word).toNat ≤ 255 ∧ 256 ≤ (256#16 : Word).toNat := by decide

/-- The longest and the empty array, and an odd one with a nonzero pad byte. -/
theorem witness_DlDataResult : (List.replicate 65535 0#8).length ≤ 65535 ∧ ([] : List Byte).length ≤ 65535 ∧
    (1#16 : Word).toNat = 2 * ([] : List Word).length + 1 ∧ (0x1201#16 : Word).toNat % 256 ≠ 0 := by
  rw [List.length_replicate]
  decide

theorem witness_DlWordsResult : (List.replicate 65534 0#16).length ≤ 65534 ∧ ([] : List Word).length ≤ 65534 := by
  rw [List.length_replicate]
  decide

/-- The whole display is a window; one column more is none. -/
theorem witness_DlWindowResult :
    ((0#16 : Word).toNat ≤ (7#16 : Word).toNat ∧ (7#16 : Word).toNat ≤ small.par.width - 1 ∧
      (0#16 : Word).toNat ≤ (3#16 : Word).toNat ∧ (3#16 : Word).toNat ≤ small.par.height - 1) ∧
    ¬((0#16 : Word).toNat ≤ (8#16 : Word).toNat ∧ (8#16 : Word).toNat ≤ small.par.width - 1 ∧
      (0#16 : Word).toNat ≤ (3#16 : Word).toNat ∧ (3#16 : Word).toNat ≤ small.par.height - 1) := by decide +kernel

theorem witness_DlInitResult : 3 < small.par.cells ∧ small.par.cells ≤ 4 := by decide +kernel

theorem witness_WindowWriteLaw : WindowCodesDistinct small.par ∧ Controller.initialised.ready = true ∧
    (0#16 : Word).toNat ≤ (7#16 : Word).toNat ∧ (7#16 : Word).toNat ≤ small.par.width - 1 ∧
    (3#16 : Word).toNat ≤ (3#16 : Word).toNat ∧ (3#16 : Word).toNat ≤ small.par.height - 1 ∧
    (List.replicate 8 0xFFFF#16).length ≤ 65534 ∧ (List.replicate 8 0xFFFF#16).length =
      ((7#16 : Word).toNat - (0#16 : Word).toNat + 1) * ((3#16 : Word).toNat - (3#16 : Word).toNat + 1) := by
  simp only [WindowCodesDistinct]
  decide +kernel

/-- Both modes, the last point inside and the first one outside. -/
theorem witness_ClipPoint : Board.small.val.clipMode = .clamp ∧ discarding.cfg.val.clipMode = .discard ∧
    (0 ≤ (7 : Int) ∧ (7 : Int) < discarding.cfg.val.width ∧ 0 ≤ (3 : Int) ∧ (3 : Int) < discarding.cfg.val.height) ∧
    ¬(0 ≤ (8 : Int) ∧ (8 : Int) < discarding.cfg.val.width ∧ 0 ≤ (3 : Int) ∧ (3 : Int) < discarding.cfg.val.height) ∧
    clipPoint Board.small.val (-1) 4 = some (0, 3) := by decide +kernel

theorem witness_FbPixelResult : clipPoint discarding.par (8#16 : Word).toInt (0#16 : Word).toInt = none ∧
    clipPoint small.par (7#16 : Word).toInt (3#16 : Word).toInt = some (7, 3) := by decide +kernel

theorem witness_FbGetpixelResult : clipPoint discarding.par (0xFFFF#16 : Word).toInt (0#16 : Word).toInt = none ∧
    clipPoint small.par (0xFFFF#16 : Word).toInt (4#16 : Word).toInt = some (0, 3) := by decide +kernel

/-- An allocation that fails, and one that does not. -/
theorem witness_FbRectResult : ({ small with alloc := [true] } : State).allocFails = true ∧ clean.allocFails = false ∧
    small.par.fillrectMayFail = true := ⟨rfl, rfl, rfl⟩

/-- A shallow line, one on the diagonal (the boundary of the two clauses), and a steep one; each with its last point. -/
theorem witness_FbLineResult :
    |(1#16 : Word).toInt - (3#16 : Word).toInt| ≤ (7#16 : Word).toInt - (0#16 : Word).toInt ∧
    |(3#16 : Word).toInt - (0#16 : Word).toInt| ≤ (3#16 : Word).toInt - (0#16 : Word).toInt ∧
    |(0#16 : Word).toInt - (2#16 : Word).toInt| < (3#16 : Word).toInt - (0#16 : Word).toInt ∧
    7 < (linePoints 0 3 7 1).length ∧ 3 < (linePoints 0 0 3 3).length ∧ 3 < (linePoints 2 0 0 3).length := by
  decide +kernel

theorem witness_FbCircleAnySet : (0xFFFF#16 : Word).toInt < 0 ∧ 0 ≤ (0#16 : Word).toInt ∧ 0 ≤ (32767#16 : Word).toInt ∧
    clipPoint small.par (3#16 : Word).toInt (2#16 : Word).toInt = some (3, 2) := by decide +kernel

theorem witness_FbCircleDisk : small.par.circleSet = .disk ∧ 0 ≤ (0#16 : Word).toInt := by decide +kernel

/-- The last place of a glyph inside the Frame. -/
theorem witness_FbCharResult : (255#16 : Word).toNat ≤ 255 ∧ 0 ≤ (5#16 : Word).toInt ∧
    (5#16 : Word).toInt + small.par.glyphW ≤ small.par.width ∧ 0 ≤ (1#16 : Word).toInt ∧
    (1#16 : Word).toInt + small.par.glyphH ≤ small.par.height ∧ 256 ≤ (256#16 : Word).toNat := by decide +kernel

theorem witness_FbTextResult : [0x41#8, 0x42#8].length ≤ 65535 ∧
    (32759#16 : Word).toInt + ([0x41#8, 0x42#8].length : Int) * small.par.advance ≤ 32767 ∧
    (3#16 : Word).toNat = 2 * [0x4142#16].length + 1 ∧ (0x4301#16 : Word).toNat % 256 ≠ 0 := by decide +kernel

theorem witness_FbFlushResult : Inv0 small ∧ Inv1 small := ⟨small_inv0, small_inv1⟩

theorem witness_FlushGuarantee : WindowCodesDistinct small.par ∧ Controller.initialised.ready = true ∧ Inv0 small ∧
    Inv1 small ∧ Inv2 Controller.initialised small := by
  refine ⟨?_, rfl, small_inv0, small_inv1, fun _ _ _ _ h => by cases h⟩
  simp only [WindowCodesDistinct]
  decide +kernel

theorem witness_DisplayShowsFrame : WindowCodesDistinct small.par ∧ small.par.cmdDispon ≠ small.par.cmdSwreset ∧
    ∀ i ∈ [Instr.fbPixel 1#16 1#16 0x07E0#16, .fbFlush, .dlInit], rawDisplay i = false := by
  simp only [WindowCodesDistinct]
  decide +kernel

/-- Commands for each clause: for the second, a pixel drawn and drawn back. -/
theorem witness_FlushIsIdempotent :
    (∀ i ∈ [Instr.mapPoint 0#16 0#16, .dlCmd 0x29#16], draws i = false ∧ i ≠ .dlInit) ∧ Inv0 small ∧ Inv1 small ∧
    (∀ i ∈ [Instr.fbPixel 0#16 0#16 1#16, .fbPixel 0#16 0#16 0#16], i ≠ .dlInit) ∧
    ∃ t, runCommands [Instr.fbFlush, .fbPixel 0#16 0#16 1#16, .fbPixel 0#16 0#16 0#16] small = .next t ∧
      t.frame = [] ∧ t.baseline = [] ∧ t.dirtyAt 0 = true :=
  ⟨by decide, small_inv0, small_inv1, by decide, _, rfl, rfl, rfl, rfl⟩

theorem witness_FirstFlushSendsEveryCell : (∃ (b : Board) (dc : Dc), small = State.resetOf b dc) ∧
    (∃ u s, exec .dlInit u = .next s) ∧ (∀ i ∈ [Instr.fbPixel 1#16 1#16 0x07E0#16], i ≠ .fbFlush) ∧
    ∃ t, runCommands [Instr.fbPixel 1#16 1#16 0x07E0#16] small = .next t :=
  ⟨⟨_, _, rfl⟩, ⟨small, _, rfl⟩, by decide, _, rfl⟩

theorem witness_MapConfigResult : ((4#16 : Word) = 4#16 ∨ (4#16 : Word) = 9#16) ∧ (0#16 : Word) ≠ 7#16 ∧
    (3#16 : Word) ≠ 0#16 ∧ (0#16 : Word).toInt < (7#16 : Word).toInt ∧ (0#16 : Word).toInt < (3#16 : Word).toInt := by decide

/-- A point of a configured mapper that fits s16, and one that does not. -/
theorem witness_MapPointResult : small.mapValid = false ∧ mapped90.mapValid = true ∧
    (-32768 ≤ (mapXY mapped90 2 3).1 ∧ (mapXY mapped90 2 3).1 ≤ 32767) ∧ ¬ (mapXY mapped90 32767 0).1 ≤ 32767 := by
  decide +kernel

theorem witness_MapCorners : 2 ≤ small.par.width ∧ 2 ≤ small.par.height ∧ small.par.sensorMaxRow ≤ 32767 ∧
    small.par.sensorMaxCol ≤ 32767 := by decide +kernel

theorem witness_MapBetweenAndMonotone : mapped90.mapValid = true ∧ 0 ≤ (2#16 : Word).toInt ∧
    (2#16 : Word).toInt ≤ mapped90.par.sensorMaxRow ∧ 0 ≤ (3#16 : Word).toInt ∧
    (3#16 : Word).toInt ≤ mapped90.par.sensorMaxCol ∧
    exec (.mapPoint 2#16 0#16) mapped90 = .next { mapped90 with replies := [⟨.ok, [7#16, 3#16]⟩] } :=
  ⟨rfl, by decide +kernel, by decide +kernel, by decide +kernel, by decide +kernel, rfl⟩

/-- A drawing command and DL.INIT, and a step that runs FB.FLUSH. -/
theorem witness_StepKeepsDisplayInvariant : WindowCodesDistinct small.par ∧ Controller.initialised.ready = true ∧
    Inv0 small ∧ Inv1 small ∧ Inv2 Controller.initialised small ∧
    (rawDisplay (.fbPixel 1#16 1#16 1#16) = false ∧
      ∃ t, exec (.fbPixel 1#16 1#16 1#16) small = .next t ∧ t.trace = small.trace ++ []) ∧
    (rawDisplay .dlInit = false ∧ small.par.cmdDispon ≠ small.par.cmdSwreset ∧
      ∃ t, exec .dlInit small = .next t ∧ t.trace = small.trace ++ initSequenceEvents small.par) ∧
    (∀ i frame rest, ({ small with port := [0x0045#16, 0#16] } : State).port = frame ++ rest → decode frame = .ok i →
      rawDisplay i = false) ∧
    ∃ t, step { small with port := [0x0045#16, 0#16] } = .next t ∧
      t.trace = small.trace ++ (cellsInOrder small.par).flatMap (cellEvents small) := by
  obtain ⟨h1, h2, h3, h4, h5⟩ := witness_FlushGuarantee
  refine ⟨h1, h2, h3, h4, h5, ⟨rfl, _, rfl, rfl⟩, ⟨rfl, by decide +kernel, _, rfl, by decide +kernel⟩, ?_,
    _, rfl, by decide +kernel⟩
  intro i frame rest hp hd
  change [0x0045#16, 0#16] = frame ++ rest at hp
  match frame with
  | [] => cases hd
  | [_] => cases hd
  | [a, b] =>
    simp only [List.cons_append, List.nil_append, List.cons.injEq] at hp
    obtain ⟨rfl, rfl, -⟩ := hp
    cases hd
    rfl
  | _ :: _ :: _ :: _ => simp at hp

/-- The window of one cell; three of its words, a command between, one byte of DL.DATA between. -/
theorem witness_WindowCountHazards : WindowCodesDistinct small.par ∧ Controller.initialised.ready = true ∧
    (4#16 : Word).toNat ≤ (7#16 : Word).toNat ∧ (7#16 : Word).toNat ≤ small.par.width - 1 ∧
    (0#16 : Word).toNat ≤ (1#16 : Word).toNat ∧ (1#16 : Word).toNat ≤ small.par.height - 1 ∧
    ([1#16, 2#16, 3#16] : List Word).length ≤ ((7#16 : Word).toNat - (4#16 : Word).toNat + 1) *
      ((1#16 : Word).toNat - (0#16 : Word).toNat + 1) ∧
    ((0x2A#16 : Word).toNat ≤ 255 ∧ lo 0x2A#16 ≠ small.par.cmdRamwr ∧ lo 0x2A#16 ≠ small.par.cmdSwreset) ∧
    ([0x55#8] : List Byte) ≠ [] := by
  simp only [WindowCodesDistinct]
  decide +kernel

/-- R461: a DL.DATA between ends the pixel mode; the words after it land nowhere. -/
theorem test_controller_dlData : (let k := (Controller.initialised.run Config.small
      (windowEvents Config.small 2#16 1#16 3#16 2#16 ++ frameEvents .data (bytesOfWords [0x1111#16])))
    let k := k.runCommand Config.small (.dlData 1#16 [0x5500#16]) (frameEvents .data [0x55#8])
    let k' := k.runCommand Config.small (.dlWords 1#16 [0x2222#16]) (frameEvents .data (bytesOfWords [0x2222#16]))
    (k.mode, [k'.gramAt 10, k'.gramAt 11, k'.gramAt 18, k'.gramAt 19])) = (.idle, [none, none, none, none]) := by decide +kernel

end Sys2Proof.Tests
end

section
/-! The framebuffer memories under the commands: what a command may write of Frame, Baseline, Dirty and Stale
(10_state.md R46). -/

namespace Sys2Proof.Machine

/-! ## Commands that write no framebuffer memory -/

/-- The parameters and the four framebuffer memories are the same. -/
def SameFramebuffer (s t : State) : Prop :=
  t.cfg = s.cfg ∧ t.frame = s.frame ∧ t.baseline = s.baseline ∧ t.dirty = s.dirty ∧ t.stale = s.stale

theorem SameFramebuffer.refl (s : State) : SameFramebuffer s s := ⟨rfl, rfl, rfl, rfl, rfl⟩

theorem SameFramebuffer.trans {s t u : State} (h1 : SameFramebuffer s t) (h2 : SameFramebuffer t u) :
    SameFramebuffer s u := by
  obtain ⟨c1, f1, b1, d1, m1⟩ := h1
  obtain ⟨c2, f2, b2, d2, m2⟩ := h2
  exact ⟨c2.trans c1, f2.trans f1, b2.trans b1, d2.trans d1, m2.trans m1⟩

theorem SameFramebuffer.par {s t : State} (h : SameFramebuffer s t) : t.par = s.par := by
  obtain ⟨hcfg, -⟩ := h
  rw [State.par, State.par, hcfg]

theorem SameFramebuffer.reply {s t : State} (h : SameFramebuffer s t) (r : Reply) : SameFramebuffer s (t.reply r) := h

theorem SameFramebuffer.finish {s t : State} (h : SameFramebuffer s t) (ws : List Word) :
    SameFramebuffer s (t.finish ws) := h

theorem sameFramebuffer_takeFrame (s : State) (rest : List Word) : SameFramebuffer s (s.takeFrame rest) :=
  SameFramebuffer.refl s

theorem OnlyBus.sameFramebuffer {s t : State} (h : OnlyBus s t) : SameFramebuffer s t := by
  rw [OnlyBus] at h
  rw [h]
  exact SameFramebuffer.refl s

theorem OnlyDisplay.sameFramebuffer {s t : State} (h : OnlyDisplay s t) : SameFramebuffer s t := by
  rw [OnlyDisplay] at h
  rw [h]
  exact SameFramebuffer.refl s

/-! ### The bus (41_transport.md, 42_register_access.md) -/

theorem busWrite_onlyBus (a : Word) (bytes : List Byte) (hold : Bool) (s : State) :
    OnlyBus s (busWrite a bytes hold s).2 := by
  rcases busWrite_ends a bytes hold s with h | ⟨-, h⟩
  · exact h.moved.1
  · exact h.moved.1

theorem busRead_onlyBus (a : Word) (n : Nat) (hold : Bool) (s : State) : OnlyBus s (busRead a n hold s).2 := by
  rcases busRead_ends a n hold s with h | ⟨-, h⟩
  · exact h.moved.1
  · exact h.moved.1

/-- A retried transaction touches the bus side alone when each attempt does and releases the bus (R230). -/
theorem retry_onlyBus (tx : State → Reply × State) (n : Nat) (htx : ∀ s, Moved n s (tx s).2 ∧ Released (tx s).2)
    (s : State) : OnlyBus s (retry tx s).2 := by
  have hattempts : 1 ≤ s.par.maxAttempts := board_maxAttempts s.cfg
  obtain ⟨hmoved, -⟩ := retryLoop_moved tx n htx s.par.maxAttempts .ok s fun h => by omega
  exact hmoved.1

theorem retry_txReadWords_onlyBus (a start count : Word) (s : State) :
    OnlyBus s (retry (txReadWords a start count) s).2 :=
  retry_onlyBus _ _ (fun u => by
    obtain ⟨hmoved, hreleased, -⟩ := txReadWords_spec a start count u
    exact ⟨hmoved, hreleased⟩) s

theorem retry_txWriteWord_onlyBus (a addr value : Word) (s : State) :
    OnlyBus s (retry (txWriteWord a addr value) s).2 :=
  retry_onlyBus _ _ (fun u => by
    obtain ⟨hmoved, hreleased, -⟩ := txWriteWord_spec a addr value u
    exact ⟨hmoved, hreleased⟩) s

/-! ### The display link (43_display_link.md) -/

theorem sendCommand_onlyDisplay (code : Byte) (s : State) : OnlyDisplay s (sendCommand code s) := by
  rw [sendCommand_eq]
  rfl

theorem sendData_onlyDisplay (bytes : List Byte) (s : State) : OnlyDisplay s (sendData bytes s) := by
  by_cases h : bytes = []
  · rw [h, sendData_nil]
    exact OnlyDisplay.refl s
  · rw [sendData_eq h]
    rfl

theorem setWindow_onlyDisplay (x0 y0 x1 y1 : Word) (s : State) : OnlyDisplay s (setWindow x0 y0 x1 y1 s) := by
  rw [setWindow_eq]
  rfl

theorem initSequence_onlyDisplay (s : State) : OnlyDisplay s (initSequence s) := by
  rw [initSequence_eq]
  rfl

/-! ## What a command writes of the framebuffer memories -/

/-- The draw of FB.RECT's allocation (44_framebuffer.md R311). -/
theorem sameFramebuffer_rectAllocation (s : State) : SameFramebuffer s (rectAllocation s).2 := by
  rw [rectAllocation]
  split
  · rw [State.drawAlloc]
    split <;> exact SameFramebuffer.refl s
  · exact SameFramebuffer.refl s

/-- The ways a command writes the framebuffer memories (10_state.md R46): not at all; a sequence of PLOT calls; all
flags set, by DL.INIT; the flush loop. -/
inductive FramebufferWrite (s t : State) : Prop
  | none (h : SameFramebuffer s t)
  | plots (u : State) (ps : List Plot) (hu : SameFramebuffer s u) (ht : SameFramebuffer (u.plotAll ps) t)
  | marks (u : State) (hu : SameFramebuffer s u) (ht : SameFramebuffer (markAllCells u) t)
  | flushes (u : State) (hu : SameFramebuffer s u) (ht : SameFramebuffer (flushAll u).1 t)

theorem SameFramebuffer.trans_write {s u t : State} (hu : SameFramebuffer s u) (h : FramebufferWrite u t) :
    FramebufferWrite s t := by
  cases h with
  | none ht => exact .none (hu.trans ht)
  | plots v ps hv ht => exact .plots v ps (hu.trans hv) ht
  | marks v hv ht => exact .marks v (hu.trans hv) ht
  | flushes v hv ht => exact .flushes v (hu.trans hv) ht

/-- A drawing command without a check or a draw. -/
theorem framebufferWrite_plotAll (s : State) (ps : List Plot) (ws : List Word) :
    FramebufferWrite s ((s.plotAll ps).finish ws) :=
  .plots s ps (.refl s) ((SameFramebuffer.refl _).finish ws)

/-- A check that fails only returns a result frame (30_encoding.md R119). -/
theorem framebufferWrite_checked {s : State} (ok : Bool) {run : State → State} (h : FramebufferWrite s (run s)) :
    FramebufferWrite s (s.checked ok run) := by
  rw [State.checked]
  split
  · exact h
  · exact .none (.refl s)

/-- Every command writes the framebuffer memories in one of these ways. -/
theorem exec_framebufferWrite {i : Instr} {s t : State} (h : exec i s = .next t) : FramebufferWrite s t := by
  cases i with
  | pixPack r g b =>
    cases h
    exact framebufferWrite_checked _ (.none (.refl s))
  | pixUnpack c =>
    cases h
    exact .none (.refl s)
  | busInit =>
    cases h
    exact .none ((initBus_spec s).1.sameFramebuffer.finish _)
  | busWrite hold a n data =>
    cases h
    exact framebufferWrite_checked _ (.none ((busWrite_onlyBus a _ hold s).sameFramebuffer.reply _))
  | busRead hold a n =>
    cases h
    exact framebufferWrite_checked _ (.none ((busRead_onlyBus a _ hold s).sameFramebuffer.reply _))
  | regReadw a start count =>
    cases h
    exact framebufferWrite_checked _ (.none ((retry_txReadWords_onlyBus a start count s).sameFramebuffer.reply _))
  | regWritew a addr value =>
    cases h
    exact framebufferWrite_checked _ (.none ((retry_txWriteWord_onlyBus a addr value s).sameFramebuffer.reply _))
  | dlInit =>
    cases h
    exact .marks { initSequence s with dispInit := true } (initSequence_onlyDisplay s).sameFramebuffer
      ((SameFramebuffer.refl _).finish _)
  | dlCmd code =>
    cases h
    exact framebufferWrite_checked _ (.none ((sendCommand_onlyDisplay _ s).sameFramebuffer.finish _))
  | dlData n data =>
    cases h
    exact framebufferWrite_checked _ (.none ((sendData_onlyDisplay _ s).sameFramebuffer.finish _))
  | dlWords n words =>
    cases h
    exact .none ((sendData_onlyDisplay _ s).sameFramebuffer.finish _)
  | dlWindow x0 y0 x1 y1 =>
    cases h
    exact framebufferWrite_checked _ (.none ((setWindow_onlyDisplay x0 y0 x1 y1 s).sameFramebuffer.finish _))
  | fbPixel x y c =>
    cases h
    exact framebufferWrite_plotAll s [plotOf x y c] []
  | fbGetpixel x y =>
    cases h
    refine .none ?_
    split <;> exact .refl s
  | fbRect x0 y0 x1 y1 c =>
    cases h
    have hu := sameFramebuffer_rectAllocation s
    split
    · exact .none (hu.reply _)
    · exact .plots _ _ hu ((SameFramebuffer.refl _).finish _)
  | fbLine x0 y0 x1 y1 c =>
    cases h
    exact framebufferWrite_plotAll s _ []
  | fbCircle cx cy r c =>
    cases h
    exact framebufferWrite_plotAll s _ []
  | fbFlush =>
    cases h
    exact .flushes s (.refl s) ((SameFramebuffer.refl _).finish _)
  | fbChar transp x y ch fg bg =>
    cases h
    exact framebufferWrite_checked _ (framebufferWrite_plotAll s _ [])
  | fbText transp x y fg bg n chars =>
    cases h
    exact framebufferWrite_checked _ (framebufferWrite_plotAll s _ [])
  | mapConfig ax ay bx byy =>
    cases h
    refine .none ?_
    split <;> exact .refl s
  | mapPoint row col =>
    cases h
    exact framebufferWrite_checked _ (.none (.refl s))

/-- A step waits, refuses an illegal frame, or executes a command; in each case it writes the framebuffer memories in
one of these ways. -/
theorem step_framebufferWrite {s t : State} (h : step s = .next t) : FramebufferWrite s t := by
  rw [step] at h
  split at h
  · cases h
    exact .none (.refl s)
  · split at h
    · cases h
      exact .none (.refl s)
    · exact (sameFramebuffer_takeFrame s _).trans_write (exec_framebufferWrite h)

end Sys2Proof.Machine
end

section
/-! INV0 and INV1 under each way of writing the framebuffer memories, and under every step (10_state.md R44). -/

namespace Sys2Proof.Machine

/-! ## Nothing written -/

theorem Inv0.of_sameFramebuffer {s t : State} (h0 : Inv0 s) (h : SameFramebuffer s t) : Inv0 t := by
  have hpar := h.par
  obtain ⟨-, -, -, hdirty, hstale⟩ := h
  simpa only [Inv0, State.dirtyAt, State.staleAt, hpar, hdirty, hstale] using h0

theorem Inv1.of_sameFramebuffer {s t : State} (h1 : Inv1 s) (h : SameFramebuffer s t) : Inv1 t := by
  have hpar := h.par
  obtain ⟨-, hframe, hbaseline, hdirty, -⟩ := h
  simpa only [Inv1, State.frameAt, State.baselineAt, State.dirtyAt, hpar, hframe, hbaseline, hdirty] using h1

/-! ## All flags set (43_display_link.md R270) -/

theorem markAllCells_par (s : State) : (markAllCells s).par = s.par := by
  rw [markAllCells_only]
  rfl

/-- Every cell of the grid is dirty then, so both invariants hold whatever held before. -/
theorem markAllCells_inv0 (s : State) : Inv0 (markAllCells s) := by
  intro k hk _
  rw [markAllCells_par] at hk
  rw [dirtyAt_markAllCells, if_pos hk]

theorem markAllCells_inv1 (s : State) : Inv1 (markAllCells s) := by
  intro x y hx hy _
  rw [markAllCells_par] at hx hy ⊢
  have hcell : cellOf s.par x y < s.par.cells := cellOf_lt s.cfg hx hy
  rw [dirtyAt_markAllCells, if_pos hcell]

/-! ## The flush (44_framebuffer.md R340) -/

/-- Every cell number below GW*GH is the number of a cell of the grid (20_memory.md R82). -/
theorem exists_cellNo_eq {c : Config} {k : Nat} (hk : k < c.cells) :
    ∃ g : Nat × Nat, (g.1 < c.gridW ∧ g.2 < c.gridH) ∧ cellNo c g = k := by
  rw [Config.cells] at hk
  have hw : 0 < c.gridW := Nat.pos_of_mul_pos_right (Nat.zero_lt_of_lt hk)
  exact ⟨(k % c.gridW, k / c.gridW), ⟨Nat.mod_lt k hw, Nat.div_lt_of_lt_mul hk⟩, Nat.div_add_mod' k c.gridW⟩

theorem mem_sentOf {s : State} {gs : List (Nat × Nat)} {g : Nat × Nat} :
    g ∈ sentOf s gs ↔ g ∈ gs ∧ cellMustGo s g.1 g.2 = true := List.mem_filter

theorem flushAll_par (s : State) : (flushAll s).1.par = s.par := by
  obtain ⟨⟨honly, -⟩, -⟩ := flushAll_spec s
  rw [honly]
  rfl

theorem frameAt_flushAll (s : State) (p : Nat) : (flushAll s).1.frameAt p = s.frameAt p := by
  obtain ⟨⟨honly, -⟩, -⟩ := flushAll_spec s
  rw [honly]
  rfl

/-- With INV0 a flush sends every stale cell, so none is stale after it. -/
theorem staleAt_flushAll {s : State} (h0 : Inv0 s) {k : Nat} (hk : k < s.par.cells) :
    (flushAll s).1.staleAt k = false := by
  obtain ⟨⟨-, -, -, -, hstale, -⟩, -⟩ := flushAll_spec s
  rw [hstale]
  obtain ⟨g, hg, rfl⟩ := exists_cellNo_eq hk
  split
  case isTrue => rfl
  case isFalse hkept =>
    rw [Bool.eq_false_iff]
    intro hs
    have hgo : cellMustGo s g.1 g.2 = true := (cellMustGo_iff s g.1 g.2).mpr ⟨h0 _ hk hs, .inl hs⟩
    exact hkept (List.mem_map_of_mem (mem_sentOf.mpr ⟨(mem_cellsInOrder _ g).mpr hg, hgo⟩))

/-- With INV1 a flush sends every cell with a pixel that differs, so Baseline is the Frame after it. -/
theorem baselineAt_flushAll {s : State} (h1 : Inv1 s) {x y : Nat} (hx : x < s.par.width) (hy : y < s.par.height) :
    (flushAll s).1.baselineAt (idx s.par x y) = s.frameAt (idx s.par x y) := by
  obtain ⟨⟨-, -, -, -, -, hbaseline⟩, -⟩ := flushAll_spec s
  rw [hbaseline]
  split
  case isTrue => rfl
  case isFalse hkept =>
    by_contra hne
    have hdiffers := Ne.symm hne
    have hmem : (x, y) ∈ cellPixels s.par (x / s.par.cellW) (y / s.par.cellH) := mem_own_cell s.cfg x y
    have hgo : cellMustGo s (x / s.par.cellW) (y / s.par.cellH) = true :=
      (cellMustGo_iff s _ _).mpr ⟨h1 x y hx hy hdiffers, .inr ⟨(x, y), hmem, hdiffers⟩⟩
    have hgrid : (x / s.par.cellW, y / s.par.cellH) ∈ cellsInOrder s.par :=
      (mem_cellsInOrder _ _).mpr ⟨cellX_lt s.cfg hx, cellY_lt s.cfg hy⟩
    exact hkept ⟨_, mem_sentOf.mpr ⟨hgrid, hgo⟩, (x, y), hmem, rfl⟩

theorem flushAll_inv0 {s : State} (h0 : Inv0 s) : Inv0 (flushAll s).1 := by
  intro k hk hs
  rw [flushAll_par] at hk
  rw [staleAt_flushAll h0 hk] at hs
  cases hs

theorem flushAll_inv1 {s : State} (h1 : Inv1 s) : Inv1 (flushAll s).1 := by
  intro x y hx hy hne
  rw [flushAll_par] at hx hy hne
  rw [frameAt_flushAll, baselineAt_flushAll h1 hx hy] at hne
  exact absurd rfl hne

/-! ## Every write, every step, every reset state -/

theorem FramebufferWrite.inv0 {s t : State} (h : FramebufferWrite s t) (h0 : Inv0 s) : Inv0 t := by
  cases h with
  | none ht => exact h0.of_sameFramebuffer ht
  | plots u ps hu ht => exact (plotAll_inv0 (h0.of_sameFramebuffer hu) ps).of_sameFramebuffer ht
  | marks u hu ht => exact (markAllCells_inv0 u).of_sameFramebuffer ht
  | flushes u hu ht => exact (flushAll_inv0 (h0.of_sameFramebuffer hu)).of_sameFramebuffer ht

theorem FramebufferWrite.inv1 {s t : State} (h : FramebufferWrite s t) (h1 : Inv1 s) : Inv1 t := by
  cases h with
  | none ht => exact h1.of_sameFramebuffer ht
  | plots u ps hu ht => exact (plotAll_inv1 (h1.of_sameFramebuffer hu) ps).of_sameFramebuffer ht
  | marks u hu ht => exact (markAllCells_inv1 u).of_sameFramebuffer ht
  | flushes u hu ht => exact (flushAll_inv1 (h1.of_sameFramebuffer hu)).of_sameFramebuffer ht

/-- After reset every flag reads 1 (70_reset_and_hazards.md R451). -/
theorem dirtyAt_resetOf (b : Board) (dc : Dc) (k : Nat) : (State.resetOf b dc).dirtyAt k = true := rfl

theorem inv0_resetOf (b : Board) (dc : Dc) : Inv0 (State.resetOf b dc) := fun _ _ _ => dirtyAt_resetOf b dc _

theorem inv1_resetOf (b : Board) (dc : Dc) : Inv1 (State.resetOf b dc) := fun _ _ _ _ _ => dirtyAt_resetOf b dc _

/-- Settles O15: all flags are set at reset, and each way a step can write the framebuffer memories keeps both
invariants. -/
theorem stepKeepsFramebufferInvariants : Obligations.StepKeepsFramebufferInvariants := by
  refine ⟨fun b dc => ⟨inv0_resetOf b dc, inv1_resetOf b dc⟩, fun s t h0 h1 hstep => ?_⟩
  have hwrite : FramebufferWrite s t := step_framebufferWrite hstep
  exact ⟨hwrite.inv0 h0, hwrite.inv1 h1⟩

end Sys2Proof.Machine
end

section
/-! The result of decoding, taken apart: what every legal frame has, so that a frame without it is illegal; and the frame
of a command decodes to the command (30_encoding.md R115-R118). -/

namespace Sys2Proof

/-- The checks of R115 that every legal frame has passed. -/
theorem decode_ok_fields {header len : Word} {ops : List Word} {i : Instr} (h : decode (header :: len :: ops) = .ok i) :
    rsvOf header = 0#7 ∧ ∃ o : Opcode, opcodeOf (opOf header) = some o ∧
      (flagOf header = true → o.hasFlag = true) ∧ o.requiredLen ops = some len.toNat := by
  rw [decode] at h
  split at h
  case isTrue => cases h
  split at h
  case isTrue => cases h
  case isFalse hrsv =>
  split at h
  case h_1 => cases h
  case h_2 o ho =>
  split at h
  case isTrue => cases h
  case isFalse hflag =>
  split at h
  case isTrue => cases h
  case isFalse hlen =>
  exact ⟨not_not.mp hrsv, o, ho, by simpa using hflag, not_not.mp hlen⟩

/-- The OP bytes that R117 does not assign, as ranges. -/
def ReservedOp (op : Nat) : Prop :=
  op = 0x00 ∨ (0x03 ≤ op ∧ op ≤ 0x0F) ∨ (0x13 ≤ op ∧ op ≤ 0x1F) ∨ (0x22 ≤ op ∧ op ≤ 0x2F) ∨
    (0x35 ≤ op ∧ op ≤ 0x3F) ∨ (0x46 ≤ op ∧ op ≤ 0x47) ∨ (0x4A ≤ op ∧ op ≤ 0x4F) ∨ (0x52 ≤ op ∧ op ≤ 0xFF)

theorem not_reservedOp_code (o : Opcode) : ¬ ReservedOp o.code.toNat := by
  cases o <;> simp [ReservedOp, Opcode.code]

/-- The opcode of a header whose OP byte has the value of an assigned code. -/
theorem opcodeOf_opOf {header : Word} {o : Opcode} (h : o.code.toNat = (opOf header).toNat) :
    opcodeOf (opOf header) = some o := by
  rw [← BitVec.eq_of_toNat_eq h, opcodeOf_code]

/-- What makes a frame illegal (R118). -/
inductive IllegalFrame (header len : Word) (ops : List Word) : Prop
  | reservedBits (h : rsvOf header ≠ 0#7)
  | reservedOp (h : ReservedOp (opOf header).toNat)
  | flag (o : Opcode) (ho : o.code.toNat = (opOf header).toNat) (hf : flagOf header = true) (h : o.hasFlag = false)
  | len (o : Opcode) (ho : o.code.toNat = (opOf header).toNat) (h : o.requiredLen ops ≠ some len.toNat)

/-- An illegal frame lacks one of the fields that every frame that decodes has. -/
theorem IllegalFrame.decode_ne_ok {header len : Word} {ops : List Word} (h : IllegalFrame header len ops) (i : Instr) :
    decode (header :: len :: ops) ≠ .ok i := by
  intro hok
  obtain ⟨hrsv, o, ho, hflag, hlen⟩ := decode_ok_fields hok
  cases h with
  | reservedBits h => exact h hrsv
  | reservedOp h =>
    rw [← code_of_opcodeOf ho] at h
    exact not_reservedOp_code o h
  | flag o' ho' hf h =>
    cases ho.symm.trans (opcodeOf_opOf ho')
    rw [hflag hf] at h
    cases h
  | len o' ho' h =>
    cases ho.symm.trans (opcodeOf_opOf ho')
    exact h hlen

/-- A command whose operand words fit LEN, with the LEN its opcode requires, is read back from its frame. -/
theorem decode_encode_of_len {i : Instr}
    (h : i.operands.length ≤ 65535 ∧ i.opcode.requiredLen i.operands = some i.operands.length) :
    decode (encode i) = .ok i := by
  obtain ⟨hfits, hlen⟩ := h
  have hflag : (i.flag && !i.opcode.hasFlag) = false := by
    cases hf : i.opcode.hasFlag with
    | true => simp
    | false => simp [flag_of_not_hasFlag hf]
  simp [encode, decode, wordOfNat_toNat hfits, hlen, hflag, build_operands]

end Sys2Proof
end

section
/-! Illegal frames under a step (30_encoding.md R116, R118). -/

namespace Sys2Proof.Machine

/-- A complete frame that does not decode ends with ERR_ILLEGAL_CMD; only its words leave the port. -/
theorem step_of_not_decodes {s : State} {header len : Word} {ops rest : List Word}
    (hport : s.port = header :: len :: (ops ++ rest)) (hlen : ops.length = len.toNat)
    (hdecode : ∀ i, decode (header :: len :: ops) ≠ .ok i) :
    step s = .next { s with port := rest, replies := s.replies ++ [⟨.illegalCmd, []⟩] } := by
  rw [step, hport, nextFrame_append header len ops rest hlen]
  dsimp only
  split
  case h_1 => rfl
  case h_2 i hok => exact absurd hok (hdecode i)

/-- Settles O5: each clause is a cause of R118, and no frame with such a cause decodes. -/
theorem illegalFrameIsHarmless : Obligations.IllegalFrameIsHarmless := by
  intro s header len ops rest hport hlen hcause
  refine step_of_not_decodes hport hlen (IllegalFrame.decode_ne_ok ?_)
  obtain hrsv | hop | ⟨hf, o, ho, hno⟩ | ⟨o, ho, hreq⟩ := hcause
  · exact .reservedBits hrsv
  · exact .reservedOp hop
  · exact .flag o ho hf hno
  · exact .len o ho hreq

end Sys2Proof.Machine
end

section
/-! Failed operand checks (30_encoding.md R119). -/

namespace Sys2Proof.Machine

theorem addressOk_eq_false {a : Word} (h : 128 ≤ a.toNat) : addressOk a = false := by
  rw [Bool.eq_false_iff, Ne, addressOk_iff]
  omega

theorem byteOk_eq_false {w : Word} (h : 256 ≤ w.toNat) : byteOk w = false := by
  rw [Bool.eq_false_iff, Ne, byteOk_iff]
  omega

theorem countOk_eq_false {c : Config} {count : Word} (h : count.toNat = 0 ∨ c.maxReadWords < count.toNat) :
    countOk c count = false := by
  rw [Bool.eq_false_iff, Ne, countOk_iff]
  omega

theorem windowOk_eq_false {c : Config} {x0 y0 x1 y1 : Word}
    (h : ¬(x0.toNat ≤ x1.toNat ∧ x1.toNat ≤ c.width - 1 ∧ y0.toNat ≤ y1.toNat ∧ y1.toNat ≤ c.height - 1)) :
    windowOk c x0 y0 x1 y1 = false := by
  rw [Bool.eq_false_iff, Ne, windowOk_iff]
  exact h

/-- DISCARD drops a point outside the Frame (44_framebuffer.md R301). -/
theorem clipPoint_outside {c : Config} {x y : Int} (hmode : c.clipMode = .discard)
    (h : ¬(0 ≤ x ∧ x < c.width ∧ 0 ≤ y ∧ y < c.height)) : clipPoint c x y = none := by
  rw [clipPoint, hmode]
  exact if_neg h

/-- The outcome of a failed check: ERR_BAD_ARG with no words, and nothing else (R119). -/
def badArgOutcome (s : State) : Host.Outcome State Fault Refusal := .next { s with replies := s.replies ++ [⟨.badArg, []⟩] }

theorem ends_raise_badArg (s : State) : ends (s.raise .badArg []) = badArgOutcome s := rfl

theorem ends_checked_of_false {ok : Bool} (h : ok = false) (run : State → State) (s : State) :
    ends (s.checked ok run) = badArgOutcome s := by
  rw [h]
  rfl

section
variable (s : State)

theorem exec_busWrite_badArg {hold : Bool} {a n : Word} {data : List Word}
    (h : addressOk a = false ∨ padIsZero n data = false) : exec (.busWrite hold a n data) s = badArgOutcome s :=
  ends_checked_of_false (Bool.and_eq_false_iff.mpr h) _ s

theorem exec_busRead_badArg {hold : Bool} {a n : Word} (h : addressOk a = false) :
    exec (.busRead hold a n) s = badArgOutcome s :=
  ends_checked_of_false h _ s

theorem exec_regReadw_badArg {a start count : Word} (h : addressOk a = false ∨ countOk s.par count = false) :
    exec (.regReadw a start count) s = badArgOutcome s :=
  ends_checked_of_false (Bool.and_eq_false_iff.mpr h) _ s

theorem exec_regWritew_badArg {a addr value : Word} (h : addressOk a = false) :
    exec (.regWritew a addr value) s = badArgOutcome s :=
  ends_checked_of_false h _ s

theorem exec_dlCmd_badArg {code : Word} (h : byteOk code = false) : exec (.dlCmd code) s = badArgOutcome s :=
  ends_checked_of_false h _ s

theorem exec_dlData_badArg {n : Word} {data : List Word} (h : padIsZero n data = false) :
    exec (.dlData n data) s = badArgOutcome s :=
  ends_checked_of_false h _ s

theorem exec_dlWindow_badArg {x0 y0 x1 y1 : Word} (h : windowOk s.par x0 y0 x1 y1 = false) :
    exec (.dlWindow x0 y0 x1 y1) s = badArgOutcome s :=
  ends_checked_of_false h _ s

theorem exec_fbChar_badArg {transp : Bool} {x y ch fg bg : Word} (h : byteOk ch = false) :
    exec (.fbChar transp x y ch fg bg) s = badArgOutcome s :=
  ends_checked_of_false h _ s

theorem exec_fbText_badArg {transp : Bool} {x y fg bg n : Word} {chars : List Word} (h : padIsZero n chars = false) :
    exec (.fbText transp x y fg bg n chars) s = badArgOutcome s :=
  ends_checked_of_false h _ s

theorem exec_pixPack_badArg {r g b : Word} (h : byteOk r = false ∨ byteOk g = false ∨ byteOk b = false) :
    exec (.pixPack r g b) s = badArgOutcome s :=
  ends_checked_of_false (by simpa only [Bool.and_eq_false_iff] using h) _ s

theorem exec_fbGetpixel_badArg {x y : Word} (h : clipPoint s.par (sext16 x) (sext16 y) = none) :
    exec (.fbGetpixel x y) s = badArgOutcome s := by
  rw [exec, execFbGetpixel, h]
  exact ends_raise_badArg s

end

/-- Settles O14: an operand outside its range makes the check of its command false, or leaves no pixel to read. -/
theorem operandChecks : Obligations.OperandChecks := by
  intro s
  refine ⟨fun hold a n data ha => ?_, fun hold a n ha => ?_, fun a start count ha => ?_, fun a addr value ha => ?_,
    fun n last data hn hlast => ?_, fun a start count hcount => ?_, fun code hcode => ?_,
    fun transp x y ch fg bg hch => ?_, fun r g b hrgb => ?_, fun x0 y0 x1 y1 hwindow => ?_,
    fun x y hmode houtside => ?_⟩
  · exact exec_busWrite_badArg s (.inl (addressOk_eq_false ha))
  · exact exec_busRead_badArg s (addressOk_eq_false ha)
  · exact exec_regReadw_badArg s (.inl (addressOk_eq_false ha))
  · exact exec_regWritew_badArg s (addressOk_eq_false ha)
  · have hpad : padIsZero n (data ++ [last]) = false := padIsZero_odd hn hlast
    exact ⟨fun hold a => exec_busWrite_badArg s (.inr hpad), exec_dlData_badArg s hpad,
      fun transp x y fg bg => exec_fbText_badArg s hpad⟩
  · exact exec_regReadw_badArg s (.inr (countOk_eq_false hcount))
  · exact exec_dlCmd_badArg s (byteOk_eq_false hcode)
  · exact exec_fbChar_badArg s (byteOk_eq_false hch)
  · exact exec_pixPack_badArg s (hrgb.imp byteOk_eq_false (Or.imp byteOk_eq_false byteOk_eq_false))
  · exact exec_dlWindow_badArg s (windowOk_eq_false hwindow)
  · exact exec_fbGetpixel_badArg s (clipPoint_outside hmode houtside)

end Sys2Proof.Machine
end

section
/-! The assembler: the words of operands, the frame of a line, and the expansion of the pseudo-commands
(30_encoding.md R121, R122). -/

namespace Sys2Proof.Machine

/-! ## Operands -/

/-- A number that fits a u16 is its word. -/
theorem operandWords_nat {n : Nat} (h : n ≤ 65535) : operandWords (.num n) = some [wordOfNat n] := by
  rw [operandWords, if_pos (by omega), wordOfInt, BitVec.ofInt_natCast, wordOfNat]

theorem operandWords_toNat (w : Word) : operandWords (.num w.toNat) = some [w] := by
  have hw : w.toNat ≤ 65535 := Nat.le_of_lt_succ w.isLt
  rw [operandWords_nat hw, wordOfNat_toNat_self]

/-- A number that fits an s16 is its two's-complement word. -/
theorem operandWords_toInt (w : Word) : operandWords (.num w.toInt) = some [w] := by
  have hlow := BitVec.le_toInt w
  have hhigh := BitVec.toInt_lt (x := w)
  rw [operandWords, if_pos (by omega), wordOfInt, BitVec.ofInt_toInt]

/-- A board's last column or row, as FB.CLEAR writes it, fits a u16. -/
theorem operandWords_pred {n : Nat} (h : 1 ≤ n ∧ n ≤ 32767) : operandWords (.num (n - 1)) = some [wordOfNat (n - 1)] := by
  have hcast : ((n : Int) - 1) = ((n - 1 : Nat) : Int) := by omega
  rw [hcast, operandWords_nat (by omega)]

theorem operandWords_words {ws : List Word} (h : ws.length ≤ 65534) :
    operandWords (.words ws) = some (wordOfNat ws.length :: ws) := if_pos h

theorem allOperandWords_cons {o : AsmOperand} {ws : List Word} (h : operandWords o = some ws) (os : List AsmOperand) :
    allOperandWords (o :: os) = (allOperandWords os).map (ws ++ ·) := by
  rw [allOperandWords, h]
  cases allOperandWords os <;> rfl

/-! ## The frame of a line -/

/-- No two opcodes of R117 have one mnemonic. -/
theorem find_mnemonicOf (o : Opcode) : Opcode.all.find? (fun o' => mnemonicOf o' == mnemonicOf o) = some o := by
  cases o <;> decide

/-- The line of a command, with its mnemonic, flag and operand words, assembles to the frame of the command. -/
theorem assembleFrame_eq_encode (i : Instr) {os : List AsmOperand} (hops : allOperandWords os = some i.operands)
    (hlen : i.operands.length ≤ 65535 ∧ i.opcode.requiredLen i.operands = some i.operands.length) :
    assembleFrame ⟨mnemonicOf i.opcode, i.flag, os⟩ = some (encode i) := by
  have hdecode : decode (headerWord i.opcode i.flag :: wordOfNat i.operands.length :: i.operands) = .ok i :=
    decode_encode_of_len hlen
  rw [assembleFrame, find_mnemonicOf, hops]
  dsimp only
  rw [hdecode]
  rfl

/-! ## Core lines -/

theorem assembleFrame_fbRect {x0 y0 x1 y1 c : Word} {os : List AsmOperand}
    (h : allOperandWords os = some [x0, y0, x1, y1, c]) :
    assembleFrame ⟨"FB.RECT", false, os⟩ = some (encode (.fbRect x0 y0 x1 y1 c)) :=
  assembleFrame_eq_encode (.fbRect x0 y0 x1 y1 c) h (Laws.EncodeLen.fbRect x0 y0 x1 y1 c rfl)

theorem assembleFrame_busProbe (a : Word) :
    assembleFrame ⟨"BUS.WRITE", false, [.num a.toNat, .bytes []]⟩ = some (encode (.busWrite false a 0#16 [])) := by
  refine assembleFrame_eq_encode (.busWrite false a 0#16 []) ?_ (Laws.EncodeLen.busWrite false a 0#16 [] rfl)
  rw [allOperandWords_cons (operandWords_toNat a)]
  rfl

theorem assembleFrame_regRead1 (a r : Word) :
    assembleFrame ⟨"REG.READW", false, [.num a.toNat, .num r.toNat, .num 1]⟩ = some (encode (.regReadw a r 1#16)) := by
  refine assembleFrame_eq_encode (.regReadw a r 1#16) ?_ (Laws.EncodeLen.regReadw a r 1#16 rfl)
  rw [allOperandWords_cons (operandWords_toNat a), allOperandWords_cons (operandWords_toNat r)]
  rfl

theorem assembleFrame_dlWindow (x0 y0 x1 y1 : Word) :
    assembleFrame ⟨"DL.WINDOW", false, [.num x0.toNat, .num y0.toNat, .num x1.toNat, .num y1.toNat]⟩ =
      some (encode (.dlWindow x0 y0 x1 y1)) := by
  refine assembleFrame_eq_encode (.dlWindow x0 y0 x1 y1) ?_ (Laws.EncodeLen.dlWindow x0 y0 x1 y1 rfl)
  rw [allOperandWords_cons (operandWords_toNat x0), allOperandWords_cons (operandWords_toNat y0),
    allOperandWords_cons (operandWords_toNat x1), allOperandWords_cons (operandWords_toNat y1)]
  rfl

theorem assembleFrame_dlWords {ws : List Word} (h : ws.length ≤ 65534) :
    assembleFrame ⟨"DL.WORDS", false, [.words ws]⟩ = some (encode (.dlWords (wordOfNat ws.length) ws)) := by
  have hwf : (Instr.dlWords (wordOfNat ws.length) ws).wf = true := by
    simp [Instr.wf, wordOfNat_toNat (show ws.length ≤ 65535 by omega), h]
  refine assembleFrame_eq_encode (.dlWords (wordOfNat ws.length) ws) ?_ (Laws.EncodeLen.dlWords _ ws hwf)
  rw [allOperandWords_cons (operandWords_words h)]
  simp [allOperandWords, Instr.operands]

/-! ## Pseudo-commands (R122) -/

theorem assemble_of_expandPseudo {c : Config} {l l' : AsmLine} {frame : List Word} (hexpand : expandPseudo c l = [l'])
    (hframe : assembleFrame l' = some frame) : assemble c l = some [frame] := by
  simp [assemble, hexpand, hframe]

theorem assemble_fbClear (b : Board) (c : Word) : assemble b.val ⟨"FB.CLEAR", false, [.num c.toNat]⟩ =
    some [encode (.fbRect 0#16 0#16 (wordOfNat (b.val.width - 1)) (wordOfNat (b.val.height - 1)) c)] := by
  refine assemble_of_expandPseudo rfl (assembleFrame_fbRect ?_)
  have hzero : operandWords (.num 0) = some [0#16] := rfl
  rw [allOperandWords_cons hzero, allOperandWords_cons hzero, allOperandWords_cons (operandWords_pred (board_width b)),
    allOperandWords_cons (operandWords_pred (board_height b)), allOperandWords_cons (operandWords_toNat c)]
  rfl

theorem assemble_fbHline (c : Config) (x0 x1 y colour : Word) :
    assemble c ⟨"FB.HLINE", false, [.num x0.toInt, .num x1.toInt, .num y.toInt, .num colour.toNat]⟩ =
      some [encode (.fbRect x0 y x1 y colour)] := by
  refine assemble_of_expandPseudo rfl (assembleFrame_fbRect ?_)
  rw [allOperandWords_cons (operandWords_toInt x0), allOperandWords_cons (operandWords_toInt y),
    allOperandWords_cons (operandWords_toInt x1), allOperandWords_cons (operandWords_toInt y),
    allOperandWords_cons (operandWords_toNat colour)]
  rfl

/-- With the word count R122 asks for, DL.PIXELS is a window and its words. -/
theorem assemble_dlPixels (c : Config) {x0 y0 x1 y1 : Word} {ws : List Word} (hfits : ws.length ≤ 65534)
    (hcount : (ws.length : Int) = ((x1.toNat : Int) - x0.toNat + 1) * ((y1.toNat : Int) - y0.toNat + 1)) :
    assemble c ⟨"DL.PIXELS", false, [.num x0.toNat, .num y0.toNat, .num x1.toNat, .num y1.toNat, .words ws]⟩ =
      some [encode (.dlWindow x0 y0 x1 y1), encode (.dlWords (wordOfNat ws.length) ws)] := by
  have hexpand : expandPseudo c
      ⟨"DL.PIXELS", false, [.num x0.toNat, .num y0.toNat, .num x1.toNat, .num y1.toNat, .words ws]⟩ =
      [⟨"DL.WINDOW", false, [.num x0.toNat, .num y0.toNat, .num x1.toNat, .num y1.toNat]⟩,
        ⟨"DL.WORDS", false, [.words ws]⟩] := if_pos hcount
  simp [assemble, hexpand, assembleFrame_dlWindow, assembleFrame_dlWords hfits]

/-- Settles O7: each expansion is lines of core commands, and each of those assembles to the frame of its command. -/
theorem pseudoCommandsExpand : Obligations.PseudoCommandsExpand :=
  ⟨assemble_fbClear, fun _ a => assemble_of_expandPseudo rfl (assembleFrame_busProbe a),
    fun _ a r => assemble_of_expandPseudo rfl (assembleFrame_regRead1 a r), fun b => assemble_fbHline b.val,
    fun b _ _ _ _ _ hfits hcount => assemble_dlPixels b.val hfits hcount⟩

end Sys2Proof.Machine
end

section
/-! Colours as numbers: what packing and reading a channel give (40_color.md R160, R161; 30_encoding.md R126), and how a
mask keeps the top bits of a byte. -/

namespace Sys2Proof.Machine

/-! ## Fields -/

/-- `{h, l}` is h above l at every width (00_scope.md R10). -/
theorem append_toNat {m n : Nat} (h : BitVec m) (l : BitVec n) : (BitVec.append h l).toNat = h.toNat * 2 ^ n + l.toNat :=
  calc (BitVec.append h l).toNat
    _ = h.toNat <<< n ||| l.toNat := BitVec.toNat_append h l
    _ = 2 ^ n * h.toNat + l.toNat := by rw [Nat.shiftLeft_eq, Nat.mul_comm, Nat.two_pow_add_eq_or_of_lt l.isLt]
    _ = h.toNat * 2 ^ n + l.toNat := by rw [Nat.mul_comm]

/-- A field is the value above its low end, cut to its width (R11). -/
theorem field_toNat {m : Nat} (w : BitVec m) (start len : Nat) :
    (w.extractLsb' start len).toNat = w.toNat / 2 ^ start % 2 ^ len := by
  rw [BitVec.extractLsb'_toNat, Nat.shiftRight_eq_div_pow]

/-- A mask of ones above bit k drops the bits below k. -/
theorem and_ones_above (n j k : Nat) : n &&& (2 ^ j - 1) * 2 ^ k = n / 2 ^ k % 2 ^ j * 2 ^ k := by
  have hhigh : (n &&& (2 ^ j - 1) * 2 ^ k) / 2 ^ k = n / 2 ^ k % 2 ^ j := by
    rw [Nat.and_div_two_pow, Nat.mul_div_cancel _ (Nat.two_pow_pos k), Nat.and_two_pow_sub_one_eq_mod]
  have hlow : (n &&& (2 ^ j - 1) * 2 ^ k) % 2 ^ k = 0 := by
    rw [Nat.and_mod_two_pow, Nat.mul_mod_left, Nat.and_zero]
  rw [← Nat.div_add_mod' (n &&& (2 ^ j - 1) * 2 ^ k) (2 ^ k), hhigh, hlow, Nat.add_zero]

/-- `& 0xF8` drops the low 3 bits of a byte operand (R162). -/
theorem and_F8_toNat {w : Word} (h : w.toNat ≤ 255) : (w &&& 0xF8#16).toNat = w.toNat / 8 * 8 := by
  have hmask : w.toNat &&& 0xF8 = w.toNat / 8 % 32 * 8 := and_ones_above w.toNat 5 3
  rw [BitVec.toNat_and, BitVec.toNat_ofNat, Nat.mod_eq_of_lt (by decide), hmask]
  omega

/-- `& 0xFC` drops the low 2 bits of a byte operand (R162). -/
theorem and_FC_toNat {w : Word} (h : w.toNat ≤ 255) : (w &&& 0xFC#16).toNat = w.toNat / 4 * 4 := by
  have hmask : w.toNat &&& 0xFC = w.toNat / 4 % 64 * 4 := and_ones_above w.toNat 6 2
  rw [BitVec.toNat_and, BitVec.toNat_ofNat, Nat.mod_eq_of_lt (by decide), hmask]
  omega

/-! ## The channels of a colour (R161) -/

theorem redOf_toNat (c : Word) : (redOf c).toNat = c.toNat / 2048 * 8 := by
  have hc := c.isLt
  rw [redOf, BitVec.toNat_setWidth, append_toNat, field_toNat, BitVec.toNat_ofNat]
  omega

theorem greenOf_toNat (c : Word) : (greenOf c).toNat = c.toNat / 32 % 64 * 4 := by
  rw [greenOf, BitVec.toNat_setWidth, append_toNat, field_toNat, BitVec.toNat_ofNat]
  omega

theorem blueOf_toNat (c : Word) : (blueOf c).toNat = c.toNat % 32 * 8 := by
  rw [blueOf, BitVec.toNat_setWidth, append_toNat, field_toNat, BitVec.toNat_ofNat]
  omega

/-- The channels of every colour are byte operands (R112, R161). -/
theorem redOf_le (c : Word) : (redOf c).toNat ≤ 255 := by
  have hc := c.isLt
  rw [redOf_toNat]
  omega

theorem greenOf_le (c : Word) : (greenOf c).toNat ≤ 255 := by
  rw [greenOf_toNat]
  omega

theorem blueOf_le (c : Word) : (blueOf c).toNat ≤ 255 := by
  rw [blueOf_toNat]
  omega

/-! ## The colour of three channels (R160) -/

theorem packColour_toNat (r g b : Byte) :
    (packColour r g b).toNat = r.toNat / 8 * 2048 + g.toNat / 4 * 32 + b.toNat / 8 := by
  have hr := r.isLt
  have hg := g.isLt
  have hb := b.isLt
  rw [packColour, append_toNat, append_toNat, field_toNat, field_toNat, field_toNat]
  omega

/-- Packing the channels of a colour gives the colour: each field comes back in its place (R162). -/
theorem packColour_channels (c : Word) : packColour (lo (redOf c)) (lo (greenOf c)) (lo (blueOf c)) = c := by
  apply BitVec.eq_of_toNat_eq
  have hc := c.isLt
  rw [packColour_toNat, lo_toNat, lo_toNat, lo_toNat, redOf_toNat, greenOf_toNat, blueOf_toNat]
  omega

section
variable {r g b : Word} (hr : r.toNat ≤ 255) (hg : g.toNat ≤ 255) (hb : b.toNat ≤ 255)
include hr hg hb

/-- Byte operands reach the fields whole, since their high bytes are zero (R112). -/
theorem packColour_lo_toNat :
    (packColour (lo r) (lo g) (lo b)).toNat = r.toNat / 8 * 2048 + g.toNat / 4 * 32 + b.toNat / 8 := by
  rw [packColour_toNat, lo_toNat, lo_toNat, lo_toNat]
  omega

theorem packColour_lo_eq : packColour (lo r) (lo g) (lo b) =
    wordOfNat (r.toNat / 8 * 2048 + g.toNat / 4 * 32 + b.toNat / 8) := by
  rw [← packColour_lo_toNat hr hg hb, wordOfNat_toNat_self]

/-! Reading a packed colour gives the top bits of each channel (R162). -/

theorem redOf_packColour : redOf (packColour (lo r) (lo g) (lo b)) = r &&& 0xF8#16 := by
  apply BitVec.eq_of_toNat_eq
  rw [redOf_toNat, packColour_lo_toNat hr hg hb, and_F8_toNat hr]
  omega

theorem greenOf_packColour : greenOf (packColour (lo r) (lo g) (lo b)) = g &&& 0xFC#16 := by
  apply BitVec.eq_of_toNat_eq
  rw [greenOf_toNat, packColour_lo_toNat hr hg hb, and_FC_toNat hg]
  omega

theorem blueOf_packColour : blueOf (packColour (lo r) (lo g) (lo b)) = b &&& 0xF8#16 := by
  apply BitVec.eq_of_toNat_eq
  rw [blueOf_toNat, packColour_lo_toNat hr hg hb, and_F8_toNat hb]
  omega

end

end Sys2Proof.Machine
end

section
/-! PIX.PACK and PIX.UNPACK (40_color.md). -/

namespace Sys2Proof.Machine

/-- A command whose operands pass their checks runs (30_encoding.md R115). -/
theorem ends_checked_of_true {ok : Bool} (h : ok = true) (run : State → State) (s : State) :
    ends (s.checked ok run) = .next (run s) := by
  rw [h]
  rfl

theorem headerWord_pixPack : headerWord .pixPack false = 0x0001#16 := by decide

theorem headerWord_pixUnpack : headerWord .pixUnpack false = 0x0002#16 := by decide

theorem encode_pixPack (r g b : Word) : encode (.pixPack r g b) = [0x0001#16, 3#16, r, g, b] :=
  congrArg (· :: [3#16, r, g, b]) headerWord_pixPack

theorem encode_pixUnpack (c : Word) : encode (.pixUnpack c) = [0x0002#16, 1#16, c] :=
  congrArg (· :: [1#16, c]) headerWord_pixUnpack

/-- PIX.PACK of byte operands ends with OK and the colour. -/
theorem exec_pixPack_ok (s : State) {r g b : Word} (hr : r.toNat ≤ 255) (hg : g.toNat ≤ 255) (hb : b.toNat ≤ 255) :
    exec (.pixPack r g b) s = .next (s.finish [packColour (lo r) (lo g) (lo b)]) := by
  refine ends_checked_of_true ?_ _ s
  rw [Bool.and_eq_true, Bool.and_eq_true, byteOk_iff, byteOk_iff, byteOk_iff]
  exact ⟨hr, hg, hb⟩

/-- PIX.UNPACK ends with OK and the channels for every word. -/
theorem exec_pixUnpack (s : State) (c : Word) :
    exec (.pixUnpack c) s = .next (s.finish [redOf c, greenOf c, blueOf c]) := rfl

/-- Settles O20: byte operands pass the check and give the colour's number; a larger one fails the check. -/
theorem pixPackResult : Obligations.PixPackResult := by
  intro s r g b
  refine ⟨encode_pixPack r g b, fun ⟨hr, hg, hb⟩ => ?_, fun hlarge => ?_⟩
  · rw [exec_pixPack_ok s hr hg hb, packColour_lo_eq hr hg hb]
    rfl
  · have hfails : 256 ≤ r.toNat ∨ 256 ≤ g.toNat ∨ 256 ≤ b.toNat := by omega
    exact exec_pixPack_badArg s (hfails.imp byteOk_eq_false (Or.imp byteOk_eq_false byteOk_eq_false))

/-- Settles O21: each channel is the word of its field's number. -/
theorem pixUnpackResult : Obligations.PixUnpackResult := by
  intro s c
  refine ⟨encode_pixUnpack c, ?_⟩
  rw [exec_pixUnpack, ← redOf_toNat, ← greenOf_toNat, ← blueOf_toNat, wordOfNat_toNat_self, wordOfNat_toNat_self,
    wordOfNat_toNat_self]
  rfl

/-- Settles O22: the fields of a packed colour are the top bits of its channels, and the channels of a colour, which are
byte operands, pack to it. -/
theorem pixRoundTrip : Obligations.PixRoundTrip := by
  refine ⟨fun s r g b hr hg hb => ?_, fun s c => ?_⟩
  · refine ⟨_, _, exec_pixPack_ok s hr hg hb, rfl, ?_⟩
    rw [exec_pixUnpack, redOf_packColour hr hg hb, greenOf_packColour hr hg hb, blueOf_packColour hr hg hb]
    rfl
  · refine ⟨_, _, _, _, exec_pixUnpack s c, rfl, ?_⟩
    rw [exec_pixPack_ok _ (redOf_le c) (greenOf_le c) (blueOf_le c), packColour_channels]
    rfl

end Sys2Proof.Machine
end

section
/-! BUS.INIT (41_transport.md R191). -/

namespace Sys2Proof.Machine

theorem headerWord_busInit : headerWord .busInit false = 0x0010#16 := by decide

theorem encode_busInit : encode .busInit = [0x0010#16, 0#16] :=
  congrArg (· :: [0#16]) headerWord_busInit

/-- `initBus()` whole, against every agent: both drivers released, SDA first, each edge seen by the agent (R181, R191). -/
theorem initBus_eq (s : State) : initBus s = { s with
    sclDrv := .rel, sdaDrv := .rel, busInit := true, busHeld := false, trace := s.trace ++ initEvents,
    sensor := (s.sensor.observe .sdaRel).observe .sclRel } := by
  rw [initEvents, initBus, sclFree, sdaRel, State.emit, State.emit, List.append_assoc, List.singleton_append]

/-- BUS.INIT has no check and ends with OK and no words. -/
theorem exec_busInit (s : State) : exec .busInit s = .next ((initBus s).finish []) := rfl

/-- Settles O23: the command is `initBus()` followed by its result frame. -/
theorem busInitResult : Obligations.BusInitResult := by
  refine ⟨encode_busInit, fun s => ?_⟩
  rw [exec_busInit, initBus_eq]
  rfl

end Sys2Proof.Machine
end

section
/-! DL.CMD, DL.DATA, DL.WORDS, DL.WINDOW and DL.INIT (43_display_link.md R264-R270). -/

namespace Sys2Proof.Machine

/-! ## The frames of the commands -/

theorem headerWord_dlInit : headerWord .dlInit false = 0x0030#16 := by decide

theorem headerWord_dlCmd : headerWord .dlCmd false = 0x0031#16 := by decide

theorem headerWord_dlData : headerWord .dlData false = 0x0032#16 := by decide

theorem headerWord_dlWords : headerWord .dlWords false = 0x0033#16 := by decide

theorem headerWord_dlWindow : headerWord .dlWindow false = 0x0034#16 := by decide

theorem encode_dlInit : encode .dlInit = [0x0030#16, 0#16] :=
  congrArg (· :: [0#16]) headerWord_dlInit

theorem encode_dlCmd (code : Word) : encode (.dlCmd code) = [0x0031#16, 1#16, code] :=
  congrArg (· :: [1#16, code]) headerWord_dlCmd

theorem encode_dlWindow (x0 y0 x1 y1 : Word) :
    encode (.dlWindow x0 y0 x1 y1) = [0x0034#16, 4#16, x0, y0, x1, y1] :=
  congrArg (· :: [4#16, x0, y0, x1, y1]) headerWord_dlWindow

/-- LEN counts the operand N and the array after it (30_encoding.md R117). -/
theorem encode_dlData (n : Word) (data : List Word) :
    encode (.dlData n data) = 0x0032#16 :: wordOfNat (1 + data.length) :: n :: data := by
  rw [Nat.add_comm]
  exact congrArg (· :: wordOfNat (data.length + 1) :: n :: data) headerWord_dlData

theorem encode_dlWords (n : Word) (words : List Word) :
    encode (.dlWords n words) = 0x0033#16 :: wordOfNat (1 + words.length) :: n :: words := by
  rw [Nat.add_comm]
  exact congrArg (· :: wordOfNat (words.length + 1) :: n :: words) headerWord_dlWords

/-! ## What a command that passes its checks does -/

section
variable (s : State)

theorem exec_dlCmd_ok {code : Word} (h : code.toNat ≤ 255) :
    exec (.dlCmd code) s = .next ((sendCommand (lo code) s).finish []) :=
  ends_checked_of_true ((byteOk_iff code).mpr h) _ s

/-- DL.DATA of a packed array sends the bytes that were packed: the pad byte passes its check and is not sent
(30_encoding.md R113). -/
theorem exec_dlData_packBytes {bytes : List Byte} (h : bytes.length ≤ 65535) :
    exec (.dlData (wordOfNat bytes.length) (packBytes bytes)) s = .next ((sendData bytes s).finish []) := by
  refine (ends_checked_of_true (padIsZero_pack bytes h) _ s).trans ?_
  rw [unpack_pack bytes h]

/-- DL.WORDS whose count is that of its array sends the whole array. -/
theorem exec_dlWords {words : List Word} (h : words.length ≤ 65535) :
    exec (.dlWords (wordOfNat words.length) words) s = .next ((sendDataWords words s).finish []) := by
  rw [exec, execDlWords, wordOfNat_toNat h, List.take_length]
  rfl

theorem exec_dlWindow_ok {x0 y0 x1 y1 : Word}
    (h : x0.toNat ≤ x1.toNat ∧ x1.toNat ≤ s.par.width - 1 ∧ y0.toNat ≤ y1.toNat ∧ y1.toNat ≤ s.par.height - 1) :
    exec (.dlWindow x0 y0 x1 y1) s = .next ((setWindow x0 y0 x1 y1 s).finish []) :=
  ends_checked_of_true ((windowOk_iff s.par x0 y0 x1 y1).mpr h) _ s

/-- The state in which DL.INIT marks the cells: its frames and delays are out, dispInit is set (R270). -/
def afterInitSequence : State :=
  { s with dcLine := .cmd, csLine := .off, dispInit := true, trace := s.trace ++ initSequenceEvents s.par }

theorem exec_dlInit : exec .dlInit s = .next ((markAllCells (afterInitSequence s)).finish []) := by
  rw [exec, execDlInit, initSequence_eq]
  rfl

end

/-- The bytes of a word array on the wire, as events: each word high byte first (R263). -/
theorem bytesOfWords_map_byte (words : List Word) :
    (bytesOfWords words).map Event.byte = words.flatMap fun w => [.byte (hi w), .byte (lo w)] :=
  List.map_flatMap

/-! ## The obligations -/

/-- Settles O35: a code that fits a byte passes the check and is sent in a frame of its own; a larger one fails it. -/
theorem dlCmdResult : Obligations.DlCmdResult := by
  intro s code
  refine ⟨encode_dlCmd code, fun hbyte => ?_, fun hlarge => exec_dlCmd_badArg s (byteOk_eq_false hlarge)⟩
  rw [exec_dlCmd_ok s hbyte, sendCommand_eq]
  rfl

/-- Settles O36: packed bytes are unpacked to themselves and sent in one frame, unless there are none; a nonzero pad byte
fails its check. -/
theorem dlDataResult : Obligations.DlDataResult := by
  refine ⟨encode_dlData, fun s bytes hlen => ⟨packBytes_length bytes, ?_⟩, fun s n last data hodd hpad =>
    exec_dlData_badArg s (padIsZero_odd hodd hpad)⟩
  rw [exec_dlData_packBytes s hlen]
  by_cases hempty : bytes = []
  · rw [if_pos hempty, hempty, sendData_nil]
    rfl
  · rw [if_neg hempty, sendData_eq hempty, frameEvents, ← List.append_assoc, ← List.append_assoc]
    rfl

/-- Settles O37: the array is sent as the bytes of its words in one frame, unless there are none. -/
theorem dlWordsResult : Obligations.DlWordsResult := by
  intro s words hlen
  refine ⟨encode_dlWords _ words, ?_⟩
  rw [exec_dlWords s (Nat.le_succ_of_le hlen)]
  by_cases hempty : words = []
  · rw [if_pos hempty, hempty]
    rfl
  · rw [if_neg hempty, sendDataWords_eq hempty, frameEvents, bytesOfWords_map_byte]
    rfl

/-- Settles O38: a window inside the display passes the check and is sent as its five frames; any other fails it. -/
theorem dlWindowResult : Obligations.DlWindowResult := by
  intro s x0 y0 x1 y1
  refine ⟨encode_dlWindow x0 y0 x1 y1, fun hinside => ?_, fun houtside =>
    exec_dlWindow_badArg s (windowOk_eq_false houtside)⟩
  rw [exec_dlWindow_ok s hinside, setWindow_eq]
  rfl

/-- Settles O39: after the frames and delays the loop over the cells sets the flags of the grid and writes no others. -/
theorem dlInitResult : Obligations.DlInitResult := by
  refine ⟨encode_dlInit, fun s => ⟨_, exec_dlInit s, ?_, fun k hk => ?_, fun k hk => ?_⟩⟩
  · exact congrArg (State.finish []) (markAllCells_only (afterInitSequence s))
  · rw [dirtyAt_finish, staleAt_finish, dirtyAt_markAllCells, staleAt_markAllCells]
    exact ⟨if_pos hk, if_pos hk⟩
  · rw [dirtyAt_finish, staleAt_finish, dirtyAt_markAllCells, staleAt_markAllCells]
    exact ⟨if_neg (Nat.not_lt.mpr hk), if_neg (Nat.not_lt.mpr hk)⟩

end Sys2Proof.Machine
end

section
/-! FB.PIXEL and FB.GETPIXEL, and the clipping they go through (44_framebuffer.md R301-R303). -/

namespace Sys2Proof.Machine

/-! ## Clipping (R301) -/

theorem clipPoint_of_clamp {c : Config} (hmode : c.clipMode = .clamp) (x y : Int) :
    clipPoint c x y = some ((clamp x 0 (c.width - 1)).toNat, (clamp y 0 (c.height - 1)).toNat) := by
  rw [clipPoint, hmode]

theorem clipPoint_of_discard {c : Config} (hmode : c.clipMode = .discard) {x y : Int}
    (h : 0 ≤ x ∧ x < c.width ∧ 0 ≤ y ∧ y < c.height) : clipPoint c x y = some (x.toNat, y.toNat) := by
  rw [clipPoint, hmode]
  exact if_pos h

/-- Settles O41: each mode is a branch of `clipPoint`, and every clipped point lies in the Frame. -/
theorem clipPointResult : Obligations.ClipPoint := by
  intro b x y
  refine ⟨fun hmode => clipPoint_of_clamp hmode x y, fun hmode => clipPoint_of_discard hmode,
    clipPoint_outside, fun q hq => ?_⟩
  obtain ⟨hx, hy⟩ := clipPoint_mem b hq
  exact ⟨hx, hy, idx_lt b.val hx hy⟩

/-! ## One PLOT call (R300) -/

theorem plot_of_dropped {s : State} {p : Plot} (h : clipPoint s.par p.x p.y = none) : s.plot p = s := by
  rw [State.plot, h]

theorem plot_of_clipped {s : State} {p : Plot} {q : Nat × Nat} (h : clipPoint s.par p.x p.y = some q) :
    s.plot p = s.plotAt q p.c := by
  rw [State.plot, h]

/-! ## The commands -/

theorem headerWord_fbPixel : headerWord .fbPixel false = 0x0040#16 := by decide

theorem headerWord_fbGetpixel : headerWord .fbGetpixel false = 0x0041#16 := by decide

theorem encode_fbPixel (x y c : Word) : encode (.fbPixel x y c) = [0x0040#16, 3#16, x, y, c] :=
  congrArg (· :: [3#16, x, y, c]) headerWord_fbPixel

theorem encode_fbGetpixel (x y : Word) : encode (.fbGetpixel x y) = [0x0041#16, 2#16, x, y] :=
  congrArg (· :: [2#16, x, y]) headerWord_fbGetpixel

theorem exec_fbPixel (s : State) (x y c : Word) :
    exec (.fbPixel x y c) s = .next ((s.plot (plotOf x y c)).finish []) := rfl

theorem exec_fbGetpixel_clipped {s : State} {x y : Word} {q : Nat × Nat}
    (h : clipPoint s.par x.toInt y.toInt = some q) :
    exec (.fbGetpixel x y) s = .next (s.finish [s.frameAt (idx s.par q.1 q.2)]) := by
  rw [exec, execFbGetpixel, sext16, sext16, h]
  rfl

/-- Settles O42: the command is one PLOT call, which a dropped point makes nothing of. -/
theorem fbPixelResult : Obligations.FbPixelResult := by
  intro s x y c
  refine ⟨encode_fbPixel x y c, _, exec_fbPixel s x y c, plotAll_finish s [plotOf x y c] [], fun hdrop => ?_,
    fun q hq => ⟨fun p => ?_, fun k => ?_⟩⟩
  · rw [plot_of_dropped (p := plotOf x y c) hdrop]
    exact ⟨rfl, rfl⟩
  · rw [plot_of_clipped (p := plotOf x y c) hq, frameAt_finish, frameAt_plotAt]
    rfl
  · rw [plot_of_clipped (p := plotOf x y c) hq, dirtyAt_finish, dirtyAt_plotAt]
    exact if_congr and_comm rfl rfl

/-- Settles O43: a clipped point is read at its index; a dropped one fails the check. -/
theorem fbGetpixelResult : Obligations.FbGetpixelResult := by
  intro s x y
  exact ⟨encode_fbGetpixel x y, fun q hq => exec_fbGetpixel_clipped hq, fun hdrop => exec_fbGetpixel_badArg s hdrop⟩

end Sys2Proof.Machine
end

section
/-! FB.RECT (44_framebuffer.md R310, R311). -/

namespace Sys2Proof.Machine

theorem headerWord_fbRect : headerWord .fbRect false = 0x0042#16 := by decide

theorem encode_fbRect (x0 y0 x1 y1 c : Word) :
    encode (.fbRect x0 y0 x1 y1 c) = [0x0042#16, 5#16, x0, y0, x1, y1, c] :=
  congrArg (· :: [5#16, x0, y0, x1, y1, c]) headerWord_fbRect

/-- The state after the allocation's draw, which is taken only when FILLRECT_MAY_FAIL (R311). -/
def afterAllocation (s : State) : State :=
  { s with
    alloc := if s.par.fillrectMayFail then s.alloc.tail else s.alloc
    drawn := if s.par.fillrectMayFail then s.drawn + 1 else s.drawn }

/-- The draw answers with the head of the script, or freely where the script is empty. -/
theorem drawAlloc_eq (s : State) : s.drawAlloc =
    (s.alloc.headD (Config.freeAllocFails s.drawn), { s with alloc := s.alloc.tail, drawn := s.drawn + 1 }) := by
  rw [State.drawAlloc]
  split
  case h_1 hempty =>
    rw [hempty]
    rfl
  case h_2 b rest hscript =>
    rw [hscript]
    rfl

theorem rectAllocation_eq (s : State) : rectAllocation s = (s.allocFails, afterAllocation s) := by
  rw [rectAllocation, State.allocFails, afterAllocation]
  split
  case isTrue hmay => rw [drawAlloc_eq, hmay, Bool.true_and]
  case isFalse hnever => rw [Bool.eq_false_iff.mpr hnever, Bool.false_and]

theorem exec_fbRect_of_allocFails {s : State} (h : s.allocFails = true) (x0 y0 x1 y1 c : Word) :
    exec (.fbRect x0 y0 x1 y1 c) s = .next ((afterAllocation s).raise .alloc []) := by
  rw [exec, execFbRect, rectAllocation_eq, h]
  rfl

theorem exec_fbRect_of_allocated {s : State} (h : s.allocFails = false) (x0 y0 x1 y1 c : Word) :
    exec (.fbRect x0 y0 x1 y1 c) s = .next (((afterAllocation s).plotAll
      (plotsOf c (rectPoints x0.toInt y0.toInt x1.toInt y1.toInt))).finish []) := by
  rw [exec, execFbRect, rectAllocation_eq, h]
  rfl

/-- Settles O44: the pixels that some point of the rectangle is clipped onto are those of `inside`, and the plots of the
points write exactly them. -/
theorem fbRectResult : Obligations.FbRectResult := by
  intro s x0 y0 x1 y1 c
  refine ⟨encode_fbRect x0 y0 x1 y1 c, fun hfails => exec_fbRect_of_allocFails hfails x0 y0 x1 y1 c, fun hok =>
    ⟨_, exec_fbRect_of_allocated hok x0 y0 x1 y1 c, plotAll_finish (afterAllocation s) _ [], ?_⟩⟩
  intro clip inside
  have hhit : ∀ x y, (∃ d ∈ rectPoints x0.toInt y0.toInt x1.toInt y1.toInt, clipPoint s.par d.1 d.2 = some (x, y)) ↔
      x < s.par.width ∧ y < s.par.height ∧ inside x y :=
    fun x y => rect_hit s.cfg x0.toInt y0.toInt x1.toInt y1.toInt (x, y)
  refine ⟨fun x y hx hy hin => ?_, fun p hp => ?_, fun k => ?_⟩
  · obtain ⟨d, hd, hclip⟩ := (hhit x y).mpr ⟨hx, hy, hin⟩
    rw [frameAt_finish, frameAt_points]
    exact if_pos ⟨d, hd, (x, y), hclip, rfl⟩
  · rw [frameAt_finish, frameAt_points]
    refine if_neg ?_
    rintro ⟨d, hd, ⟨x, y⟩, hclip, hw⟩
    obtain ⟨hx, hy, hin⟩ := (hhit x y).mp ⟨d, hd, hclip⟩
    exact hp x y hx hy hin hw
  · rw [dirtyAt_finish, dirtyAt_points]
    refine or_congr Iff.rfl ⟨?_, ?_⟩
    · rintro ⟨d, hd, ⟨x, y⟩, hclip, hk, hc⟩
      obtain ⟨hx, hy, hin⟩ := (hhit x y).mp ⟨d, hd, hclip⟩
      exact ⟨x, y, hx, hy, hin, hk, hc⟩
    · rintro ⟨x, y, hx, hy, hin, hk, hc⟩
      obtain ⟨d, hd, hclip⟩ := (hhit x y).mpr ⟨hx, hy, hin⟩
      exact ⟨d, hd, (x, y), hclip, hk, hc⟩

end Sys2Proof.Machine
end

section
/-! The laws of the points of a line, read off their closed form (44_framebuffer.md R321). -/

namespace Sys2Proof.Machine

/-! ## The minor coordinate -/

/-- The minor coordinate of point i of a line with its ends at a and b in it and d steps along the major one. -/
def minorAt (a b d : Int) (i : Nat) : Int := a + (if a < b then 1 else -1) * minorSteps d |b - a| i

theorem minorAt_zero {a b d : Int} (h : |b - a| ≤ d) : minorAt a b d 0 = a := by
  have hd : 0 ≤ d := (abs_nonneg _).trans h
  rw [minorAt, minorSteps_zero d _ hd, mul_zero, add_zero]

theorem minorAt_last {a b d : Int} (h : |b - a| ≤ d) : minorAt a b d d.toNat = b := by
  rw [minorAt, minorSteps_last d _ (abs_nonneg _) h, minor_end]

theorem minorAt_succ {a b d : Int} (h : |b - a| ≤ d) (i : Nat) : |minorAt a b d (i + 1) - minorAt a b d i| ≤ 1 := by
  obtain ⟨hge, hle⟩ := minorSteps_succ d _ (abs_nonneg _) h i
  rw [minorAt, minorAt, abs_le]
  split <;> omega

/-! ## Points numbered in order -/

section
variable {α : Type}

theorem getElem?_map_range (f : Nat → α) {n i : Nat} (h : i < ((List.range n).map f).length) :
    ((List.range n).map f)[i]? = some (f i) := by
  rw [List.length_map, List.length_range] at h
  rw [List.getElem?_map, List.getElem?_range h]
  rfl

theorem isChain_map_range_succ {r : α → α → Prop} {f : Nat → α} (h : ∀ i, r (f i) (f (i + 1))) (n : Nat) :
    ((List.range (n + 1)).map f).IsChain r :=
  (List.isChain_map f).mpr ((List.isChain_range_succ _ n).mpr fun i _ => h i)

end

/-! ## The laws (R321) -/

/-- One step from point to point of a line of extents dx and dy: 1 in the major coordinate, at most 1 in the other. -/
def LineStep (dx dy : Int) (d e : Int × Int) : Prop :=
  if dx < dy then |e.2 - d.2| = 1 ∧ |e.1 - d.1| ≤ 1 else |e.1 - d.1| = 1 ∧ |e.2 - d.2| ≤ 1

/-- As many points as the longer side needs, all distinct, with both ends, each a step from the one before. -/
structure LineLaws (x0 y0 x1 y1 : Int) (points : List (Int × Int)) : Prop where
  length : points.length = (max |x1 - x0| |y1 - y0|).toNat + 1
  nodup : points.Nodup
  first_mem : (x0, y0) ∈ points
  last_mem : (x1, y1) ∈ points
  steps : points.IsChain (LineStep |x1 - x0| |y1 - y0|)

/-- The laws say the same from either end. -/
theorem LineLaws.swap_ends {x0 y0 x1 y1 : Int} {points : List (Int × Int)} (h : LineLaws x0 y0 x1 y1 points) :
    LineLaws x1 y1 x0 y0 points where
  length := by rw [abs_sub_comm x0, abs_sub_comm y0, h.length]
  nodup := h.nodup
  first_mem := h.last_mem
  last_mem := h.first_mem
  steps := by
    rw [abs_sub_comm x0, abs_sub_comm y0]
    exact h.steps

/-- With the coordinates exchanged the other one is the major one. -/
theorem LineStep.swap {dx dy : Int} (hne : dx ≠ dy) {d e : Int × Int} (h : LineStep dx dy d e) :
    LineStep dy dx d.swap e.swap := by
  rw [LineStep] at h ⊢
  rcases hne.lt_or_gt with hlt | hgt
  · rw [if_pos hlt] at h
    rwa [if_neg hlt.le.not_gt]
  · rw [if_neg hgt.le.not_gt] at h
    rwa [if_pos hgt]

theorem LineLaws.swap_coordinates {x0 y0 x1 y1 : Int} {points : List (Int × Int)} (hne : |x1 - x0| ≠ |y1 - y0|)
    (h : LineLaws x0 y0 x1 y1 points) : LineLaws y0 x0 y1 x1 (points.map Prod.swap) where
  length := by rw [List.length_map, max_comm, h.length]
  nodup := h.nodup.map Prod.swap_injective
  first_mem := List.mem_map_of_mem h.first_mem
  last_mem := List.mem_map_of_mem h.last_mem
  steps := (List.isChain_map _).mpr (h.steps.imp fun _ _ => LineStep.swap hne)

/-- A line that is not steep, walked along rising x. -/
theorem lineLaws_shallow {x0 y0 x1 y1 : Int} (h : |y1 - y0| ≤ x1 - x0) :
    LineLaws x0 y0 x1 y1 (linePoints x0 y0 x1 y1) := by
  have hd : 0 ≤ x1 - x0 := (abs_nonneg _).trans h
  have hx : |x1 - x0| = x1 - x0 := abs_of_nonneg hd
  have hpoints : linePoints x0 y0 x1 y1 =
      (List.range ((x1 - x0).toNat + 1)).map fun i : Nat => (x0 + (i : Int), minorAt y0 y1 (x1 - x0) i) :=
    linePoints_shallow h
  rw [hpoints]
  refine ⟨?_, ?_, List.mem_map.mpr ⟨0, by simp, ?_⟩, List.mem_map.mpr ⟨(x1 - x0).toNat, by simp, ?_⟩, ?_⟩
  · rw [List.length_map, List.length_range, hx, max_eq_left h]
  · refine List.nodup_range.map fun i j hij => ?_
    have := congrArg Prod.fst hij
    simp only at this
    omega
  · rw [minorAt_zero h, Nat.cast_zero, add_zero]
  · rw [minorAt_last h, Int.toNat_of_nonneg hd, add_sub_cancel]
  · refine isChain_map_range_succ (fun i => ?_) _
    rw [LineStep, if_neg (by omega)]
    refine ⟨?_, minorAt_succ h i⟩
    simp

/-- A steep line rising along y is the shallow one with its coordinates exchanged. -/
theorem linePoints_steep_eq_swap {x0 y0 x1 y1 : Int} (h : |x1 - x0| < y1 - y0) :
    linePoints x0 y0 x1 y1 = (linePoints y0 x0 y1 x1).map Prod.swap := by
  rw [linePoints_steep h, linePoints_shallow h.le, List.map_map]
  rfl

theorem lineLaws_steep {x0 y0 x1 y1 : Int} (h : |x1 - x0| < y1 - y0) :
    LineLaws x0 y0 x1 y1 (linePoints x0 y0 x1 y1) := by
  rw [linePoints_steep_eq_swap h]
  exact (lineLaws_shallow h.le).swap_coordinates (h.trans_le (le_abs_self _)).ne'

/-- Every line is one of the two, from one of its ends. -/
theorem linePoints_laws (x0 y0 x1 y1 : Int) : LineLaws x0 y0 x1 y1 (linePoints x0 y0 x1 y1) := by
  rcases le_or_gt |y1 - y0| |x1 - x0| with hshallow | hsteep
  · rcases abs_choice (x1 - x0) with hx | hx <;> rw [hx] at hshallow
    · exact lineLaws_shallow hshallow
    · rw [abs_sub_comm, neg_sub] at hshallow
      rw [← linePoints_comm]
      exact (lineLaws_shallow hshallow).swap_ends
  · rcases abs_choice (y1 - y0) with hy | hy <;> rw [hy] at hsteep
    · exact lineLaws_steep hsteep
    · rw [abs_sub_comm, neg_sub] at hsteep
      rw [← linePoints_comm]
      exact (lineLaws_steep hsteep).swap_ends

end Sys2Proof.Machine
end

section
/-! FB.LINE (44_framebuffer.md R320). -/

namespace Sys2Proof.Machine

theorem headerWord_fbLine : headerWord .fbLine false = 0x0043#16 := by decide

theorem encode_fbLine (x0 y0 x1 y1 c : Word) :
    encode (.fbLine x0 y0 x1 y1 c) = [0x0043#16, 5#16, x0, y0, x1, y1, c] :=
  congrArg (· :: [5#16, x0, y0, x1, y1, c]) headerWord_fbLine

theorem exec_fbLine (s : State) (x0 y0 x1 y1 c : Word) : exec (.fbLine x0 y0 x1 y1 c) s =
    .next ((s.plotAll (plotsOf c (linePoints x0.toInt y0.toInt x1.toInt y1.toInt))).finish []) := rfl

/-- Settles O45: the command plots `linePoints` in one colour, and the list has its laws and its closed form. -/
theorem fbLineResult : Obligations.FbLineResult := by
  intro s x0 y0 x1 y1 c
  have hlaws := linePoints_laws x0.toInt y0.toInt x1.toInt y1.toInt
  refine ⟨encode_fbLine x0 y0 x1 y1 c, _, _, exec_fbLine s x0 y0 x1 y1 c, plotAll_finish s _ [], fun p => ?_,
    fun k => ?_, rfl, (linePoints_comm _ _ _ _).symm, hlaws.length, hlaws.nodup, hlaws.first_mem, hlaws.last_mem,
    hlaws.steps, fun hshallow i hi => ?_, fun hsteep i hi => ?_⟩
  · rw [frameAt_finish, frameAt_points]
    rfl
  · rw [dirtyAt_finish, dirtyAt_points]
    rfl
  · rw [linePoints_shallow hshallow] at hi ⊢
    exact getElem?_map_range _ hi
  · rw [linePoints_steep hsteep] at hi ⊢
    exact getElem?_map_range _ hi

end Sys2Proof.Machine
end

section
/-! What FB.FLUSH sends and leaves (44_framebuffer.md R340, R343). -/

namespace Sys2Proof.Machine

/-! ## The pixel words of a cell in the order of PIXEL_ORDER -/

/-- An entry of lists of one length w put one after the other. -/
theorem getElem?_flatMap_of_length {α β : Type} (f : α → List β) {w i : Nat} (hi : i < w) (l : List α)
    (hf : ∀ a ∈ l, (f a).length = w) (j : Nat) : (l.flatMap f)[j * w + i]? = l[j]?.bind fun a => (f a)[i]? := by
  induction l generalizing j with
  | nil => rfl
  | cons a l ih =>
    have ha : (f a).length = w := hf a (by simp)
    rw [List.flatMap_cons]
    cases j with
    | zero =>
      rw [Nat.zero_mul, Nat.zero_add, List.getElem?_append_left (by omega)]
      rfl
    | succ j =>
      have hplace : (j + 1) * w + i = w + (j * w + i) := by rw [Nat.add_mul]; omega
      rw [hplace, List.getElem?_append_right (by omega), ha, Nat.add_sub_cancel_left,
        ih (fun b hb => hf b (by simp [hb]))]
      rfl

/-- The place of pixel (i, j) of a window in the order of its pixels. -/
def pixelPlace (order : PixelOrder) (w h i j : Nat) : Nat :=
  match order with
  | .rowMajor => j * w + i
  | .columnMajor => i * h + j

theorem windowPixels_getElem? (order : PixelOrder) (x0 y0 : Nat) {w h i j : Nat} (hi : i < w) (hj : j < h) :
    (windowPixels order x0 y0 w h)[pixelPlace order w h i j]? = some (x0 + i, y0 + j) := by
  cases order with
  | rowMajor =>
    rw [windowPixels, pixelPlace, getElem?_flatMap_of_length _ hi _ fun _ _ => by simp]
    simp [hi, hj]
  | columnMajor =>
    rw [windowPixels, pixelPlace, getElem?_flatMap_of_length _ hj _ fun _ _ => by simp]
    simp [hi, hj]

theorem cellWords_getElem? (s : State) (gx gy : Nat) {i j : Nat} (hi : i < s.par.cellW) (hj : j < s.par.cellH) :
    (cellWords s gx gy)[pixelPlace s.par.pixelOrder s.par.cellW s.par.cellH i j]? =
      some (s.frameAt (idx s.par (gx * s.par.cellW + i) (gy * s.par.cellH + j))) := by
  rw [cellWords, List.getElem?_map, cellSendOrder_eq, windowPixels_getElem? _ _ _ hi hj]
  rfl

/-! ## The events of a cell (R343) -/

/-- A display frame selects the chip once. -/
theorem count_csOn_frameEvents (d : Dc) (bytes : List Byte) : (frameEvents d bytes).count .csOn = 1 := by
  have hbytes : (bytes.map Event.byte).count .csOn = 0 := List.count_eq_zero.mpr (by simp)
  rw [frameEvents, List.count_append, List.count_append, hbytes]
  rfl

theorem count_csOn_cellEvents (s : State) (g : Nat × Nat) : (cellEvents s g).count .csOn = 6 := by
  simp only [cellEvents, windowEvents, List.count_append, count_csOn_frameEvents]

theorem cellEvents_length (s : State) (g : Nat × Nat) :
    (cellEvents s g).length = 26 + 3 + 2 * (s.par.cellW * s.par.cellH) := by
  rw [cellEvents, List.length_append, windowEvents_length, frameEvents_length, bytesOfWords_length, cellWords_length,
    Nat.add_assoc]

theorem count_csOn_flatMap_cellEvents (s : State) (sent : List (Nat × Nat)) :
    (sent.flatMap (cellEvents s)).count .csOn = 6 * sent.length := by
  induction sent with
  | nil => rfl
  | cons g sent ih => rw [List.flatMap_cons, List.count_append, count_csOn_cellEvents, ih, List.length_cons]; omega

theorem flatMap_cellEvents_length (s : State) (sent : List (Nat × Nat)) :
    (sent.flatMap (cellEvents s)).length = sent.length * (26 + 3 + 2 * (s.par.cellW * s.par.cellH)) := by
  induction sent with
  | nil => simp
  | cons g sent ih => rw [List.flatMap_cons, List.length_append, cellEvents_length, ih, List.length_cons,
      Nat.succ_mul sent.length, Nat.add_comm]

/-! ## The cells sent -/

/-- The cells a flush of s sends. -/
def flushSent (s : State) : List (Nat × Nat) := sentOf s (cellsInOrder s.par)

theorem flushSent_sublist (s : State) : (flushSent s).Sublist (cellsInOrder s.par) := List.filter_sublist

/-- A cell of the grid is sent when it is dirty and stale or different from Baseline. -/
theorem mem_flushSent {s : State} {g : Nat × Nat} :
    g ∈ flushSent s ↔ (g.1 < s.par.gridW ∧ g.2 < s.par.gridH) ∧ cellMustGo s g.1 g.2 = true := by
  rw [flushSent, mem_sentOf, mem_cellsInOrder]

/-- The number of cells sent fits a result word (R9). -/
theorem flushSent_length_le (s : State) : (flushSent s).length ≤ s.par.cells ∧ (flushSent s).length ≤ 65535 := by
  have hle : (flushSent s).length ≤ s.par.cells := cellsInOrder_length s.par ▸ (flushSent_sublist s).length_le
  exact ⟨hle, hle.trans (board_cells s.cfg)⟩

/-- The cells of the grid have the numbers below GW*GH (20_memory.md R82). -/
theorem mem_cellNumbers {c : Config} {k : Nat} : k ∈ (cellsInOrder c).map (cellNo c) ↔ k < c.cells := by
  rw [List.mem_map]
  constructor
  · rintro ⟨g, hg, rfl⟩
    obtain ⟨hx, hy⟩ := (mem_cellsInOrder c g).mp hg
    have hrow : (g.2 + 1) * c.gridW ≤ c.gridH * c.gridW := Nat.mul_le_mul_right _ hy
    rw [Nat.add_mul] at hrow
    rw [cellNo, Config.cells, Nat.mul_comm c.gridW]
    omega
  · intro hk
    obtain ⟨g, hg, hno⟩ := exists_cellNo_eq hk
    exact ⟨g, (mem_cellsInOrder c g).mpr hg, hno⟩

theorem cellNo_lt_of_mem_flushSent {s : State} {g : Nat × Nat} (h : g ∈ flushSent s) :
    g.2 * s.par.gridW + g.1 < s.par.cells :=
  mem_cellNumbers.mp (List.mem_map_of_mem ((flushSent_sublist s).mem h))

/-! ## The state after the flush -/

/-- The result word is the number of cells sent. -/
theorem exec_fbFlush (s : State) :
    exec .fbFlush s = .next ((flushAll s).1.finish [wordOfNat (flushSent s).length]) := by
  obtain ⟨-, hcount⟩ := flushAll_spec s
  rw [exec, execFbFlush, hcount]
  rfl

theorem flushAll_finish (s : State) (words : List Word) : (flushAll s).1.finish words = { s with
    dcLine := if flushSent s = [] then s.dcLine else .data
    csLine := if flushSent s = [] then s.csLine else .off
    baseline := (flushAll s).1.baseline, dirty := (flushAll s).1.dirty, stale := (flushAll s).1.stale
    trace := s.trace ++ (flushSent s).flatMap (cellEvents s)
    replies := s.replies ++ [⟨.ok, words⟩] } := by
  obtain ⟨⟨honly, hdc, hcs, -⟩, -⟩ := flushAll_spec s
  rw [← flushSent] at honly hdc hcs
  rw [← hdc, ← hcs, State.finish, State.reply]
  conv_lhs => rw [honly]

theorem dirtyAt_flushAll (s : State) (k : Nat) :
    (flushAll s).1.dirtyAt k = if k < s.par.cells then false else s.dirtyAt k := by
  obtain ⟨⟨-, -, -, hdirty, -⟩, -⟩ := flushAll_spec s
  rw [hdirty]
  exact if_congr mem_cellNumbers rfl rfl

theorem staleAt_flushAll_of_sent (s : State) (k : Nat) : (flushAll s).1.staleAt k =
    if ∃ g ∈ flushSent s, k = g.2 * s.par.gridW + g.1 then false else s.staleAt k := by
  obtain ⟨⟨-, -, -, -, hstale, -⟩, -⟩ := flushAll_spec s
  rw [hstale]
  refine if_congr ?_ rfl rfl
  rw [List.mem_map]
  exact exists_congr fun g => and_congr_right fun _ => eq_comm

/-- Index p is that of a pixel of a sent cell. -/
def InSentCell (s : State) (p : Nat) : Prop :=
  ∃ g ∈ flushSent s, ∃ q ∈ cellPixels s.par g.1 g.2, idx s.par q.1 q.2 = p

theorem baselineAt_flushAll_of_inSentCell {s : State} {p : Nat} (h : InSentCell s p) :
    (flushAll s).1.baselineAt p = s.frameAt p := by
  obtain ⟨⟨-, -, -, -, -, hbaseline⟩, -⟩ := flushAll_spec s
  exact (hbaseline p).trans (if_pos h)

theorem baselineAt_flushAll_of_not_inSentCell {s : State} {p : Nat} (h : ¬ InSentCell s p) :
    (flushAll s).1.baselineAt p = s.baselineAt p := by
  obtain ⟨⟨-, -, -, -, -, hbaseline⟩, -⟩ := flushAll_spec s
  exact (hbaseline p).trans (if_neg h)

/-- A pixel of the Frame lies in a sent cell when its own cell is sent (20_memory.md R82). -/
theorem inSentCell_idx_iff {s : State} {x y : Nat} (hx : x < s.par.width) :
    InSentCell s (idx s.par x y) ↔ (x / s.par.cellW, y / s.par.cellH) ∈ flushSent s := by
  constructor
  · rintro ⟨g, hg, q, hq, hidx⟩
    obtain ⟨hgrid, -⟩ := mem_flushSent.mp hg
    obtain ⟨hin, hgx, hgy⟩ := cellPixels_mem s.cfg hgrid hq
    obtain ⟨rfl, rfl⟩ := idx_inj s.par hin.1 hx hidx
    have hown : (q.1 / s.par.cellW, q.2 / s.par.cellH) = g := Prod.ext hgx hgy
    rwa [hown]
  · intro hsent
    exact ⟨_, hsent, (x, y), mem_own_cell s.cfg x y, rfl⟩

/-- Sent cells lie in the Frame memory. -/
theorem InSentCell.lt {s : State} {p : Nat} (h : InSentCell s p) : p < s.par.width * s.par.height := by
  obtain ⟨g, hg, q, hq, rfl⟩ := h
  obtain ⟨hgrid, -⟩ := mem_flushSent.mp hg
  obtain ⟨⟨hx, hy⟩, -⟩ := cellPixels_mem s.cfg hgrid hq
  exact idx_lt s.par hx hy

/-! ## The obligation -/

theorem headerWord_fbFlush : headerWord .fbFlush false = 0x0045#16 := by decide

theorem encode_fbFlush : encode .fbFlush = [0x0045#16, 0#16] :=
  congrArg (· :: [0#16]) headerWord_fbFlush

/-- Settles O50: the cells sent are those of `flushSent`, and the flush loop says the rest of them. -/
theorem fbFlushResult : Obligations.FbFlushResult := by
  refine ⟨encode_fbFlush, fun s gx gy => ⟨cellWords_length s gx gy, fun i j hi hj => ?_⟩, fun s =>
    ⟨_, flushSent s, exec_fbFlush s, flushSent_sublist s, fun gx gy => ?_, flushAll_finish s _,
      (flushSent_length_le s).1, (flushSent_length_le s).2, count_csOn_flatMap_cellEvents s _,
      flatMap_cellEvents_length s _, fun k => dirtyAt_flushAll s k, fun k => staleAt_flushAll_of_sent s k,
      fun x y hx hy => ?_, fun p hp => ?_, fun h0 h1 => ⟨fun k hk => staleAt_flushAll h0 hk,
        fun x y hx hy => baselineAt_flushAll h1 hx hy⟩⟩⟩
  · exact cellWords_getElem? s gx gy hi hj
  · rw [mem_flushSent, cellMustGo_iff]
    simp only [mem_cellPixels, Prod.exists, and_assoc]
  · rw [baselineAt_finish]
    by_cases hsent : (x / s.par.cellW, y / s.par.cellH) ∈ flushSent s
    · rw [if_pos hsent, baselineAt_flushAll_of_inSentCell ((inSentCell_idx_iff hx).mpr hsent)]
    · rw [if_neg hsent, baselineAt_flushAll_of_not_inSentCell fun h => hsent ((inSentCell_idx_iff hx).mp h)]
  · rw [baselineAt_finish, baselineAt_flushAll_of_not_inSentCell fun h => absurd h.lt (Nat.not_lt.mpr hp)]

end Sys2Proof.Machine
end

section
/-! A second flush (44_framebuffer.md R342): what the commands between two flushes leave of the flags, and the flush
that finds nothing to send. -/

namespace Sys2Proof.Machine

/-! ## Which commands write the framebuffer memories (10_state.md R46) -/

theorem sameFramebuffer_checked {s : State} (ok : Bool) {run : State → State} (h : SameFramebuffer s (run s)) :
    SameFramebuffer s (s.checked ok run) := by
  rw [State.checked]
  split
  · exact h
  · exact .refl s

/-- Drawing commands, DL.INIT and FB.FLUSH apart, no command writes a framebuffer memory. -/
theorem exec_sameFramebuffer {i : Instr} {s t : State} (hdraws : draws i = false) (hinit : i ≠ .dlInit)
    (hflush : i ≠ .fbFlush) (h : exec i s = .next t) : SameFramebuffer s t := by
  match i, hdraws, h with
  | .dlInit, _, _ => exact absurd rfl hinit
  | .fbFlush, _, _ => exact absurd rfl hflush
  | .pixPack r g b, _, h =>
    cases h
    exact sameFramebuffer_checked _ (.refl s)
  | .pixUnpack c, _, h =>
    cases h
    exact .refl s
  | .busInit, _, h =>
    cases h
    exact (initBus_spec s).1.sameFramebuffer.finish _
  | .busWrite hold a n data, _, h =>
    cases h
    exact sameFramebuffer_checked _ ((busWrite_onlyBus a _ hold s).sameFramebuffer.reply _)
  | .busRead hold a n, _, h =>
    cases h
    exact sameFramebuffer_checked _ ((busRead_onlyBus a _ hold s).sameFramebuffer.reply _)
  | .regReadw a start count, _, h =>
    cases h
    exact sameFramebuffer_checked _ ((retry_txReadWords_onlyBus a start count s).sameFramebuffer.reply _)
  | .regWritew a addr value, _, h =>
    cases h
    exact sameFramebuffer_checked _ ((retry_txWriteWord_onlyBus a addr value s).sameFramebuffer.reply _)
  | .dlCmd code, _, h =>
    cases h
    exact sameFramebuffer_checked _ ((sendCommand_onlyDisplay _ s).sameFramebuffer.finish _)
  | .dlData n data, _, h =>
    cases h
    exact sameFramebuffer_checked _ ((sendData_onlyDisplay _ s).sameFramebuffer.finish _)
  | .dlWords n words, _, h =>
    cases h
    exact (sendData_onlyDisplay _ s).sameFramebuffer.finish _
  | .dlWindow x0 y0 x1 y1, _, h =>
    cases h
    exact sameFramebuffer_checked _ ((setWindow_onlyDisplay x0 y0 x1 y1 s).sameFramebuffer.finish _)
  | .fbGetpixel x y, _, h =>
    cases h
    split <;> exact .refl s
  | .mapConfig ax ay bx byy, _, h =>
    cases h
    split <;> exact .refl s
  | .mapPoint row col, _, h =>
    cases h
    exact sameFramebuffer_checked _ (.refl s)

/-- The same parameters and Stale flags. -/
def SameStale (s t : State) : Prop := t.cfg = s.cfg ∧ t.stale = s.stale

theorem SameFramebuffer.sameStale {s t : State} (h : SameFramebuffer s t) : SameStale s t := by
  obtain ⟨hcfg, -, -, -, hstale⟩ := h
  exact ⟨hcfg, hstale⟩

theorem sameStale_plotAll (s : State) (ps : List Plot) (words : List Word) :
    SameStale s ((s.plotAll ps).finish words) := by
  rw [plotAll_finish]
  exact ⟨rfl, rfl⟩

theorem sameStale_checked_plotAll (s : State) (ok : Bool) (ps : State → List Plot) (words : List Word) :
    SameStale s (s.checked ok fun s => (s.plotAll (ps s)).finish words) := by
  rw [State.checked]
  split
  · exact sameStale_plotAll s (ps s) words
  · exact ⟨rfl, rfl⟩

/-- No drawing command writes a Stale flag. -/
theorem exec_sameStale_of_draws {i : Instr} {s t : State} (hdraws : draws i = true) (h : exec i s = .next t) :
    SameStale s t := by
  match i, hdraws, h with
  | .fbPixel x y c, _, h =>
    cases h
    exact sameStale_plotAll s [plotOf x y c] []
  | .fbRect x0 y0 x1 y1 c, _, h =>
    cases hfails : s.allocFails with
    | true =>
      rw [exec_fbRect_of_allocFails hfails] at h
      cases h
      exact ⟨rfl, rfl⟩
    | false =>
      rw [exec_fbRect_of_allocated hfails] at h
      cases h
      exact sameStale_plotAll (afterAllocation s) _ []
  | .fbLine x0 y0 x1 y1 c, _, h =>
    cases h
    exact sameStale_plotAll s _ []
  | .fbCircle cx cy r c, _, h =>
    cases h
    exact sameStale_plotAll s _ []
  | .fbChar transp x y ch fg bg, _, h =>
    cases h
    exact sameStale_checked_plotAll s _ (fun s => glyphPlots s.par (sext16 x) (sext16 y) (lo ch) fg bg transp) []
  | .fbText transp x y fg bg n chars, _, h =>
    cases h
    exact sameStale_checked_plotAll s _
      (fun s => textPlots s.par (sext16 y) fg bg transp (sext16 x) (unpackBytes n chars)) []

/-- The parameters stay (00_scope.md R9). -/
theorem FramebufferWrite.par {s t : State} (h : FramebufferWrite s t) : t.par = s.par := by
  cases h with
  | none ht => exact ht.par
  | plots u ps hu ht => rw [ht.par, (plotAll_only u ps).par, hu.par]
  | marks u hu ht => rw [ht.par, markAllCells_par, hu.par]
  | flushes u hu ht => rw [ht.par, flushAll_par, hu.par]

theorem exec_par {i : Instr} {s t : State} (h : exec i s = .next t) : t.par = s.par := (exec_framebufferWrite h).par

/-! ## Flags that stay cleared -/

/-- No cell of the grid is dirty. -/
def NoneDirty (s : State) : Prop := ∀ k, k < s.par.cells → s.dirtyAt k = false

/-- No cell of the grid is stale. -/
def NoneStale (s : State) : Prop := ∀ k, k < s.par.cells → s.staleAt k = false

theorem NoneDirty.of_sameFramebuffer {s t : State} (hs : NoneDirty s) (h : SameFramebuffer s t) : NoneDirty t := by
  have hpar := h.par
  obtain ⟨-, -, -, hdirty, -⟩ := h
  simpa only [NoneDirty, State.dirtyAt, hpar, hdirty] using hs

theorem NoneStale.of_sameStale {s t : State} (hs : NoneStale s) (h : SameStale s t) : NoneStale t := by
  obtain ⟨hcfg, hstale⟩ := h
  simpa only [NoneStale, State.staleAt, State.par, hcfg, hstale] using hs

/-- A flush clears every Dirty flag of the grid. -/
theorem noneDirty_flush (s : State) (words : List Word) : NoneDirty ((flushAll s).1.finish words) := by
  intro k hk
  rw [finish_par, flushAll_par] at hk
  rw [dirtyAt_finish, dirtyAt_flushAll, if_pos hk]

/-- A flush sets no Stale flag. -/
theorem NoneStale.flush {s : State} (hs : NoneStale s) (words : List Word) :
    NoneStale ((flushAll s).1.finish words) := by
  intro k hk
  rw [finish_par, flushAll_par] at hk
  rw [staleAt_finish, staleAt_flushAll_of_sent]
  split
  · rfl
  · exact hs k hk

/-- With INV0 a flush clears every Stale flag of the grid. -/
theorem noneStale_flush {s : State} (h0 : Inv0 s) (words : List Word) : NoneStale ((flushAll s).1.finish words) := by
  intro k hk
  rw [finish_par, flushAll_par] at hk
  exact staleAt_flushAll h0 hk

theorem NoneDirty.exec {i : Instr} {s t : State} (hs : NoneDirty s) (hi : draws i = false ∧ i ≠ .dlInit)
    (h : exec i s = .next t) : NoneDirty t := by
  obtain ⟨hdraws, hinit⟩ := hi
  by_cases hflush : i = .fbFlush
  · subst hflush
    rw [exec_fbFlush] at h
    cases h
    exact noneDirty_flush s _
  · exact hs.of_sameFramebuffer (exec_sameFramebuffer hdraws hinit hflush h)

theorem NoneStale.exec {i : Instr} {s t : State} (hs : NoneStale s) (hinit : i ≠ .dlInit)
    (h : exec i s = .next t) : NoneStale t := by
  by_cases hflush : i = .fbFlush
  · subst hflush
    rw [exec_fbFlush] at h
    cases h
    exact hs.flush _
  · cases hdraws : draws i with
    | true => exact hs.of_sameStale (exec_sameStale_of_draws hdraws h)
    | false => exact hs.of_sameStale (exec_sameFramebuffer hdraws hinit hflush h).sameStale

/-! ## Runs of commands -/

/-- Every command has a next state (60_exceptions.md R412). -/
theorem exec_ends (i : Instr) (s : State) : ∃ t, exec i s = .next t := by
  cases i <;> exact ⟨_, rfl⟩

theorem runCommands_cons {i : Instr} {s t : State} (h : exec i s = .next t) (commands : List Instr) :
    runCommands (i :: commands) s = runCommands commands t := by
  rw [runCommands, h]

/-- What every command of a list keeps holds after the list. -/
theorem runCommands_keeps {P : State → Prop} {commands : List Instr}
    (hkeeps : ∀ i ∈ commands, ∀ s t, P s → exec i s = .next t → P t) {s : State} (hs : P s) :
    ∃ t, runCommands commands s = .next t ∧ P t := by
  induction commands generalizing s with
  | nil => exact ⟨s, rfl, hs⟩
  | cons i commands ih =>
    obtain ⟨t, ht⟩ := exec_ends i s
    rw [runCommands_cons ht]
    exact ih (fun j hj => hkeeps j (List.mem_cons_of_mem i hj)) (hkeeps i List.mem_cons_self s t hs ht)

/-! ## A flush that sends nothing -/

theorem flushSent_eq_nil_of_noneDirty {s : State} (hs : NoneDirty s) : flushSent s = [] := by
  refine List.eq_nil_iff_forall_not_mem.mpr fun g hg => ?_
  obtain ⟨-, hgo⟩ := mem_flushSent.mp hg
  obtain ⟨hdirty, -⟩ := (cellMustGo_iff s g.1 g.2).mp hgo
  rw [hs _ (cellNo_lt_of_mem_flushSent hg)] at hdirty
  cases hdirty

theorem flushSent_eq_nil_of_frame_eq_baseline {s : State} (hs : NoneStale s)
    (hsame : ∀ x y, x < s.par.width → y < s.par.height → s.frameAt (idx s.par x y) = s.baselineAt (idx s.par x y)) :
    flushSent s = [] := by
  refine List.eq_nil_iff_forall_not_mem.mpr fun g hg => ?_
  obtain ⟨hgrid, hgo⟩ := mem_flushSent.mp hg
  obtain ⟨-, hstale | ⟨q, hq, hdiffers⟩⟩ := (cellMustGo_iff s g.1 g.2).mp hgo
  · rw [hs _ (cellNo_lt_of_mem_flushSent hg)] at hstale
    cases hstale
  · obtain ⟨⟨hx, hy⟩, -⟩ := cellPixels_mem s.cfg hgrid hq
    exact hdiffers (hsame q.1 q.2 hx hy)

/-- It emits nothing, returns 0 and leaves Baseline and Stale. -/
theorem flush_of_nothing_sent {s : State} (h : flushSent s = []) :
    let u := (flushAll s).1.finish [0#16]
    exec .fbFlush s = .next u ∧
    u = { s with baseline := u.baseline, dirty := u.dirty, stale := u.stale,
                 replies := s.replies ++ [⟨.ok, [0#16]⟩] } ∧
    (∀ p, u.baselineAt p = s.baselineAt p) ∧ ∀ k, u.staleAt k = s.staleAt k := by
  refine ⟨?_, ?_, fun p => ?_, fun k => ?_⟩
  · rw [exec_fbFlush, h]
    rfl
  · refine (flushAll_finish s [0#16]).trans ?_
    rw [h, if_pos rfl, if_pos rfl, List.flatMap_nil, List.append_nil]
    rfl
  · refine baselineAt_flushAll_of_not_inSentCell ?_
    rintro ⟨g, hg, -⟩
    rw [h] at hg
    cases hg
  · rw [staleAt_finish, staleAt_flushAll_of_sent, h]
    exact if_neg (by simp)

/-! ## The obligation -/

/-- Settles O53: the first flush clears the flags, the commands between leave them cleared, Dirty where nothing draws and
Stale in any case, and so the second flush finds no cell to send. -/
theorem flushIsIdempotent : Obligations.FlushIsIdempotent := by
  refine ⟨fun s commands hcommands => ?_, fun s commands h0 _ hcommands => ?_⟩
  · obtain ⟨t, hrun, hclean⟩ := runCommands_keeps (P := NoneDirty)
      (fun i hi _ _ hs h => hs.exec (hcommands i hi) h) (noneDirty_flush s _)
    obtain ⟨hexec, honly, hbaseline, hstale⟩ := flush_of_nothing_sent (flushSent_eq_nil_of_noneDirty hclean)
    refine ⟨t, _, (runCommands_cons (exec_fbFlush s) commands).trans hrun, hexec, honly, hbaseline, fun k => ?_, hstale⟩
    rw [dirtyAt_finish, dirtyAt_flushAll]
    split
    case isTrue hk => exact (hclean k hk).symm
    case isFalse => rfl
  · obtain ⟨t, hrun, hfresh, hpar⟩ := runCommands_keeps (P := fun u => NoneStale u ∧ u.par = s.par)
      (fun i hi _ _ hs h => ⟨hs.1.exec (hcommands i hi) h, (exec_par h).trans hs.2⟩)
      ⟨noneStale_flush h0 _, exec_par (exec_fbFlush s)⟩
    refine ⟨t, _, (runCommands_cons (exec_fbFlush s) commands).trans hrun, exec_fbFlush t, fun hsame => ?_⟩
    rw [← hpar] at hsame
    have hnone := flushSent_eq_nil_of_frame_eq_baseline hfresh hsame
    obtain ⟨-, honly, hbaseline, hstale⟩ := flush_of_nothing_sent hnone
    rw [hnone]
    exact ⟨honly, hbaseline, hstale, fun k => dirtyAt_flushAll t k⟩

end Sys2Proof.Machine
end

section
/-! FB.CHAR (45_text.md R360, R361). -/

namespace Sys2Proof.Machine

theorem headerWord_fbChar (transp : Bool) : headerWord .fbChar transp = if transp then 0x0148#16 else 0x0048#16 := by
  cases transp <;> decide

theorem encode_fbChar (transp : Bool) (x y ch fg bg : Word) : encode (.fbChar transp x y ch fg bg) =
    [if transp then 0x0148#16 else 0x0048#16, 5#16, x, y, ch, fg, bg] :=
  congrArg (· :: [5#16, x, y, ch, fg, bg]) (headerWord_fbChar transp)

theorem exec_fbChar_ok (s : State) {ch : Word} (h : ch.toNat ≤ 255) (transp : Bool) (x y fg bg : Word) :
    exec (.fbChar transp x y ch fg bg) s =
      .next ((s.plotAll (glyphPlots s.par x.toInt y.toInt (lo ch) fg bg transp)).finish []) :=
  ends_checked_of_true ((byteOk_iff ch).mpr h) _ s

/-! ## A glyph whose box lies inside the Frame -/

/-- No pixel of the box is cut or moved by clipping (44_framebuffer.md R301). -/
theorem clipPoint_box {c : Config} {x y i j : Nat} (hright : x + c.glyphW ≤ c.width)
    (hbelow : y + c.glyphH ≤ c.height) (hi : i < c.glyphW) (hj : j < c.glyphH) :
    clipPoint c ((x : Int) + (i : Int)) ((y : Int) + (j : Int)) = some (x + i, y + j) :=
  clipPoint_inside c (show x + i < c.width by omega) (show y + j < c.height by omega)

/-- A pixel of the box has one place in it. -/
theorem idx_box_inj {c : Config} {x y i j i' j' : Nat} (hright : x + c.glyphW ≤ c.width) (hi : i < c.glyphW)
    (hi' : i' < c.glyphW) (h : idx c (x + i) (y + j) = idx c (x + i') (y + j')) : i = i' ∧ j = j' := by
  obtain ⟨hx, hy⟩ := idx_inj c (show x + i < c.width by omega) (show x + i' < c.width by omega) h
  omega

section
variable {s : State} {x y : Nat} (hright : x + s.par.glyphW ≤ s.par.width) (hbelow : y + s.par.glyphH ≤ s.par.height)
  (ch : Byte) (fg bg : Word) (transp : Bool)
include hright hbelow

/-- Each call of the glyph is for a pixel of its box. -/
theorem clipPoint_glyphPlot {p : Plot} (hp : p ∈ glyphPlots s.par x y ch fg bg transp) :
    ∃ i j, i < s.par.glyphW ∧ j < s.par.glyphH ∧ (fontBit s.par ch j i = true ∨ transp = false) ∧
      p = ⟨x + i, y + j, if fontBit s.par ch j i then fg else bg⟩ ∧
      clipPoint s.par p.x p.y = some (x + i, y + j) := by
  obtain ⟨i, j, hi, hj, hdrawn, rfl⟩ := mem_glyphPlots.mp hp
  exact ⟨i, j, hi, hj, hdrawn, rfl, clipPoint_box hright hbelow hi hj⟩

/-- No two calls write one pixel. -/
theorem glyphPlots_distinct_idx : (glyphPlots s.par x y ch fg bg transp).Pairwise fun p p' =>
    ∀ q q', clipPoint s.par p.x p.y = some q → clipPoint s.par p'.x p'.y = some q' →
      idx s.par q.1 q.2 ≠ idx s.par q'.1 q'.2 := by
  refine (glyphPlots_distinct s.par x y ch fg bg transp).imp_of_mem ?_
  intro p p' hp hp' hne q q' hq hq' hidx
  obtain ⟨i, j, hi, -, -, rfl, hclip⟩ := clipPoint_glyphPlot hright hbelow ch fg bg transp hp
  obtain ⟨i', j', hi', -, -, rfl, hclip'⟩ := clipPoint_glyphPlot hright hbelow ch fg bg transp hp'
  cases hclip.symm.trans hq
  cases hclip'.symm.trans hq'
  obtain ⟨rfl, rfl⟩ := idx_box_inj hright hi hi' hidx
  exact hne rfl

/-- A drawn bit: its pixel takes the colour of the bit. -/
theorem frameAt_glyph_drawn {i j : Nat} (hi : i < s.par.glyphW) (hj : j < s.par.glyphH)
    (hdrawn : fontBit s.par ch j i = true ∨ transp = false) :
    (s.plotAll (glyphPlots s.par x y ch fg bg transp)).frameAt (idx s.par (x + i) (y + j)) =
      if fontBit s.par ch j i then fg else bg :=
  frameAt_plotAll_distinct s _ (glyphPlots_distinct_idx hright hbelow ch fg bg transp)
    (mem_glyphPlots.mpr ⟨i, j, hi, hj, hdrawn, rfl⟩) (clipPoint_box hright hbelow hi hj)

/-- A word of Frame that is no pixel of a drawn bit stays. -/
theorem frameAt_glyph_other {w : Nat} (h : ∀ i j, i < s.par.glyphW → j < s.par.glyphH →
    (fontBit s.par ch j i = true ∨ transp = false) → w ≠ idx s.par (x + i) (y + j)) :
    (s.plotAll (glyphPlots s.par x y ch fg bg transp)).frameAt w = s.frameAt w := by
  refine frameAt_plotAll_other s _ w fun p hp q hq => ?_
  obtain ⟨i, j, hi, hj, hdrawn, -, hclip⟩ := clipPoint_glyphPlot hright hbelow ch fg bg transp hp
  cases hclip.symm.trans hq
  exact (h i j hi hj hdrawn).symm

/-- The pixels of the box after the glyph: a 0 bit of a transparent glyph leaves its own (R361). -/
theorem frameAt_glyph {i j : Nat} (hi : i < s.par.glyphW) (hj : j < s.par.glyphH) :
    (s.plotAll (glyphPlots s.par x y ch fg bg transp)).frameAt (idx s.par (x + i) (y + j)) =
      if fontBit s.par ch j i then fg else if transp then s.frameAt (idx s.par (x + i) (y + j)) else bg := by
  by_cases hdrawn : fontBit s.par ch j i = true ∨ transp = false
  · rw [frameAt_glyph_drawn hright hbelow ch fg bg transp hi hj hdrawn]
    rcases hdrawn with hbit | hopaque
    · rw [if_pos hbit, if_pos hbit]
    · rw [hopaque, if_neg Bool.false_ne_true]
  · obtain ⟨hclear, htransp⟩ := not_or.mp hdrawn
    rw [if_neg hclear, if_pos (Bool.eq_true_of_not_eq_false htransp)]
    refine frameAt_glyph_other hright hbelow ch fg bg transp fun i' j' hi' _ hdrawn' hidx => hdrawn ?_
    obtain ⟨rfl, rfl⟩ := idx_box_inj hright hi hi' hidx
    exact hdrawn'

/-- The flags after the glyph: those set before, and the cells of drawn bits whose colour differs from Baseline. -/
theorem dirtyAt_glyph (k : Nat) : (s.plotAll (glyphPlots s.par x y ch fg bg transp)).dirtyAt k = true ↔
    (s.dirtyAt k = true ∨ ∃ i j, i < s.par.glyphW ∧ j < s.par.glyphH ∧
      (fontBit s.par ch j i = true ∨ transp = false) ∧ k = cellOf s.par (x + i) (y + j) ∧
      (if fontBit s.par ch j i then fg else bg) ≠ s.baselineAt (idx s.par (x + i) (y + j))) := by
  rw [dirtyAt_plotAll]
  refine or_congr Iff.rfl ⟨?_, ?_⟩
  · rintro ⟨p, hp, q, hq, hk, hc⟩
    obtain ⟨i, j, hi, hj, hdrawn, rfl, hclip⟩ := clipPoint_glyphPlot hright hbelow ch fg bg transp hp
    cases hclip.symm.trans hq
    exact ⟨i, j, hi, hj, hdrawn, hk, hc⟩
  · rintro ⟨i, j, hi, hj, hdrawn, hk, hc⟩
    exact ⟨_, mem_glyphPlots.mpr ⟨i, j, hi, hj, hdrawn, rfl⟩, _, clipPoint_box hright hbelow hi hj, hk, hc⟩

end

/-- Settles O48: the command makes the PLOT calls of its glyph; a box inside the Frame has natural coordinates, and its
calls write its pixels one by one. -/
theorem fbCharResult : Obligations.FbCharResult := by
  intro s transp x y ch fg bg
  refine ⟨encode_fbChar transp x y ch fg bg, fun hlarge => exec_fbChar_badArg s (byteOk_eq_false hlarge), fun hbyte =>
    ⟨_, exec_fbChar_ok s hbyte transp x y fg bg, rfl, plotAll_finish s _ [],
      fun k hk => dirtyAt_plotAll_of_dirty s _ hk, ?_⟩⟩
  intro hleft hright habove hbelow
  obtain ⟨x', hx⟩ := Int.eq_ofNat_of_zero_le hleft
  obtain ⟨y', hy⟩ := Int.eq_ofNat_of_zero_le habove
  rw [hx] at hright
  rw [hy] at hbelow
  rw [hx, hy, Int.toNat_natCast, Int.toNat_natCast]
  have hright : x' + s.par.glyphW ≤ s.par.width := by omega
  have hbelow : y' + s.par.glyphH ≤ s.par.height := by omega
  exact ⟨fun i j hi hj => frameAt_glyph hright hbelow (lo ch) fg bg transp hi hj,
    fun p hp => frameAt_glyph_other hright hbelow (lo ch) fg bg transp fun i j hi hj _ => hp i j hi hj,
    dirtyAt_glyph hright hbelow (lo ch) fg bg transp⟩

end Sys2Proof.Machine
end

section
/-! FB.TEXT (45_text.md R362). -/

namespace Sys2Proof.Machine

theorem headerWord_fbText (transp : Bool) : headerWord .fbText transp = if transp then 0x0149#16 else 0x0049#16 := by
  cases transp <;> decide

/-- LEN counts the operands X, Y, FG, BG and N and the array after them (30_encoding.md R117). -/
theorem encode_fbText (transp : Bool) (x y fg bg n : Word) (chars : List Word) :
    encode (.fbText transp x y fg bg n chars) = (if transp then 0x0149#16 else 0x0049#16) ::
      wordOfNat (5 + chars.length) :: x :: y :: fg :: bg :: n :: chars := by
  rw [Nat.add_comm]
  exact congrArg (· :: wordOfNat (chars.length + 5) :: x :: y :: fg :: bg :: n :: chars) (headerWord_fbText transp)

/-- FB.TEXT of a packed string makes the PLOT calls of its glyphs, glyph m at X + m*ADVANCE. -/
theorem exec_fbText_packBytes (s : State) {chars : List Byte} (h : chars.length ≤ 65535) (transp : Bool)
    (x y fg bg : Word) : exec (.fbText transp x y fg bg (wordOfNat chars.length) (packBytes chars)) s =
      .next ((s.plotAll (chars.zipIdx.flatMap fun p =>
        glyphPlots s.par (x.toInt + (p.2 : Int) * s.par.advance) y.toInt p.1 fg bg transp)).finish []) := by
  refine (ends_checked_of_true (padIsZero_pack chars h) _ s).trans ?_
  rw [unpack_pack chars h, ← textPlots_eq, Nat.cast_zero, zero_mul, add_zero]
  rfl

/-! ## Commands that each make PLOT calls -/

theorem SameFramebuffer.setFrame {s t : State} (h : SameFramebuffer s t) (p : Nat) (c : Word) :
    SameFramebuffer (s.setFrame p c) (t.setFrame p c) := by
  obtain ⟨hcfg, hframe, hrest⟩ := h
  exact ⟨hcfg, congrArg (fun m : Memory Word => m.write 0#16 p c) hframe, hrest⟩

theorem SameFramebuffer.setDirty {s t : State} (h : SameFramebuffer s t) (k : Nat) (v : Bool) :
    SameFramebuffer (s.setDirty k v) (t.setDirty k v) := by
  obtain ⟨hcfg, hframe, hbaseline, hdirty, hstale⟩ := h
  exact ⟨hcfg, hframe, hbaseline, congrArg (fun m : Memory Bool => m.write true k v) hdirty, hstale⟩

theorem SameFramebuffer.baselineAt {s t : State} (h : SameFramebuffer s t) (p : Nat) :
    t.baselineAt p = s.baselineAt p := by
  obtain ⟨-, -, hbaseline, -⟩ := h
  exact congrArg (fun m : Memory Word => m.read 0#16 p) hbaseline

theorem plotAt_of_differs {s : State} {q : Nat × Nat} {c : Word} (h : c ≠ s.baselineAt (idx s.par q.1 q.2)) :
    s.plotAt q c = (s.setFrame (idx s.par q.1 q.2) c).setDirty (cellOf s.par q.1 q.2) true :=
  if_pos h

theorem plotAt_of_same {s : State} {q : Nat × Nat} {c : Word} (h : c = s.baselineAt (idx s.par q.1 q.2)) :
    s.plotAt q c = s.setFrame (idx s.par q.1 q.2) c :=
  if_neg (not_not.mpr h)

/-- A pixel write reads and writes the framebuffer memories only (44_framebuffer.md R300). -/
theorem SameFramebuffer.plotAt {s t : State} (h : SameFramebuffer s t) (q : Nat × Nat) (c : Word) :
    SameFramebuffer (s.plotAt q c) (t.plotAt q c) := by
  have hbase : t.baselineAt (idx t.par q.1 q.2) = s.baselineAt (idx s.par q.1 q.2) := by rw [h.par, h.baselineAt]
  by_cases hmark : c = s.baselineAt (idx s.par q.1 q.2)
  · rw [plotAt_of_same hmark, plotAt_of_same (hmark.trans hbase.symm), h.par]
    exact h.setFrame _ c
  · rw [plotAt_of_differs hmark, plotAt_of_differs (hbase ▸ hmark), h.par]
    exact (h.setFrame _ c).setDirty _ true

theorem SameFramebuffer.plot {s t : State} (h : SameFramebuffer s t) (p : Plot) :
    SameFramebuffer (s.plot p) (t.plot p) := by
  rw [State.plot, State.plot, h.par]
  split
  · exact h
  · exact h.plotAt _ _

theorem SameFramebuffer.plotAll {s t : State} (h : SameFramebuffer s t) (ps : List Plot) :
    SameFramebuffer (s.plotAll ps) (t.plotAll ps) := by
  induction ps generalizing s t with
  | nil => exact h
  | cons p ps ih => exact ih (h.plot p)

/-- Commands that each make PLOT calls leave the framebuffer memories that all their calls, in order, leave. -/
theorem runCommands_of_plots {α : Type} {command : α → Instr} {plots : α → List Plot} {as : List α} {s t : State}
    (hexec : ∀ a ∈ as, ∀ u, u.par = s.par → exec (command a) u = .next ((u.plotAll (plots a)).finish []))
    (h : SameFramebuffer s t) :
    ∃ u, runCommands (as.map command) t = .next u ∧ SameFramebuffer (s.plotAll (as.flatMap plots)) u := by
  induction as generalizing s t with
  | nil => exact ⟨t, rfl, h⟩
  | cons a as ih =>
    have hpar : (s.plotAll (plots a)).par = s.par := (plotAll_only s (plots a)).par
    rw [List.map_cons, List.flatMap_cons, plotAll_append, runCommands_cons (hexec a List.mem_cons_self t h.par)]
    exact ih (fun b hb u hu => hexec b (List.mem_cons_of_mem a hb) u (hu.trans hpar)) ((h.plotAll (plots a)).finish [])

/-! ## The glyphs of a string as commands -/

theorem lo_setWidth (ch : Byte) : lo (ch.setWidth 16) = ch := by
  apply BitVec.eq_of_toNat_eq
  have := ch.isLt
  rw [lo_toNat, BitVec.toNat_setWidth]
  omega

/-- A byte as the operand CH passes its check and names its glyph. -/
theorem exec_fbChar_byte (s : State) (transp : Bool) {px : Int} (hpx : -32768 ≤ px ∧ px ≤ 32767) (y : Word) (ch : Byte)
    (fg bg : Word) : exec (.fbChar transp (wordOfInt px) y (ch.setWidth 16) fg bg) s =
      .next ((s.plotAll (glyphPlots s.par px y.toInt ch fg bg transp)).finish []) := by
  have hbyte : (ch.setWidth 16).toNat ≤ 255 := by
    have := ch.isLt
    rw [BitVec.toNat_setWidth]
    omega
  rw [exec_fbChar_ok s hbyte, wordOfInt_toInt hpx, lo_setWidth]

/-- The position of each glyph of a string fits an s16 where the position after the last one does. -/
theorem glyph_position_fits {x : Word} {m n advance : Nat} (hm : m < n) (h : x.toInt + (n : Int) * advance ≤ 32767) :
    -32768 ≤ x.toInt + (m : Int) * advance ∧ x.toInt + (m : Int) * advance ≤ 32767 := by
  have hlow : -32768 ≤ x.toInt := x.le_toInt
  have hle : (m : Int) * advance ≤ (n : Int) * advance := by gcongr
  have hnonneg : 0 ≤ (m : Int) * advance := by positivity
  omega

/-- Settles O49: the command makes the PLOT calls of its glyphs in order, and FB.CHAR at the position of each makes the
same calls, which read nothing that the result frames between them change. -/
theorem fbTextResult : Obligations.FbTextResult := by
  refine ⟨encode_fbText, fun s transp x y fg bg chars hlen => ⟨packBytes_length chars, _,
    exec_fbText_packBytes s hlen transp x y fg bg, rfl, plotAll_finish s _ [], fun hfits => ?_⟩,
    fun s transp x y fg bg n last data hodd hpad => exec_fbText_badArg s (padIsZero_odd hodd hpad)⟩
  obtain ⟨u, hrun, -, hframe, -, hdirty, -⟩ := runCommands_of_plots (as := chars.zipIdx)
    (command := fun p => .fbChar transp (wordOfInt (x.toInt + (p.2 : Int) * s.par.advance)) y (p.1.setWidth 16) fg bg)
    (plots := fun p => glyphPlots s.par (x.toInt + (p.2 : Int) * s.par.advance) y.toInt p.1 fg bg transp)
    (fun p hp t hpar => by
      rw [exec_fbChar_byte t transp (glyph_position_fits (List.snd_lt_of_mem_zipIdx hp) hfits), hpar])
    (SameFramebuffer.refl s)
  exact ⟨u, hrun, hframe.symm, hdirty.symm⟩

end Sys2Proof.Machine
end

section
/-! MAP.CONFIG (46_mapper.md R380-R382). -/

namespace Sys2Proof.Machine

theorem headerWord_mapConfig : headerWord .mapConfig false = 0x0050#16 := by decide

theorem encode_mapConfig (ax ay bx byy : Word) :
    encode (.mapConfig ax ay bx byy) = [0x0050#16, 4#16, ax, ay, bx, byy] :=
  congrArg (· :: [4#16, ax, ay, bx, byy]) headerWord_mapConfig

/-! ## The table of R381 -/

section
variable {ax ay bx byy : Int}

theorem rotOf_topLeft (hx : ax < bx) (hy : ay < byy) : rotOf ax ay bx byy = .r0 := by
  rw [rotOf, if_pos hx, if_pos hy]

theorem rotOf_bottomLeft (hx : ax < bx) (hy : byy < ay) : rotOf ax ay bx byy = .r90 := by
  rw [rotOf, if_pos hx, if_neg hy.not_gt]

theorem rotOf_bottomRight (hx : bx < ax) (hy : byy < ay) : rotOf ax ay bx byy = .r180 := by
  rw [rotOf, if_neg hx.not_gt, if_neg hy.not_gt]

theorem rotOf_topRight (hx : bx < ax) (hy : ay < byy) : rotOf ax ay bx byy = .r270 := by
  rw [rotOf, if_neg hx.not_gt, if_pos hy]

end

theorem Rot.word_of_eq {rot r : Rot} (h : rot = r) : rot = r ∧ rot.word = r.word := ⟨h, congrArg Rot.word h⟩

/-! ## The command -/

theorem degenerate_iff {ax ay bx byy : Word} : degenerate ax ay bx byy = true ↔ ax = bx ∨ ay = byy := by
  rw [degenerate, Bool.or_eq_true, decide_eq_true_iff, decide_eq_true_iff, sext16, sext16, sext16, sext16,
    BitVec.toInt_inj, BitVec.toInt_inj]

/-- Degenerate anchors install the identity state (R382). -/
theorem exec_mapConfig_degenerate (s : State) {ax ay bx byy : Word} (h : ax = bx ∨ ay = byy) :
    exec (.mapConfig ax ay bx byy) s = .next ((mapIdentity s).raise .config []) := by
  rw [exec, execMapConfig, if_pos (degenerate_iff.mpr h)]
  rfl

/-- Anchors that differ in both coordinates are stored with their rotation (R380). -/
theorem exec_mapConfig_ok (s : State) {ax ay bx byy : Word} (hx : ax ≠ bx) (hy : ay ≠ byy) :
    exec (.mapConfig ax ay bx byy) s = .next (State.finish [(rotOf ax.toInt ay.toInt bx.toInt byy.toInt).word]
      { s with mapA := ⟨ax, ay⟩, mapB := ⟨bx, byy⟩, mapRot := rotOf ax.toInt ay.toInt bx.toInt byy.toInt,
               mapValid := true }) := by
  have hnot : ¬ degenerate ax ay bx byy = true := fun h => (degenerate_iff.mp h).elim hx hy
  rw [exec, execMapConfig, if_neg hnot]
  rfl

/-- Settles O55: the two outcomes are those of degenerate and of other anchors; the four rotations are the rows of the
table of R381. -/
theorem mapConfigResult : Obligations.MapConfigResult := by
  intro s ax ay bx byy
  exact ⟨encode_mapConfig ax ay bx byy, exec_mapConfig_degenerate s, fun hx hy =>
    ⟨_, _, exec_mapConfig_ok s hx hy,
      fun hx hy => Rot.word_of_eq (rotOf_topLeft hx hy),
      fun hx hy => Rot.word_of_eq (rotOf_bottomLeft hx hy),
      fun hx hy => Rot.word_of_eq (rotOf_bottomRight hx hy),
      fun hx hy => Rot.word_of_eq (rotOf_topRight hx hy)⟩⟩

end Sys2Proof.Machine
end

section
/-! MAP.POINT (46_mapper.md R383-R385). -/

namespace Sys2Proof.Machine

theorem headerWord_mapPoint : headerWord .mapPoint false = 0x0051#16 := by decide

theorem encode_mapPoint (row col : Word) : encode (.mapPoint row col) = [0x0051#16, 2#16, row, col] :=
  congrArg (· :: [2#16, row, col]) headerWord_mapPoint

/-! ## The mapped point is the exact one, rounded half up -/

/-- The exact coordinate plus a half is the anchor plus the fraction the integer form divides out, and the anchor, an
integer, leaves the floor (R384). -/
theorem mapAxis_eq_floor (a b u : Int) {maxU : Nat} (h : 1 ≤ maxU) :
    mapAxis a b u maxU = ⌊(a : ℚ) + (b - a) / maxU * u + 1 / 2⌋ := by
  have hne : (maxU : ℚ) ≠ 0 := by positivity
  have hsplit : (a : ℚ) + (b - a) / maxU * u + 1 / 2 =
      (a : ℚ) + ((2 * (b - a) * u + maxU : ℤ) : ℚ) / ((2 * maxU : ℕ) : ℚ) := by
    push_cast
    field_simp
    ring
  rw [hsplit, Int.floor_intCast_add, Rat.floor_intCast_div_natCast, Nat.cast_mul]
  rfl

theorem mapXY_identity {s : State} (h : s.mapValid = false) (row col : Int) : mapXY s row col = (col, row) := by
  rw [mapXY, h]
  rfl

section
variable {s : State} (hvalid : s.mapValid = true)
include hvalid

/-- At 90 and 270 degrees the row runs along x and the column along y (R383). -/
theorem mapXY_swapped (hrot : s.mapRot = .r90 ∨ s.mapRot = .r270) (row col : Int) : mapXY s row col =
    (⌊(s.mapA.x.toInt : ℚ) + (s.mapB.x.toInt - s.mapA.x.toInt) / s.par.sensorMaxRow * row + 1 / 2⌋,
     ⌊(s.mapA.y.toInt : ℚ) + (s.mapB.y.toInt - s.mapA.y.toInt) / s.par.sensorMaxCol * col + 1 / 2⌋) := by
  obtain ⟨hrow, hcol⟩ := board_sensorMax s.cfg
  rw [State.par, ← mapAxis_eq_floor _ _ _ hrow, ← mapAxis_eq_floor _ _ _ hcol, mapXY, if_pos hvalid]
  obtain hrot | hrot := hrot <;> rw [hrot] <;> rfl

/-- At 0 and 180 degrees the column runs along x and the row along y (R383). -/
theorem mapXY_unswapped (hrot : ¬ (s.mapRot = .r90 ∨ s.mapRot = .r270)) (row col : Int) : mapXY s row col =
    (⌊(s.mapA.x.toInt : ℚ) + (s.mapB.x.toInt - s.mapA.x.toInt) / s.par.sensorMaxCol * col + 1 / 2⌋,
     ⌊(s.mapA.y.toInt : ℚ) + (s.mapB.y.toInt - s.mapA.y.toInt) / s.par.sensorMaxRow * row + 1 / 2⌋) := by
  obtain ⟨hrow, hcol⟩ := board_sensorMax s.cfg
  rw [State.par, ← mapAxis_eq_floor _ _ _ hrow, ← mapAxis_eq_floor _ _ _ hcol, mapXY, if_pos hvalid]
  cases hcase : s.mapRot with
  | r0 | r180 => rfl
  | r90 => exact absurd (.inl hcase) hrot
  | r270 => exact absurd (.inr hcase) hrot

end

/-! ## The command -/

theorem fitsS16_and_iff {x y : Int} : (fitsS16 x && fitsS16 y) = true ↔
    (-32768 ≤ x ∧ x ≤ 32767) ∧ (-32768 ≤ y ∧ y ≤ 32767) := by
  simp only [fitsS16, Bool.and_eq_true, decide_eq_true_iff]

section
variable {s : State} {row col : Word} {x y : Int} (hpoint : mapXY s row.toInt col.toInt = (x, y))
include hpoint

theorem exec_mapPoint_eq : exec (.mapPoint row col) s =
    ends (s.checked (fitsS16 x && fitsS16 y) (State.finish [wordOfInt x, wordOfInt y])) := by
  rw [exec, execMapPoint, sext16, sext16, hpoint]

/-- A mapped point is returned as two s16 words (R384). -/
theorem exec_mapPoint_ok (h : (-32768 ≤ x ∧ x ≤ 32767) ∧ (-32768 ≤ y ∧ y ≤ 32767)) :
    exec (.mapPoint row col) s = .next (s.finish [wordOfInt x, wordOfInt y]) := by
  rw [exec_mapPoint_eq hpoint, ends_checked_of_true (fitsS16_and_iff.mpr h)]

theorem exec_mapPoint_badArg (h : ¬ ((-32768 ≤ x ∧ x ≤ 32767) ∧ (-32768 ≤ y ∧ y ≤ 32767))) :
    exec (.mapPoint row col) s = badArgOutcome s := by
  rw [exec_mapPoint_eq hpoint, ends_checked_of_false (Bool.eq_false_iff.mpr (mt fitsS16_and_iff.mp h))]

end

/-- In the identity state each coordinate is an operand, which fits an s16 (R382). -/
theorem exec_mapPoint_identity {s : State} (h : s.mapValid = false) (row col : Word) :
    exec (.mapPoint row col) s = .next (s.finish [col, row]) := by
  have hfits (w : Word) : -32768 ≤ w.toInt ∧ w.toInt ≤ 32767 := ⟨w.le_toInt, Int.le_of_lt_add_one w.toInt_lt⟩
  rw [exec_mapPoint_ok (mapXY_identity h _ _) ⟨hfits col, hfits row⟩, wordOfInt, wordOfInt, BitVec.ofInt_toInt,
    BitVec.ofInt_toInt]

/-- Settles O56: in the identity state the operands come back; else the rotation says which operand and extent belong to
each coordinate, and the point of integer arithmetic is the rounded exact one. -/
theorem mapPointResult : Obligations.MapPointResult := by
  intro s row col
  refine ⟨encode_mapPoint row col, fun h => exec_mapPoint_identity h row col, fun hvalid => ?_⟩
  by_cases hswap : s.mapRot = .r90 ∨ s.mapRot = .r270
  · simp only [if_pos hswap]
    have hpoint := mapXY_swapped hvalid hswap row.toInt col.toInt
    exact ⟨exec_mapPoint_ok hpoint, exec_mapPoint_badArg hpoint⟩
  · simp only [if_neg hswap]
    have hpoint := mapXY_unswapped hvalid hswap row.toInt col.toInt
    exact ⟨exec_mapPoint_ok hpoint, exec_mapPoint_badArg hpoint⟩

end Sys2Proof.Machine
end

section
/-! Power-on and the reset input (70_reset_and_hazards.md R450, R451). -/

namespace Sys2Proof.Machine

/-! ## One reset state

Power-on and the reset input between commands are the reset input inside a command for one choice of environment, so what
holds of `resetInCommand` against every environment holds of all three. -/

theorem reset_eq_resetInCommand : State.reset = State.reset.resetInCommand .cmd (.oracle []) [] 0 := rfl

theorem assertReset_eq_resetInCommand (u : State) (dc : Dc) :
    u.assertReset dc = u.resetInCommand dc u.sensor u.alloc u.drawn := rfl

/-- Power-on and the reset input have the same effect (R450). -/
theorem exists_eq_resetInCommand {s : State}
    (hreset : s = State.reset ∨ (∃ (u : State) (dc : Dc), s = u.assertReset dc) ∨
      ∃ (u : State) (dc : Dc) (sensor : Sensor) (alloc : List Bool) (drawn : Nat),
        s = u.resetInCommand dc sensor alloc drawn) :
    ∃ (u : State) (dc : Dc) (sensor : Sensor) (alloc : List Bool) (drawn : Nat),
      s = u.resetInCommand dc sensor alloc drawn := by
  obtain hpower | ⟨u, dc, hinput⟩ | hinside := hreset
  · exact ⟨_, _, _, _, _, hpower.trans reset_eq_resetInCommand⟩
  · exact ⟨_, _, _, _, _, hinput.trans (assertReset_eq_resetInCommand u dc)⟩
  · exact hinside

/-! ## Its memories, which list nothing -/

section
variable (u : State) (dc : Dc) (sensor : Sensor) (alloc : List Bool) (drawn : Nat)

theorem frameAt_resetInCommand (p : Nat) : (u.resetInCommand dc sensor alloc drawn).frameAt p = 0#16 :=
  Memory.read_nil _ p

theorem baselineAt_resetInCommand (p : Nat) : (u.resetInCommand dc sensor alloc drawn).baselineAt p = 0#16 :=
  Memory.read_nil _ p

theorem dirtyAt_resetInCommand (k : Nat) : (u.resetInCommand dc sensor alloc drawn).dirtyAt k = true :=
  dirtyAt_resetOf u.cfg dc k

theorem staleAt_resetInCommand (k : Nat) : (u.resetInCommand dc sensor alloc drawn).staleAt k = true :=
  Memory.read_nil _ k

end

/-! ## The obligation -/

/-- Settles O1: each kind of reset is `resetInCommand` in some environment; its memories list nothing, and its other
elements are the values of R451 as `State.resetOf` sets them. -/
theorem resetValues : Obligations.ResetValues := by
  refine ⟨fun s hreset => ?_, fun s dc => ⟨rfl, rfl, rfl⟩⟩
  obtain ⟨u, dc, sensor, alloc, drawn, rfl⟩ := exists_eq_resetInCommand hreset
  have hframe := frameAt_resetInCommand u dc sensor alloc drawn
  have hbaseline := baselineAt_resetInCommand u dc sensor alloc drawn
  have hdirty := dirtyAt_resetInCommand u dc sensor alloc drawn
  have hstale := staleAt_resetInCommand u dc sensor alloc drawn
  exact ⟨rfl, rfl, rfl, rfl, rfl, rfl, hframe, hbaseline, hdirty, hstale, rfl, rfl, rfl, rfl, rfl⟩

end Sys2Proof.Machine
end

section
/-! The frame of a command and the command of a frame: each determines the other (30_encoding.md R110-R117). -/

namespace Sys2Proof

/-- LEN of every well-formed command, by its lemma. -/
theorem encodeLen (i : Instr) : Laws.EncodeLen.Statement i := by
  cases i with
  | pixPack r g b => exact Laws.EncodeLen.pixPack r g b
  | pixUnpack c => exact Laws.EncodeLen.pixUnpack c
  | busInit => exact Laws.EncodeLen.busInit
  | busWrite hold a n data => exact Laws.EncodeLen.busWrite hold a n data
  | busRead hold a n => exact Laws.EncodeLen.busRead hold a n
  | regReadw a start count => exact Laws.EncodeLen.regReadw a start count
  | regWritew a addr value => exact Laws.EncodeLen.regWritew a addr value
  | dlInit => exact Laws.EncodeLen.dlInit
  | dlCmd code => exact Laws.EncodeLen.dlCmd code
  | dlData n data => exact Laws.EncodeLen.dlData n data
  | dlWords n words => exact Laws.EncodeLen.dlWords n words
  | dlWindow x0 y0 x1 y1 => exact Laws.EncodeLen.dlWindow x0 y0 x1 y1
  | fbPixel x y c => exact Laws.EncodeLen.fbPixel x y c
  | fbGetpixel x y => exact Laws.EncodeLen.fbGetpixel x y
  | fbRect x0 y0 x1 y1 c => exact Laws.EncodeLen.fbRect x0 y0 x1 y1 c
  | fbLine x0 y0 x1 y1 c => exact Laws.EncodeLen.fbLine x0 y0 x1 y1 c
  | fbCircle cx cy r c => exact Laws.EncodeLen.fbCircle cx cy r c
  | fbFlush => exact Laws.EncodeLen.fbFlush
  | fbChar transp x y ch fg bg => exact Laws.EncodeLen.fbChar transp x y ch fg bg
  | fbText transp x y fg bg n chars => exact Laws.EncodeLen.fbText transp x y fg bg n chars
  | mapConfig ax ay bx byy => exact Laws.EncodeLen.mapConfig ax ay bx byy
  | mapPoint row col => exact Laws.EncodeLen.mapPoint row col

/-- Settles O3: the operand words of a well-formed command fit LEN, with the LEN of its opcode, and such a command is read
back from its frame. -/
theorem encodeThenDecode : Obligations.EncodeThenDecode := fun i hwf => decode_encode_of_len (encodeLen i hwf)

/-! ## What decodes -/

/-- Only a whole frame decodes: a header, LEN and LEN operand words (R110). -/
theorem frame_of_decode_ok {ws : List Word} {i : Instr} (h : decode ws = .ok i) :
    ∃ header len ops, ws = header :: len :: ops ∧ ops.length = len.toNat := by
  match ws, h with
  | header :: len :: ops, h =>
    rw [decode] at h
    split at h
    case isTrue => cases h
    case isFalse hlen => exact ⟨header, len, ops, rfl, not_not.mp hlen⟩

/-- The command is the one that opcode, flag and operand words make. -/
theorem build_of_decode_ok {header len : Word} {ops : List Word} {i : Instr} {o : Opcode}
    (ho : opcodeOf (opOf header) = some o) (h : decode (header :: len :: ops) = .ok i) :
    o.build (flagOf header) ops = some i := by
  rw [decode, ho] at h
  dsimp only at h
  split at h
  case isTrue => cases h
  split at h
  case isTrue => cases h
  split at h
  case isTrue => cases h
  split at h
  case isTrue => cases h
  split at h
  case h_1 j hbuild =>
    cases h
    exact hbuild
  case h_2 => cases h

/-- A command whose operand words are as many as its opcode requires, and fit LEN, is well-formed (R113, R114). -/
theorem wf_of_requiredLen {i : Instr} (hfits : i.operands.length ≤ 65535)
    (h : i.opcode.requiredLen i.operands = some i.operands.length) : i.wf = true := by
  cases i with
  | busWrite hold a n data =>
    simp only [Instr.opcode, Instr.operands, Opcode.requiredLen, List.getElem?_cons_succ, List.getElem?_cons_zero,
      Option.map_some, Option.some.injEq, List.length_cons] at h
    rw [Instr.wf, beq_iff_eq]
    omega
  | dlData n data =>
    simp only [Instr.opcode, Instr.operands, Opcode.requiredLen, List.getElem?_cons_zero, Option.map_some,
      Option.some.injEq, List.length_cons] at h
    rw [Instr.wf, beq_iff_eq]
    omega
  | dlWords n words =>
    simp only [Instr.opcode, Instr.operands, Opcode.requiredLen, List.getElem?_cons_zero, Option.map_some,
      Option.some.injEq, List.length_cons] at h hfits
    rw [Instr.wf, Bool.and_eq_true, beq_iff_eq, decide_eq_true_iff]
    omega
  | fbText transp x y fg bg n chars =>
    simp only [Instr.opcode, Instr.operands, Opcode.requiredLen, List.getElem?_cons_succ, List.getElem?_cons_zero,
      Option.map_some, Option.some.injEq, List.length_cons] at h
    rw [Instr.wf, beq_iff_eq]
    omega
  | _ => rfl

/-- Settles O4: the fields of the header are those of the command its operand words make, and LEN is the one that makes
it well-formed. -/
theorem decodeThenEncode : Obligations.DecodeThenEncode := by
  intro ws i h
  obtain ⟨header, len, ops, rfl, hlen⟩ := frame_of_decode_ok h
  obtain ⟨hrsv, o, ho, hflag, hreq⟩ := decode_ok_fields h
  obtain ⟨rfl, rfl, hflag'⟩ := operands_of_build (build_of_decode_ok ho h)
  have hf : flagOf header = i.flag := by
    cases hhas : i.opcode.hasFlag with
    | true => exact (hflag' hhas).symm
    | false =>
      rw [flag_of_not_hasFlag hhas, Bool.eq_false_iff]
      intro hset
      rw [hflag hset] at hhas
      cases hhas
  refine ⟨?_, wf_of_requiredLen ?_ (hlen ▸ hreq)⟩
  · rw [encode, hlen, wordOfNat_toNat_self, ← hf, ← header_eq_of_fields hrsv (code_of_opcodeOf ho).symm]
  · have := len.isLt
    omega

/-- Settles O6: each list is the frame of its command. -/
theorem writtenWordsDecode : Obligations.WrittenWordsDecode :=
  ⟨encodeThenDecode (.pixPack 0x12#16 0x34#16 0x56#16) rfl, encodeThenDecode (.busWrite true 0x33#16 2#16 [0x8000#16]) rfl,
    encodeThenDecode (.busRead true 0x33#16 3#16) rfl, encodeThenDecode (.regReadw 0x33#16 0x8000#16 2#16) rfl,
    encodeThenDecode (.regWritew 0x33#16 0x800D#16 0x1901#16) rfl,
    encodeThenDecode (.dlWindow 8#16 16#16 15#16 23#16) rfl, encodeThenDecode (.fbCircle 3#16 2#16 0xFFFF#16 1#16) rfl,
    encodeThenDecode .fbFlush rfl,
    encodeThenDecode (.fbText false 0#16 0#16 0xFFFF#16 0#16 2#16 [0x4142#16]) rfl,
    encodeThenDecode (.mapConfig 0#16 3#16 7#16 0#16) rfl⟩

end Sys2Proof
end

section
/-! The step: it waits for a whole frame, runs its command, and never stops (10_state.md R47; 60_exceptions.md R412). -/

namespace Sys2Proof.Machine

/-- No frame is taken while its words have not all arrived (R47). -/
theorem nextFrame_eq_none {port : List Word}
    (h : port.length < 2 ∨ ∃ header len rest, port = header :: len :: rest ∧ rest.length < len.toNat) :
    nextFrame port = none := by
  obtain hshort | ⟨header, len, rest, rfl, hmissing⟩ := h
  · match port, hshort with
    | [], _ => rfl
    | [_], _ => rfl
  · exact if_neg (Nat.not_le.mpr hmissing)

theorem step_of_waiting {s : State} (h : nextFrame s.port = none) : step s = .next s := by
  rw [step, h]

/-- The frame of a command at the head of the port is taken and its command runs (R96, R110). -/
theorem step_of_decodes {s : State} {i : Instr} {frame rest : List Word} (hport : s.port = frame ++ rest)
    (hdecode : decode frame = .ok i) : step s = exec i (s.takeFrame rest) := by
  obtain ⟨header, len, ops, rfl, hlen⟩ := frame_of_decode_ok hdecode
  have hnext : nextFrame s.port = some (header :: len :: ops, rest) := by
    rw [hport]
    exact nextFrame_append header len ops rest hlen
  rw [step, hnext]
  dsimp only
  rw [hdecode]

/-- The ways a step goes: it waits, refuses the frame at the head of the port, or runs its command. -/
inductive StepCase (s t : State) : Prop
  | waits (h : t = s)
  | refuses (rest : List Word) (h : t = (s.takeFrame rest).raise .illegalCmd [])
  | runs (i : Instr) (frame rest : List Word) (hport : s.port = frame ++ rest) (hdecode : decode frame = .ok i)
      (h : exec i (s.takeFrame rest) = .next t)

theorem step_cases {s t : State} (h : step s = .next t) : StepCase s t := by
  rw [step] at h
  split at h
  case h_1 =>
    cases h
    exact .waits rfl
  case h_2 frame rest hnext =>
    split at h
    case h_1 =>
      cases h
      exact .refuses rest rfl
    case h_2 i hdecode => exact .runs i frame rest (nextFrame_spec hnext).1 hdecode h

/-- Settles O8: no frame is taken, so the step waits. -/
theorem waitsForWholeFrame : Obligations.WaitsForWholeFrame := fun _ h => step_of_waiting (nextFrame_eq_none h)

/-- Settles O9: the frame is taken out of the port and its command runs on the words after it. -/
theorem stepRunsDecodedCommand : Obligations.StepRunsDecodedCommand :=
  fun _ _ _ _ _ hport hdecode => step_of_decodes hport hdecode

/-- Settles O10: a step that waits or refuses has its next state, and every command ends. -/
theorem stepNeverStops : Obligations.StepNeverStops := by
  intro s
  rw [step]
  split
  case h_1 => exact ⟨s, rfl⟩
  case h_2 =>
    split
    case h_1 => exact ⟨_, rfl⟩
    case h_2 i _ => exact exec_ends i _

end Sys2Proof.Machine
end

section
/-! The invariants in every reset state (70_reset_and_hazards.md R451). -/

namespace Sys2Proof.Machine

section
variable (u : State) (dc : Dc) (sensor : Sensor) (alloc : List Bool) (drawn : Nat)

/-- The environment apart, the reset input leaves the state after power-on. -/
theorem sameFramebuffer_resetInCommand :
    SameFramebuffer (State.resetOf u.cfg dc) (u.resetInCommand dc sensor alloc drawn) :=
  SameFramebuffer.refl _

/-- Every cell is stale, so INV2 asks nothing of the controller (44_framebuffer.md R341). -/
theorem inv2_resetInCommand (k : Controller) : Inv2 k (u.resetInCommand dc sensor alloc drawn) := by
  intro x y _ _ hfresh
  rw [staleAt_resetInCommand] at hfresh
  cases hfresh

/-- The memories list nothing. -/
theorem memoriesLegal_resetInCommand : MemoriesLegal (u.resetInCommand dc sensor alloc drawn) := by
  have hnil {α : Type} (n : Nat) : ∀ e ∈ ([] : Memory α), e.1 < n := fun _ he => absurd he List.not_mem_nil
  exact ⟨⟨Memory.wf_nil _, hnil _⟩, ⟨Memory.wf_nil _, hnil _⟩, ⟨Memory.wf_nil _, hnil _⟩, Memory.wf_nil _, hnil _⟩

end

/-- Settles O2: every reset state is `resetInCommand` in some environment; all its flags are set, its memories list
nothing, its lines are released and its mapper is in the identity state. -/
theorem resetHasInvariants : Obligations.ResetHasInvariants := by
  intro s hreset
  have hone : ∃ (u : State) (dc : Dc) (sensor : Sensor) (alloc : List Bool) (drawn : Nat),
      s = u.resetInCommand dc sensor alloc drawn := by
    obtain hpower | ⟨b, dc, hboard⟩ | hinput := hreset
    · exact exists_eq_resetInCommand (.inl hpower)
    · exact ⟨State.resetOf b dc, dc, .oracle [], [], 0, hboard⟩
    · exact exists_eq_resetInCommand (.inr hinput)
  obtain ⟨u, dc, sensor, alloc, drawn, rfl⟩ := hone
  have hsame := sameFramebuffer_resetInCommand u dc sensor alloc drawn
  exact ⟨(inv0_resetOf u.cfg dc).of_sameFramebuffer hsame, (inv1_resetOf u.cfg dc).of_sameFramebuffer hsame,
    inv2_resetInCommand u dc sensor alloc drawn, memoriesLegal_resetInCommand u dc sensor alloc drawn, rfl, rfl,
    rfl, rfl, rfl⟩

end Sys2Proof.Machine
end

section
/-! Every step keeps the framebuffer memories canonical and within their spaces (20_memory.md R80, R81). -/

namespace Sys2Proof.Machine

theorem MemoriesLegal.of_sameFramebuffer {s t : State} (hm : MemoriesLegal s) (h : SameFramebuffer s t) :
    MemoriesLegal t := by
  have hpar := h.par
  obtain ⟨-, hframe, hbaseline, hdirty, hstale⟩ := h
  simpa only [MemoriesLegal, hpar, hframe, hbaseline, hdirty, hstale] using hm

/-! ## Writes within the spaces -/

theorem MemoriesLegal.setBaseline {s : State} (hm : MemoriesLegal s) {p : Nat} (hp : p < s.par.width * s.par.height)
    (c : Word) : MemoriesLegal (s.setBaseline p c) := by
  obtain ⟨hframe, ⟨hwf, hbound⟩, hflags⟩ := hm
  exact ⟨hframe, ⟨Memory.wf_write hwf p c, Memory.bound_write (d := 0#16) hbound hp c⟩, hflags⟩

theorem MemoriesLegal.setDirty {s : State} (hm : MemoriesLegal s) {k : Nat} (hk : k < s.par.cells) (v : Bool) :
    MemoriesLegal (s.setDirty k v) := by
  obtain ⟨hframe, hbaseline, ⟨hwf, hbound⟩, hstale⟩ := hm
  exact ⟨hframe, hbaseline, ⟨Memory.wf_write hwf k v, Memory.bound_write (d := true) hbound hk v⟩, hstale⟩

theorem MemoriesLegal.setStale {s : State} (hm : MemoriesLegal s) {k : Nat} (hk : k < s.par.cells) (v : Bool) :
    MemoriesLegal (s.setStale k v) := by
  obtain ⟨hframe, hbaseline, hdirty, hwf, hbound⟩ := hm
  exact ⟨hframe, hbaseline, hdirty, Memory.wf_write hwf k v, Memory.bound_write (d := true) hbound hk v⟩

/-! ## The loops -/

/-- The memories are legal and the parameters are those of s. -/
def LegalFor (s t : State) : Prop := MemoriesLegal t ∧ t.par = s.par

/-- The loop of DL.INIT sets flags of cells of the grid (43_display_link.md R270). -/
theorem markAllCells_memories {s : State} (hm : MemoriesLegal s) : MemoriesLegal (markAllCells s) := by
  have hloop : LegalFor s (markAllCells s) := by
    rw [markAllCells]
    refine List.foldlRecOn (List.range s.par.cells) _ (motive := LegalFor s) ⟨hm, rfl⟩ ?_
    rintro t ⟨ht, hpar⟩ k hk
    have hk : k < t.par.cells := hpar ▸ List.mem_range.mp hk
    exact ⟨(ht.setDirty hk true).setStale hk true, hpar⟩
  exact hloop.1

/-- The copy of a cell of the grid writes Baseline at pixels of the Frame (44_framebuffer.md R340). -/
theorem copyCell_memories {s : State} (hm : MemoriesLegal s) {g : Nat × Nat}
    (hg : g.1 < s.par.gridW ∧ g.2 < s.par.gridH) : MemoriesLegal (copyCell g.1 g.2 s) := by
  have hloop : LegalFor s (copyCell g.1 g.2 s) := by
    rw [copyCell]
    refine List.foldlRecOn (cellPixels s.par g.1 g.2) _ (motive := LegalFor s) ⟨hm, rfl⟩ ?_
    rintro t ⟨ht, hpar⟩ q hq
    obtain ⟨⟨hx, hy⟩, -⟩ := cellPixels_mem s.cfg hg hq
    refine ⟨ht.setBaseline ?_ _, hpar⟩
    rw [hpar]
    exact idx_lt s.par hx hy
  exact hloop.1

theorem cellNo_lt {c : Config} {g : Nat × Nat} (hg : g.1 < c.gridW ∧ g.2 < c.gridH) : g.2 * c.gridW + g.1 < c.cells :=
  mem_cellNumbers.mp (List.mem_map_of_mem ((mem_cellsInOrder c g).mpr hg))

/-- A sent cell is copied and its Stale flag cleared (R340). -/
theorem sendCell_memories {s : State} (hm : MemoriesLegal s) {g : Nat × Nat}
    (hg : g.1 < s.par.gridW ∧ g.2 < s.par.gridH) : MemoriesLegal (sendCell g.1 g.2 s) := by
  have hcopy : MemoriesLegal { s with baseline := (copyCell g.1 g.2 s).baseline } := by
    have := copyCell_memories hm hg
    rwa [copyCell_only] at this
  rw [sendCell_eq]
  exact hcopy.setStale (cellNo_lt hg) false

theorem sendCell_par (gx gy : Nat) (s : State) : (sendCell gx gy s).par = s.par := by
  rw [sendCell_eq]
  rfl

theorem flushCell_memories {s : State} (n : Nat) (hm : MemoriesLegal s) {g : Nat × Nat}
    (hg : g.1 < s.par.gridW ∧ g.2 < s.par.gridH) : LegalFor s (flushCell (s, n) g).1 := by
  rw [flushCell]
  split
  · have hk : g.2 * s.par.gridW + g.1 < (sendCell g.1 g.2 s).par.cells := by
      rw [sendCell_par]
      exact cellNo_lt hg
    exact ⟨(sendCell_memories hm hg).setDirty hk false, sendCell_par g.1 g.2 s⟩
  · exact ⟨hm.setDirty (cellNo_lt hg) false, rfl⟩

theorem flushAll_memories {s : State} (hm : MemoriesLegal s) : MemoriesLegal (flushAll s).1 := by
  have hloop : LegalFor s (flushAll s).1 := by
    rw [flushAll]
    refine List.foldlRecOn (cellsInOrder s.par) _ (motive := fun r : State × Nat => LegalFor s r.1) ⟨hm, rfl⟩ ?_
    rintro ⟨t, n⟩ ⟨ht, hpar⟩ g hg
    have hg : g.1 < t.par.gridW ∧ g.2 < t.par.gridH := by
      rw [hpar]
      exact (mem_cellsInOrder s.par g).mp hg
    obtain ⟨hlegal, hcell⟩ := flushCell_memories n ht hg
    exact ⟨hlegal, hcell.trans hpar⟩
  exact hloop.1

/-! ## Every write -/

theorem FramebufferWrite.memories {s t : State} (h : FramebufferWrite s t) (hm : MemoriesLegal s) : MemoriesLegal t := by
  cases h with
  | none ht => exact hm.of_sameFramebuffer ht
  | plots u ps hu ht => exact (plotAll_memories (hm.of_sameFramebuffer hu) ps).of_sameFramebuffer ht
  | marks u hu ht => exact (markAllCells_memories (hm.of_sameFramebuffer hu)).of_sameFramebuffer ht
  | flushes u hu ht => exact (flushAll_memories (hm.of_sameFramebuffer hu)).of_sameFramebuffer ht

/-- Settles O16: each way a step writes the framebuffer memories writes at pixels and cells of the board. -/
theorem stepKeepsMemories : Obligations.StepKeepsMemories := fun _ _ hm hstep => (step_framebufferWrite hstep).memories hm

end Sys2Proof.Machine
end

section
/-! What every command does, said once: what it changes by its unit (10_state.md R46), and what it returns
(60_exceptions.md R401). -/

namespace Sys2Proof.Machine

/-! ## The bus between commands (41_transport.md R199) -/

theorem busLegal_of_transfer {hold : Bool} {t : State} (hinit : t.busInit = true) (hsda : t.sdaDrv = .rel)
    (hscl : t.sclDrv = if hold then .low else .rel) (hheld : t.busHeld = hold) : BusLegal t := by
  rw [BusLegal, hheld]
  cases hold with
  | true => exact ⟨hscl, hsda, hinit⟩
  | false => exact hscl

theorem Released.busLegal {t : State} (h : Released t) : BusLegal t := by
  obtain ⟨hheld, hscl⟩ := h
  rw [BusLegal, hheld]
  exact hscl

theorem TimedOut.busLegal {n : Nat} {s t : State} (h : TimedOut n s t) : BusLegal t := by
  obtain ⟨-, -, hscl, -, hheld⟩ := h
  exact Released.busLegal ⟨hheld, hscl⟩

theorem WriteEnds.busLegal {addr : Byte} {bytes : List Byte} {hold : Bool} {s t : State} {r : Reply}
    (h : WriteEnds addr bytes hold s r t) : BusLegal t := by
  obtain ⟨-, hinit, hsda, ⟨-, -, hscl, hheld⟩ | ⟨-, -, hscl, hheld⟩ | ⟨-, -, -, -, hscl, hheld⟩⟩ := h
  · exact busLegal_of_transfer hinit hsda hscl hheld
  · exact Released.busLegal ⟨hheld, hscl⟩
  · exact Released.busLegal ⟨hheld, hscl⟩

theorem ReadEnds.busLegal {addr : Byte} {n : Nat} {hold : Bool} {s t : State} {r : Status × List Byte}
    (h : ReadEnds addr n hold s r t) : BusLegal t := by
  obtain ⟨-, hinit, hsda, ⟨-, -, -, -, hscl, hheld⟩ | ⟨-, -, hscl, hheld⟩⟩ := h
  · exact busLegal_of_transfer hinit hsda hscl hheld
  · exact Released.busLegal ⟨hheld, hscl⟩

/-- A retried transaction whose attempts stay within n events and release the bus (42_register_access.md R230). -/
theorem retry_ends (tx : State → Reply × State) (n : Nat) (htx : ∀ s, Moved n s (tx s).2 ∧ Released (tx s).2)
    (s : State) : Moved (s.par.maxAttempts * n + 2 * (s.par.maxAttempts - 1)) s (retry tx s).2 ∧
    Released (retry tx s).2 ∧
    ((retry tx s).1.status = .ok ∧ (∃ u, (retry tx s).1 = (tx u).1) ∨
     (retry tx s).1.status = .retryExhausted ∧ (retry tx s).1.words.length = 2) := by
  have hattempts : 1 ≤ s.par.maxAttempts := board_maxAttempts s.cfg
  exact retryLoop_moved tx n htx s.par.maxAttempts .ok s fun h => by omega

theorem retry_txReadWords_ends (a start count : Word) (s : State) :
    let r := retry (txReadWords a start count) s
    Moved (s.par.maxAttempts * (127 + 58 * count.toNat) + 2 * (s.par.maxAttempts - 1)) s r.2 ∧ Released r.2 ∧
    (r.1.status = .ok ∧ r.1.words.length = count.toNat ∨ r.1.status = .retryExhausted ∧ r.1.words.length = 2) := by
  obtain ⟨hmoved, hreleased, hend⟩ := retry_ends (txReadWords a start count) _ (fun u => by
    obtain ⟨hmoved, hreleased, -⟩ := txReadWords_spec a start count u
    exact ⟨hmoved, hreleased⟩) s
  refine ⟨hmoved, hreleased, hend.imp_left ?_⟩
  rintro ⟨hok, u, hu⟩
  obtain ⟨-, -, hwords, -⟩ := txReadWords_spec a start count u
  rw [hu] at hok ⊢
  exact ⟨hok, hwords hok⟩

theorem retry_txWriteWord_ends (a addr value : Word) (s : State) :
    let r := retry (txWriteWord a addr value) s
    Moved (s.par.maxAttempts * 150 + 2 * (s.par.maxAttempts - 1)) s r.2 ∧ Released r.2 ∧
    (r.1.status = .ok ∧ r.1.words.length = 0 ∨ r.1.status = .retryExhausted ∧ r.1.words.length = 2) := by
  obtain ⟨hmoved, hreleased, hend⟩ := retry_ends (txWriteWord a addr value) _ (fun u => by
    obtain ⟨hmoved, hreleased, -⟩ := txWriteWord_spec a addr value u
    exact ⟨hmoved, hreleased⟩) s
  refine ⟨hmoved, hreleased, hend.imp_left ?_⟩
  rintro ⟨hok, u, hu⟩
  obtain ⟨-, -, hwords, -⟩ := txWriteWord_spec a addr value u
  rw [hu] at hok ⊢
  exact ⟨hok, congrArg List.length hwords⟩

/-! ## What a command changes, and what it returns -/

/-- What a command changes before it returns its result frame, by its unit (R46). -/
inductive UnitEffect (i : Instr) (s u : State) : Prop
  | nothing (h : u = s)
  | bus (hi : usesBus i = true) (hmoved : Moved (eventBound s.par i) s u) (hlegal : BusLegal u)
  | display (hi : usesDisplay i = true) (d : Dc) (es : List Event) (hes : ∀ e ∈ es, e.isBus = false)
      (hlen : es.length ≤ eventBound s.par i)
      (h : u = { s with dcLine := d, csLine := .off, trace := s.trace ++ es })
  | dlInit (hi : i = .dlInit) (h : u = markAllCells (afterInitSequence s))
  | flush (hi : i = .fbFlush) (h : u = (flushAll s).1)
  | drawing (hi : draws i = true)
      (h : u = { s with frame := u.frame, dirty := u.dirty, alloc := u.alloc, drawn := u.drawn })
      (hdirty : ∀ k, s.dirtyAt k = true → u.dirtyAt k = true)
  | mapper (hi : ∃ ax ay bx byy, i = .mapConfig ax ay bx byy) (h : OnlyMapper s u) (hlegal : MapperLegal u)

/-- OK with the words of a success, or an error of the command with its info words (60_exceptions.md R400, R401). -/
def LegalReply (c : Config) (i : Instr) (r : Reply) : Prop :=
  (r.status = .ok ∧ r.words.length = resultWords i) ∨ (r.status ∈ errorsOf c i ∧ r.words.length = infoWords r.status)

/-- A command changes u from s and returns r; with ERR_BAD_ARG it has changed nothing (60_exceptions.md R402). -/
structure Returns (i : Instr) (s u : State) (r : Reply) : Prop where
  effect : UnitEffect i s u
  reply : LegalReply s.par i r
  precise : r.status = .badArg → u = s

/-- t is the state after command i from s. -/
def CommandEnds (i : Instr) (s t : State) : Prop := ∃ u r, t = u.reply r ∧ Returns i s u r

section
variable {i : Instr} {s u : State}

theorem commandEnds_finish (heffect : UnitEffect i s u) {words : List Word} (hlen : words.length = resultWords i) :
    CommandEnds i s (u.finish words) :=
  ⟨u, ⟨.ok, words⟩, rfl, heffect, .inl ⟨rfl, hlen⟩, fun h => by cases h⟩

/-- An end with a status that is not ERR_BAD_ARG. -/
theorem commandEnds_reply (heffect : UnitEffect i s u) {r : Reply} (hreply : LegalReply s.par i r)
    (hne : r.status ≠ .badArg) : CommandEnds i s (u.reply r) :=
  ⟨u, r, rfl, heffect, hreply, fun h => absurd h hne⟩

theorem commandEnds_badArg (hmay : .badArg ∈ errorsOf s.par i) : CommandEnds i s (s.raise .badArg []) :=
  ⟨s, ⟨.badArg, []⟩, rfl, .nothing rfl, .inr ⟨hmay, rfl⟩, fun _ => rfl⟩

theorem commandEnds_checked (hmay : .badArg ∈ errorsOf s.par i) {ok : Bool} {run : State → State}
    (h : CommandEnds i s (run s)) : CommandEnds i s (s.checked ok run) := by
  rw [State.checked]
  split
  · exact h
  · exact commandEnds_badArg hmay

end

/-! ## The units -/

theorem unpackBytes_length_le (n : Word) (ws : List Word) : (unpackBytes n ws).length ≤ n.toNat :=
  List.length_take_le _ _

theorem commandEnds_busWrite (hold : Bool) (a n : Word) (data : List Word) (s : State) :
    let r := busWrite a (unpackBytes n data) hold s
    CommandEnds (.busWrite hold a n data) s (r.2.reply r.1) := by
  have hlen := unpackBytes_length_le n data
  have hlazy := lazyCount_le s
  have hbound : lazyCount s + 36 + 28 * (unpackBytes n data).length ≤ eventBound s.par (.busWrite hold a n data) := by
    rw [eventBound]
    omega
  dsimp only
  obtain hends | ⟨hr, htimeout⟩ := busWrite_ends a (unpackBytes n data) hold s
  · have heffect : UnitEffect (.busWrite hold a n data) s _ := .bus rfl (hends.moved.mono hbound) hends.busLegal
    obtain ⟨-, -, -, ⟨hr, -⟩ | ⟨hr, -⟩ | ⟨k, -, hr, -⟩⟩ := hends <;> rw [hr]
    · exact commandEnds_finish heffect rfl
    · exact commandEnds_reply heffect (.inr ⟨by simp [errorsOf], rfl⟩) nofun
    · exact commandEnds_reply heffect (.inr ⟨by simp [errorsOf], rfl⟩) nofun
  · rw [hr]
    exact commandEnds_reply (.bus rfl (htimeout.moved.mono hbound) htimeout.busLegal) (.inr ⟨by simp [errorsOf], rfl⟩) nofun

theorem commandEnds_busRead (hold : Bool) (a n : Word) (s : State) :
    let r := busRead a n.toNat hold s
    CommandEnds (.busRead hold a n) s (r.2.reply ⟨r.1.1, packBytes r.1.2⟩) := by
  have hlazy := lazyCount_le s
  have hbound : lazyCount s + 36 + 29 * n.toNat ≤ eventBound s.par (.busRead hold a n) := by
    rw [eventBound]
    omega
  dsimp only
  obtain hends | ⟨hr, htimeout⟩ := busRead_ends a n.toNat hold s
  · have heffect : UnitEffect (.busRead hold a n) s _ := .bus rfl (hends.moved.mono hbound) hends.busLegal
    obtain ⟨-, -, -, ⟨vs, hlen, hr, -⟩ | ⟨hr, -⟩⟩ := hends <;> rw [hr]
    · refine commandEnds_finish heffect ?_
      rw [packBytes_length, hlen]
      rfl
    · exact commandEnds_reply heffect (.inr ⟨by simp [errorsOf], rfl⟩) nofun
  · rw [hr]
    exact commandEnds_reply (.bus rfl (htimeout.moved.mono hbound) htimeout.busLegal) (.inr ⟨by simp [errorsOf], rfl⟩) nofun

/-- A REG command returns what its retried transaction does. -/
theorem commandEnds_reg {i : Instr} {s u : State} {r : Reply} (hi : usesBus i = true)
    (hmay : .retryExhausted ∈ errorsOf s.par i) (hmoved : Moved (eventBound s.par i) s u) (hreleased : Released u)
    (hend : r.status = .ok ∧ r.words.length = resultWords i ∨ r.status = .retryExhausted ∧ r.words.length = 2) :
    CommandEnds i s (u.reply r) := by
  have heffect : UnitEffect i s u := .bus hi hmoved hreleased.busLegal
  obtain hok | ⟨hstatus, hlen⟩ := hend
  · exact commandEnds_reply heffect (.inl hok) (by rw [hok.1]; decide)
  · exact commandEnds_reply heffect (.inr ⟨hstatus ▸ hmay, by rw [hstatus, hlen]; rfl⟩) (by rw [hstatus]; decide)

theorem UnitEffect.sendCommand {i : Instr} (hi : usesDisplay i = true) {s : State} (h : 4 ≤ eventBound s.par i)
    (code : Byte) : UnitEffect i s (sendCommand code s) :=
  .display hi .cmd _ (frameEvents_notBus .cmd [code]) (by rwa [frameEvents_length]) (sendCommand_eq code s)

theorem UnitEffect.sendData {i : Instr} (hi : usesDisplay i = true) {s : State} {bytes : List Byte}
    (h : 3 + bytes.length ≤ eventBound s.par i) : UnitEffect i s (sendData bytes s) := by
  by_cases hempty : bytes = []
  · rw [hempty, sendData_nil]
    exact .nothing rfl
  · exact .display hi .data _ (frameEvents_notBus .data bytes) (by rwa [frameEvents_length]) (sendData_eq hempty s)

theorem UnitEffect.setWindow {i : Instr} (hi : usesDisplay i = true) {s : State} (h : 26 ≤ eventBound s.par i)
    (x0 y0 x1 y1 : Word) : UnitEffect i s (setWindow x0 y0 x1 y1 s) :=
  .display hi .cmd _ (windowEvents_notBus s.par x0 y0 x1 y1) (by rwa [windowEvents_length]) (setWindow_eq x0 y0 x1 y1 s)

theorem UnitEffect.plotAll {i : Instr} (hi : draws i = true) (s : State) (ps : List Plot) :
    UnitEffect i s (s.plotAll ps) := by
  have honly := plotAll_only s ps
  rw [OnlyDrawing] at honly
  refine .drawing hi ?_ fun k => dirtyAt_plotAll_of_dirty s ps
  rw [honly]

/-- The pixels of a rectangle are plotted after the allocation's draw (44_framebuffer.md R311). -/
theorem UnitEffect.plotAll_afterAllocation {i : Instr} (hi : draws i = true) (s : State) (ps : List Plot) :
    UnitEffect i s ((afterAllocation s).plotAll ps) := by
  have honly := plotAll_only (afterAllocation s) ps
  rw [OnlyDrawing] at honly
  refine .drawing hi ?_ fun k => dirtyAt_plotAll_of_dirty (afterAllocation s) ps
  rw [honly]
  rfl

theorem commandEnds_fbRect (s : State) (x0 y0 x1 y1 c : Word) {t : State}
    (h : exec (.fbRect x0 y0 x1 y1 c) s = .next t) : CommandEnds (.fbRect x0 y0 x1 y1 c) s t := by
  cases hfails : s.allocFails with
  | true =>
    rw [exec_fbRect_of_allocFails hfails] at h
    cases h
    have hmay : s.par.fillrectMayFail = true := by
      rw [State.allocFails, Bool.and_eq_true] at hfails
      exact hfails.1
    refine commandEnds_reply (.plotAll_afterAllocation rfl s []) (.inr ⟨?_, rfl⟩) (by decide)
    rw [errorsOf, if_pos hmay]
    decide
  | false =>
    rw [exec_fbRect_of_allocated hfails] at h
    cases h
    exact commandEnds_finish (.plotAll_afterAllocation rfl s _) rfl

/-- Only DISCARD drops a point (44_framebuffer.md R301). -/
theorem discard_of_dropped {c : Config} {x y : Int} (h : clipPoint c x y = none) : c.clipMode = .discard := by
  cases hmode : c.clipMode with
  | discard => rfl
  | clamp =>
    rw [clipPoint_of_clamp hmode] at h
    cases h

theorem commandEnds_fbGetpixel (s : State) (x y : Word) {t : State} (h : exec (.fbGetpixel x y) s = .next t) :
    CommandEnds (.fbGetpixel x y) s t := by
  cases hclip : clipPoint s.par x.toInt y.toInt with
  | none =>
    rw [exec_fbGetpixel_badArg s hclip] at h
    cases h
    refine commandEnds_badArg ?_
    rw [errorsOf, if_pos (discard_of_dropped hclip)]
    decide
  | some q =>
    rw [exec_fbGetpixel_clipped hclip] at h
    cases h
    exact commandEnds_finish (.nothing rfl) rfl

theorem commandEnds_mapConfig (s : State) (ax ay bx byy : Word) {t : State}
    (h : exec (.mapConfig ax ay bx byy) s = .next t) : CommandEnds (.mapConfig ax ay bx byy) s t := by
  by_cases hdeg : ax = bx ∨ ay = byy
  · rw [exec_mapConfig_degenerate s hdeg] at h
    cases h
    have heffect : UnitEffect (.mapConfig ax ay bx byy) s (mapIdentity s) :=
      .mapper ⟨ax, ay, bx, byy, rfl⟩ rfl ⟨rfl, rfl, rfl⟩
    exact commandEnds_reply heffect (.inr ⟨by simp [errorsOf], rfl⟩) nofun
  · obtain ⟨hx, hy⟩ := not_or.mp hdeg
    rw [exec_mapConfig_ok s hx hy] at h
    cases h
    have heffect : UnitEffect (.mapConfig ax ay bx byy) s _ := .mapper (u := { s with
      mapA := ⟨ax, ay⟩, mapB := ⟨bx, byy⟩, mapRot := rotOf ax.toInt ay.toInt bx.toInt byy.toInt, mapValid := true })
      ⟨ax, ay, bx, byy, rfl⟩ rfl ⟨mt BitVec.toInt_inj.mp hx, mt BitVec.toInt_inj.mp hy, rfl⟩
    exact commandEnds_finish heffect rfl

/-! ## Every command -/

theorem exec_commandEnds {i : Instr} {s t : State} (h : exec i s = .next t) : CommandEnds i s t := by
  cases i with
  | pixPack r g b =>
    cases h
    exact commandEnds_checked List.mem_cons_self (commandEnds_finish (.nothing rfl) rfl)
  | pixUnpack c =>
    cases h
    exact commandEnds_finish (.nothing rfl) rfl
  | busInit =>
    cases h
    exact commandEnds_finish (i := .busInit) (.bus rfl (moved_initBus s) rfl) rfl
  | busWrite hold a n data =>
    cases h
    exact commandEnds_checked List.mem_cons_self (commandEnds_busWrite hold a n data s)
  | busRead hold a n =>
    cases h
    exact commandEnds_checked List.mem_cons_self (commandEnds_busRead hold a n s)
  | regReadw a start count =>
    cases h
    obtain ⟨hmoved, hreleased, hend⟩ := retry_txReadWords_ends a start count s
    exact commandEnds_checked List.mem_cons_self (commandEnds_reg rfl (by simp [errorsOf]) hmoved hreleased hend)
  | regWritew a addr value =>
    cases h
    obtain ⟨hmoved, hreleased, hend⟩ := retry_txWriteWord_ends a addr value s
    exact commandEnds_checked List.mem_cons_self (commandEnds_reg rfl (by simp [errorsOf]) hmoved hreleased hend)
  | dlInit =>
    rw [exec_dlInit] at h
    cases h
    exact commandEnds_finish (.dlInit rfl rfl) rfl
  | dlCmd code =>
    cases h
    exact commandEnds_checked List.mem_cons_self (commandEnds_finish (.sendCommand rfl (le_refl 4) _) rfl)
  | dlData n data =>
    cases h
    refine commandEnds_checked List.mem_cons_self (commandEnds_finish (.sendData rfl ?_) rfl)
    exact Nat.add_le_add_left (unpackBytes_length_le n data) 3
  | dlWords n words =>
    cases h
    refine commandEnds_finish (.sendData rfl ?_) rfl
    rw [bytesOfWords_length]
    have := List.length_take_le n.toNat words
    exact Nat.add_le_add_left (Nat.mul_le_mul_left 2 this) 3
  | dlWindow x0 y0 x1 y1 =>
    cases h
    exact commandEnds_checked List.mem_cons_self (commandEnds_finish (.setWindow rfl (le_refl 26) x0 y0 x1 y1) rfl)
  | fbPixel x y c =>
    cases h
    exact commandEnds_finish (.plotAll rfl s [plotOf x y c]) rfl
  | fbGetpixel x y => exact commandEnds_fbGetpixel s x y h
  | fbRect x0 y0 x1 y1 c => exact commandEnds_fbRect s x0 y0 x1 y1 c h
  | fbLine x0 y0 x1 y1 c =>
    cases h
    exact commandEnds_finish (.plotAll rfl s _) rfl
  | fbCircle cx cy r c =>
    cases h
    exact commandEnds_finish (.plotAll rfl s _) rfl
  | fbFlush =>
    cases h
    exact commandEnds_finish (.flush rfl rfl) rfl
  | fbChar transp x y ch fg bg =>
    cases h
    exact commandEnds_checked List.mem_cons_self (commandEnds_finish (.plotAll rfl s _) rfl)
  | fbText transp x y fg bg n chars =>
    cases h
    exact commandEnds_checked List.mem_cons_self (commandEnds_finish (.plotAll rfl s _) rfl)
  | mapConfig ax ay bx byy => exact commandEnds_mapConfig s ax ay bx byy h
  | mapPoint row col =>
    cases h
    exact commandEnds_checked List.mem_cons_self (commandEnds_finish (.nothing rfl) rfl)

end Sys2Proof.Machine
end

section
/-! What holds of every command and every step, read off `exec_commandEnds`: the result frame (30_encoding.md R111;
60_exceptions.md R400-R402), the units (10_state.md R46), the bounds (70_reset_and_hazards.md R472), and the lines and the
mapper between commands (41_transport.md R199; 46_mapper.md R380). -/

namespace Sys2Proof.Machine

/-! ## What the effect leaves -/

/-- Every field of s but Dirty and Stale, of the marking loop of DL.INIT. -/
theorem markAllCells_afterInitSequence_eq (s : State) : markAllCells (afterInitSequence s) = { s with
    dcLine := .cmd, csLine := .off, dispInit := true, trace := s.trace ++ initSequenceEvents s.par,
    dirty := (markAllCells (afterInitSequence s)).dirty, stale := (markAllCells (afterInitSequence s)).stale } :=
  markAllCells_only (afterInitSequence s)

/-- Every field of s but Baseline, Dirty and Stale, of the flush loop. -/
theorem flushAll_eq (s : State) : (flushAll s).1 = { s with
    dcLine := if flushSent s = [] then s.dcLine else .data
    csLine := if flushSent s = [] then s.csLine else .off
    baseline := (flushAll s).1.baseline, dirty := (flushAll s).1.dirty, stale := (flushAll s).1.stale
    trace := s.trace ++ (flushSent s).flatMap (cellEvents s) } := by
  obtain ⟨⟨honly, hdc, hcs, -⟩, -⟩ := flushAll_spec s
  rw [← flushSent] at honly hdc hcs
  rw [← hdc, ← hcs]
  exact honly

theorem initSequenceEvents_notBus (c : Config) : ∀ e ∈ initSequenceEvents c, e.isBus = false := by
  simp [initSequenceEvents, frameEvents, Event.isBus]

theorem cellEvents_notBus (s : State) (g : Nat × Nat) : ∀ e ∈ cellEvents s g, e.isBus = false := by
  rw [cellEvents, List.forall_mem_append]
  exact ⟨windowEvents_notBus _ _ _ _ _, frameEvents_notBus _ _⟩

theorem flatMap_cellEvents_notBus (s : State) (sent : List (Nat × Nat)) :
    ∀ e ∈ sent.flatMap (cellEvents s), e.isBus = false := by
  intro e he
  obtain ⟨g, -, hg⟩ := List.mem_flatMap.mp he
  exact cellEvents_notBus s g e hg

section
variable {i : Instr} {s u : State}

/-- No command takes words of the port, writes a parameter or returns a result frame before its end. -/
theorem UnitEffect.keeps_host (h : UnitEffect i s u) : u.replies = s.replies ∧ u.port = s.port ∧ u.cfg = s.cfg := by
  cases h with
  | nothing h =>
    rw [h]
    exact ⟨rfl, rfl, rfl⟩
  | bus hi hmoved hlegal =>
    obtain ⟨honly, -⟩ := hmoved
    rw [OnlyBus] at honly
    rw [honly]
    exact ⟨rfl, rfl, rfl⟩
  | display hi d es hes hlen h =>
    rw [h]
    exact ⟨rfl, rfl, rfl⟩
  | dlInit hi h =>
    rw [h, markAllCells_afterInitSequence_eq]
    exact ⟨rfl, rfl, rfl⟩
  | flush hi h =>
    rw [h, flushAll_eq]
    exact ⟨rfl, rfl, rfl⟩
  | drawing hi h hdirty =>
    rw [h]
    exact ⟨rfl, rfl, rfl⟩
  | mapper hi h hlegal =>
    rw [OnlyMapper] at h
    rw [h]
    exact ⟨rfl, rfl, rfl⟩

/-- The trace grows within the command's bound, by events of the wire the command drives (R91, R472). -/
theorem UnitEffect.trace (h : UnitEffect i s u) : ∃ es, u.trace = s.trace ++ es ∧ es.length ≤ eventBound s.par i ∧
    (usesBus i = true ∧ (∀ e ∈ es, e.isBus = true) ∨ usesDisplay i = true ∧ (∀ e ∈ es, e.isBus = false) ∨ es = []) := by
  have hquiet (ht : u.trace = s.trace) : ∃ es, u.trace = s.trace ++ es ∧ es.length ≤ eventBound s.par i ∧
      (usesBus i = true ∧ (∀ e ∈ es, e.isBus = true) ∨ usesDisplay i = true ∧ (∀ e ∈ es, e.isBus = false) ∨ es = []) :=
    ⟨[], by rw [ht, List.append_nil], Nat.zero_le _, .inr (.inr rfl)⟩
  cases h with
  | nothing h => exact hquiet (by rw [h])
  | bus hi hmoved hlegal =>
    obtain ⟨-, es, htrace, hlen, hes⟩ := hmoved
    exact ⟨es, htrace, hlen, .inl ⟨hi, hes⟩⟩
  | display hi d es hes hlen h => exact ⟨es, by rw [h], hlen, .inr (.inl ⟨hi, hes⟩)⟩
  | dlInit hi h =>
    subst hi
    refine ⟨initSequenceEvents s.par, by rw [h, markAllCells_afterInitSequence_eq], ?_,
      .inr (.inl ⟨rfl, initSequenceEvents_notBus s.par⟩)⟩
    rw [initSequenceEvents_length]
    rfl
  | flush hi h =>
    subst hi
    refine ⟨(flushSent s).flatMap (cellEvents s), by rw [h, flushAll_eq], ?_,
      .inr (.inl ⟨rfl, flatMap_cellEvents_notBus s _⟩)⟩
    rw [flatMap_cellEvents_length]
    exact Nat.mul_le_mul_right _ (flushSent_length_le s).1
  | drawing hi h hdirty => exact hquiet (by rw [h])
  | mapper hi h hlegal =>
    rw [OnlyMapper] at h
    exact hquiet (by rw [h])

end

/-! ## The result frame -/

theorem resultWords_le (i : Instr) : resultWords i ≤ 65535 := by
  cases i with
  | busRead hold a n =>
    have := Laws.EncodeLen.ceilHalf_le n
    rw [resultWords]
    omega
  | regReadw a start count => exact Nat.le_of_lt_succ count.isLt
  | _ =>
    rw [resultWords]
    decide

theorem infoWords_le (status : Status) : infoWords status ≤ 2 := by
  cases status <;> decide

/-- RLEN fits its word (30_encoding.md R111). -/
theorem LegalReply.words_length_le {c : Config} {i : Instr} {r : Reply} (h : LegalReply c i r) :
    r.words.length ≤ 65535 := by
  obtain ⟨-, hlen⟩ | ⟨-, hlen⟩ := h
  · exact hlen ▸ resultWords_le i
  · have := infoWords_le r.status
    omega

/-- Settles O11: a command ends by returning one legal result frame, and what it changed before is of its unit. -/
theorem oneReplyPerCommand : Obligations.OneReplyPerCommand := by
  intro i s t h
  obtain ⟨u, r, rfl, hreturns⟩ := exec_commandEnds h
  obtain ⟨hreplies, hport, hcfg⟩ := hreturns.effect.keeps_host
  obtain ⟨es, htrace, -⟩ := hreturns.effect.trace
  exact ⟨r, es, wordOfNat r.words.length, congrArg (· ++ [r]) hreplies, rfl,
    wordOfNat_toNat hreturns.reply.words_length_le, htrace, hport, hcfg⟩

/-- The result frame a command is seen to return is the one it ended with. -/
theorem exec_returns {i : Instr} {s t : State} {r : Reply} (h : exec i s = .next t) (hr : t.replies = s.replies ++ [r]) :
    ∃ u, t = u.reply r ∧ Returns i s u r := by
  obtain ⟨u, r', rfl, hreturns⟩ := exec_commandEnds h
  obtain ⟨hreplies, -⟩ := hreturns.effect.keeps_host
  rw [reply_replies, hreplies] at hr
  obtain rfl := List.singleton_injective (List.append_cancel_left hr)
  exact ⟨u, rfl, hreturns⟩

/-- Settles O12: the codes are computed, and every command returns a legal result frame. -/
theorem statusesPerCommand : Obligations.StatusesPerCommand := by
  refine ⟨by decide, fun i s t r h hr => ?_⟩
  obtain ⟨u, -, hreturns⟩ := exec_returns h hr
  exact hreturns.reply

/-- Settles O13: a command that ends with ERR_BAD_ARG has changed nothing before, and the error has no info words. -/
theorem badArgIsPrecise : Obligations.BadArgIsPrecise := by
  intro i s t words h hr
  obtain ⟨u, rfl, hreturns⟩ := exec_returns h hr
  obtain rfl := hreturns.precise rfl
  have hwords : words = [] := by
    obtain ⟨hok, -⟩ | ⟨-, hlen⟩ := hreturns.reply
    · cases hok
    · exact List.length_eq_zero_iff.mp hlen
  subst hwords
  exact ⟨rfl, rfl⟩

/-! ## Bounds -/

/-- Settles O19: the trace grows within the command's bound, and a result frame is no event. -/
theorem eventsAreBounded : Obligations.EventsAreBounded := by
  intro i s t h
  obtain ⟨u, r, rfl, hreturns⟩ := exec_commandEnds h
  obtain ⟨es, htrace, hlen, -⟩ := hreturns.effect.trace
  rw [reply_trace, htrace, List.length_append]
  omega

/-! ## Units -/

/-- What the row of R46 says of the state elements: each is written by the commands of its unit alone. -/
structure WritesItsUnit (i : Instr) (s t : State) : Prop where
  bus : usesBus i = false → t.sclDrv = s.sclDrv ∧ t.sdaDrv = s.sdaDrv ∧ t.busInit = s.busInit ∧
    t.busHeld = s.busHeld ∧ t.sensor = s.sensor
  display : usesDisplay i = false → t.dcLine = s.dcLine ∧ t.csLine = s.csLine
  dispInit : i ≠ .dlInit → t.dispInit = s.dispInit
  frame : draws i = false → t.frame = s.frame
  baseline : i ≠ .fbFlush → t.baseline = s.baseline
  dirty : draws i = false → i ≠ .fbFlush → i ≠ .dlInit → t.dirty = s.dirty
  stale : i ≠ .fbFlush → i ≠ .dlInit → t.stale = s.stale
  mapper : (∀ ax ay bx byy, i ≠ .mapConfig ax ay bx byy) →
    t.mapValid = s.mapValid ∧ t.mapA = s.mapA ∧ t.mapB = s.mapB ∧ t.mapRot = s.mapRot

/-- No command drives both wires. -/
theorem usesDisplay_of_usesBus {i : Instr} (h : usesBus i = true) : usesDisplay i = false := by
  cases i <;> cases h <;> rfl

theorem UnitEffect.writesItsUnit {i : Instr} {s u : State} (h : UnitEffect i s u) : WritesItsUnit i s u := by
  cases h with
  | nothing h =>
    rw [h]
    exact ⟨fun _ => ⟨rfl, rfl, rfl, rfl, rfl⟩, fun _ => ⟨rfl, rfl⟩, fun _ => rfl, fun _ => rfl, fun _ => rfl,
      fun _ _ _ => rfl, fun _ _ => rfl, fun _ => ⟨rfl, rfl, rfl, rfl⟩⟩
  | bus hi hmoved hlegal =>
    obtain ⟨honly, -⟩ := hmoved
    rw [OnlyBus] at honly
    rw [honly]
    exact ⟨fun hno => absurd hi (Bool.eq_false_iff.mp hno), fun _ => ⟨rfl, rfl⟩, fun _ => rfl, fun _ => rfl,
      fun _ => rfl, fun _ _ _ => rfl, fun _ _ => rfl, fun _ => ⟨rfl, rfl, rfl, rfl⟩⟩
  | display hi d es hes hlen h =>
    rw [h]
    exact ⟨fun _ => ⟨rfl, rfl, rfl, rfl, rfl⟩, fun hno => absurd hi (Bool.eq_false_iff.mp hno), fun _ => rfl,
      fun _ => rfl, fun _ => rfl, fun _ _ _ => rfl, fun _ _ => rfl, fun _ => ⟨rfl, rfl, rfl, rfl⟩⟩
  | dlInit hi h =>
    rw [h, markAllCells_afterInitSequence_eq]
    exact ⟨fun _ => ⟨rfl, rfl, rfl, rfl, rfl⟩, fun hno => absurd (hi ▸ rfl) (Bool.eq_false_iff.mp hno),
      fun hne => absurd hi hne, fun _ => rfl, fun _ => rfl, fun _ _ hne => absurd hi hne, fun _ hne => absurd hi hne,
      fun _ => ⟨rfl, rfl, rfl, rfl⟩⟩
  | flush hi h =>
    rw [h, flushAll_eq]
    exact ⟨fun _ => ⟨rfl, rfl, rfl, rfl, rfl⟩, fun hno => absurd (hi ▸ rfl) (Bool.eq_false_iff.mp hno), fun _ => rfl,
      fun _ => rfl, fun hne => absurd hi hne, fun _ hne _ => absurd hi hne, fun hne _ => absurd hi hne,
      fun _ => ⟨rfl, rfl, rfl, rfl⟩⟩
  | drawing hi h hdirty =>
    rw [h]
    exact ⟨fun _ => ⟨rfl, rfl, rfl, rfl, rfl⟩, fun _ => ⟨rfl, rfl⟩, fun _ => rfl,
      fun hno => absurd hi (Bool.eq_false_iff.mp hno), fun _ => rfl,
      fun hno _ _ => absurd hi (Bool.eq_false_iff.mp hno), fun _ _ => rfl, fun _ => ⟨rfl, rfl, rfl, rfl⟩⟩
  | mapper hi h hlegal =>
    obtain ⟨ax, ay, bx, byy, hi⟩ := hi
    rw [OnlyMapper] at h
    rw [h]
    exact ⟨fun _ => ⟨rfl, rfl, rfl, rfl, rfl⟩, fun _ => ⟨rfl, rfl⟩, fun _ => rfl, fun _ => rfl, fun _ => rfl,
      fun _ _ _ => rfl, fun _ _ => rfl, fun hne => absurd hi (hne ax ay bx byy)⟩

/-- Settles O18: what a command changes and the events it emits are those of its unit; a result frame is none of them. -/
theorem unitsAreSeparate : Obligations.UnitsAreSeparate := by
  intro i s t h
  obtain ⟨u, r, rfl, hreturns⟩ := exec_commandEnds h
  obtain ⟨hbus, hdisplay, hinit, hframe, hbaseline, hdirty, hstale, hmapper⟩ := hreturns.effect.writesItsUnit
  obtain ⟨es, htrace, -, hes⟩ := hreturns.effect.trace
  refine ⟨hbus, hdisplay, hinit, hframe, hbaseline, hdirty, hstale, hmapper, fun hi => ⟨es, htrace, ?_⟩,
    fun hi => ⟨es, htrace, ?_⟩, fun hnobus hnodisplay => ?_⟩
  · obtain ⟨-, hes⟩ | ⟨hi', -⟩ | rfl := hes
    · exact hes
    · rw [usesDisplay_of_usesBus hi] at hi'
      cases hi'
    · exact fun _ he => absurd he List.not_mem_nil
  · obtain ⟨hi', -⟩ | ⟨-, hes⟩ | rfl := hes
    · rw [usesDisplay_of_usesBus hi'] at hi
      cases hi
    · exact hes
    · exact fun _ he => absurd he List.not_mem_nil
  · obtain ⟨hi, -⟩ | ⟨hi, -⟩ | rfl := hes
    · exact absurd hi (Bool.eq_false_iff.mp hnobus)
    · exact absurd hi (Bool.eq_false_iff.mp hnodisplay)
    · rw [reply_trace, htrace, List.append_nil]

/-! ## The lines and the mapper between commands -/

/-- What is legal of the lines and the mapper in s is legal in t. -/
def KeepsLinesAndMapper (s t : State) : Prop :=
  (BusLegal s → BusLegal t) ∧ (ChipSelectOff s → ChipSelectOff t) ∧ (MapperLegal s → MapperLegal t)

theorem UnitEffect.keepsLinesAndMapper {i : Instr} {s u : State} (h : UnitEffect i s u) : KeepsLinesAndMapper s u := by
  cases h with
  | nothing h =>
    rw [h]
    exact ⟨id, id, id⟩
  | bus hi hmoved hlegal =>
    obtain ⟨honly, -⟩ := hmoved
    rw [OnlyBus] at honly
    refine ⟨fun _ => hlegal, ?_⟩
    rw [honly]
    exact ⟨id, id⟩
  | display hi d es hes hlen h =>
    rw [h]
    exact ⟨id, fun _ => rfl, id⟩
  | dlInit hi h =>
    rw [h, markAllCells_afterInitSequence_eq]
    exact ⟨id, fun _ => rfl, id⟩
  | flush hi h =>
    rw [h, flushAll_eq]
    refine ⟨id, fun hs => ?_, id⟩
    rw [ChipSelectOff]
    dsimp only
    split
    · exact hs
    · rfl
  | drawing hi h hdirty =>
    rw [h]
    exact ⟨id, id, id⟩
  | mapper hi h hlegal =>
    refine ⟨?_, ?_, fun _ => hlegal⟩ <;> rw [OnlyMapper] at h <;> rw [h]
    · exact id
    · exact id

/-- Settles O17: a step that runs no command changes neither lines nor mapper, and the effect of a command on them is that
of its unit. -/
theorem stepKeepsLinesAndMapper : Obligations.StepKeepsLinesAndMapper := by
  intro s t hstep
  show KeepsLinesAndMapper s t
  cases step_cases hstep with
  | waits h =>
    rw [h]
    exact ⟨id, id, id⟩
  | refuses rest h =>
    rw [h]
    exact ⟨id, id, id⟩
  | runs i frame rest hport hdecode h =>
    obtain ⟨u, r, rfl, hreturns⟩ := exec_commandEnds h
    exact hreturns.effect.keepsLinesAndMapper

end Sys2Proof.Machine
end

section
/-! FB.CIRCLE (44_framebuffer.md R330-R332). -/

namespace Sys2Proof.Machine

theorem exec_fbCircle (s : State) (cx cy r c : Word) : exec (.fbCircle cx cy r c) s =
    .next ((s.plotAll (plotsOf c (circlePoints s.par.circleSet cx.toInt cy.toInt r.toInt))).finish []) := rfl

theorem mem_circlePoints {set : CircleSet} {cx cy r : Int} {d : Int × Int} : d ∈ circlePoints set cx cy r ↔
    0 ≤ r ∧ ∃ o ∈ circleOffsets set r.toNat, d = (cx + o.1, cy + o.2) := by
  rw [circlePoints]
  split
  case isTrue hneg =>
    refine ⟨fun h => absurd h List.not_mem_nil, fun h => ?_⟩
    omega
  case isFalse hnonneg =>
    rw [List.mem_map]
    refine ⟨?_, ?_⟩
    · rintro ⟨o, ho, rfl⟩
      exact ⟨not_lt.mp hnonneg, o, ho, rfl⟩
    · rintro ⟨-, o, ho, rfl⟩
      exact ⟨o, ho, rfl⟩

/-- P1-P3 of R331: the centre is a point of the circle, and every point lies within R + 1 of it. -/
theorem centre_mem_circlePoints (b : Board) {cx cy r : Int} (hr : 0 ≤ r) :
    (cx, cy) ∈ circlePoints b.val.circleSet cx cy r := by
  obtain ⟨hcentre, -⟩ := circleOffsets_admitted (board_circleSet b) r.toNat
  exact mem_circlePoints.mpr ⟨hr, _, hcentre, by simp⟩

theorem circlePoints_within (b : Board) {cx cy r : Int} {d : Int × Int} (h : d ∈ circlePoints b.val.circleSet cx cy r) :
    ∃ dx dy : Int, dx * dx + dy * dy ≤ (r + 1) * (r + 1) ∧ d = (cx + dx, cy + dy) := by
  obtain ⟨hr, o, ho, rfl⟩ := mem_circlePoints.mp h
  obtain ⟨-, hwithin⟩ := circleOffsets_admitted (board_circleSet b) r.toNat
  have hle := hwithin o ho
  rw [Int.toNat_of_nonneg hr] at hle
  exact ⟨o.1, o.2, hle, rfl⟩

theorem circlePoints_of_neg {set : CircleSet} {cx cy r : Int} (h : r < 0) : circlePoints set cx cy r = [] := if_pos h

/-- Settles O46: the command plots the points of the circle, among which is the centre and none further than R + 1. -/
theorem fbCircleAnySet : Obligations.FbCircleAnySet := by
  intro s cx cy r c
  refine ⟨_, exec_fbCircle s cx cy r c, plotAll_finish s _ [], fun hneg => ?_, fun hr q hq => ?_, fun p hp => ?_,
    fun k hk => ?_, fun k hk hclear => ?_⟩
  · rw [circlePoints_of_neg hneg]
    exact ⟨rfl, rfl⟩
  · rw [frameAt_finish, frameAt_points]
    exact if_pos ⟨_, centre_mem_circlePoints s.cfg hr, q, hq, rfl⟩
  · rw [frameAt_finish, frameAt_points]
    refine if_neg ?_
    rintro ⟨d, hd, q, hq, hpq⟩
    obtain ⟨dx, dy, hwithin, rfl⟩ := circlePoints_within s.cfg hd
    exact hp dx dy q hwithin hq hpq
  · exact dirtyAt_plotAll_of_dirty s _ hk
  · rw [dirtyAt_finish, dirtyAt_points] at hk
    obtain hset | ⟨d, hd, q, hq, hcell, -⟩ := hk
    · rw [hclear] at hset
      cases hset
    · obtain ⟨dx, dy, hwithin, rfl⟩ := circlePoints_within s.cfg hd
      exact ⟨dx, dy, q, hwithin, hq, hcell⟩

/-- The points of DISK (R332). -/
theorem mem_circlePoints_disk {cx cy r : Int} (hr : 0 ≤ r) {d : Int × Int} : d ∈ circlePoints .disk cx cy r ↔
    ∃ dx dy : Int, dx * dx + dy * dy ≤ r * r ∧ d = (cx + dx, cy + dy) := by
  rw [mem_circlePoints]
  simp only [circleOffsets, mem_diskOffsets, Int.toNat_of_nonneg hr, hr, true_and, Prod.exists]

/-- The pixels that the points of the disc are clipped onto. -/
theorem disk_hit (c : Config) {cx cy r : Int} (hr : 0 ≤ r) (q : Nat × Nat) :
    (∃ d ∈ circlePoints .disk cx cy r, clipPoint c d.1 d.2 = some q) ↔
      ∃ dx dy : Int, dx * dx + dy * dy ≤ r * r ∧ clipPoint c (cx + dx) (cy + dy) = some q := by
  constructor
  · rintro ⟨d, hd, hq⟩
    obtain ⟨dx, dy, hin, rfl⟩ := (mem_circlePoints_disk hr).mp hd
    exact ⟨dx, dy, hin, hq⟩
  · rintro ⟨dx, dy, hin, hq⟩
    exact ⟨_, (mem_circlePoints_disk hr).mpr ⟨dx, dy, hin, rfl⟩, hq⟩

/-- Settles O47: the plots of the disc's points write exactly the pixels that some point is clipped onto. -/
theorem fbCircleDisk : Obligations.FbCircleDisk := by
  intro s cx cy r c hset hr
  refine ⟨_, exec_fbCircle s cx cy r c, plotAll_finish s _ [], ?_⟩
  rw [hset]
  intro hit
  have hhit (q : Nat × Nat) : (∃ d ∈ circlePoints .disk cx.toInt cy.toInt r.toInt,
      clipPoint s.par d.1 d.2 = some q) ↔ hit q := disk_hit s.par hr q
  refine ⟨fun q hq => ?_, fun p hp => ?_, fun k => ?_⟩
  · obtain ⟨d, hd, hclip⟩ := (hhit q).mpr hq
    rw [frameAt_finish, frameAt_points]
    exact if_pos ⟨d, hd, q, hclip, rfl⟩
  · rw [frameAt_finish, frameAt_points]
    refine if_neg ?_
    rintro ⟨d, hd, q, hclip, hpq⟩
    exact hp q ((hhit q).mp ⟨d, hd, hclip⟩) hpq
  · rw [dirtyAt_finish, dirtyAt_points]
    refine or_congr Iff.rfl ⟨?_, ?_⟩
    · rintro ⟨d, hd, q, hclip, hk, hc⟩
      exact ⟨q, (hhit q).mp ⟨d, hd, hclip⟩, hk, hc⟩
    · rintro ⟨q, hq, hk, hc⟩
      obtain ⟨d, hd, hclip⟩ := (hhit q).mpr hq
      exact ⟨d, hd, q, hclip, hk, hc⟩

end Sys2Proof.Machine
end

section
/-! The laws of the mapper: corners, range and monotonicity (46_mapper.md R386). -/

namespace Sys2Proof.Machine

/-! ## One coordinate (R384) -/

section
variable {a b m : Int} (hm : 1 ≤ m)
include hm

/-- Half a step over the first anchor is still the first anchor. -/
theorem mapAxis_first : mapAxis a b 0 m = a := by
  rw [mapAxis, mul_zero, zero_add, Int.ediv_eq_zero_of_lt (by omega) (by omega), add_zero]

/-- The last sensor address is the second anchor. -/
theorem mapAxis_last : mapAxis a b m m = b := by
  have hnum : 2 * (b - a) * m + m = m + (b - a) * (2 * m) := by ring
  rw [mapAxis, hnum, Int.add_mul_ediv_right _ _ (by omega), Int.ediv_eq_zero_of_lt (by omega) (by omega)]
  omega

theorem mapAxis_mono (hab : a ≤ b) {u u' : Int} (h : u ≤ u') : mapAxis a b u m ≤ mapAxis a b u' m := by
  have hstep : 2 * (b - a) * u ≤ 2 * (b - a) * u' := mul_le_mul_of_nonneg_left h (by omega)
  exact Int.add_le_add_left (Int.ediv_le_ediv (by omega) (by omega)) a

theorem mapAxis_antitone (hab : b ≤ a) {u u' : Int} (h : u ≤ u') : mapAxis a b u' m ≤ mapAxis a b u m := by
  have hstep : 2 * (b - a) * u' ≤ 2 * (b - a) * u := mul_le_mul_of_nonpos_left h (by omega)
  exact Int.add_le_add_left (Int.ediv_le_ediv (by omega) (by omega)) a

/-- Between the first and the last address the coordinate runs from anchor to anchor. -/
theorem mapAxis_between {u : Int} (h0 : 0 ≤ u) (hu : u ≤ m) :
    min a b ≤ mapAxis a b u m ∧ mapAxis a b u m ≤ max a b := by
  have hfirst : mapAxis a b 0 m = a := mapAxis_first hm
  have hlast : mapAxis a b m m = b := mapAxis_last hm
  rcases le_total a b with hab | hab
  · have hlow := mapAxis_mono hm hab h0
    have hhigh := mapAxis_mono hm hab hu
    omega
  · have hhigh := mapAxis_antitone hm hab h0
    have hlow := mapAxis_antitone hm hab hu
    omega

end

/-! ## The roles of row and column (R383) -/

/-- The sensor address and its extent that run along x and along y. -/
structure Roles where
  u : Int
  maxU : Int
  v : Int
  maxV : Int

/-- The roles as `mapRoles` gives them. -/
def rolesOf (s : State) (row col : Int) : Roles :=
  let r := mapRoles s.par s.mapRot row col
  ⟨r.1, r.2.1, r.2.2.1, r.2.2.2⟩

theorem mapXY_of_valid {s : State} (h : s.mapValid = true) (row col : Int) :
    let r := rolesOf s row col
    mapXY s row col = (mapAxis s.mapA.x.toInt s.mapB.x.toInt r.u r.maxU, mapAxis s.mapA.y.toInt s.mapB.y.toInt r.v r.maxV) :=
  if_pos h

/-- Each role is that of the row or of the column, the extent included. -/
theorem rolesOf_cases (s : State) :
    (∀ row col, rolesOf s row col = ⟨col, s.par.sensorMaxCol, row, s.par.sensorMaxRow⟩) ∨
    ∀ row col, rolesOf s row col = ⟨row, s.par.sensorMaxRow, col, s.par.sensorMaxCol⟩ := by
  simp only [rolesOf]
  cases s.mapRot with
  | r0 | r180 => exact .inl fun _ _ => rfl
  | r90 | r270 => exact .inr fun _ _ => rfl

theorem rolesOf_extents (s : State) (row col : Int) :
    1 ≤ (rolesOf s row col).maxU ∧ 1 ≤ (rolesOf s row col).maxV := by
  obtain ⟨hrow, hcol⟩ := board_sensorMax s.cfg
  obtain h | h := rolesOf_cases s <;> rw [h, State.par] <;> dsimp only <;> omega

/-- The extents do not depend on the address. -/
theorem rolesOf_extents_eq (s : State) (row col row' col' : Int) :
    (rolesOf s row' col').maxU = (rolesOf s row col).maxU ∧ (rolesOf s row' col').maxV = (rolesOf s row col).maxV := by
  obtain h | h := rolesOf_cases s <;> rw [h, h] <;> exact ⟨rfl, rfl⟩

theorem rolesOf_mono (s : State) {row col row' col' : Int} (hrow : row ≤ row') (hcol : col ≤ col') :
    (rolesOf s row col).u ≤ (rolesOf s row' col').u ∧ (rolesOf s row col).v ≤ (rolesOf s row' col').v := by
  obtain h | h := rolesOf_cases s <;> rw [h, h]
  · exact ⟨hcol, hrow⟩
  · exact ⟨hrow, hcol⟩

theorem rolesOf_inside (s : State) {row col : Int} (hrow : 0 ≤ row ∧ row ≤ s.par.sensorMaxRow)
    (hcol : 0 ≤ col ∧ col ≤ s.par.sensorMaxCol) :
    (0 ≤ (rolesOf s row col).u ∧ (rolesOf s row col).u ≤ (rolesOf s row col).maxU) ∧
    0 ≤ (rolesOf s row col).v ∧ (rolesOf s row col).v ≤ (rolesOf s row col).maxV := by
  obtain h | h := rolesOf_cases s <;> rw [h]
  · exact ⟨hcol, hrow⟩
  · exact ⟨hrow, hcol⟩

/-! ## The words of MAP.POINT -/

theorem toInt_fits (w : Word) : -32768 ≤ w.toInt ∧ w.toInt ≤ 32767 := ⟨w.le_toInt, Int.le_of_lt_add_one w.toInt_lt⟩

/-- MAP.POINT returns the words of the mapped point, where it is two words. -/
theorem exec_mapPoint_of_words {s : State} {row col x y : Word} (h : mapXY s row.toInt col.toInt = (x.toInt, y.toInt)) :
    exec (.mapPoint row col) s = .next (s.finish [x, y]) := by
  rw [exec_mapPoint_ok h ⟨toInt_fits x, toInt_fits y⟩, wordOfInt, wordOfInt, BitVec.ofInt_toInt, BitVec.ofInt_toInt]

/-- The words MAP.POINT returned are those of the mapped point. -/
theorem mapXY_of_exec_mapPoint {s : State} {row col x y : Word}
    (h : exec (.mapPoint row col) s = .next { s with replies := s.replies ++ [⟨.ok, [x, y]⟩] }) :
    mapXY s row.toInt col.toInt = (x.toInt, y.toInt) := by
  obtain ⟨i, j, hpoint⟩ : ∃ i j, mapXY s row.toInt col.toInt = (i, j) := ⟨_, _, rfl⟩
  by_cases hfits : (-32768 ≤ i ∧ i ≤ 32767) ∧ (-32768 ≤ j ∧ j ≤ 32767)
  · rw [exec_mapPoint_ok hpoint hfits] at h
    have hreplies := congrArg State.replies (Host.Outcome.next.inj h)
    have hreply := List.singleton_injective (List.append_cancel_left hreplies)
    simp only [Reply.mk.injEq, List.cons.injEq, and_true, true_and] at hreply
    rw [hpoint, ← hreply.1, ← hreply.2, wordOfInt_toInt hfits.1, wordOfInt_toInt hfits.2]
  · rw [exec_mapPoint_badArg hpoint hfits] at h
    have hreplies := congrArg State.replies (Host.Outcome.next.inj h)
    have hreply := List.singleton_injective (List.append_cancel_left hreplies)
    cases hreply

/-! ## Range and monotonicity -/

/-- Settles O58: each coordinate runs from anchor to anchor with the sensor address of its role. -/
theorem mapBetweenAndMonotone : Obligations.MapBetweenAndMonotone := by
  intro s hvalid
  refine ⟨fun row col hrow0 hrow hcol0 hcol => ?_, fun row col row' col' x y x' y' h h' hrow hcol => ?_⟩
  · obtain ⟨hmaxU, hmaxV⟩ := rolesOf_extents s row.toInt col.toInt
    obtain ⟨⟨hu0, hu⟩, hv0, hv⟩ := rolesOf_inside s ⟨hrow0, hrow⟩ ⟨hcol0, hcol⟩
    have hx := mapAxis_between (a := s.mapA.x.toInt) (b := s.mapB.x.toInt) hmaxU hu0 hu
    have hy := mapAxis_between (a := s.mapA.y.toInt) (b := s.mapB.y.toInt) hmaxV hv0 hv
    have hpoint := mapXY_of_valid hvalid row.toInt col.toInt
    dsimp only at hpoint
    generalize mapAxis s.mapA.x.toInt s.mapB.x.toInt _ _ = i at hpoint hx
    generalize mapAxis s.mapA.y.toInt s.mapB.y.toInt _ _ = j at hpoint hy
    have hax := toInt_fits s.mapA.x
    have hbx := toInt_fits s.mapB.x
    have hay := toInt_fits s.mapA.y
    have hby := toInt_fits s.mapB.y
    have hi : -32768 ≤ i ∧ i ≤ 32767 := by omega
    have hj : -32768 ≤ j ∧ j ≤ 32767 := by omega
    refine ⟨_, _, exec_mapPoint_ok hpoint ⟨hi, hj⟩, ?_⟩
    rw [wordOfInt_toInt hi, wordOfInt_toInt hj]
    exact ⟨hx.1, hx.2, hy.1, hy.2⟩
  · obtain ⟨hmaxU, hmaxV⟩ := rolesOf_extents s row.toInt col.toInt
    obtain ⟨heqU, heqV⟩ := rolesOf_extents_eq s row.toInt col.toInt row'.toInt col'.toInt
    obtain ⟨hu, hv⟩ := rolesOf_mono s hrow hcol
    obtain ⟨hx, hy⟩ := Prod.mk.inj ((mapXY_of_exec_mapPoint h).symm.trans (mapXY_of_valid hvalid _ _))
    obtain ⟨hx', hy'⟩ := Prod.mk.inj ((mapXY_of_exec_mapPoint h').symm.trans (mapXY_of_valid hvalid _ _))
    rw [heqU] at hx'
    rw [heqV] at hy'
    rw [hx, hy, hx', hy']
    exact ⟨fun hab => mapAxis_mono hmaxU hab hu, fun hab => mapAxis_antitone hmaxU hab hu,
      fun hab => mapAxis_mono hmaxV hab hv, fun hab => mapAxis_antitone hmaxV hab hv⟩

/-! ## Corners -/

theorem wordOfNat_toInt {n : Nat} (h : n ≤ 32767) : (wordOfNat n).toInt = n := by
  have hnat : (wordOfNat n).toNat = n := wordOfNat_toNat (by omega)
  rw [BitVec.toInt_eq_toNat_of_lt (by omega), hnat]

/-- The mapper holds the anchors (ax, ay) and (bx, by) with rotation rot. -/
def Anchored (t : State) (ax ay bx byy : Word) (rot : Rot) : Prop :=
  t.mapValid = true ∧ t.mapA = ⟨ax, ay⟩ ∧ t.mapB = ⟨bx, byy⟩ ∧ t.mapRot = rot

section
variable {t : State} {ax ay bx byy row col : Word}

/-- At 0 degrees the column runs along x and the row along y. -/
theorem exec_mapPoint_r0 (h : Anchored t ax ay bx byy .r0) {x y : Word}
    (hx : mapAxis ax.toInt bx.toInt col.toInt t.par.sensorMaxCol = x.toInt)
    (hy : mapAxis ay.toInt byy.toInt row.toInt t.par.sensorMaxRow = y.toInt) :
    exec (.mapPoint row col) t = .next (t.finish [x, y]) := by
  obtain ⟨hvalid, hA, hB, hrot⟩ := h
  refine exec_mapPoint_of_words ((mapXY_of_valid hvalid _ _).trans ?_)
  rw [rolesOf, hrot, hA, hB, ← hx, ← hy]
  rfl

/-- At 90 degrees the row runs along x and the column along y. -/
theorem exec_mapPoint_r90 (h : Anchored t ax ay bx byy .r90) {x y : Word}
    (hx : mapAxis ax.toInt bx.toInt row.toInt t.par.sensorMaxRow = x.toInt)
    (hy : mapAxis ay.toInt byy.toInt col.toInt t.par.sensorMaxCol = y.toInt) :
    exec (.mapPoint row col) t = .next (t.finish [x, y]) := by
  obtain ⟨hvalid, hA, hB, hrot⟩ := h
  refine exec_mapPoint_of_words ((mapXY_of_valid hvalid _ _).trans ?_)
  rw [rolesOf, hrot, hA, hB, ← hx, ← hy]
  rfl

end

/-- MAP.CONFIG of anchors that differ in both coordinates. -/
theorem exec_mapConfig_anchored (s : State) {ax ay bx byy : Word} {rot : Rot} (hx : ax.toInt ≠ bx.toInt)
    (hy : ay.toInt ≠ byy.toInt) (hrot : rotOf ax.toInt ay.toInt bx.toInt byy.toInt = rot) :
    ∃ t, exec (.mapConfig ax ay bx byy) s = .next t ∧ t.par = s.par ∧ Anchored t ax ay bx byy rot :=
  ⟨_, exec_mapConfig_ok s (mt BitVec.toInt_inj.mpr hx) (mt BitVec.toInt_inj.mpr hy), rfl, rfl, rfl, rfl, hrot⟩

/-- Settles O57: an address 0 gives the first anchor's coordinate and the last address the second one's. -/
theorem mapCorners : Obligations.MapCorners := by
  intro s hw hh hrow hcol w1 h1 rmax cmax gives
  obtain ⟨hrow1, hcol1⟩ := board_sensorMax s.cfg
  have hmaxRow : 1 ≤ (s.par.sensorMaxRow : Int) := by exact_mod_cast hrow1
  have hmaxCol : 1 ≤ (s.par.sensorMaxCol : Int) := by exact_mod_cast hcol1
  have hwidth : s.par.width ≤ 32767 := (board_width s.cfg).2
  have hheight : s.par.height ≤ 32767 := (board_height s.cfg).2
  have hw1 : w1.toInt = (s.par.width - 1 : Nat) := wordOfNat_toInt (by omega)
  have hh1 : h1.toInt = (s.par.height - 1 : Nat) := wordOfNat_toInt (by omega)
  have hrmax : rmax.toInt = s.par.sensorMaxRow := wordOfNat_toInt hrow
  have hcmax : cmax.toInt = s.par.sensorMaxCol := wordOfNat_toInt hcol
  have hzero : (0#16 : Word).toInt = 0 := rfl
  have hw0 : (0#16 : Word).toInt < w1.toInt := by omega
  have hh0 : (0#16 : Word).toInt < h1.toInt := by omega
  have hfirstRow (a b : Word) : mapAxis a.toInt b.toInt (0#16 : Word).toInt s.par.sensorMaxRow = a.toInt :=
    mapAxis_first hmaxRow
  have hfirstCol (a b : Word) : mapAxis a.toInt b.toInt (0#16 : Word).toInt s.par.sensorMaxCol = a.toInt :=
    mapAxis_first hmaxCol
  have hlastRow (a b : Word) : mapAxis a.toInt b.toInt rmax.toInt s.par.sensorMaxRow = b.toInt := by
    rw [hrmax]
    exact mapAxis_last hmaxRow
  have hlastCol (a b : Word) : mapAxis a.toInt b.toInt cmax.toInt s.par.sensorMaxCol = b.toInt := by
    rw [hcmax]
    exact mapAxis_last hmaxCol
  constructor
  · obtain ⟨t, hexec, hpar, ht⟩ := exec_mapConfig_anchored s hw0.ne hh0.ne (rotOf_topLeft hw0 hh0)
    rw [← hpar] at hfirstRow hfirstCol hlastRow hlastCol
    exact ⟨t, hexec, exec_mapPoint_r0 ht (hfirstCol _ _) (hfirstRow _ _),
      exec_mapPoint_r0 ht (hlastCol _ _) (hlastRow _ _)⟩
  · obtain ⟨t, hexec, hpar, ht⟩ := exec_mapConfig_anchored s hw0.ne hh0.ne' (rotOf_bottomLeft hw0 hh0)
    rw [← hpar] at hfirstRow hfirstCol hlastRow hlastCol
    exact ⟨t, hexec, exec_mapPoint_r90 ht (hfirstRow _ _) (hfirstCol _ _),
      exec_mapPoint_r90 ht (hlastRow _ _) (hlastCol _ _), exec_mapPoint_r90 ht (hlastRow _ _) (hfirstCol _ _),
      exec_mapPoint_r90 ht (hfirstRow _ _) (hlastCol _ _)⟩

end Sys2Proof.Machine
end

section
/-! The flush guarantee (44_framebuffer.md R340, R341): what the reference controller holds after a flush, after a DL.INIT
and after a run of commands. -/

namespace Sys2Proof.Machine

/-! ## The controller after the cells of a flush -/

/-- Index p is that of a pixel of one of the cells. -/
def InCells (c : Config) (cells : List (Nat × Nat)) (p : Nat) : Prop :=
  ∃ g ∈ cells, ∃ q ∈ cellPixels c g.1 g.2, idx c q.1 q.2 = p

theorem inCells_cons {c : Config} {g : Nat × Nat} {cells : List (Nat × Nat)} {p : Nat} :
    InCells c (g :: cells) p ↔ (∃ q ∈ cellPixels c g.1 g.2, idx c q.1 q.2 = p) ∨ InCells c cells p := by
  simp only [InCells, List.exists_mem_cons_iff]

theorem not_inCells_nil {c : Config} {p : Nat} : ¬ InCells c [] p := by
  rintro ⟨g, hg, -⟩
  cases hg

/-- The words of a cell are those of the Frame at its pixels, in the order the controller fills the window. -/
theorem cellWords_getElem?_of_lt (s : State) (g : Nat × Nat) {i : Nat} (hi : i < (cellSendOrder s.par g.1 g.2).length) :
    (cellWords s g.1 g.2)[i]? =
      some (s.frameAt (idx s.par (cellSendOrder s.par g.1 g.2)[i].1 (cellSendOrder s.par g.1 g.2)[i].2)) := by
  rw [cellWords, List.getElem?_map, List.getElem?_eq_getElem hi]
  rfl

theorem mem_cellSendOrder {c : Config} {gx gy : Nat} {q : Nat × Nat} :
    q ∈ cellSendOrder c gx gy ↔ q ∈ cellPixels c gx gy := by
  rw [cellSendOrder_eq, mem_windowPixels, mem_cellPixels]

/-- The corners of a cell of the grid fit a word, and lie in the Frame (20_memory.md R82). -/
theorem cell_corners (b : Board) {g : Nat × Nat} (hg : g.1 < b.val.gridW ∧ g.2 < b.val.gridH) :
    (g.1 * b.val.cellW + b.val.cellW ≤ b.val.width ∧ b.val.width ≤ 32767 ∧ 1 ≤ b.val.cellW) ∧
    g.2 * b.val.cellH + b.val.cellH ≤ b.val.height ∧ b.val.height ≤ 32767 ∧ 1 ≤ b.val.cellH := by
  have hx : (g.1 + 1) * b.val.cellW ≤ b.val.gridW * b.val.cellW := Nat.mul_le_mul_right _ hg.1
  have hy : (g.2 + 1) * b.val.cellH ≤ b.val.gridH * b.val.cellH := Nat.mul_le_mul_right _ hg.2
  rw [board_width_eq, Nat.succ_mul] at hx
  rw [board_height_eq, Nat.succ_mul] at hy
  exact ⟨⟨hx, (board_width b).2, (board_cellW b).1⟩, hy, (board_height b).2, (board_cellH b).1⟩

section
variable {s : State} {k : Controller} (hc : WindowCodesDistinct s.par)
include hc

/-- A sent cell: the controller shows the Frame there, and as before elsewhere. -/
theorem run_cellEvents (hr : k.ready = true) {g : Nat × Nat} (hg : g.1 < s.par.gridW ∧ g.2 < s.par.gridH) :
    (k.run s.par (cellEvents s g)).ready = true ∧
    (∀ q ∈ cellPixels s.par g.1 g.2,
      (k.run s.par (cellEvents s g)).gramAt (idx s.par q.1 q.2) = some (s.frameAt (idx s.par q.1 q.2))) ∧
    ∀ p, (∀ q ∈ cellPixels s.par g.1 g.2, idx s.par q.1 q.2 ≠ p) →
      (k.run s.par (cellEvents s g)).gramAt p = k.gramAt p := by
  obtain ⟨⟨hx, hxmax, hcw⟩, hy, hymax, hch⟩ : (g.1 * s.par.cellW + s.par.cellW ≤ s.par.width ∧ s.par.width ≤ 32767 ∧
    1 ≤ s.par.cellW) ∧ g.2 * s.par.cellH + s.par.cellH ≤ s.par.height ∧ s.par.height ≤ 32767 ∧ 1 ≤ s.par.cellH :=
    cell_corners s.cfg hg
  have hx0 : (wordOfNat (g.1 * s.par.cellW)).toNat = g.1 * s.par.cellW := wordOfNat_toNat (by omega)
  have hy0 : (wordOfNat (g.2 * s.par.cellH)).toNat = g.2 * s.par.cellH := wordOfNat_toNat (by omega)
  have hx1 : (wordOfNat (g.1 * s.par.cellW + s.par.cellW - 1)).toNat = g.1 * s.par.cellW + s.par.cellW - 1 :=
    wordOfNat_toNat (by omega)
  have hy1 : (wordOfNat (g.2 * s.par.cellH + s.par.cellH - 1)).toNat = g.2 * s.par.cellH + s.par.cellH - 1 :=
    wordOfNat_toNat (by omega)
  have hw : g.1 * s.par.cellW + s.par.cellW - 1 - g.1 * s.par.cellW + 1 = s.par.cellW := by omega
  have hh : g.2 * s.par.cellH + s.par.cellH - 1 - g.2 * s.par.cellH + 1 = s.par.cellH := by omega
  have hrun := run_window_words s.par k (wordOfNat (g.1 * s.par.cellW)) (wordOfNat (g.2 * s.par.cellH))
    (wordOfNat (g.1 * s.par.cellW + s.par.cellW - 1)) (wordOfNat (g.2 * s.par.cellH + s.par.cellH - 1))
    (cellWords s g.1 g.2) hc hr (by omega) (by omega) (by omega) (by omega)
    (by rw [hx0, hx1, hy0, hy1, hw, hh, cellWords_length])
  rw [hx0, hx1, hy0, hy1, hw, hh, ← cellSendOrder_eq] at hrun
  obtain ⟨hready, hcell, helse⟩ := hrun
  refine ⟨hready, fun q hq => ?_, fun p hp => helse p fun q hq => hp q (mem_cellSendOrder.mp hq)⟩
  obtain ⟨i, hi, rfl⟩ := List.getElem_of_mem (mem_cellSendOrder.mpr hq)
  exact (hcell i hi).trans (cellWords_getElem?_of_lt s g hi)

/-- The frames of some cells of the grid: the controller shows the Frame there, and as before elsewhere. -/
theorem run_flatMap_cellEvents (hr : k.ready = true) {cells : List (Nat × Nat)}
    (hcells : ∀ g ∈ cells, g.1 < s.par.gridW ∧ g.2 < s.par.gridH) :
    (k.run s.par (cells.flatMap (cellEvents s))).ready = true ∧
    (∀ p, InCells s.par cells p → (k.run s.par (cells.flatMap (cellEvents s))).gramAt p = some (s.frameAt p)) ∧
    ∀ p, ¬ InCells s.par cells p → (k.run s.par (cells.flatMap (cellEvents s))).gramAt p = k.gramAt p := by
  induction cells generalizing k with
  | nil => exact ⟨hr, fun p hp => absurd hp not_inCells_nil, fun p _ => rfl⟩
  | cons g cells ih =>
    rw [List.flatMap_cons, run_append]
    obtain ⟨hready, hcell, helse⟩ := run_cellEvents hc hr (hcells g List.mem_cons_self)
    obtain ⟨ihready, ihcells, ihelse⟩ := ih hready fun g' hg' => hcells g' (List.mem_cons_of_mem g hg')
    refine ⟨ihready, fun p hp => ?_, fun p hp => ?_⟩
    · by_cases hrest : InCells s.par cells p
      · exact ihcells p hrest
      · obtain ⟨q, hq, rfl⟩ := (inCells_cons.mp hp).resolve_right hrest
        exact (ihelse _ hrest).trans (hcell q hq)
    · obtain ⟨hfirst, hrest⟩ := not_or.mp (mt inCells_cons.mpr hp)
      exact (ihelse p hrest).trans (helse p fun q hq h => hfirst ⟨q, hq, h⟩)

/-- A flush keeps INV2: a sent cell shows the Frame, which is its Baseline now; another one is as it was. -/
theorem inv2_flushAll (hr : k.ready = true) (h2 : Inv2 k s) :
    (k.run s.par ((flushSent s).flatMap (cellEvents s))).ready = true ∧
    Inv2 (k.run s.par ((flushSent s).flatMap (cellEvents s))) (flushAll s).1 := by
  obtain ⟨hready, hsent, hkept⟩ := run_flatMap_cellEvents hc hr (cells := flushSent s) fun g hg => (mem_flushSent.mp hg).1
  refine ⟨hready, fun x y hx hy hstale => ?_⟩
  rw [flushAll_par] at hx hy hstale ⊢
  by_cases hin : InSentCell s (idx s.par x y)
  · rw [hsent _ hin, baselineAt_flushAll_of_inSentCell hin]
  · rw [hkept _ hin, baselineAt_flushAll_of_not_inSentCell hin]
    refine h2 x y hx hy ?_
    rw [staleAt_flushAll_of_sent, if_neg] at hstale
    · exact hstale
    · rintro ⟨g, hg, hno⟩
      obtain ⟨hgrid, -⟩ := mem_flushSent.mp hg
      have hcell : (x / s.par.cellW, y / s.par.cellH) = g := cellNo_inj s.par (cellX_lt s.cfg hx) hgrid.1 hno
      exact hin ((inSentCell_idx_iff hx).mpr (hcell ▸ hg))

end

/-! ## The controller after a DL.INIT -/

/-- The last command of DL.INIT ends the controller's initialisation (43_display_link.md R270, R286). -/
theorem run_initSequenceEvents_ready {c : Config} (h : c.cmdDispon ≠ c.cmdSwreset) (k : Controller) :
    (k.run c (initSequenceEvents c)).ready = true := by
  have hcommand : ∀ k : Controller, (k.command c c.cmdDispon).ready = true := by
    intro k
    rw [Controller.command, if_neg h, beq_self_eq_true, Bool.or_true]
    dsimp only
    split
    · split <;> rfl
    · rfl
  have hcsOff : ∀ k : Controller, (k.observe c .csOff).ready = k.ready := by
    intro k
    rw [Controller.observe]
    split <;> rfl
  rw [initSequenceEvents, run_append, run_append]
  exact (hcsOff _).trans (hcommand _)

/-- DL.INIT leaves every cell stale, so INV2 asks nothing of the controller. -/
theorem inv2_markAllCells (k : Controller) (s : State) : Inv2 k (markAllCells s) := by
  intro x y hx hy hstale
  rw [markAllCells_par] at hx hy hstale
  have hcell : cellOf s.par x y < s.par.cells := cellOf_lt s.cfg hx hy
  rw [staleAt_markAllCells, if_pos hcell] at hstale
  cases hstale

/-! ## Every command but the raw display ones -/

theorem usesDisplay_eq_false {i : Instr} (hraw : rawDisplay i = false) (hinit : i ≠ .dlInit) (hflush : i ≠ .fbFlush) :
    usesDisplay i = false := by
  cases i <;> simp_all [usesDisplay, rawDisplay]

/-- INV2 reads the Baseline and the Stale flags only. -/
theorem Inv2.of_same {k : Controller} {s t : State} (h2 : Inv2 k s) (hcfg : t.cfg = s.cfg)
    (hbaseline : t.baseline = s.baseline) (hstale : t.stale = s.stale) : Inv2 k t := by
  simpa only [Inv2, State.baselineAt, State.staleAt, State.par, hcfg, hbaseline, hstale] using h2

/-- A command that does not send on the display link leaves the controller as it is, and what INV2 reads. -/
theorem exec_quiet {i : Instr} {s t : State} (hraw : rawDisplay i = false) (hinit : i ≠ .dlInit) (hflush : i ≠ .fbFlush)
    (h : exec i s = .next t) (k : Controller) : (∃ es, t.trace = s.trace ++ es ∧ k.run s.par es = k) ∧
    t.baseline = s.baseline ∧ t.stale = s.stale := by
  obtain ⟨-, -, -, -, hbaseline, -, hstale, -, hbus, -, hsilent⟩ := unitsAreSeparate i s t h
  refine ⟨?_, hbaseline hflush, hstale hflush hinit⟩
  cases huses : usesBus i with
  | true =>
    obtain ⟨es, htrace, hes⟩ := hbus huses
    exact ⟨es, htrace, run_bus s.par k es hes⟩
  | false => exact ⟨[], by rw [hsilent huses (usesDisplay_eq_false hraw hinit hflush), List.append_nil], rfl⟩

theorem exec_keepsInv2 {i : Instr} {s t : State} {k : Controller} (hc : WindowCodesDistinct s.par) (hr : k.ready = true)
    (h2 : Inv2 k s) (hraw : rawDisplay i = false) (h : exec i s = .next t) :
    ∃ es, t.trace = s.trace ++ es ∧ Inv2 (k.run s.par es) t ∧
      ((i = .dlInit → s.par.cmdDispon ≠ s.par.cmdSwreset) → (k.run s.par es).ready = true) := by
  by_cases hinit : i = .dlInit
  · subst hinit
    rw [exec_dlInit] at h
    cases h
    refine ⟨initSequenceEvents s.par, ?_, inv2_markAllCells _ _, fun hcodes => run_initSequenceEvents_ready (hcodes rfl) k⟩
    rw [finish_trace, markAllCells_afterInitSequence_eq]
  by_cases hflush : i = .fbFlush
  · subst hflush
    rw [exec_fbFlush] at h
    cases h
    obtain ⟨hready, hinv2⟩ := inv2_flushAll hc hr h2
    exact ⟨_, by rw [flushAll_finish], hinv2, fun _ => hready⟩
  · obtain ⟨⟨es, htrace, hrun⟩, hbaseline, hstale⟩ := exec_quiet hraw hinit hflush h k
    obtain ⟨-, -, -, -, -, -, -, -, hcfg⟩ := oneReplyPerCommand i s t h
    exact ⟨es, htrace, hrun.symm ▸ h2.of_same hcfg hbaseline hstale, fun _ => hrun.symm ▸ hr⟩

/-- Settles O59: a step runs a command or leaves the trace, the Baseline and the Stale flags as they are. -/
theorem stepKeepsDisplayInvariant : Obligations.StepKeepsDisplayInvariant := by
  intro s t k es hc hr _ _ h2 htrace
  refine ⟨fun i hraw h => ?_, fun hnoraw h => ?_⟩
  · obtain ⟨fs, hfs, hkept⟩ := exec_keepsInv2 hc hr h2 hraw h
    obtain rfl := List.append_cancel_left (htrace.symm.trans hfs)
    exact hkept
  · cases step_cases h with
    | waits ht =>
      obtain rfl : es = [] := List.self_eq_append_right.mp (ht ▸ htrace)
      exact ⟨ht ▸ h2, fun _ => hr⟩
    | refuses rest ht =>
      obtain rfl : es = [] := List.self_eq_append_right.mp (ht ▸ htrace)
      exact ⟨ht ▸ h2.of_same rfl rfl rfl, fun _ => hr⟩
    | runs i frame rest hport hdecode hexec =>
      have htaken : Inv2 k (s.takeFrame rest) := h2.of_same rfl rfl rfl
      obtain ⟨fs, hfs, hinv2, hready⟩ := exec_keepsInv2 (s := s.takeFrame rest) hc hr htaken
        (hnoraw i frame rest hport hdecode) hexec
      obtain rfl := List.append_cancel_left (htrace.symm.trans hfs)
      exact ⟨hinv2, fun hcodes => hready fun _ => hcodes⟩

/-! ## The guarantee -/

/-- With INV0 and INV1 a flush leaves no stale cell and the Frame in the Baseline, which is what INV2 says the controller
shows. -/
theorem flush_guarantee {s : State} {k : Controller} (hc : WindowCodesDistinct s.par) (hr : k.ready = true) (h0 : Inv0 s)
    (h1 : Inv1 s) (h2 : Inv2 k s) : ∃ t es, exec .fbFlush s = .next t ∧ t.trace = s.trace ++ es ∧
    Inv2 (k.run s.par es) t ∧ ∀ x y, x < s.par.width → y < s.par.height →
      (k.run s.par es).gramAt (idx s.par x y) = some (t.frameAt (idx s.par x y)) := by
  obtain ⟨-, hinv2⟩ := inv2_flushAll hc hr h2
  refine ⟨_, _, exec_fbFlush s, by rw [flushAll_finish], hinv2, fun x y hx hy => ?_⟩
  have hpar := flushAll_par s
  have hshown := hinv2 x y (hpar ▸ hx) (hpar ▸ hy)
    (staleAt_flushAll h0 (k := cellOf _ x y) (hpar.symm ▸ cellOf_lt s.cfg hx hy))
  rw [hpar, baselineAt_flushAll h1 hx hy] at hshown
  exact hshown.trans (congrArg some (frameAt_flushAll s _).symm)

/-- Settles O51: the flush guarantee. -/
theorem flushGuarantee : Obligations.FlushGuarantee := by
  intro s k hc hr h0 h1 h2
  exact flush_guarantee hc hr h0 h1 h2

/-- The state u of a run from s: its parameters are those of s, its invariants hold, and so does INV2 against the
controller k after the run's events. -/
def DisplayFollows (k : Controller) (s u : State) : Prop :=
  u.par = s.par ∧ Inv0 u ∧ Inv1 u ∧
    ∃ es, u.trace = s.trace ++ es ∧ (k.run s.par es).ready = true ∧ Inv2 (k.run s.par es) u

theorem DisplayFollows.dlInit {k : Controller} {s t : State} (hcodes : s.par.cmdDispon ≠ s.par.cmdSwreset)
    (h : Sys2Proof.Machine.exec .dlInit s = .next t) : DisplayFollows k s t := by
  have hpar := exec_par h
  rw [exec_dlInit] at h
  cases h
  refine ⟨hpar, markAllCells_inv0 _, markAllCells_inv1 _, initSequenceEvents s.par, ?_,
    run_initSequenceEvents_ready hcodes k, inv2_markAllCells _ _⟩
  rw [finish_trace, markAllCells_afterInitSequence_eq]

theorem DisplayFollows.exec {k : Controller} {s u v : State} {i : Instr} (hc : WindowCodesDistinct s.par)
    (hcodes : s.par.cmdDispon ≠ s.par.cmdSwreset) (hraw : rawDisplay i = false) (hu : DisplayFollows k s u)
    (h : Sys2Proof.Machine.exec i u = .next v) : DisplayFollows k s v := by
  obtain ⟨hpar, h0, h1, es, htrace, hr, h2⟩ := hu
  obtain ⟨fs, hfs, hinv2, hready⟩ := exec_keepsInv2 (hpar ▸ hc) hr h2 hraw h
  have hwrite := exec_framebufferWrite h
  rw [hpar, ← run_append] at hinv2 hready
  exact ⟨(exec_par h).trans hpar, hwrite.inv0 h0, hwrite.inv1 h1, es ++ fs, by rw [hfs, htrace, List.append_assoc],
    hready fun _ => hcodes, hinv2⟩

theorem runCommands_append {commands : List Instr} {s t : State} (h : runCommands commands s = .next t)
    (more : List Instr) : runCommands (commands ++ more) s = runCommands more t := by
  induction commands generalizing s with
  | nil =>
    cases h
    rfl
  | cons i commands ih =>
    obtain ⟨u, hu⟩ := exec_ends i s
    rw [runCommands_cons hu] at h
    rw [List.cons_append, runCommands_cons hu, ih h]

/-- Settles O52: DL.INIT makes the invariants hold, the commands keep them, and the flush makes the controller show the
Frame. -/
theorem displayShowsFrame : Obligations.DisplayShowsFrame := by
  intro s k commands hc hcodes hraw
  obtain ⟨u, hu⟩ := exec_ends .dlInit s
  obtain ⟨v, hv, hpar, h0, h1, es, htrace, hr, h2⟩ := runCommands_keeps (P := DisplayFollows k s)
    (fun i hi _ _ => DisplayFollows.exec hc hcodes (hraw i hi)) (DisplayFollows.dlInit hcodes hu)
  obtain ⟨t, fs, ht, hfs, -, hshows⟩ := flush_guarantee (hpar ▸ hc) hr h0 h1 h2
  refine ⟨t, es ++ fs, ?_, by rw [hfs, htrace, List.append_assoc], ?_⟩
  · rw [List.cons_append, runCommands_cons hu, runCommands_append hv, runCommands_cons ht]
    rfl
  · rw [run_append]
    rwa [hpar] at hshows

/-! ## The first flush -/

/-- Every cell of the grid is dirty and stale. -/
def AllMarked (s : State) : Prop := ∀ k, k < s.par.cells → s.dirtyAt k = true ∧ s.staleAt k = true

theorem allMarked_resetOf (b : Board) (dc : Dc) : AllMarked (State.resetOf b dc) := fun _ _ => ⟨rfl, rfl⟩

theorem allMarked_dlInit {s t : State} (h : exec .dlInit s = .next t) : AllMarked t := by
  rw [exec_dlInit] at h
  cases h
  intro k hk
  rw [finish_par, markAllCells_par] at hk
  rw [dirtyAt_finish, staleAt_finish, dirtyAt_markAllCells, staleAt_markAllCells, if_pos hk, if_pos hk]
  exact ⟨rfl, rfl⟩

/-- Only a flush clears a flag. -/
theorem UnitEffect.keepsFlags {i : Instr} {s u : State} (h : UnitEffect i s u) (hflush : i ≠ .fbFlush) (k : Nat) :
    (s.dirtyAt k = true → u.dirtyAt k = true) ∧ (s.staleAt k = true → u.staleAt k = true) := by
  cases h with
  | nothing h =>
    rw [h]
    exact ⟨id, id⟩
  | bus hi hmoved hlegal =>
    obtain ⟨-, -, -, hdirty, hstale⟩ := hmoved.1.sameFramebuffer
    exact ⟨fun hk => by rwa [State.dirtyAt, hdirty], fun hk => by rwa [State.staleAt, hstale]⟩
  | display hi d es hes hlen h =>
    rw [h]
    exact ⟨id, id⟩
  | dlInit hi h =>
    rw [h, dirtyAt_markAllCells, staleAt_markAllCells]
    split
    · exact ⟨fun _ => rfl, fun _ => rfl⟩
    · exact ⟨id, id⟩
  | flush hi h => exact absurd hi hflush
  | drawing hi h hdirty =>
    refine ⟨hdirty k, ?_⟩
    rw [h]
    exact id
  | mapper hi h hlegal =>
    rw [OnlyMapper] at h
    rw [h]
    exact ⟨id, id⟩

theorem AllMarked.exec {i : Instr} {s t : State} (hs : AllMarked s) (hflush : i ≠ .fbFlush)
    (h : Sys2Proof.Machine.exec i s = .next t) : AllMarked t := by
  intro k hk
  rw [exec_par h] at hk
  obtain ⟨u, r, rfl, hreturns⟩ := exec_commandEnds h
  obtain ⟨hdirty, hstale⟩ := hreturns.effect.keepsFlags hflush k
  exact (hs k hk).imp hdirty hstale

theorem flushSent_of_allMarked {s : State} (hs : AllMarked s) : flushSent s = cellsInOrder s.par := by
  refine List.filter_eq_self.mpr fun g hg => (cellMustGo_iff s g.1 g.2).mpr ?_
  obtain ⟨hd, hst⟩ := hs (cellNo s.par g) (mem_cellNumbers.mp (List.mem_map_of_mem hg))
  exact ⟨hd, .inl hst⟩

/-- Settles O54: every cell is dirty and stale at the start, and only a flush clears a flag. -/
theorem firstFlushSendsEveryCell : Obligations.FirstFlushSendsEveryCell := by
  intro s t commands hstart hnoflush hrun
  have hs : AllMarked s := by
    obtain ⟨b, dc, rfl⟩ | ⟨u, hu⟩ := hstart
    · exact allMarked_resetOf b dc
    · exact allMarked_dlInit hu
  obtain ⟨t', ht', hmarked⟩ := runCommands_keeps (fun i hi _ _ hu => AllMarked.exec hu (hnoflush i hi)) hs
  obtain rfl : t = t' := by
    rw [hrun] at ht'
    cases ht'
    rfl
  have hsent := flushSent_of_allMarked hmarked
  refine ⟨_, exec_fbFlush t, ?_, ?_⟩
  · rw [flushAll_finish, hsent, cellsInOrder_length]
  · rw [flushAll_finish, hsent]

end Sys2Proof.Machine
end

section
/-! Windowed writes (43_display_link.md R292; 70_reset_and_hazards.md R461): what the reference controller makes of a
DL.WINDOW and of the commands after it. -/

namespace Sys2Proof.Machine

/-! ## The events of the raw display commands -/

/-- The display frame of some data bytes, none for no bytes (43_display_link.md R262). -/
def dataEvents (bytes : List Byte) : List Event := if bytes = [] then [] else frameEvents .data bytes

theorem dataEvents_of_ne_nil {bytes : List Byte} (h : bytes ≠ []) : dataEvents bytes = frameEvents .data bytes := if_neg h

theorem sendData_trace (bytes : List Byte) (s : State) : (sendData bytes s).trace = s.trace ++ dataEvents bytes := by
  by_cases h : bytes = []
  · rw [dataEvents, if_pos h, h, sendData_nil, List.append_nil]
  · rw [dataEvents_of_ne_nil h, sendData_eq h]

section
variable (s : State)

theorem exec_dlWindow_trace {x0 y0 x1 y1 : Word}
    (h : x0.toNat ≤ x1.toNat ∧ x1.toNat ≤ s.par.width - 1 ∧ y0.toNat ≤ y1.toNat ∧ y1.toNat ≤ s.par.height - 1) :
    ∃ t, exec (.dlWindow x0 y0 x1 y1) s = .next t ∧ t.trace = s.trace ++ windowEvents s.par x0 y0 x1 y1 :=
  ⟨_, exec_dlWindow_ok s h, congrArg State.trace (setWindow_eq x0 y0 x1 y1 s)⟩

theorem exec_dlWords_trace {ws : List Word} (h : ws.length ≤ 65534) :
    ∃ t, exec (.dlWords (wordOfNat ws.length) ws) s = .next t ∧ t.trace = s.trace ++ dataEvents (bytesOfWords ws) :=
  ⟨_, exec_dlWords s (Nat.le_succ_of_le h), sendData_trace (bytesOfWords ws) s⟩

theorem exec_dlCmd_trace {code : Word} (h : code.toNat ≤ 255) :
    ∃ t, exec (.dlCmd code) s = .next t ∧ t.trace = s.trace ++ frameEvents .cmd [lo code] :=
  ⟨_, exec_dlCmd_ok s h, congrArg State.trace (sendCommand_eq (lo code) s)⟩

theorem exec_dlData_trace {bytes : List Byte} (h : bytes.length ≤ 65535) :
    ∃ t, exec (.dlData (wordOfNat bytes.length) (packBytes bytes)) s = .next t ∧ t.trace = s.trace ++ dataEvents bytes :=
  ⟨_, exec_dlData_packBytes s h, sendData_trace bytes s⟩

end

/-! ## The place of a pixel -/

/-- A fact of every pixel of a window and its place in the window's order, at pixel (i, j). -/
theorem forall_windowPixels {order : PixelOrder} {x0 y0 w h : Nat} {P : Nat → Nat × Nat → Prop}
    (hP : ∀ n, (hn : n < (windowPixels order x0 y0 w h).length) → P n (windowPixels order x0 y0 w h)[n])
    {i j : Nat} (hi : i < w) (hj : j < h) : P (pixelPlace order w h i j) (x0 + i, y0 + j) := by
  obtain ⟨hn, hq⟩ := List.getElem?_eq_some_iff.mp (windowPixels_getElem? order x0 y0 hi hj)
  exact hq ▸ hP _ hn

/-- The words of a window at pixel (i, j), as R268 numbers them. -/
theorem getElem?_pixelPlace (ws : List Word) (order : PixelOrder) (w h i j : Nat) : ws[pixelPlace order w h i j]? =
    match order with
    | .rowMajor => ws[j * w + i]?
    | .columnMajor => ws[i * h + j]? := by
  cases order <;> rfl

/-- Settles O40: the window law of the reference controller, read off at each pixel's place. -/
theorem windowWriteLaw : Obligations.WindowWriteLaw := by
  intro s k x0 y0 x1 y1 ws hc hr hx hxmax hy hymax hfit hlen
  obtain ⟨t, ht, htrace⟩ := exec_dlWindow_trace s ⟨hx, hxmax, hy, hymax⟩
  obtain ⟨u, hu, hutrace⟩ := exec_dlWords_trace t hfit
  have hne : bytesOfWords ws ≠ [] := by
    rw [ne_eq, bytesOfWords_eq_nil, ← List.length_eq_zero_iff, hlen]
    exact Nat.mul_ne_zero (Nat.succ_ne_zero _) (Nat.succ_ne_zero _)
  rw [htrace, dataEvents_of_ne_nil hne, List.append_assoc] at hutrace
  have hwidth : 1 ≤ s.par.width := (board_width s.cfg).1
  have hheight : 1 ≤ s.par.height := (board_height s.cfg).1
  obtain ⟨-, hcell, helse⟩ := run_window_words s.par k x0 y0 x1 y1 ws hc hr hx (by omega) hy (by omega) hlen
  refine ⟨t, u, _, ht, hu, hutrace, fun i j hi hj => ?_, fun p hp => helse p fun q hq => ?_⟩
  · exact (forall_windowPixels (P := fun n q => Controller.gramAt _ (idx s.par q.1 q.2) = ws[n]?) hcell (by omega)
      (by omega)).trans (getElem?_pixelPlace ws _ _ _ i j)
  · obtain ⟨⟨hqx, hqx'⟩, hqy, hqy'⟩ := (mem_windowPixels _ _ _ _ _ q).mp hq
    have hne := hp (q.1 - x0.toNat) (q.2 - y0.toNat) (by omega) (by omega)
    rw [Nat.add_sub_cancel' hqx, Nat.add_sub_cancel' hqy] at hne
    exact hne.symm

/-! ## Another number of words, or a command between -/

section
variable {c : Config} {cols rows : Word × Word} {k0 k : Controller}

/-- Data bytes after a window, or none. -/
theorem KeepsOutside.dataEvents (hw : WindowInside c cols rows) (h : KeepsOutside c cols rows k0 k) (bytes : List Byte) :
    KeepsOutside c cols rows k0 (k.run c (Sys2Proof.Machine.dataEvents bytes)) := by
  rw [Sys2Proof.Machine.dataEvents]
  split
  · exact h
  · exact h.frame hw bytes

theorem KeepsOutside.takesPixels (h : KeepsOutside c cols rows k0 k) : k.mode.takesPixels = true := by
  obtain hm | ⟨a, b, l, hm, -⟩ := h.mode
  · rw [hm]
    rfl
  · rw [hm]
    rfl

/-- The controller after a DL.WINDOW (`run_window`). -/
def Controller.windowed (x0 y0 x1 y1 : Word) (k : Controller) : Controller :=
  { k with cols := some (x0, x1), rows := some (y0, y1), mode := .pixels x0.toNat y0.toNat none, dc := .cmd, cs := .off }

/-- No word between DL.WINDOW and the end of its window's pixels lands elsewhere, and a pixel whose word has not come is as
it was (43_display_link.md R289). -/
theorem run_window_fewer_words {x0 y0 x1 y1 : Word} (hc : WindowCodesDistinct c) (hr : k.ready = true)
    (hw : WindowInside c (x0, x1) (y0, y1)) {ws : List Word}
    (hn : ws.length ≤ (x1.toNat - x0.toNat + 1) * (y1.toNat - y0.toNat + 1)) {i j : Nat} (hi : i < x1.toNat - x0.toNat + 1)
    (hj : j < y1.toNat - y0.toNat + 1) :
    ((k.run c (windowEvents c x0 y0 x1 y1)).run c (dataEvents (bytesOfWords ws))).gramAt
        (idx c (x0.toNat + i) (y0.toNat + j)) =
      match ws[pixelPlace c.pixelOrder (x1.toNat - x0.toNat + 1) (y1.toNat - y0.toNat + 1) i j]? with
      | some w => some w
      | none => k.gramAt (idx c (x0.toNat + i) (y0.toNat + j)) := by
  rw [show k.run c (windowEvents c x0 y0 x1 y1) = k.windowed x0 y0 x1 y1 from run_window c k x0 y0 x1 y1 hc hr]
  by_cases hempty : ws = []
  · subst hempty
    rfl
  · rw [dataEvents_of_ne_nil (mt bytesOfWords_eq_nil.mp hempty)]
    exact forall_windowPixels
      (P := fun n q => Controller.gramAt _ (idx c q.1 q.2) = match ws[n]? with
        | some w => some w
        | none => k.gramAt (idx c q.1 q.2))
      (run_fewer_words c (k.windowed x0 y0 x1 y1) x0 y0 x1 y1 ws hr hw rfl rfl rfl hn hempty) hi hj

/-- A command byte that starts no pixels and is no reset leaves the controller among its arguments. -/
theorem run_commandFrame {code : Byte} (hramwr : code ≠ c.cmdRamwr) (hreset : code ≠ c.cmdSwreset) :
    (k.run c (frameEvents .cmd [code])).mode = .args code [] ∧ (k.run c (frameEvents .cmd [code])).gram = k.gram := by
  simp [frameEvents, Controller.run, Controller.observe, Controller.command, hramwr, hreset]

/-- Words after such a command change no cell (70_reset_and_hazards.md R461). -/
theorem run_command_words {code : Byte} (hramwr : code ≠ c.cmdRamwr) (hreset : code ≠ c.cmdSwreset) (bytes : List Byte)
    (p : Nat) : (k.run c (frameEvents .cmd [code] ++ dataEvents bytes)).gramAt p = k.gramAt p := by
  obtain ⟨hmode, hgram⟩ := run_commandFrame (k := k) hramwr hreset
  rw [run_append, Controller.gramAt, Controller.gramAt, dataEvents]
  split
  · rw [run_nil, hgram]
  · rw [args_frame_gram c bytes _ ⟨_, _, hmode⟩, hgram]

/-- A DL.DATA of some bytes after a window leaves the window's cells open and the other ones alone, and no mode
(70_reset_and_hazards.md R461). -/
theorem KeepsOutside.runCommand_dlData (hw : WindowInside c cols rows) (h : KeepsOutside c cols rows k0 k) (n : Word)
    (data : List Word) {bytes : List Byte} (hne : bytes ≠ []) :
    let k' := k.runCommand c (.dlData n data) (Sys2Proof.Machine.dataEvents bytes)
    k'.mode = .idle ∧ (∀ p, OutsideWindow c cols rows p → k'.gramAt p = k0.gramAt p) ∧
    ∀ a b, cols.1.toNat ≤ a → a ≤ cols.2.toNat → rows.1.toNat ≤ b → b ≤ rows.2.toNat → k'.gramAt (idx c a b) = none := by
  have hsent : Sys2Proof.Machine.dataEvents bytes ≠ [] := by
    rw [dataEvents_of_ne_nil hne, frameEvents]
    exact List.append_ne_nil_of_right_ne_nil _ (List.cons_ne_nil _ _)
  obtain ⟨hkept, -, -, hopen⟩ := (h.dataEvents hw bytes).forgetWindow hw
  intro k'
  have hk' : k' = { (k.run c (Sys2Proof.Machine.dataEvents bytes)).forgetWindow c with mode := .idle } :=
    if_pos ⟨rfl, hsent, h.takesPixels⟩
  rw [hk']
  exact ⟨rfl, hkept.gram, hopen⟩

/-- With no mode begun the words of a DL.WORDS change no cell. -/
theorem runCommand_dlWords_of_idle (hm : k.mode = .idle) (n : Word) (words : List Word) (bytes : List Byte) (p : Nat) :
    (k.runCommand c (.dlWords n words) (dataEvents bytes)).gramAt p = k.gramAt p := by
  have hrun : k.runCommand c (.dlWords n words) (dataEvents bytes) = k.run c (dataEvents bytes) :=
    if_neg fun h => Bool.false_ne_true h.1
  rw [hrun, dataEvents]
  split
  · rfl
  · rw [idle_frame c bytes k hm]
    rfl

/-- The pixels of a window, counted from its corner. -/
theorem outsideWindow_of_offsets {x0 y0 x1 y1 : Word} {p : Nat}
    (h : ∀ i j, i < x1.toNat - x0.toNat + 1 → j < y1.toNat - y0.toNat + 1 → p ≠ idx c (x0.toNat + i) (y0.toNat + j)) :
    OutsideWindow c (x0, x1) (y0, y1) p := by
  intro a b hxa hax hyb hby
  dsimp only at hxa hax hyb hby
  have hne := h (a - x0.toNat) (b - y0.toNat) (by omega) (by omega)
  rwa [Nat.add_sub_cancel' hxa, Nat.add_sub_cancel' hyb] at hne

end

/-- Settles O60: the words, the command or the data bytes after the window each act on the controller that has it. -/
theorem windowCountHazards : Obligations.WindowCountHazards := by
  intro s k x0 y0 x1 y1 hc hr hx hxmax hy hymax
  obtain ⟨t, ht, htrace⟩ := exec_dlWindow_trace s ⟨hx, hxmax, hy, hymax⟩
  have hwidth : 1 ≤ s.par.width := (board_width s.cfg).1
  have hheight : 1 ≤ s.par.height := (board_height s.cfg).1
  have hw : WindowInside s.par (x0, x1) (y0, y1) := ⟨⟨hx, by dsimp only; omega⟩, hy, by dsimp only; omega⟩
  have hkept := keepsOutside_window x0 y0 x1 y1 hc hr hw
  refine ⟨t, _, ht, htrace, fun ws hfit => ?_, fun code ws hbyte hramwr hreset hfit => ?_, fun bytes hne hfit => ?_⟩
  · obtain ⟨u, hu, hutrace⟩ := exec_dlWords_trace t hfit
    refine ⟨u, _, hu, hutrace, fun p hp => (hkept.dataEvents hw _).gram p (outsideWindow_of_offsets hp),
      fun hn i j hi hj => ?_⟩
    exact run_window_fewer_words hc hr hw hn hi hj
  · obtain ⟨u, hu, hutrace⟩ := exec_dlCmd_trace t hbyte
    obtain ⟨v, hv, hvtrace⟩ := exec_dlWords_trace u hfit
    refine ⟨u, v, _, hu, hv, by rw [hvtrace, hutrace, List.append_assoc], fun p => ?_⟩
    rw [run_command_words hramwr hreset, run_window s.par k x0 y0 x1 y1 hc hr]
    rfl
  · obtain ⟨u, hu, hutrace⟩ := exec_dlData_trace t hfit
    obtain ⟨hidle, houtside, hopen⟩ := hkept.runCommand_dlData hw (wordOfNat bytes.length) (packBytes bytes) hne
    refine ⟨_, u, _, rfl, hu, hutrace, fun p hp => houtside p (outsideWindow_of_offsets hp),
      fun a b ha hb => hopen _ _ (by dsimp only; omega) (by dsimp only; omega) (by dsimp only; omega)
        (by dsimp only; omega), fun ws hfitws => ?_⟩
    obtain ⟨v, hv, hvtrace⟩ := exec_dlWords_trace u hfitws
    exact ⟨_, v, _, rfl, hv, hvtrace, fun p => runCommand_dlWords_of_idle hidle _ _ _ p⟩

end Sys2Proof.Machine
end

section
/-! BUS.WRITE and BUS.READ (41_transport.md R190-R201): against scripted answers, and how they end against every agent. -/

namespace Sys2Proof.Machine

/-! ## The commands that pass their checks -/

section
variable (s : State) {a : Word} (ha : a.toNat ≤ 127) (hold : Bool)
include ha

theorem exec_busWrite_packBytes {bytes : List Byte} (hlen : bytes.length ≤ 65535) :
    exec (.busWrite hold a (wordOfNat bytes.length) (packBytes bytes)) s =
      .next ((busWrite a bytes hold s).2.reply (busWrite a bytes hold s).1) := by
  have hchecks : (addressOk a && padIsZero (wordOfNat bytes.length) (packBytes bytes)) = true :=
    Bool.and_eq_true_iff.mpr ⟨(addressOk_iff a).mpr ha, padIsZero_pack bytes hlen⟩
  refine (ends_checked_of_true hchecks _ s).trans ?_
  rw [unpack_pack bytes hlen]

theorem exec_busRead_ok (n : Word) : exec (.busRead hold a n) s =
    .next ((busRead a n.toNat hold s).2.reply ⟨(busRead a n.toNat hold s).1.1, packBytes (busRead a n.toNat hold s).1.2⟩) :=
  ends_checked_of_true ((addressOk_iff a).mpr ha) _ s

end

/-- Settles O24: a write whose script ACKs every byte. -/
theorem busWriteAcked : Obligations.BusWriteAcked := by
  intro s hold a bytes rest ha hlen ts hscript
  have hwrite := busWrite_acked a bytes hold (s := s) (rest := rest) (by rw [addressByte_write a ha]; exact hscript)
  rw [exec_busWrite_packBytes s ha hold hlen, hwrite, addressByte_write a ha]
  rfl

/-- Settles O25: a read whose script ACKs the address byte and sends the bytes. -/
theorem busReadAcked : Obligations.BusReadAcked := by
  intro s hold a vs rest ha hlen ts hscript
  have hread := busRead_acked a vs hold (s := s) (rest := rest) (by rw [addressByte_read a ha]; exact hscript)
  rw [exec_busRead_ok s ha hold, wordOfNat_toNat hlen, hread, addressByte_read a ha]
  rfl

/-! ## A clock that does not read high, and a data line that stays low (R182, R184, R190) -/

section
variable {s : State} {rest : List Bool}

theorem sclRel_stuck (h : s.sensor = .oracle (false :: rest)) :
    sclRel s = .timedOut (busAbort (s.wired .rel s.sdaDrv [.sclRel] rest 1)) := by
  simp [sclRel, State.emit, State.drawBus, State.wired, h, Sensor.observe, Sensor.answer]

theorem waitSdaHigh_stuck (h : s.sensor = .oracle (false :: rest)) :
    waitSdaHigh s = .timedOut (busAbort (s.wired s.sclDrv s.sdaDrv [.waitSda] rest 1)) := by
  simp [waitSdaHigh, State.emit, State.drawBus, State.wired, h, Sensor.observe, Sensor.answer]

theorem busStart_stuckClock (h : s.sensor = .oracle (false :: rest)) :
    busStart s = .timedOut (busAbort (s.wired .rel .rel [.sdaRel, .sclRel] rest 1)) := by
  rw [busStart, sdaRel_wired h, sclRel_stuck (by rfl)]
  simp [Wire.andThen]

theorem busStart_stuckData (h : s.sensor = .oracle (true :: false :: rest)) :
    busStart s = .timedOut (busAbort (s.wired .rel .rel [.sdaRel, .sclRel, .waitSda] rest 2)) := by
  rw [busStart, sdaRel_wired h, sclRel_wired (by rfl)]
  simp only [Wire.andThen, wired_wired]
  rw [waitSdaHigh_stuck (by rfl)]
  simp

theorem busStop_stuckClock (h : s.sensor = .oracle (false :: rest)) :
    busStop s = .timedOut (busAbort (s.wired .rel .low [.sdaLo, .sclRel] rest 1)) := by
  rw [busStop, sdaLow_wired h, sclRel_stuck (by rfl)]
  simp [Wire.andThen]

/-- The lazy initialisation takes no answers (R192). -/
theorem busAnswers_lazyTokens (s : State) : busAnswers (lazyTokens s) = [] := by
  rw [lazyTokens]
  split <;> rfl

/-- s inside a transaction against its script, after the tokens ts: SCL low, SDA released. -/
def State.within (held : Bool) (ts : List BusToken) (rest : List Bool) (s : State) : State :=
  { s.wired .low .rel (busTrace ts) rest (busAnswers ts).length with busInit := true, busHeld := held }

/-- A timeout at the next wait inside a transaction, and the result frame (R199). -/
theorem reply_busAbort_within (held : Bool) (ts : List BusToken) (l : List Bool) (sda : Drive) (es : List Event) (n : Nat) :
    (busAbort ((s.within held ts l).wired .rel sda es rest n)).reply ⟨.timeout, []⟩ =
      s.afterTimeout sda (busTrace ts ++ es) ((busAnswers ts).length + n) rest := by
  simp [busAbort, State.within, State.wired, State.reply, State.afterTimeout, Nat.add_assoc]

/-- The head of a transaction: its start and its address byte, with the acknowledgment. -/
def openTokens (addr : Byte) (nack : Bool) : List BusToken := [.start, .wrote addr nack]

/-- The data bytes of a write up to the NACKed one, byte k. -/
def nackedTokens (bytes : List Byte) (k : Nat) : List BusToken :=
  ((bytes.take k).map fun b => .wrote b false) ++ [.wrote (bytes.getD k 0#8) true]

theorem cutTokens_dropLast (addr : Byte) (bytes : List Byte) (k : Nat) :
    (cutTokens addr bytes k).dropLast = openTokens addr false ++ nackedTokens bytes k := by
  have hlast : cutTokens addr bytes k = (openTokens addr false ++ nackedTokens bytes k) ++ [BusToken.stop] := by
    simp [cutTokens, openTokens, nackedTokens]
  rw [hlast, List.dropLast_concat]

/-- The first piece against its script: the lazy initialisation, the start and the address byte (R193, R195). -/
theorem opened_within {β : Type} {k : Bool → State → Wire β} (addr : Byte) {nack : Bool}
    (h : s.sensor = .oracle (busAnswers (lazyTokens s ++ openTokens addr nack) ++ rest)) :
    ∃ held, ((busStart (lazyInit s)).andThen fun _ s => (sendByte addr s).andThen k) =
      k nack (s.within held (lazyTokens s ++ openTokens addr nack) rest) := by
  rw [busAnswers_append, busAnswers_lazyTokens, List.nil_append] at h
  obtain ⟨scl, sda, held, hlazy⟩ := lazyInit_wired h
  refine ⟨held, ?_⟩
  rw [hlazy, busStart_wired (rest := (BusToken.wrote addr nack).answers ++ rest)
    (by simp [State.wired, openTokens, BusToken.answers])]
  simp only [Wire.andThen]
  rw [sendByte_wired addr (nack := nack) (rest := rest) rfl]
  simp [State.within, State.wired, openTokens, busTrace_append, busAnswers_append, busAnswers_lazyTokens, BusToken.events,
    Nat.add_assoc]

/-- The data bytes up to the NACKed one, inside a transaction. -/
theorem sendBytes_within {held : Bool} {ts : List BusToken} {bytes : List Byte} {k : Nat} (hk : k < bytes.length) :
    sendBytes 0 bytes (s.within held ts (busAnswers (nackedTokens bytes k) ++ rest)) =
      .done (some k) (s.within held (ts ++ nackedTokens bytes k) rest) := by
  rw [sendBytes_cut 0 bytes k hk rfl (rest := rest) rfl, Nat.zero_add, ← nackedTokens]
  simp [State.within, State.wired, busTrace_append, busAnswers_append, Nat.add_assoc]

end

/-! ## A NACK whose stop times out -/

/-- The script answers the tokens ts, and then the clock does not read high. -/
def State.StuckAfter (s : State) (ts : List BusToken) (rest : List Bool) : Prop :=
  s.sensor = .oracle (busAnswers ts ++ false :: rest)

/-- s after the tokens ts and a stop whose clock did not read high (R187, R190). -/
def State.stuckStop (s : State) (ts : List BusToken) (rest : List Bool) : State :=
  s.afterTimeout .low (busTrace ts ++ [.sdaLo, .sclRel]) ((busAnswers ts).length + 1) rest

section
variable {s : State} {rest : List Bool}

/-- The stop inside a transaction, its clock stuck. -/
theorem busStop_within {held : Bool} {ts : List BusToken} : ∃ u, busStop (s.within held ts (false :: rest)) = .timedOut u ∧
    u.reply ⟨.timeout, []⟩ = s.stuckStop ts rest :=
  ⟨_, busStop_stuckClock rfl, reply_busAbort_within held ts _ _ _ _⟩

theorem busWrite_refused_stuckStop {a : Word} (bytes : List Byte) (hold : Bool)
    (h : s.StuckAfter (lazyTokens s ++ openTokens (addressByte a false) true) rest) :
    (busWrite a bytes hold s).2.reply (busWrite a bytes hold s).1 =
      s.stuckStop (lazyTokens s ++ openTokens (addressByte a false) true) rest := by
  obtain ⟨held, hopened⟩ := opened_within (addressByte a false) h
  obtain ⟨u, hstop, hu⟩ := busStop_within
  rw [busWrite, busWriteWire, hopened, if_pos rfl, hstop]
  exact hu

theorem busRead_refused_stuckStop {a : Word} (n : Nat) (hold : Bool)
    (h : s.StuckAfter (lazyTokens s ++ openTokens (addressByte a true) true) rest) :
    (busRead a n hold s).2.reply ⟨(busRead a n hold s).1.1, packBytes (busRead a n hold s).1.2⟩ =
      s.stuckStop (lazyTokens s ++ openTokens (addressByte a true) true) rest := by
  obtain ⟨held, hopened⟩ := opened_within (addressByte a true) h
  obtain ⟨u, hstop, hu⟩ := busStop_within
  rw [busRead, busReadWire, hopened, if_pos rfl, hstop]
  exact hu

theorem busWrite_cut_stuckStop {a : Word} {bytes : List Byte} (hold : Bool) {k : Nat} (hk : k < bytes.length)
    (h : s.StuckAfter (lazyTokens s ++ (openTokens (addressByte a false) false ++ nackedTokens bytes k)) rest) :
    (busWrite a bytes hold s).2.reply (busWrite a bytes hold s).1 =
      s.stuckStop (lazyTokens s ++ (openTokens (addressByte a false) false ++ nackedTokens bytes k)) rest := by
  rw [← List.append_assoc] at h ⊢
  rw [State.StuckAfter, busAnswers_append (lazyTokens s ++ _), List.append_assoc] at h
  obtain ⟨held, hopened⟩ := opened_within (addressByte a false) h
  obtain ⟨u, hstop, hu⟩ := busStop_within
  rw [busWrite, busWriteWire, hopened, if_neg Bool.false_ne_true, sendBytes_within hk, Wire.andThen]
  dsimp only
  rw [hstop]
  exact hu

end

/-- Settles O26: a NACK, of the address byte or of a data byte, and the stop after it, which ends or times out. -/
theorem busNacked : Obligations.BusNacked := by
  intro s hold a bytes rest ha hlen
  rw [← addressByte_write a ha, ← addressByte_read a ha, exec_busWrite_packBytes s ha hold hlen]
  refine ⟨fun h => ?_, fun h n => ?_, fun k hk h => ?_, fun h => ?_, fun h n => ?_, fun k hk h => ?_⟩
  · rw [busWrite_refused a bytes hold h]
    rfl
  · rw [exec_busRead_ok s ha hold, busRead_refused a n.toNat hold h]
    rfl
  · rw [busWrite_cut a bytes hold k hk h]
    rfl
  · exact congrArg _ (busWrite_refused_stuckStop bytes hold h)
  · rw [exec_busRead_ok s ha hold]
    exact congrArg _ (busRead_refused_stuckStop n.toNat hold h)
  · dsimp only at h ⊢
    rw [cutTokens_dropLast] at h ⊢
    exact congrArg _ (busWrite_cut_stuckStop hold hk h)

/-! ## A start that times out -/

/-- A start that times out ends the transaction before it sends a byte. -/
theorem busWrite_of_start_timedOut {s u : State} (h : busStart (lazyInit s) = .timedOut u) (a : Word) (bytes : List Byte)
    (hold : Bool) : busWrite a bytes hold s = (⟨.timeout, []⟩, u) := by
  rw [busWrite, busWriteWire, h]
  rfl

theorem busRead_of_start_timedOut {s u : State} (h : busStart (lazyInit s) = .timedOut u) (a : Word) (n : Nat)
    (hold : Bool) : busRead a n hold s = ((.timeout, []), u) := by
  rw [busRead, busReadWire, h]
  rfl

theorem lazyInit_sensor {s : State} {l : List Bool} (h : s.sensor = .oracle l) : (lazyInit s).sensor = .oracle l := by
  obtain ⟨scl, sda, held, hlazy⟩ := lazyInit_wired h
  rw [hlazy]
  rfl

/-- The result of a start that timed out after the events es and m draws. -/
theorem reply_start_timedOut {s : State} {l rest : List Bool} {es : List Event} {m : Nat} (h : s.sensor = .oracle l) :
    (busAbort ((lazyInit s).wired .rel .rel es rest m)).reply ⟨.timeout, []⟩ =
      s.afterTimeout .rel (busTrace (lazyTokens s) ++ es) m rest := by
  obtain ⟨scl, sda, held, hlazy⟩ := lazyInit_wired h
  rw [hlazy]
  simp [busAbort, State.wired, State.reply, State.afterTimeout]

/-- Settles O27: the clock or the data line does not read high in the start. -/
theorem busStartTimesOut : Obligations.BusStartTimesOut := by
  intro s hold a bytes n rest ha hlen
  rw [exec_busWrite_packBytes s ha hold hlen, exec_busRead_ok s ha hold]
  refine ⟨fun h => ?_, fun h => ?_⟩
  · have hstart := busStart_stuckClock (lazyInit_sensor h)
    rw [busWrite_of_start_timedOut hstart, busRead_of_start_timedOut hstart]
    exact ⟨congrArg _ (reply_start_timedOut h), congrArg _ (reply_start_timedOut h)⟩
  · have hstart := busStart_stuckData (lazyInit_sensor h)
    rw [busWrite_of_start_timedOut hstart, busRead_of_start_timedOut hstart]
    exact ⟨congrArg _ (reply_start_timedOut h), congrArg _ (reply_start_timedOut h)⟩

/-! ## Against every agent -/

theorem OnlyBus.reply {s t : State} (h : OnlyBus s t) (r : Reply) :
    OnlyBus { s with replies := s.replies ++ [r] } (t.reply r) := by
  rw [OnlyBus] at h ⊢
  rw [h]
  rfl

theorem Moved.grew {n : Nat} {s t : State} (h : Moved n s t) : GrewByBusEvents s t := by
  obtain ⟨-, es, htrace, -, hes⟩ := h
  exact ⟨es, htrace, hes⟩

/-- Settles O28: the three ends without a timeout, and where a timeout cuts. -/
theorem busWriteEnds : Obligations.BusWriteEnds := by
  intro s hold a bytes ha hlen
  rw [← addressByte_write a ha]
  have hspec := busWriteWire_spec a bytes hold s
  refine ⟨_, (busWrite a bytes hold s).1, exec_busWrite_packBytes s ha hold hlen, ?_⟩
  rw [busWrite]
  cases hwire : busWriteWire a bytes hold s with
  | done r t =>
    rw [hwire] at hspec
    obtain ⟨honly, hinit, hsda, hend⟩ := id hspec
    refine ⟨honly.reply r, hspec.moved.grew, ?_⟩
    obtain ⟨hr, htrace, hscl, hheld⟩ | ⟨hr, htrace, hscl, hheld⟩ | ⟨k, hk, hr, htrace, hscl, hheld⟩ := hend
    · exact .inl ⟨hr, htrace, hscl, hsda, hinit, hheld⟩
    · exact .inr (.inl ⟨hr, htrace, hscl, hsda, hinit, hheld⟩)
    · exact .inr (.inr (.inl ⟨k, hk, hr, htrace, hscl, hsda, hinit, hheld⟩))
  | timedOut t =>
    rw [hwire] at hspec
    obtain ⟨honly, -, hscl, hinit, hheld⟩ := id hspec
    obtain ⟨ts, es, hts, hcut, htrace, hsda⟩ := busWriteWire_cut a bytes hold s t hwire
    exact ⟨honly.reply _, (TimedOut.moved hspec).grew,
      .inr (.inr (.inr ⟨rfl, hscl, hinit, hheld, ts, es, hts, hcut, htrace, hsda⟩))⟩

/-- Settles O29: the two ends without a timeout, and where a timeout cuts. -/
theorem busReadEnds : Obligations.BusReadEnds := by
  intro s hold a n ha
  rw [← addressByte_read a ha]
  have hspec := busReadWire_spec a n.toNat hold s
  refine ⟨_, ⟨(busRead a n.toNat hold s).1.1, packBytes (busRead a n.toNat hold s).1.2⟩, exec_busRead_ok s ha hold n, ?_⟩
  rw [busRead]
  cases hwire : busReadWire a n.toNat hold s with
  | done r t =>
    rw [hwire] at hspec
    obtain ⟨honly, hinit, hsda, hend⟩ := id hspec
    refine ⟨honly.reply _, hspec.moved.grew, ?_⟩
    obtain ⟨vs, hvs, hr, htrace, hscl, hheld⟩ | ⟨hr, htrace, hscl, hheld⟩ := hend
    · exact .inl ⟨vs, hvs, by rw [hr], htrace, hscl, hsda, hinit, hheld⟩
    · exact .inr (.inl ⟨by rw [hr]; rfl, htrace, hscl, hsda, hinit, hheld⟩)
  | timedOut t =>
    rw [hwire] at hspec
    obtain ⟨honly, -, hscl, hinit, hheld⟩ := id hspec
    obtain ⟨ts, es, hts, hcut, htrace, hsda⟩ := busReadWire_cut a n.toNat hold s t hwire
    exact ⟨honly.reply _, (TimedOut.moved hspec).grew,
      .inr (.inr ⟨rfl, hscl, hinit, hheld, ts, es, hts, hcut, htrace, hsda⟩)⟩

end Sys2Proof.Machine
end

section
/-! The register commands (42_register_access.md R230-R233): the retry loop, a first attempt that succeeds, and the released
bus. -/

namespace Sys2Proof.Machine

/-! ## The commands that pass their checks -/

section
variable (s : State) {a : Word} (ha : a.toNat ≤ 127)
include ha

theorem exec_regReadw_ok (start : Word) {count : Word} (hcount : 1 ≤ count.toNat ∧ count.toNat ≤ s.par.maxReadWords) :
    exec (.regReadw a start count) s =
      .next ((retry (txReadWords a start count) s).2.reply (retry (txReadWords a start count) s).1) := by
  have hchecks : (addressOk a && countOk s.par count) = true :=
    Bool.and_eq_true_iff.mpr ⟨(addressOk_iff a).mpr ha, (countOk_iff s.par count).mpr hcount⟩
  exact ends_checked_of_true hchecks _ s

theorem exec_regWritew_ok (addr value : Word) : exec (.regWritew a addr value) s =
    .next ((retry (txWriteWord a addr value) s).2.reply (retry (txWriteWord a addr value) s).1) :=
  ends_checked_of_true ((addressOk_iff a).mpr ha) _ s

end

/-! ## The retry loop -/

theorem attemptStart_succ (tx : State → Reply × State) (k : Nat) (s : State) :
    attemptStart tx (k + 1) s = attemptStart tx k (initBus (tx s).2) := by
  induction k with
  | zero => rfl
  | succ k ih => rw [attemptStart, ih, attemptStart]

/-- What m + 1 attempts from s return: the first one that is OK, or the last one's cause. -/
def AttemptsEnd (tx : State → Reply × State) (m : Nat) (s : State) (r : Reply × State) : Prop :=
  (∃ k, k < m + 1 ∧ (∀ j, j < k → (tx (attemptStart tx j s)).1.status ≠ .ok) ∧
    (tx (attemptStart tx k s)).1.status = .ok ∧ r = tx (attemptStart tx k s)) ∨
  ((∀ j, j < m + 1 → (tx (attemptStart tx j s)).1.status ≠ .ok) ∧
    r = (⟨.retryExhausted, [(tx (attemptStart tx m s)).1.status.word, attemptsWord s.par.maxAttempts]⟩,
      (tx (attemptStart tx m s)).2))

/-- A failed attempt before m + 1 further ones. -/
theorem AttemptsEnd.afterFailure {tx : State → Reply × State} {m : Nat} {s : State} {r : Reply × State}
    (hpar : (tx s).2.par = s.par) (hfail : (tx s).1.status ≠ .ok) (h : AttemptsEnd tx m (initBus (tx s).2) r) :
    AttemptsEnd tx (m + 1) s r := by
  have hall : ∀ k, (∀ j, j < k → (tx (attemptStart tx j (initBus (tx s).2))).1.status ≠ .ok) →
      ∀ j, j < k + 1 → (tx (attemptStart tx j s)).1.status ≠ .ok := by
    intro k hk j hj
    cases j with
    | zero => exact hfail
    | succ j =>
      rw [attemptStart_succ]
      exact hk j (Nat.lt_of_succ_lt_succ hj)
  obtain ⟨k, hk, hbefore, hok, hr⟩ | ⟨hnone, hr⟩ := h
  · exact .inl ⟨k + 1, Nat.succ_lt_succ hk, hall k hbefore, by rwa [attemptStart_succ], by rwa [attemptStart_succ]⟩
  · refine .inr ⟨hall (m + 1) hnone, ?_⟩
    rw [attemptStart_succ, hr]
    have hinit : (initBus (tx s).2).par = s.par := (initBus_spec _).1.par.trans hpar
    rw [hinit]

theorem retryLoop_attemptsEnd {tx : State → Reply × State} (htx : ∀ s, (tx s).2.par = s.par) (m : Nat) (cause : Status)
    (s : State) : AttemptsEnd tx m s (retryLoop tx (m + 1) cause s) := by
  induction m generalizing cause s with
  | zero =>
    rw [retryLoop]
    split
    case isTrue hok => exact .inl ⟨0, Nat.one_pos, fun j hj => absurd hj (Nat.not_lt_zero j), hok, rfl⟩
    case isFalse hfail =>
      refine .inr ⟨fun j hj => ?_, ?_⟩
      · obtain rfl := Nat.lt_one_iff.mp hj
        exact hfail
      · rw [if_pos rfl, retryLoop, htx]
        rfl
  | succ m ih =>
    rw [retryLoop]
    split
    case isTrue hok => exact .inl ⟨0, Nat.succ_pos _, fun j hj => absurd hj (Nat.not_lt_zero j), hok, rfl⟩
    case isFalse hfail =>
      rw [if_neg (Nat.succ_ne_zero m)]
      exact .afterFailure (htx s) hfail (ih _ _)

theorem retry_retryEnds {tx : State → Reply × State} (htx : ∀ s, (tx s).2.par = s.par) (s : State) :
    RetryEnds tx s ((retry tx s).2.reply (retry tx s).1) := by
  obtain ⟨m, hm⟩ := Nat.exists_eq_add_of_le' (show 1 ≤ s.par.maxAttempts from board_maxAttempts s.cfg)
  have h := retryLoop_attemptsEnd htx m .ok s
  rw [← hm] at h
  change AttemptsEnd tx m s (retry tx s) at h
  rw [AttemptsEnd, ← hm] at h
  obtain ⟨k, hk, hbefore, hok, hr⟩ | ⟨hnone, hr⟩ := h
  · exact .inl ⟨k, hk, hbefore, hok, by rw [hr]⟩
  · refine .inr ⟨hnone, ?_⟩
    rw [hr, hm]
    rfl

theorem txReadWords_par (a start count : Word) (s : State) : (txReadWords a start count s).2.par = s.par :=
  (txReadWords_spec a start count s).1.1.par

theorem txWriteWord_par (a addr value : Word) (s : State) : (txWriteWord a addr value s).2.par = s.par :=
  (txWriteWord_spec a addr value s).1.1.par

/-- Settles O30: the loop unfolds into its attempts. -/
theorem regRetries : Obligations.RegRetries := by
  refine ⟨fun s a start count ha hpos hmax => ?_, fun s a addr value ha => ?_⟩
  · exact ⟨_, exec_regReadw_ok s ha start ⟨hpos, hmax⟩, retry_retryEnds (txReadWords_par a start count) s⟩
  · exact ⟨_, exec_regWritew_ok s ha addr value, retry_retryEnds (txWriteWord_par a addr value) s⟩

/-! ## A first attempt that succeeds -/

/-- With an OK on the first attempt there is no other. -/
theorem retry_of_ok {tx : State → Reply × State} {s : State} (h : (tx s).1.status = .ok) : retry tx s = tx s := by
  obtain ⟨m, hm⟩ := Nat.exists_eq_add_of_le' (show 1 ≤ s.par.maxAttempts from board_maxAttempts s.cfg)
  rw [retry, hm, retryLoop]
  exact if_pos h

/-- Two transactions, one after the other, against one script. -/
theorem ran_ran (s : State) (scl scl' : Drive) (held held' : Bool) (ts us : List BusToken) (l rest : List Bool) :
    (s.ran scl held ts l).ran scl' held' us rest = s.ran scl' held' (ts ++ us) rest := by
  simp [State.ran, State.wired, busTrace_append, busAnswers_append, Nat.add_assoc]

/-- A pointer write with the bus held and a read, each ACKed (R231). -/
theorem txReadWords_acked {s : State} {rest : List Bool} (a start : Word) (ws : List Word) (hlen : ws.length ≤ 65535)
    (h : s.sensor = .oracle (busAnswers (lazyTokens s ++ writeTokens (addressByte a false) [hi start, lo start] true ++
      readTokens s.par.readFinalAck (addressByte a true) (bytesOfWords ws) false) ++ rest)) :
    txReadWords a start (wordOfNat ws.length) s = (⟨.ok, ws⟩, s.ran .rel false
      (lazyTokens s ++ writeTokens (addressByte a false) [hi start, lo start] true ++
        readTokens s.par.readFinalAck (addressByte a true) (bytesOfWords ws) false) rest) := by
  rw [busAnswers_append, List.append_assoc] at h
  have hwrite := busWrite_acked a [hi start, lo start] true h
  have hread := busRead_acked (s := s.ran .low true (lazyTokens s ++ writeTokens (addressByte a false) [hi start, lo start]
    true) (busAnswers (readTokens s.par.readFinalAck (addressByte a true) (bytesOfWords ws) false) ++ rest))
    (rest := rest) a (bytesOfWords ws) false rfl
  rw [bytesOfWords_length] at hread
  rw [txReadWords, hwrite]
  dsimp only
  rw [if_neg (by decide), wordOfNat_toNat hlen, if_pos rfl, hread]
  dsimp only
  rw [if_neg (by decide), packBytes_bytesOfWords, ran_ran]
  rfl

/-- One write of four bytes, each ACKed (R232). -/
theorem txWriteWord_acked {s : State} {rest : List Bool} (a addr value : Word)
    (h : s.sensor = .oracle (busAnswers (lazyTokens s ++
      writeTokens (addressByte a false) [hi addr, lo addr, hi value, lo value] false) ++ rest)) :
    txWriteWord a addr value s = (⟨.ok, []⟩, s.ran .rel false
      (lazyTokens s ++ writeTokens (addressByte a false) [hi addr, lo addr, hi value, lo value] false) rest) := by
  rw [txWriteWord, busWrite_acked a _ false h]
  rfl

/-- Settles O31: the script of one attempt, and the loop that stops after it. -/
theorem regFirstAttempt : Obligations.RegFirstAttempt := by
  refine ⟨fun s a start ws rest ha hpos hmax hscript => ?_, fun s a addr value rest ha hscript => ?_⟩
  · have hfit : s.par.maxReadWords ≤ 32767 := (board_maxReadWords s.cfg).2
    have hcount : (wordOfNat ws.length).toNat = ws.length := wordOfNat_toNat (by omega)
    have htx := txReadWords_acked (s := s) (rest := rest) a start ws (by omega)
      (by rw [addressByte_write a ha, addressByte_read a ha]; exact hscript)
    rw [exec_regReadw_ok s ha start (by rw [hcount]; exact ⟨hpos, hmax⟩), retry_of_ok (by rw [htx]), htx,
      addressByte_write a ha, addressByte_read a ha]
    rfl
  · have htx := txWriteWord_acked (s := s) (rest := rest) a addr value (by rw [addressByte_write a ha]; exact hscript)
    rw [exec_regWritew_ok s ha, retry_of_ok (by rw [htx]), htx, addressByte_write a ha]
    rfl

/-! ## The released bus -/

/-- What a retried transaction leaves, whatever the agent on the bus. -/
theorem reg_neverHoldsBus {n : Nat} {s u : State} {r : Reply} (hmoved : Moved n s u) (hreleased : Released u) :
    OnlyBus { s with replies := s.replies ++ [r] } (u.reply r) ∧ GrewByBusEvents s (u.reply r) ∧
      (u.reply r).busHeld = false ∧ (u.reply r).sclDrv = .rel := by
  obtain ⟨hheld, hscl⟩ := hreleased
  exact ⟨hmoved.1.reply r, hmoved.grew, hheld, hscl⟩

/-- Settles O33: every attempt releases the bus, and the loop returns OK or ERR_RETRY_EXHAUSTED. -/
theorem regNeverHoldsBus : Obligations.RegNeverHoldsBus := by
  rintro s i (⟨a, start, count, rfl, ha, hcount⟩ | ⟨a, addr, value, rfl, ha⟩)
  · obtain ⟨hmoved, hreleased, hend⟩ := retry_txReadWords_ends a start count s
    obtain ⟨honly, hgrew, hheld, hscl⟩ := reg_neverHoldsBus hmoved hreleased
    exact ⟨_, _, exec_regReadw_ok s ha start hcount, honly, hgrew, hheld, hscl, hend.imp And.left And.left⟩
  · obtain ⟨hmoved, hreleased, hend⟩ := retry_txWriteWord_ends a addr value s
    obtain ⟨honly, hgrew, hheld, hscl⟩ := reg_neverHoldsBus hmoved hreleased
    exact ⟨_, _, exec_regWritew_ok s ha addr value, honly, hgrew, hheld, hscl, hend.imp And.left And.left⟩

end Sys2Proof.Machine
end

section
/-! The bus against an agent that is not a script (41_transport.md R185; 42_register_access.md R250, R251): an agent that
goes through the events of a condensed trace makes the transaction give that trace. -/

namespace Sys2Proof.Machine

/-! ## An agent and a run of bus events -/

/-- The agent a goes through one event of a transaction and is b after it: it lets a released clock and a free SDA read
high, and a sampled level is its own. -/
def Sensor.Meets (a : Sensor) (e : Event) (b : Sensor) : Prop :=
  match e with
  | .sclRel => ∀ n, (a.observe .sclRel).answer n .sclHigh = (true, b)
  | .waitSda => ∀ n, a.answer n .sdaHigh = (true, b)
  | .sample v => ∀ n, a.answer n .sdaLevel = (v, b)
  | .sdaLo | .sdaRel | .sclLo | .dc _ | .csOn | .csOff | .byte _ | .delay _ => b = a.observe e

/-- The agent a goes through the events es and is b after them. -/
def Sensor.Plays : List Event → Sensor → Sensor → Prop
  | [], a, b => b = a
  | e :: es, a, b => ∃ c, a.Meets e c ∧ Plays es c b

/-- One run of events after another. -/
theorem plays_append {es fs : List Event} {a b : Sensor} :
    Sensor.Plays (es ++ fs) a b ↔ ∃ c, Sensor.Plays es a c ∧ Sensor.Plays fs c b := by
  induction es generalizing a with
  | nil => simp [Sensor.Plays]
  | cons e es ih =>
    simp only [List.cons_append, Sensor.Plays, ih]
    constructor
    · rintro ⟨c, hc, d, hd, hb⟩
      exact ⟨d, ⟨c, hc, hd⟩, hb⟩
    · rintro ⟨d, ⟨c, hc, hd⟩, hb⟩
      exact ⟨c, hc, d, hd, hb⟩

/-- A piece begun at s is done with value v, and the agent is b after it. -/
def Wire.Gives {α : Type} (m : Wire α) (s : State) (v : α) (b : Sensor) : Prop :=
  ∃ t, m = .done v t ∧ t.sensor = b ∧ t.cfg = s.cfg

theorem Wire.Gives.andThen {α β : Type} {m : Wire α} {k : α → State → Wire β} {s : State} {v : α} {w : β} {b c : Sensor}
    (hm : m.Gives s v c) (hk : ∀ t, t.sensor = c → t.cfg = s.cfg → (k v t).Gives t w b) :
    (m.andThen k).Gives s w b := by
  obtain ⟨t, rfl, hsensor, hcfg⟩ := hm
  obtain ⟨u, hu, hb, hcfg'⟩ := hk t hsensor hcfg
  exact ⟨u, hu, hb, hcfg'.trans hcfg⟩

/-! ## The pieces of a transaction -/

section
variable {s : State} {b : Sensor}

/-- No sampled level and no wait is seen by an agent. -/
theorem observe_sample (a : Sensor) (v : Bool) : a.observe (.sample v) = a := by
  cases a <;> rfl

theorem observe_waitSda (a : Sensor) : a.observe .waitSda = a := by
  cases a <;> rfl

theorem sclRel_gives (h : s.sensor.Meets .sclRel b) : (sclRel s).Gives s () b := by
  have hanswer : (s.sensor.observe .sclRel).answer s.drawn .sclHigh = (true, b) := h s.drawn
  refine ⟨{ s with sclDrv := .rel, trace := s.trace ++ [.sclRel], sensor := b, drawn := s.drawn + 1 }, ?_, rfl, rfl⟩
  simp only [sclRel, State.emit, State.drawBus, hanswer, if_true]

theorem sample_gives {v : Bool} (h : s.sensor.Meets (.sample v) b) : (sample s).Gives s v b := by
  have hanswer : s.sensor.answer s.drawn .sdaLevel = (v, b) := h s.drawn
  refine ⟨{ s with trace := s.trace ++ [.sample v], sensor := b, drawn := s.drawn + 1 }, ?_, rfl, rfl⟩
  simp only [sample, State.emit, State.drawBus, hanswer, observe_sample]

theorem waitSdaHigh_gives (h : s.sensor.Meets .waitSda b) : (waitSdaHigh s).Gives s () b := by
  have hanswer : s.sensor.answer s.drawn .sdaHigh = (true, b) := h s.drawn
  refine ⟨{ s with trace := s.trace ++ [.waitSda], sensor := b, drawn := s.drawn + 1 }, ?_, rfl, rfl⟩
  simp only [waitSdaHigh, State.emit, State.drawBus, hanswer, observe_waitSda, if_true]

theorem busStart_gives (h : Sensor.Plays startEvents s.sensor b) : (busStart s).Gives s () b := by
  obtain ⟨_, rfl, c, hscl, d, hwait, _, rfl, _, rfl, rfl⟩ := h
  refine (sclRel_gives (s := sdaRel s) hscl).andThen (s := s) fun t ht _ => ?_
  refine (waitSdaHigh_gives (ht ▸ hwait)).andThen fun u hu _ => ?_
  subst hu
  exact ⟨_, rfl, rfl, rfl⟩

theorem busStop_gives (h : Sensor.Plays stopEvents s.sensor b) : (busStop s).Gives s () b := by
  obtain ⟨_, rfl, c, hscl, _, rfl, rfl⟩ := h
  refine (sclRel_gives (s := sdaLow s) hscl).andThen (s := s) fun t ht _ => ?_
  subst ht
  exact ⟨_, rfl, rfl, rfl⟩

theorem sendBit_gives {x : Bool} (h : Sensor.Plays (bitEvents x) s.sensor b) : (sendBit x s).Gives s () b := by
  obtain ⟨c, hsda, d, hscl, _, rfl, rfl⟩ := h
  have hlow : ∀ t : State, t.sensor = d → (Wire.done () (sclLow t)).Gives t () (d.observe .sclLo) := by
    rintro t rfl
    exact ⟨_, rfl, rfl, rfl⟩
  cases x with
  | false =>
    obtain rfl : c = s.sensor.observe .sdaLo := hsda
    exact (sclRel_gives (s := sdaLow s) hscl).andThen (s := s) fun t ht _ => hlow t ht
  | true =>
    obtain rfl : c = s.sensor.observe .sdaRel := hsda
    exact (sclRel_gives (s := sdaRel s) hscl).andThen (s := s) fun t ht _ => hlow t ht

theorem sendBits_gives {bs : List Bool} (h : Sensor.Plays (bs.flatMap bitEvents) s.sensor b) :
    (sendBits bs s).Gives s () b := by
  induction bs generalizing s with
  | nil => exact ⟨s, rfl, h.symm, rfl⟩
  | cons x bs ih =>
    obtain ⟨c, hx, hbs⟩ := plays_append.mp h
    exact (sendBit_gives hx).andThen fun t ht _ => ih (ht ▸ hbs)

theorem getAck_gives {nack : Bool} (h : Sensor.Plays [.sdaRel, .sclRel, .sample nack, .sclLo] s.sensor b) :
    (getAck s).Gives s nack b := by
  obtain ⟨_, rfl, c, hscl, d, hsample, _, rfl, rfl⟩ := h
  refine (sclRel_gives (s := sdaRel s) hscl).andThen (s := s) fun t ht _ => ?_
  refine (sample_gives (ht ▸ hsample)).andThen fun u hu _ => ?_
  subst hu
  exact ⟨_, rfl, rfl, rfl⟩

theorem sendByte_gives {v : Byte} {nack : Bool} (h : Sensor.Plays (sentByteEvents v nack) s.sensor b) :
    (sendByte v s).Gives s nack b := by
  obtain ⟨c, hbits, hack⟩ := plays_append.mp h
  exact (sendBits_gives hbits).andThen fun t ht _ => getAck_gives (ht ▸ hack)

theorem sendAck_gives {ack : Bool} (h : Sensor.Plays (ackEvents ack) s.sensor b) : (sendAck ack s).Gives s () b := by
  obtain ⟨c, hsda, d, hscl, _, rfl, _, rfl, rfl⟩ := h
  have hlow : ∀ t : State, t.sensor = d →
      (Wire.done () (sdaRel (sclLow t))).Gives t () ((d.observe .sclLo).observe .sdaRel) := by
    rintro t rfl
    exact ⟨_, rfl, rfl, rfl⟩
  cases ack with
  | false =>
    obtain rfl : c = s.sensor.observe .sdaRel := hsda
    exact (sclRel_gives (s := sdaRel s) hscl).andThen (s := s) fun t ht _ => hlow t ht
  | true =>
    obtain rfl : c = s.sensor.observe .sdaLo := hsda
    exact (sclRel_gives (s := sdaLow s) hscl).andThen (s := s) fun t ht _ => hlow t ht

theorem recvBits_gives {bs : List Bool} {v : Nat} (h : Sensor.Plays (bs.flatMap inBitEvents) s.sensor b) :
    (recvBits bs.length v s).Gives s (bs.foldl (fun v x => 2 * v + x.toNat) v) b := by
  induction bs generalizing s v with
  | nil => exact ⟨s, rfl, h.symm, rfl⟩
  | cons x bs ih =>
    obtain ⟨_, ⟨c, hscl, d, hsample, _, rfl, rfl⟩, hbs⟩ := plays_append.mp h
    rw [List.length_cons, recvBits]
    refine (sclRel_gives hscl).andThen fun t ht _ => ?_
    refine (sample_gives (ht ▸ hsample)).andThen fun u hu _ => ?_
    subst hu
    exact ih (s := sclLow u) hbs

theorem recvByte_gives {v : Byte} (h : Sensor.Plays (gotByteEvents v) s.sensor b) : (recvByte s).Gives s v b := by
  obtain ⟨_, rfl, hbits⟩ := h
  have hbyte := recvBits_gives (s := sdaRel s) (bs := bitsMsbFirst v) (v := 0) hbits
  refine hbyte.andThen (s := s) fun t ht _ => ?_
  rw [bitsMsbFirst_byte]
  exact ⟨t, rfl, ht, rfl⟩

/-- The bytes of a write, each ACKed. -/
theorem sendBytes_gives {k : Nat} {bytes : List Byte}
    (h : Sensor.Plays (busTrace (bytes.map fun v => .wrote v false)) s.sensor b) : (sendBytes k bytes s).Gives s none b := by
  induction bytes generalizing s k with
  | nil => exact ⟨s, rfl, h.symm, rfl⟩
  | cons v bytes ih =>
    obtain ⟨c, hv, hbytes⟩ := plays_append.mp h
    exact (sendByte_gives hv).andThen fun t ht _ => ih (ht ▸ hbytes)

/-- The acknowledgment after the last byte of a read (R196). -/
theorem finalAck_gives (h : Sensor.Plays ((finalMark s.par.readFinalAck).elim [] ackEvents) s.sensor b) :
    (finalAck s).Gives s () b := by
  rw [finalAck]
  cases hfinal : s.par.readFinalAck with
  | ackAll =>
    rw [hfinal] at h
    exact sendAck_gives h
  | nackLast =>
    rw [hfinal] at h
    exact sendAck_gives h
  | omitLast =>
    rw [hfinal] at h
    exact ⟨s, rfl, h.symm, rfl⟩

theorem events_got (v : Byte) (ack : Option Bool) :
    (BusToken.got v ack).events = gotByteEvents v ++ ack.elim [] ackEvents := by
  cases ack with
  | none => exact (List.append_nil _).symm
  | some ack => rfl

/-- The bytes of a read, with their acknowledgments (R195). -/
theorem recvBytes_gives {vs : List Byte}
    (h : Sensor.Plays (busTrace (gotTokens s.par.readFinalAck vs)) s.sensor b) : (recvBytes vs.length s).Gives s vs b := by
  induction vs generalizing s with
  | nil => exact ⟨s, rfl, h.symm, rfl⟩
  | cons v vs ih =>
    rw [List.length_cons, recvBytes]
    cases vs with
    | nil =>
      rw [gotTokens, busTrace_cons, busTrace_nil, List.append_nil, events_got] at h
      obtain ⟨c, hv, hack⟩ := plays_append.mp h
      refine (recvByte_gives hv).andThen fun t ht hcfg => ?_
      subst ht
      have hpar : t.par = s.par := congrArg Subtype.val hcfg
      rw [if_pos List.length_nil]
      refine (finalAck_gives (hpar ▸ hack)).andThen fun u hu _ => ?_
      exact ⟨u, rfl, hu, rfl⟩
    | cons w ws =>
      rw [gotTokens, busTrace_cons, events_got, List.append_assoc] at h
      obtain ⟨c, hv, h⟩ := plays_append.mp h
      obtain ⟨d, hack, hrest⟩ := plays_append.mp h
      refine (recvByte_gives hv).andThen fun t ht hcfg => ?_
      rw [if_neg (by simp)]
      refine (sendAck_gives (ht ▸ hack)).andThen fun u hu hcfg' => ?_
      have hpar : u.par = s.par := congrArg Subtype.val (hcfg'.trans hcfg)
      refine (ih (s := u) (by rw [hu, hpar]; exact hrest)).andThen fun x hx _ => ?_
      exact ⟨x, rfl, hx, rfl⟩

theorem endTransfer_gives {hold : Bool} (h : Sensor.Plays (busTrace (if hold then [] else [.stop])) s.sensor b) :
    (endTransfer hold s).Gives s () b := by
  cases hold with
  | true => exact ⟨_, rfl, h.symm, rfl⟩
  | false =>
    rw [if_neg Bool.false_ne_true, busTrace_cons, busTrace_nil, List.append_nil] at h
    exact busStop_gives h

/-! ## Transactions -/

/-- The agent answers as in a write that is ACKed throughout (R193). -/
theorem busWrite_plays {a : Word} {bytes : List Byte} {hold : Bool}
    (h : Sensor.Plays (busTrace (writeTokens (addressByte a false) bytes hold)) (lazyInit s).sensor b) :
    (busWrite a bytes hold s).1 = ⟨.ok, []⟩ ∧ (busWrite a bytes hold s).2.sensor = b := by
  have hwire : (busWriteWire a bytes hold s).Gives (lazyInit s) ⟨.ok, []⟩ b := by
    rw [writeTokens, busTrace_append, busTrace_cons, busTrace_cons, List.append_assoc, List.append_assoc] at h
    obtain ⟨_, hstart, h⟩ := plays_append.mp h
    obtain ⟨_, haddr, h⟩ := plays_append.mp h
    obtain ⟨_, hbytes, hend⟩ := plays_append.mp h
    refine (busStart_gives hstart).andThen fun t ht _ => ?_
    refine (sendByte_gives (ht ▸ haddr)).andThen fun u hu _ => ?_
    refine (sendBytes_gives (hu ▸ hbytes)).andThen fun x hx _ => ?_
    refine (endTransfer_gives (hx ▸ hend)).andThen fun y hy _ => ?_
    exact ⟨y, rfl, hy, rfl⟩
  obtain ⟨t, ht, hsensor, -⟩ := hwire
  rw [busWrite, ht]
  exact ⟨rfl, hsensor⟩

/-- The agent answers as in a transaction whose address byte is NACKed (R193). -/
theorem busWrite_refused_plays {a : Word} {bytes : List Byte} {hold : Bool}
    (h : Sensor.Plays (busTrace (refusedTokens (addressByte a false))) (lazyInit s).sensor b) :
    (busWrite a bytes hold s).1 = ⟨.nackAddr, []⟩ ∧ (busWrite a bytes hold s).2.sensor = b := by
  have hwire : (busWriteWire a bytes hold s).Gives (lazyInit s) ⟨.nackAddr, []⟩ b := by
    rw [refusedTokens, busTrace_cons, busTrace_cons, busTrace_cons, busTrace_nil, List.append_nil] at h
    obtain ⟨_, hstart, h⟩ := plays_append.mp h
    obtain ⟨_, haddr, hstop⟩ := plays_append.mp h
    refine (busStart_gives hstart).andThen fun t ht _ => ?_
    refine (sendByte_gives (ht ▸ haddr)).andThen fun u hu _ => ?_
    refine (busStop_gives (hu ▸ hstop)).andThen fun x hx _ => ?_
    exact ⟨x, rfl, hx, rfl⟩
  obtain ⟨t, ht, hsensor, -⟩ := hwire
  rw [busWrite, ht]
  exact ⟨rfl, hsensor⟩

/-- The agent answers as in a read of the bytes vs (R195). -/
theorem busRead_plays {a : Word} {vs : List Byte} {hold : Bool}
    (h : Sensor.Plays (busTrace (readTokens s.par.readFinalAck (addressByte a true) vs hold)) (lazyInit s).sensor b) :
    (busRead a vs.length hold s).1 = (.ok, vs) ∧ (busRead a vs.length hold s).2.sensor = b := by
  have hwire : (busReadWire a vs.length hold s).Gives (lazyInit s) (.ok, vs) b := by
    rw [readTokens, busTrace_append, busTrace_cons, busTrace_cons, List.append_assoc, List.append_assoc] at h
    obtain ⟨_, hstart, h⟩ := plays_append.mp h
    obtain ⟨_, haddr, h⟩ := plays_append.mp h
    obtain ⟨_, hbytes, hend⟩ := plays_append.mp h
    refine (busStart_gives hstart).andThen fun t ht hcfg => ?_
    refine (sendByte_gives (ht ▸ haddr)).andThen fun u hu hcfg' => ?_
    have hpar : u.par = s.par :=
      (congrArg Subtype.val (hcfg'.trans hcfg)).trans (lazyInit_spec s).1.par
    refine (recvBytes_gives (s := u) (by rw [hu, hpar]; exact hbytes)).andThen fun x hx _ => ?_
    refine (endTransfer_gives (hx ▸ hend)).andThen fun y hy _ => ?_
    exact ⟨y, rfl, hy, rfl⟩
  obtain ⟨t, ht, hsensor, -⟩ := hwire
  rw [busRead, ht]
  exact ⟨rfl, hsensor⟩

end

/-! ## No target (R251) -/

/-- With no target on the bus every level reads high. -/
theorem absent_plays {es : List Event} (h : ∀ v, .sample v ∈ es → v = true) : Sensor.Plays es .absent .absent := by
  induction es with
  | nil => rfl
  | cons e es ih =>
    refine ⟨.absent, ?_, ih fun v hv => h v (List.mem_cons_of_mem e hv)⟩
    cases e with
    | sample v =>
      obtain rfl := h v List.mem_cons_self
      exact fun _ => rfl
    | sclRel => exact fun _ => rfl
    | waitSda => exact fun _ => rfl
    | _ => rfl

/-- The one level sampled in a refused transaction is the NACK. -/
theorem sample_mem_refused {addr : Byte} {v : Bool} (h : .sample v ∈ busTrace (refusedTokens addr)) : v = true := by
  have hbits : ∀ bs : List Bool, .sample v ∉ bs.flatMap bitEvents := by
    intro bs hmem
    obtain ⟨x, -, hx⟩ := List.mem_flatMap.mp hmem
    cases x <;> simp [bitEvents] at hx
  simpa [refusedTokens, BusToken.events, startEvents, stopEvents, sentByteEvents, hbits] using h

theorem lazyInit_sensor_absent {s : State} (h : s.sensor = .absent) : (lazyInit s).sensor = .absent := by
  rw [lazyInit]
  split
  · exact h
  · show (s.sensor.observe .sdaRel).observe .sclRel = .absent
    rw [h]
    rfl

/-- Against no target a write is refused, and the bus stays initialised (R233). -/
theorem busWrite_absent (a : Word) (bytes : List Byte) (hold : Bool) {s : State} (h : s.sensor = .absent) :
    (busWrite a bytes hold s).1.status = .nackAddr ∧ (busWrite a bytes hold s).2.sensor = .absent ∧
    (busWrite a bytes hold s).2.busInit = true ∧ (busWrite a bytes hold s).2.trace =
      s.trace ++ busTrace (lazyTokens s ++ refusedTokens (addressByte a false)) := by
  obtain ⟨hr, hsensor⟩ := busWrite_refused_plays (s := s) (a := a) (bytes := bytes) (hold := hold) (b := .absent)
    (by rw [lazyInit_sensor_absent h]; exact absent_plays fun v => sample_mem_refused)
  refine ⟨by rw [hr], hsensor, ?_⟩
  obtain ⟨-, hinit, -, ⟨hok, -⟩ | ⟨-, htrace, -⟩ | ⟨k, -, hk, -⟩⟩ | ⟨htimeout, -⟩ := busWrite_ends a bytes hold s
  · rw [hr] at hok
    cases hok
  · exact ⟨hinit, htrace⟩
  · rw [hr] at hk
    cases hk
  · rw [hr] at htimeout
    cases htimeout

/-! ## A target that holds SDA low (R251) -/

theorem lazyInit_sensor_stuck {s : State} (h : s.sensor = .stuck) : (lazyInit s).sensor = .stuck := by
  rw [lazyInit]
  split
  · exact h
  · show (s.sensor.observe .sdaRel).observe .sclRel = .stuck
    rw [h]
    rfl

/-- Against it no start finds SDA free (R184). -/
theorem busStart_stuckTarget {s : State} (h : s.sensor = .stuck) :
    ∃ u, busStart s = .timedOut u ∧ u.sensor = .stuck ∧ u.busInit = false := by
  have hrel : (sdaRel s).sensor = .stuck := by
    show s.sensor.observe .sdaRel = .stuck
    rw [h]
    rfl
  obtain ⟨t, ht, hsensor, -⟩ := sclRel_gives (s := sdaRel s) (b := .stuck) (by rw [hrel]; exact fun _ => rfl)
  rw [busStart, ht]
  refine ⟨busAbort ((t.drawBus .sdaHigh).2.emit .waitSda), ?_, ?_, rfl⟩
  · simp [Wire.andThen, waitSdaHigh, State.drawBus, hsensor, Sensor.answer]
  · simp [busAbort, State.emit, State.drawBus, hsensor, Sensor.answer, Sensor.observe]

theorem busWrite_stuckTarget (a : Word) (bytes : List Byte) (hold : Bool) {s : State} (h : s.sensor = .stuck) :
    (busWrite a bytes hold s).1.status = .timeout ∧ (busWrite a bytes hold s).2.sensor = .stuck ∧
    (busWrite a bytes hold s).2.busInit = false := by
  obtain ⟨u, hstart, hsensor, hinit⟩ := busStart_stuckTarget (lazyInit_sensor_stuck h)
  rw [busWrite_of_start_timedOut hstart]
  exact ⟨rfl, hsensor, hinit⟩

/-! ## The retry loop against them -/

/-- A transaction that does what a write does and fails when the write fails. -/
def StartsWithWrite (tx : State → Reply × State) (a : Word) : Prop :=
  ∃ bytes hold, ∀ s, (busWrite a bytes hold s).1.status ≠ .ok →
    (tx s).1.status = (busWrite a bytes hold s).1.status ∧ (tx s).2 = (busWrite a bytes hold s).2

theorem txReadWords_startsWithWrite (a start count : Word) : StartsWithWrite (txReadWords a start count) a := by
  refine ⟨[hi start, lo start], true, fun s hfail => ?_⟩
  rw [txReadWords, if_pos hfail]
  exact ⟨rfl, rfl⟩

theorem txWriteWord_startsWithWrite (a addr value : Word) : StartsWithWrite (txWriteWord a addr value) a :=
  ⟨[hi addr, lo addr, hi value, lo value], false, fun _ _ => ⟨rfl, rfl⟩⟩

/-- Attempts that all fail with one status. -/
theorem retry_of_failing {tx : State → Reply × State} (htx : ∀ s, (tx s).2.par = s.par) {s : State} {status : Status}
    (hne : status ≠ .ok) (hfail : ∀ k, (tx (attemptStart tx k s)).1.status = status) :
    ∃ m, s.par.maxAttempts = m + 1 ∧ retry tx s =
      (⟨.retryExhausted, [status.word, attemptsWord s.par.maxAttempts]⟩, (tx (attemptStart tx m s)).2) := by
  obtain ⟨m, hm⟩ := Nat.exists_eq_add_of_le' (show 1 ≤ s.par.maxAttempts from board_maxAttempts s.cfg)
  refine ⟨m, hm, ?_⟩
  have h := retryLoop_attemptsEnd htx m .ok s
  rw [← hm] at h
  obtain ⟨k, -, -, hok, -⟩ | ⟨-, hr⟩ := h
  · exact absurd (hfail k ▸ hok) hne
  · rw [hfail m] at hr
    exact hr

/-- One more refused attempt, at the end of the trace. -/
theorem refusedAttempts_succ (addr : Byte) (k : Nat) :
    refusedAttempts addr (k + 2) = refusedAttempts addr (k + 1) ++ .init :: refusedTokens addr := by
  induction k with
  | zero => rfl
  | succ k ih =>
    have hcons : ∀ n, refusedAttempts addr (n + 2) = refusedTokens addr ++ .init :: refusedAttempts addr (n + 1) :=
      fun _ => rfl
    calc refusedAttempts addr (k + 3)
      _ = refusedTokens addr ++ .init :: (refusedAttempts addr (k + 1) ++ .init :: refusedTokens addr) := by
        rw [hcons (k + 1), ih]
      _ = refusedAttempts addr (k + 2) ++ .init :: refusedTokens addr := by
        rw [hcons k, List.append_assoc, List.cons_append]

section
variable {tx : State → Reply × State} {a : Word} {s : State}

/-- Attempt k + 1 against no target. -/
theorem attempt_absent (htx : StartsWithWrite tx a) (h : s.sensor = .absent) (k : Nat) :
    (tx (attemptStart tx k s)).1.status = .nackAddr ∧ (tx (attemptStart tx k s)).2.sensor = .absent ∧
    (tx (attemptStart tx k s)).2.trace =
      s.trace ++ busTrace (lazyTokens s ++ refusedAttempts (addressByte a false) (k + 1)) := by
  obtain ⟨bytes, hold, htx⟩ := htx
  have hattempt : ∀ u : State, u.sensor = .absent → (tx u).1.status = .nackAddr ∧ (tx u).2.sensor = .absent ∧
      (tx u).2.trace = u.trace ++ busTrace (lazyTokens u ++ refusedTokens (addressByte a false)) := by
    intro u hu
    obtain ⟨hstatus, hsensor, -, htrace⟩ := busWrite_absent a bytes hold hu
    obtain ⟨hr, ht⟩ := htx u (by rw [hstatus]; decide)
    rw [hr, ht]
    exact ⟨hstatus, hsensor, htrace⟩
  induction k with
  | zero => exact hattempt s h
  | succ k ih =>
    obtain ⟨-, hsensor, htrace⟩ := ih
    have hinit : (initBus (tx (attemptStart tx k s)).2).sensor = .absent := by
      show ((tx (attemptStart tx k s)).2.sensor.observe .sdaRel).observe .sclRel = .absent
      rw [hsensor]
      rfl
    obtain ⟨hstatus', hsensor', htrace'⟩ := hattempt (initBus (tx (attemptStart tx k s)).2) hinit
    refine ⟨hstatus', hsensor', ?_⟩
    rw [attemptStart, htrace', (initBus_spec _).2.1, htrace, refusedAttempts_succ]
    simp [lazyTokens, busTrace_append, initBus, BusToken.events]

/-- Attempt k + 1 against a target that holds SDA low. -/
theorem attempt_stuck (htx : StartsWithWrite tx a) (h : s.sensor = .stuck) (k : Nat) :
    (tx (attemptStart tx k s)).1.status = .timeout ∧ (tx (attemptStart tx k s)).2.sensor = .stuck ∧
    (tx (attemptStart tx k s)).2.busInit = false := by
  obtain ⟨bytes, hold, htx⟩ := htx
  have hattempt : ∀ u : State, u.sensor = .stuck → (tx u).1.status = .timeout ∧ (tx u).2.sensor = .stuck ∧
      (tx u).2.busInit = false := by
    intro u hu
    obtain ⟨hstatus, hends⟩ := busWrite_stuckTarget a bytes hold hu
    obtain ⟨hr, ht⟩ := htx u (by rw [hstatus]; decide)
    rw [hr, ht]
    exact ⟨hstatus, hends⟩
  induction k with
  | zero => exact hattempt s h
  | succ k ih =>
    obtain ⟨-, hsensor, -⟩ := ih
    refine hattempt (initBus (tx (attemptStart tx k s)).2) ?_
    show ((tx (attemptStart tx k s)).2.sensor.observe .sdaRel).observe .sclRel = .stuck
    rw [hsensor]
    rfl

/-- What the second word of ERR_RETRY_EXHAUSTED is where the parameter fits a u16 (log 7). -/
theorem attemptsWord_of_le {n : Nat} (h : n ≤ 65535) : attemptsWord n = wordOfNat n := if_pos h

/-- A REG command against no target, or against a stuck one. -/
theorem reg_againstDeadBus {i : Instr} (htx : StartsWithWrite tx a) (hpar : ∀ s, (tx s).2.par = s.par)
    (hreplies : (retry tx s).2.replies = s.replies)
    (hexec : exec i s = .next ((retry tx s).2.reply (retry tx s).1)) :
    (s.sensor = .absent → ∃ t w, exec i s = .next t ∧
      t.replies = s.replies ++ [⟨.retryExhausted, [0xFFFF#16, w]⟩] ∧
      (s.par.maxAttempts ≤ 65535 → w = wordOfNat s.par.maxAttempts) ∧
      t.trace = s.trace ++ busTrace (lazyTokens s ++ refusedAttempts (addressByte a false) s.par.maxAttempts)) ∧
    (s.sensor = .stuck → ∃ t w, exec i s = .next t ∧
      t.replies = s.replies ++ [⟨.retryExhausted, [0xFFFD#16, w]⟩] ∧
      (s.par.maxAttempts ≤ 65535 → w = wordOfNat s.par.maxAttempts) ∧ t.busInit = false) := by
  refine ⟨fun h => ?_, fun h => ?_⟩
  · obtain ⟨m, hm, hr⟩ := retry_of_failing hpar (s := s) (status := .nackAddr) (by decide)
      fun k => (attempt_absent htx h k).1
    obtain ⟨-, -, htrace⟩ := attempt_absent htx h m
    refine ⟨_, _, hexec, ?_, attemptsWord_of_le, ?_⟩
    · rw [reply_replies, hreplies, hr]
      rfl
    · rw [reply_trace, hr, hm]
      exact htrace
  · obtain ⟨m, hm, hr⟩ := retry_of_failing hpar (s := s) (status := .timeout) (by decide)
      fun k => (attempt_stuck htx h k).1
    obtain ⟨-, -, hinit⟩ := attempt_stuck htx h m
    refine ⟨_, _, hexec, ?_, attemptsWord_of_le, ?_⟩
    · rw [reply_replies, hreplies, hr]
      rfl
    · rw [hr]
      exact hinit

end

theorem Moved.replies {n : Nat} {s t : State} (h : Moved n s t) : t.replies = s.replies := by
  obtain ⟨honly, -⟩ := h
  rw [OnlyBus] at honly
  rw [honly]

/-- Settles O32: every attempt is refused, or meets a timeout in its start. -/
theorem regAgainstDeadBus : Obligations.RegAgainstDeadBus := by
  intro s i a ha hi
  rw [← addressByte_write a ha]
  obtain ⟨start, count, rfl, hcount⟩ | ⟨addr, value, rfl⟩ := hi
  · exact reg_againstDeadBus (txReadWords_startsWithWrite a start count) (txReadWords_par a start count)
      (retry_txReadWords_ends a start count s).1.replies (exec_regReadw_ok s ha start hcount)
  · exact reg_againstDeadBus (txWriteWord_startsWithWrite a addr value) (txWriteWord_par a addr value)
      (retry_txWriteWord_ends a addr value s).1.replies (exec_regWritew_ok s ha addr value)

end Sys2Proof.Machine
end

section
/-! The reference target (42_register_access.md R250) under the events of a transaction, one piece after the other, and
through REG.WRITEW and REG.READW. -/

namespace Sys2Proof.Machine

/-! ## The lines and the phase of the target -/

/-- The target t seeing SCL at scl and SDA at sda, in phase p. -/
def Target.put (scl sda : Bool) (p : Phase) (t : Target) : Target := { t with scl := scl, sda := sda, phase := p }

/-- The phase after a rise of SCL with SDA at d: a bit is taken in (R250). -/
def Phase.clocked (d : Bool) : Phase → Phase
  | .recvAddr n acc => .recvAddr (n + 1) (2 * acc + d.toNat)
  | .recvData n acc => .recvData (n + 1) (2 * acc + d.toNat)
  | .ignore => .ignore
  | .ackAddr read => .ackAddr read
  | .ackData => .ackData
  | .send b n => .send b n
  | .sendAck => .sendAck

section
variable (t : Target) (scl sda : Bool) (p : Phase)

theorem observe_sdaRel_low : (t.put false sda p).observe .sdaRel = t.put false true p := rfl

theorem observe_sclRel_low : (t.put false sda p).observe .sclRel = t.put true sda (p.clocked sda) := by
  cases p <;> rfl

/-- SDA rising while SCL is high is a stop, SDA that stays high is nothing. -/
theorem observe_sdaRel_high : (t.put true sda p).observe .sdaRel = t.put true true (if sda then p else .ignore) := by
  cases sda <;> rfl

theorem observe_sclRel_high : (t.put true sda p).observe .sclRel = t.put true sda p := rfl

/-- The target after both lines are released, whatever they were: its lines and its phase apart it is as before. -/
theorem exists_observe_release : ∃ q, (t.observe .sdaRel).observe .sclRel = t.put true true q := by
  have hself : t = t.put t.scl t.sda t.phase := rfl
  rw [hself]
  cases t.scl with
  | false => exact ⟨_, by rw [observe_sdaRel_low, observe_sclRel_low]; rfl⟩
  | true => exact ⟨_, by rw [observe_sdaRel_high, observe_sclRel_high]; rfl⟩

end

section
variable {t : Target} (hstretch : t.stretch = 0)
include hstretch

/-- A target that does not stretch lets a released clock read high. -/
theorem meets_sclRel : (Sensor.device t).Meets .sclRel (.device (t.observe .sclRel)) := by
  have hkeeps : (t.observe .sclRel).stretch = 0 := by
    rw [← hstretch]
    show (if t.scl then t else t.rise).stretch = t.stretch
    rw [Target.rise]
    split
    · rfl
    · dsimp only
      split <;> rfl
  intro n
  show (if (t.observe .sclRel).stretch = 0 then _ else _) = _
  rw [if_pos hkeeps]

/-- A released clock, from low. -/
theorem meets_sclRel_low (sda : Bool) (p : Phase) :
    (Sensor.device (t.put false sda p)).Meets .sclRel (.device (t.put true sda (p.clocked sda))) := by
  rw [← observe_sclRel_low]
  exact meets_sclRel hstretch

end

theorem meets_sample {t : Target} {v : Bool} (h : lineLevel t.sda t.level = v) :
    (Sensor.device t).Meets (.sample v) (.device t) := by
  intro n
  rw [← h]
  rfl

theorem meets_waitSda (t : Target) : (Sensor.device t).Meets .waitSda (.device t) := fun _ => rfl

/-! ## Start and stop (41_transport.md R186, R187) -/

section
variable {t : Target} (hstretch : t.stretch = 0)
include hstretch

/-- A start, whatever the lines were and whatever the target was doing. -/
theorem start_plays : Sensor.Plays startEvents (.device t)
    (.device ({ t with byteIdx := 0, starts := t.starts + 1 }.put false false (.recvAddr 0 0))) := by
  obtain ⟨p, hp⟩ := exists_observe_release t
  have hrel : (t.observe .sdaRel).stretch = 0 := by
    rw [← hstretch]
    show (if t.scl && !t.sda then _ else _ : Target).stretch = t.stretch
    split <;> rfl
  have hscl := meets_sclRel hrel
  rw [hp] at hscl
  exact ⟨_, rfl, _, hscl, _, meets_waitSda _, _, rfl, _, rfl, rfl⟩

/-- A stop, from SCL low. -/
theorem stop_plays (sda : Bool) (p : Phase) : Sensor.Plays stopEvents (.device (t.put false sda p))
    (.device (t.put true true .ignore)) :=
  ⟨_, rfl, _, meets_sclRel_low hstretch false p, _, rfl, rfl⟩

/-! ## A byte to the target (R188) -/

/-- The phase in which the target takes in an address byte, or a data byte. -/
def Phase.recv : Bool → Nat → Nat → Phase
  | true => .recvAddr
  | false => .recvData

/-- What the target makes of a whole address byte, or data byte. -/
def Target.took (address : Bool) (v : Nat) (t : Target) : Target :=
  if address then t.addressed v else t.written (BitVec.ofNat 8 v)

theorem bit_plays {address : Bool} {n acc : Nat} (hn : n ≠ 7) (sda x : Bool) :
    Sensor.Plays (bitEvents x) (.device (t.put false sda (.recv address n acc)))
      (.device (t.put false x (.recv address (n + 1) (2 * acc + x.toNat)))) := by
  have hfall : n + 1 ≠ 8 := by omega
  refine ⟨.device (t.put false x (.recv address n acc)), by cases x <;> rfl, _, meets_sclRel_low hstretch x _, _, rfl, ?_⟩
  cases address <;>
    simp [Sensor.Plays, Sensor.observe, Target.observe, Target.put, Target.fall, Phase.recv, Phase.clocked, hfall]

theorem lastBit_plays {address : Bool} {acc : Nat} (sda x : Bool) :
    Sensor.Plays (bitEvents x) (.device (t.put false sda (.recv address 7 acc)))
      (.device ((t.put false x (.recv address 8 (2 * acc + x.toNat))).took address (2 * acc + x.toNat))) := by
  refine ⟨.device (t.put false x (.recv address 7 acc)), by cases x <;> rfl, _, meets_sclRel_low hstretch x _, _, rfl, ?_⟩
  cases address <;>
    simp [Sensor.Plays, Sensor.observe, Target.observe, Target.put, Target.fall, Phase.recv, Phase.clocked, Target.took]

theorem bits_plays {address : Bool} {bs : List Bool} {n acc : Nat} (hne : bs ≠ []) (hn : n + bs.length = 8) (sda : Bool) :
    ∃ x v, v = bs.foldl (fun v x => 2 * v + x.toNat) acc ∧
      Sensor.Plays (bs.flatMap bitEvents) (.device (t.put false sda (.recv address n acc)))
        (.device ((t.put false x (.recv address 8 v)).took address v)) := by
  induction bs generalizing n acc sda with
  | nil => exact absurd rfl hne
  | cons x bs ih =>
    by_cases hlast : bs = []
    · subst hlast
      obtain rfl : n = 7 := by simpa using hn
      refine ⟨x, _, rfl, ?_⟩
      rw [List.flatMap_cons, List.flatMap_nil, List.append_nil]
      exact lastBit_plays hstretch sda x
    · have hpos : bs.length ≠ 0 := mt List.length_eq_zero_iff.mp hlast
      rw [List.length_cons] at hn
      obtain ⟨y, v, hv, hplays⟩ := ih hlast (n := n + 1) (acc := 2 * acc + x.toNat) (by omega) x
      exact ⟨y, v, hv, plays_append.mpr ⟨_, bit_plays hstretch (by omega) sda x, hplays⟩⟩

/-- The acknowledgment the target drives: it ends the byte, and the next phase begins (R250). -/
theorem ack_plays {p q : Phase} (sda : Bool) (hclocked : p.clocked true = p) (hlevel : (t.put true true p).level = false)
    (hfall : (t.put true true p).fall = t.put false true q) :
    Sensor.Plays [.sdaRel, .sclRel, .sample false, .sclLo] (.device (t.put false sda p)) (.device (t.put false true q)) := by
  have hscl := meets_sclRel_low hstretch true p
  rw [hclocked] at hscl
  have hsample : lineLevel (t.put true true p).sda (t.put true true p).level = false := by
    rw [hlevel]
    rfl
  refine ⟨_, rfl, _, hscl, _, meets_sample hsample, _, rfl, ?_⟩
  rw [← hfall]
  rfl

/-- A whole byte that the target takes in and acknowledges. -/
theorem sentByte_plays {address : Bool} {u : Target} {p q : Phase} {v : Byte} (sda : Bool) (hu : u.stretch = 0)
    (htook : ∀ x, (t.put false x (.recv address 8 v.toNat)).took address v.toNat = u.put false x p)
    (hclocked : p.clocked true = p) (hlevel : (u.put true true p).level = false)
    (hfall : (u.put true true p).fall = u.put false true q) :
    Sensor.Plays (sentByteEvents v false) (.device (t.put false sda (.recv address 0 0))) (.device (u.put false true q)) := by
  obtain ⟨x, n, hn, hbits⟩ := bits_plays hstretch (address := address) (bs := bitsMsbFirst v) (n := 0) (acc := 0)
    (by simp [bitsMsbFirst]) rfl sda
  rw [bitsMsbFirst_value] at hn
  subst hn
  rw [htook x] at hbits
  exact plays_append.mpr ⟨_, hbits, ack_plays hu x hclocked hlevel hfall⟩

/-- The address byte of the target, with the bit for a write (R250). -/
theorem addressWrite_plays {v : Byte} (haddr : v.toNat / 2 = t.addr.toNat) (heven : v.toNat % 2 = 0)
    (hbusy : t.busy < t.starts) (sda : Bool) :
    Sensor.Plays (sentByteEvents v false) (.device (t.put false sda (.recvAddr 0 0)))
      (.device (t.put false true (.recvData 0 0))) := by
  refine sentByte_plays hstretch (address := true) (p := .ackAddr false) sda hstretch (fun x => ?_) rfl rfl rfl
  simp [Target.took, Target.addressed, Target.put, haddr, hbusy, heven]

/-- The address byte of the target, with the bit for a read (R250). -/
theorem addressRead_plays {v : Byte} (haddr : v.toNat / 2 = t.addr.toNat) (hodd : v.toNat % 2 = 1)
    (hbusy : t.busy < t.starts) (sda : Bool) :
    Sensor.Plays (sentByteEvents v false) (.device (t.put false sda (.recvAddr 0 0)))
      (.device (t.put false true (.send t.readByte 0))) := by
  refine sentByte_plays hstretch (address := true) (p := .ackAddr true) sda hstretch (fun x => ?_) rfl rfl rfl
  simp [Target.took, Target.addressed, Target.put, haddr, hbusy, hodd]

end

/-! ## What the target makes of a data byte (R250) -/

section
variable {t : Target} (hnack : t.nackByte = none) (b : Byte)
include hnack

theorem written_zero (h : t.byteIdx = 0) :
    t.written b = { t with ptr := cat b (lo t.ptr), byteIdx := 1, phase := .ackData } := by
  simp [Target.written, hnack, h]

theorem written_one (h : t.byteIdx = 1) :
    t.written b = { t with ptr := cat (hi t.ptr) b, byteIdx := 2, phase := .ackData } := by
  simp [Target.written, hnack, h]

theorem written_high (h : 2 ≤ t.byteIdx) (heven : t.byteIdx % 2 = 0) :
    t.written b = { t with hiLatch := b, byteIdx := t.byteIdx + 1, phase := .ackData } := by
  have h0 : t.byteIdx ≠ 0 := by omega
  have h1 : t.byteIdx ≠ 1 := by omega
  simp [Target.written, hnack, h0, h1, heven]

theorem written_low (h : 2 ≤ t.byteIdx) (hodd : t.byteIdx % 2 ≠ 0) :
    t.written b = { t with mem := t.mem.write 0#16 t.ptr.toNat (cat t.hiLatch b), ptr := t.ptr + 1#16,
                           byteIdx := t.byteIdx + 1, phase := .ackData } := by
  have h0 : t.byteIdx ≠ 0 := by omega
  have h1 : t.byteIdx ≠ 1 := by omega
  simp [Target.written, hnack, h0, h1, hodd]

/-- Neither the lines nor the phase matter to a data byte, and it leaves the lines. -/
theorem written_put (scl sda : Bool) (p : Phase) : (t.put scl sda p).written b = (t.written b).put scl sda .ackData := by
  have hput : (t.put scl sda p).nackByte = none := hnack
  by_cases h0 : t.byteIdx = 0
  · rw [written_zero hnack b h0, written_zero hput b h0]
    rfl
  by_cases h1 : t.byteIdx = 1
  · rw [written_one hnack b h1, written_one hput b h1]
    rfl
  have h2 : 2 ≤ t.byteIdx := by omega
  by_cases heven : t.byteIdx % 2 = 0
  · rw [written_high hnack b h2 heven, written_high hput b h2 heven]
    rfl
  · rw [written_low hnack b h2 heven, written_low hput b h2 heven]
    rfl

/-- A target without faults stays without them. -/
theorem written_keeps : (t.written b).nackByte = none ∧ (t.written b).stretch = t.stretch := by
  by_cases h0 : t.byteIdx = 0
  · rw [written_zero hnack b h0]
    exact ⟨hnack, rfl⟩
  by_cases h1 : t.byteIdx = 1
  · rw [written_one hnack b h1]
    exact ⟨hnack, rfl⟩
  have h2 : 2 ≤ t.byteIdx := by omega
  by_cases heven : t.byteIdx % 2 = 0
  · rw [written_high hnack b h2 heven]
    exact ⟨hnack, rfl⟩
  · rw [written_low hnack b h2 heven]
    exact ⟨hnack, rfl⟩

end

theorem data_plays {t : Target} (hstretch : t.stretch = 0) (hnack : t.nackByte = none) (sda : Bool) (v : Byte) :
    Sensor.Plays (sentByteEvents v false) (.device (t.put false sda (.recvData 0 0)))
      (.device ((t.written v).put false true (.recvData 0 0))) := by
  obtain ⟨-, hstretch'⟩ := written_keeps hnack v
  refine sentByte_plays hstretch (address := false) (p := .ackData) sda (hstretch'.trans hstretch) (fun x => ?_) rfl rfl rfl
  rw [Target.took, if_neg Bool.false_ne_true, BitVec.ofNat_toNat, BitVec.setWidth_eq]
  exact written_put hnack v false x _

/-- The data bytes of a write. -/
theorem dataBytes_plays {t : Target} (hstretch : t.stretch = 0) (hnack : t.nackByte = none) (bytes : List Byte) :
    Sensor.Plays (busTrace (bytes.map fun v => .wrote v false)) (.device (t.put false true (.recvData 0 0)))
      (.device ((bytes.foldl Target.written t).put false true (.recvData 0 0))) := by
  induction bytes generalizing t with
  | nil => rfl
  | cons v bytes ih =>
    obtain ⟨hnack', hstretch'⟩ := written_keeps hnack v
    exact plays_append.mpr ⟨_, data_plays hstretch hnack true v, ih (hstretch'.trans hstretch) hnack'⟩

/-! ## A byte from the target (R189) -/

section
variable {t : Target} (hstretch : t.stretch = 0)
include hstretch

theorem inBit_plays {v : Byte} {n : Nat} (hn : n ≠ 7) : Sensor.Plays (inBitEvents (v.getLsbD (7 - n)))
    (.device (t.put false true (.send v n))) (.device (t.put false true (.send v (n + 1)))) := by
  refine ⟨_, meets_sclRel_low hstretch true _, _, meets_sample ?_, _, rfl, ?_⟩
  · exact Bool.true_and _
  · simp [Sensor.Plays, Sensor.observe, Target.observe, Target.put, Target.fall, Phase.clocked, hn]

theorem lastInBit_plays {v : Byte} : Sensor.Plays (inBitEvents (v.getLsbD 0))
    (.device (t.put false true (.send v 7))) (.device (t.sent.put false true .sendAck)) :=
  ⟨_, meets_sclRel_low hstretch true _, _, meets_sample (Bool.true_and _), _, rfl, rfl⟩

theorem gotByte_plays {v : Byte} (sda : Bool) : Sensor.Plays (gotByteEvents v) (.device (t.put false sda (.send v 0)))
    (.device (t.sent.put false true .sendAck)) := by
  have hbit := fun n (hn : n ≠ 7) => inBit_plays hstretch (v := v) hn
  have hbits : Sensor.Plays ((bitsMsbFirst v).flatMap inBitEvents) (.device (t.put false true (.send v 0)))
      (.device (t.sent.put false true .sendAck)) := by
    simp only [bitsMsbFirst, List.flatMap_cons, List.flatMap_nil, List.append_nil, plays_append]
    exact ⟨_, hbit 0 (by decide), _, hbit 1 (by decide), _, hbit 2 (by decide), _, hbit 3 (by decide), _,
      hbit 4 (by decide), _, hbit 5 (by decide), _, hbit 6 (by decide), lastInBit_plays hstretch⟩
  exact ⟨_, rfl, hbits⟩

/-- An acknowledgment from the block, ACK or NACK: the next byte follows. -/
theorem sentAck_plays (ack : Bool) : Sensor.Plays (ackEvents ack) (.device (t.put false true .sendAck))
    (.device (t.put false true (.send t.readByte 0))) :=
  ⟨.device (t.put false (!ack) .sendAck), by cases ack <;> rfl, _, meets_sclRel_low hstretch _ _, _, rfl, _, rfl, rfl⟩

end

/-! ## Transactions with the target -/

/-- A target at address addr without faults, whose registers are mem and whose pointer is ptr. -/
structure Target.Serves (addr : BitVec 7) (mem : Memory Word) (ptr : Word) (t : Target) : Prop where
  addr_eq : t.addr = addr
  mem_eq : t.mem = mem
  ptr_eq : t.ptr = ptr
  busy_eq : t.busy = 0
  stretch_eq : t.stretch = 0
  nackByte_eq : t.nackByte = none

theorem Target.Serves.put {addr : BitVec 7} {mem : Memory Word} {ptr : Word} {t : Target} (h : t.Serves addr mem ptr)
    (scl sda : Bool) (p : Phase) : (t.put scl sda p).Serves addr mem ptr :=
  ⟨h.addr_eq, h.mem_eq, h.ptr_eq, h.busy_eq, h.stretch_eq, h.nackByte_eq⟩

/-- The target after its start: a new transaction (R250). -/
def Target.restarted (t : Target) : Target := { t with byteIdx := 0, starts := t.starts + 1 }

section
variable {a : Word} {mem : Memory Word} {ptr : Word} {t : Target}

/-- The start and the address byte of a write. -/
theorem openedWrite_plays (h : t.Serves (address7 a) mem ptr) :
    Sensor.Plays (BusToken.start.events ++ (BusToken.wrote (addressByte a false) false).events) (.device t)
      (.device (t.restarted.put false true (.recvData 0 0))) := by
  have htoNat := addressByte_toNat a false
  have haddr : (address7 a).toNat = a.toNat % 128 := by simp [address7]
  refine plays_append.mpr ⟨_, start_plays h.stretch_eq, addressWrite_plays (t := t.restarted) h.stretch_eq ?_ ?_ ?_ false⟩
  · show (addressByte a false).toNat / 2 = t.addr.toNat
    rw [h.addr_eq, haddr, htoNat, Bool.toNat_false]
    omega
  · rw [htoNat, Bool.toNat_false]
    omega
  · show t.busy < t.starts + 1
    rw [h.busy_eq]
    exact Nat.succ_pos _

/-- The start and the address byte of a read. -/
theorem openedRead_plays (h : t.Serves (address7 a) mem ptr) :
    Sensor.Plays (BusToken.start.events ++ (BusToken.wrote (addressByte a true) false).events) (.device t)
      (.device (t.restarted.put false true (.send (hi (mem.read 0#16 ptr.toNat)) 0))) := by
  have htoNat := addressByte_toNat a true
  have haddr : (address7 a).toNat = a.toNat % 128 := by simp [address7]
  have hbyte : t.restarted.readByte = hi (mem.read 0#16 ptr.toNat) := by
    rw [← h.mem_eq, ← h.ptr_eq]
    rfl
  rw [← hbyte]
  refine plays_append.mpr ⟨_, start_plays h.stretch_eq, addressRead_plays (t := t.restarted) h.stretch_eq ?_ ?_ ?_ false⟩
  · show (addressByte a true).toNat / 2 = t.addr.toNat
    rw [h.addr_eq, haddr, htoNat, Bool.toNat_true]
    omega
  · rw [htoNat, Bool.toNat_true]
    omega
  · show t.busy < t.starts + 1
    rw [h.busy_eq]
    exact Nat.succ_pos _

/-- The first two data bytes set the pointer (R250). -/
theorem pointer_written (h : t.Serves (address7 a) mem ptr) (p : Word) :
    ([hi p, lo p].foldl Target.written t.restarted).Serves (address7 a) mem p ∧
      ([hi p, lo p].foldl Target.written t.restarted).byteIdx = 2 := by
  obtain ⟨haddr, hmem, -, hbusy, hstretch, hnack⟩ := h
  rw [List.foldl_cons, List.foldl_cons, List.foldl_nil, written_zero (t := t.restarted) hnack _ rfl,
    written_one (by exact hnack) _ rfl]
  exact ⟨⟨haddr, hmem, by simp [cat_hi_lo], hbusy, hstretch, hnack⟩, rfl⟩

/-- The next two write the register at the pointer (R250). -/
theorem register_written (h : t.Serves (address7 a) mem ptr) (hidx : t.byteIdx = 2) (value : Word) :
    ([hi value, lo value].foldl Target.written t).Serves (address7 a) (mem.write 0#16 ptr.toNat value) (ptr + 1#16) := by
  obtain ⟨haddr, hmem, hptr, hbusy, hstretch, hnack⟩ := h
  rw [List.foldl_cons, List.foldl_cons, List.foldl_nil, written_high hnack _ (by omega) (by omega),
    written_low (by exact hnack) _ (by simp [hidx]) (by simp [hidx])]
  exact ⟨haddr, by simp [cat_hi_lo, hmem, hptr], by simp [hptr], hbusy, hstretch, hnack⟩

/-- The write of REG.WRITEW (R232). -/
theorem writeWord_plays (h : t.Serves (address7 a) mem ptr) (addr value : Word) :
    ∃ u, Sensor.Plays (busTrace (writeTokens (addressByte a false) [hi addr, lo addr, hi value, lo value] false))
      (.device t) (.device u) ∧ u.Serves (address7 a) (mem.write 0#16 addr.toNat value) (addr + 1#16) := by
  obtain ⟨hpointer, hidx⟩ := pointer_written h addr
  have hregister := register_written hpointer hidx value
  have hbytes := dataBytes_plays (t := t.restarted) h.stretch_eq h.nackByte_eq [hi addr, lo addr, hi value, lo value]
  refine ⟨_, ?_, hregister.put true true .ignore⟩
  rw [writeTokens, busTrace_append, busTrace_cons, busTrace_cons, ← List.append_assoc]
  refine plays_append.mpr ⟨_, plays_append.mpr ⟨_, openedWrite_plays h, hbytes⟩, ?_⟩
  rw [if_neg Bool.false_ne_true, busTrace_cons, busTrace_nil, List.append_nil]
  exact stop_plays hregister.stretch_eq true _

/-- The pointer write of REG.READW, with the bus held (R231). -/
theorem writePointer_plays (h : t.Serves (address7 a) mem ptr) (p : Word) :
    ∃ u, Sensor.Plays (busTrace (writeTokens (addressByte a false) [hi p, lo p] true)) (.device t) (.device u) ∧
      u.Serves (address7 a) mem p := by
  obtain ⟨hpointer, -⟩ := pointer_written h p
  have hbytes := dataBytes_plays (t := t.restarted) h.stretch_eq h.nackByte_eq [hi p, lo p]
  refine ⟨_, ?_, hpointer.put false true (.recvData 0 0)⟩
  rw [writeTokens, busTrace_append, busTrace_cons, busTrace_cons, ← List.append_assoc, if_pos rfl, busTrace_nil,
    List.append_nil]
  exact plays_append.mpr ⟨_, openedWrite_plays h, hbytes⟩

/-- The read of one word (R231): the high byte of the register at the pointer, then the low one. -/
theorem readWord_plays (h : t.Serves (address7 a) mem ptr) (f : ReadFinalAck) :
    ∃ u, Sensor.Plays (busTrace (readTokens f (addressByte a true)
      [hi (mem.read 0#16 ptr.toNat), lo (mem.read 0#16 ptr.toNat)] false)) (.device t) (.device u) := by
  have hstretch := h.stretch_eq
  have hlow : t.restarted.sent.readByte = lo (mem.read 0#16 ptr.toNat) := by
    rw [← h.mem_eq, ← h.ptr_eq]
    rfl
  have hfirst := gotByte_plays (t := t.restarted) (v := hi (mem.read 0#16 ptr.toNat)) hstretch true
  have hack := sentAck_plays (t := t.restarted.sent) hstretch true
  rw [hlow] at hack
  have hsecond := gotByte_plays (t := t.restarted.sent) (v := lo (mem.read 0#16 ptr.toNat)) hstretch true
  have hfinal : ∃ p, Sensor.Plays ((finalMark f).elim [] ackEvents)
      (.device (t.restarted.sent.sent.put false true .sendAck)) (.device (t.restarted.sent.sent.put false true p)) := by
    cases finalMark f with
    | none => exact ⟨_, rfl⟩
    | some ack => exact ⟨_, sentAck_plays (t := t.restarted.sent.sent) hstretch ack⟩
  obtain ⟨p, hfinal⟩ := hfinal
  have hstop := stop_plays (t := t.restarted.sent.sent) hstretch true p
  refine ⟨t.restarted.sent.sent.put true true .ignore, ?_⟩
  rw [readTokens, busTrace_append, busTrace_cons, busTrace_cons, ← List.append_assoc, if_neg Bool.false_ne_true]
  simp only [gotTokens, busTrace_cons, busTrace_nil, List.append_nil, events_got]
  refine plays_append.mpr ⟨_, plays_append.mpr ⟨_, openedRead_plays h, ?_⟩, hstop⟩
  exact plays_append.mpr ⟨_, plays_append.mpr ⟨_, hfirst, hack⟩, plays_append.mpr ⟨_, hsecond, hfinal⟩⟩

end

/-! ## The register commands against the target -/

section
variable {a : Word} {mem : Memory Word} {ptr : Word} {s : State}

/-- The target on the bus of s, at the address of the operand a. -/
def State.Reaches (a : Word) (mem : Memory Word) (ptr : Word) (s : State) : Prop :=
  ∃ t : Target, s.sensor = .device t ∧ t.Serves (address7 a) mem ptr

/-- The lazy initialisation moves the lines only. -/
theorem lazyInit_reaches (h : s.Reaches a mem ptr) : (lazyInit s).Reaches a mem ptr := by
  obtain ⟨t, ht, hserves⟩ := h
  rw [lazyInit]
  split
  · exact ⟨t, ht, hserves⟩
  · refine ⟨(t.observe .sdaRel).observe .sclRel, ?_, ?_⟩
    · show (s.sensor.observe .sdaRel).observe .sclRel = _
      rw [ht]
      rfl
    · obtain ⟨p, hp⟩ := exists_observe_release t
      rw [hp]
      exact hserves.put true true p

theorem txWriteWord_target (h : s.Reaches a mem ptr) (addr value : Word) :
    (txWriteWord a addr value s).1 = ⟨.ok, []⟩ ∧
      (txWriteWord a addr value s).2.Reaches a (mem.write 0#16 addr.toNat value) (addr + 1#16) := by
  obtain ⟨t, ht, hserves⟩ := lazyInit_reaches h
  obtain ⟨u, hplays, hu⟩ := writeWord_plays hserves addr value
  obtain ⟨hr, hsensor⟩ := busWrite_plays (ht ▸ hplays)
  rw [txWriteWord]
  exact ⟨by rw [hr], u, hsensor, hu⟩

theorem txReadWords_target (h : s.Reaches a mem ptr) (p : Word) :
    (txReadWords a p 1#16 s).1 = ⟨.ok, [mem.read 0#16 p.toNat]⟩ := by
  obtain ⟨t, ht, hserves⟩ := lazyInit_reaches h
  obtain ⟨u, hplays, hu⟩ := writePointer_plays hserves p
  obtain ⟨hr, hsensor⟩ := busWrite_plays (ht ▸ hplays)
  obtain ⟨t', ht', hserves'⟩ := lazyInit_reaches (s := (busWrite a [hi p, lo p] true s).2) ⟨u, hsensor, hu⟩
  obtain ⟨u', hplays'⟩ := readWord_plays hserves' (busWrite a [hi p, lo p] true s).2.par.readFinalAck
  obtain ⟨hr', -⟩ := busRead_plays (ht' ▸ hplays')
  rw [List.length_cons, List.length_singleton] at hr'
  rw [txReadWords, hr, if_neg (by decide)]
  have hcount : 2 * (1#16 : Word).toNat = 1 + 1 := rfl
  rw [hcount]
  dsimp only
  rw [hr', if_neg (not_not.mpr rfl)]
  simp [packBytes, cat_hi_lo]

end

theorem mk0_serves (addr : BitVec 7) (mem : Memory Word) : (Target.mk0 addr mem 0 0 none).Serves addr mem 0#16 :=
  ⟨rfl, rfl, rfl, rfl, rfl, rfl⟩

/-- Settles O34: one attempt of each command, and the target's memory after the write. -/
theorem targetReadsBackWrites : Obligations.TargetReadsBackWrites := by
  intro s memory a addr value other ha hsensor
  have hstart : s.Reaches a memory 0#16 := ⟨_, hsensor, mk0_serves _ memory⟩
  obtain ⟨hwrite, hreaches⟩ := txWriteWord_target hstart addr value
  have hwriteRetry := retry_of_ok (tx := txWriteWord a addr value) (s := s) (by rw [hwrite])
  have hreplies : (txWriteWord a addr value s).2.replies = s.replies := (txWriteWord_spec a addr value s).1.replies
  rw [← hwriteRetry] at hwrite hreaches hreplies
  have hread := txReadWords_target (s := (retry (txWriteWord a addr value) s).2.reply ⟨.ok, []⟩) hreaches other
  have hreadRetry := retry_of_ok (tx := txReadWords a other 1#16) (by rw [hread])
  refine ⟨_, _, exec_regWritew_ok s ha addr value, ?_, exec_regReadw_ok _ ha other ?_, ?_⟩
  · rw [reply_replies, hreplies, hwrite]
  · exact ⟨le_refl 1, (board_maxReadWords _).1⟩
  · rw [hwrite, reply_replies, hreadRetry, hread, (txReadWords_spec a other 1#16 _).1.replies, Memory.read_write]
    simp only [BitVec.toNat_inj]

end Sys2Proof.Machine
end
